-- ==== Sys2Proof/Word.lean ====
section
/-! DEFINITION. Word types and the pixel-period record (00_scope.md R10, 30_encoding.md R116, R117). -/

namespace Sys2Proof

/-- A request word, command word, data word or audio frame (30_encoding.md R90). -/
abbrev Word := BitVec 32

/-- A framebuffer cell, a channel amplitude or a colour channel (20_memory.md R60). -/
abbrev Byte := BitVec 8

/-- A wire-format sample, the "unit" (30_encoding.md R116). -/
abbrev PixelUnit := BitVec 16

/-- A 10-bit symbol of one lane (30_encoding.md R117). -/
abbrev Symbol := BitVec 10

/-- The logical form of one pixel period (30_encoding.md R117). -/
inductive PixelPeriod where
  | ctrl (vs hs : Bool)
  | video (r g b : Byte)
  deriving DecidableEq, Repr

/-- The wire form of one pixel period: the symbols of lanes 0, 1 and 2 (30_encoding.md R117). -/
structure WireForm where
  sym0 : Symbol
  sym1 : Symbol
  sym2 : Symbol
  deriving DecidableEq, Repr

/-- One record of `OUT`: the logical form with its wire form (43_serializer_tmds.md R203). -/
structure OutRecord where
  period : PixelPeriod
  wire : WireForm
  deriving DecidableEq, Repr

/-- The running disparity of one lane after a symbol, beside the symbol (43_serializer_tmds.md R213). -/
structure Coded where
  sym : Symbol
  cnt : Int
  deriving DecidableEq, Repr

end Sys2Proof
end

