-- ==== Sys2Proof/Syntax.lean ====
section
/-! DEFINITION. The fourteen operations of spec/opcode_table.json (30_encoding.md R99, R111 to R113). -/

namespace Sys2Proof

/-- A framebuffer id, 0 or 1 (30_encoding.md R93). -/
inductive BufId where
  | b0
  | b1
  deriving DecidableEq, Repr

/-- A scaling mode (30_encoding.md R96): 0 = "1:1", 1 = "8:7". -/
inductive ScaleMode where
  | oneToOne
  | eightToSeven
  deriving DecidableEq, Repr

/-- One constructor per row of the opcode table: eleven request words, then three serializer command words.
Payloads are no part of the word (30_encoding.md R97): they stand at the request port. -/
inductive Instr where
  | lineBegin (line : BitVec 9)
  | lineEnd (line : BitVec 9)
  | publish (buf : BufId)
  | frameComplete
  | audCap
  | audEnq (count : BitVec 16)
  | setScale (mode : ScaleMode)
  | acquire
  | release (buf : BufId)
  | audDeq
  | start
  | nop
  | ctrl (vs hs : Bool) (n : BitVec 12)
  | pixels (n : BitVec 12)
  deriving DecidableEq, Repr

/-- The two encoded interfaces (30_encoding.md R90). -/
inductive Interface where
  | req
  | cmd
  deriving DecidableEq, Repr

/-- The interface an operation's word is presented at (the "interface" column of the opcode table). -/
def Instr.interface : Instr → Interface
  | .lineBegin _ => .req
  | .lineEnd _ => .req
  | .publish _ => .req
  | .frameComplete => .req
  | .audCap => .req
  | .audEnq _ => .req
  | .setScale _ => .req
  | .acquire => .req
  | .release _ => .req
  | .audDeq => .req
  | .start => .req
  | .nop => .cmd
  | .ctrl _ _ _ => .cmd
  | .pixels _ => .cmd

end Sys2Proof
end

