-- ==== Sys2Proof/WellFormed.lean ====
section
/-! DEFINITION. Which operand values are legal (30_encoding.md R94, R100, R112 to R114). -/

namespace Sys2Proof

/-- FB_HEIGHT (00_scope.md R6, FIXED). -/
def fbHeight : Nat := 240

/-- The operand values the encoding rules call legal: a format-L line below 240 (R94, R100 (c)); a CTRL or PIXELS
count of 1 to 4095 (R112, R113). Every other operand is legal at every value its field holds. -/
def Instr.wellFormed : Instr → Bool
  | .lineBegin line => decide (line.toNat < fbHeight)
  | .lineEnd line => decide (line.toNat < fbHeight)
  | .publish _ => true
  | .frameComplete => true
  | .audCap => true
  | .audEnq _ => true
  | .setScale _ => true
  | .acquire => true
  | .release _ => true
  | .audDeq => true
  | .start => true
  | .nop => true
  | .ctrl _ _ n => n != 0
  | .pixels n => n != 0

end Sys2Proof
end

