-- ==== Sys2Proof/Decode.lean ====
section
/-! DEFINITION. The decoders of the two interfaces, the encoder, and the opcode table's rows (30_encoding.md). -/

namespace Sys2Proof

/-- Why a word is no legal operation (30_encoding.md R100, R114). -/
inductive Illegal where
  | unknownOp      -- a request whose OP is none of the eleven (R100)
  | reservedBits   -- a must-be-zero bit is 1 (R100, R114)
  | lineRange      -- a format-L line of 240 or more (R100)
  | reservedKind   -- a command KIND of 3 to 15 (R114)
  | zeroCount      -- CTRL or PIXELS with N = 0 (R114)
  deriving DecidableEq, Repr

/-- Bit 0 of a format-B word (30_encoding.md R93). -/
def bufOfBit (x : Bool) : BufId := if x then .b1 else .b0

/-- The bit that encodes a buffer id. -/
def BufId.toBit : BufId → Bool
  | .b0 => false
  | .b1 => true

/-- Bit 0 of a format-M word (30_encoding.md R96). -/
def modeOfBit (x : Bool) : ScaleMode := if x then .eightToSeven else .oneToOne

/-- The bit that encodes a scaling mode. -/
def ScaleMode.toBit : ScaleMode → Bool
  | .oneToOne => false
  | .eightToSeven => true

/-- Format N (30_encoding.md R92). -/
def decodeN (i : Instr) (w : Word) : Except Illegal Instr :=
  if w.extractLsb' 0 24 = 0 then .ok i else .error .reservedBits

/-- Format B (30_encoding.md R93). -/
def decodeB (k : BufId → Instr) (w : Word) : Except Illegal Instr :=
  if w.extractLsb' 1 23 = 0 then .ok (k (bufOfBit (w.getLsbD 0))) else .error .reservedBits

/-- Format L (30_encoding.md R94), with the range of R100 (c). -/
def decodeL (k : BitVec 9 → Instr) (w : Word) : Except Illegal Instr :=
  if w.extractLsb' 9 15 = 0 then
    if (w.extractLsb' 0 9).toNat < fbHeight then .ok (k (w.extractLsb' 0 9)) else .error .lineRange
  else .error .reservedBits

/-- Format C (30_encoding.md R95). -/
def decodeC (k : BitVec 16 → Instr) (w : Word) : Except Illegal Instr :=
  if w.extractLsb' 16 8 = 0 then .ok (k (w.extractLsb' 0 16)) else .error .reservedBits

/-- Format M (30_encoding.md R96). -/
def decodeM (k : ScaleMode → Instr) (w : Word) : Except Illegal Instr :=
  if w.extractLsb' 1 23 = 0 then .ok (k (modeOfBit (w.getLsbD 0))) else .error .reservedBits

/-- The decoder of a request word: OP in bits 31:24 selects the operation and its format (30_encoding.md R91, R99). -/
def decodeReq (w : Word) : Except Illegal Instr :=
  match (w.extractLsb' 24 8).toNat with
  | 0x01 => decodeL .lineBegin w
  | 0x02 => decodeL .lineEnd w
  | 0x03 => decodeB .publish w
  | 0x04 => decodeN .frameComplete w
  | 0x10 => decodeN .audCap w
  | 0x11 => decodeC .audEnq w
  | 0x20 => decodeM .setScale w
  | 0x40 => decodeN .acquire w
  | 0x41 => decodeB .release w
  | 0x50 => decodeN .audDeq w
  | 0x70 => decodeN .start w
  | _ => .error .unknownOp

/-- The decoder of a serializer command word: KIND in bits 31:28 (30_encoding.md R110 to R114). -/
def decodeCmd (w : Word) : Except Illegal Instr :=
  match (w.extractLsb' 28 4).toNat with
  | 0 => if w.extractLsb' 0 28 = 0 then .ok .nop else .error .reservedBits
  | 1 =>
    if w.extractLsb' 12 14 = 0 then
      if w.extractLsb' 0 12 = 0 then .error .zeroCount
      else .ok (.ctrl (w.getLsbD 27) (w.getLsbD 26) (w.extractLsb' 0 12))
    else .error .reservedBits
  | 2 =>
    if w.extractLsb' 12 16 = 0 then
      if w.extractLsb' 0 12 = 0 then .error .zeroCount
      else .ok (.pixels (w.extractLsb' 0 12))
    else .error .reservedBits
  | _ => .error .reservedKind

/-- The decoder of one interface. -/
def decodeAt : Interface → Word → Except Illegal Instr
  | .req, w => decodeReq w
  | .cmd, w => decodeCmd w

/-- A word whose interface is not known: as a request word where it is a legal one, else as a command word (log 24). -/
def decodeWord (w : Word) : Except Illegal Instr :=
  match decodeReq w with
  | .ok i => .ok i
  | .error _ => decodeCmd w

/-- A request word from its OP code and operand field (30_encoding.md R91). -/
def reqWord (op : BitVec 8) (operand : BitVec 24) : Word := op ++ operand

/-- The word of an operation (30_encoding.md R92 to R96, R99, R111 to R113). -/
def encode : Instr → Word
  | .lineBegin line => reqWord 0x01 (0#15 ++ line)
  | .lineEnd line => reqWord 0x02 (0#15 ++ line)
  | .publish buf => reqWord 0x03 (0#23 ++ BitVec.ofBool buf.toBit)
  | .frameComplete => reqWord 0x04 0
  | .audCap => reqWord 0x10 0
  | .audEnq count => reqWord 0x11 (0#8 ++ count)
  | .setScale mode => reqWord 0x20 (0#23 ++ BitVec.ofBool mode.toBit)
  | .acquire => reqWord 0x40 0
  | .release buf => reqWord 0x41 (0#23 ++ BitVec.ofBool buf.toBit)
  | .audDeq => reqWord 0x50 0
  | .start => reqWord 0x70 0
  | .nop => 0
  | .ctrl vs hs n => 0x1#4 ++ BitVec.ofBool vs ++ BitVec.ofBool hs ++ 0#14 ++ n
  | .pixels n => 0x2#4 ++ 0#16 ++ n

/-- The instruction the decoder reads from a row of the opcode table whose bits are `w`. -/
def decodeTableWord (nbits w : Nat) : Option Instr :=
  match decodeWord (BitVec.ofNat 32 (w % 2 ^ nbits)) with
  | .ok i => some i
  | .error _ => none

/-- One row of spec/opcode_table.json: a word `w` of the interface is the operation when `w &&& mask = value` (R99). -/
structure OpRow where
  mnemonic : String
  interface : Interface
  value : Word
  mask : Word
  deriving DecidableEq, Repr

/-- The opcode table (30_encoding.md R99, R111 to R113). -/
def opTable : List OpRow :=
  [ { mnemonic := "LINE_BEGIN", interface := .req, value := 0x01000000, mask := 0xFFFFFE00 },
    { mnemonic := "LINE_END", interface := .req, value := 0x02000000, mask := 0xFFFFFE00 },
    { mnemonic := "PUBLISH", interface := .req, value := 0x03000000, mask := 0xFFFFFFFE },
    { mnemonic := "FRAME_COMPLETE", interface := .req, value := 0x04000000, mask := 0xFFFFFFFF },
    { mnemonic := "AUD_CAP", interface := .req, value := 0x10000000, mask := 0xFFFFFFFF },
    { mnemonic := "AUD_ENQ", interface := .req, value := 0x11000000, mask := 0xFFFF0000 },
    { mnemonic := "SET_SCALE", interface := .req, value := 0x20000000, mask := 0xFFFFFFFE },
    { mnemonic := "ACQUIRE", interface := .req, value := 0x40000000, mask := 0xFFFFFFFF },
    { mnemonic := "RELEASE", interface := .req, value := 0x41000000, mask := 0xFFFFFFFE },
    { mnemonic := "AUD_DEQ", interface := .req, value := 0x50000000, mask := 0xFFFFFFFF },
    { mnemonic := "START", interface := .req, value := 0x70000000, mask := 0xFFFFFFFF },
    { mnemonic := "NOP", interface := .cmd, value := 0x00000000, mask := 0xFFFFFFFF },
    { mnemonic := "CTRL", interface := .cmd, value := 0x10000000, mask := 0xF3FFF000 },
    { mnemonic := "PIXELS", interface := .cmd, value := 0x20000000, mask := 0xFFFFF000 } ]

/-- A word has the fixed bits of a row. -/
def OpRow.admits (r : OpRow) (w : Word) : Bool := w &&& r.mask == r.value

/-- The mnemonic of an operation, as the opcode table spells it. -/
def Instr.mnemonic : Instr → String
  | .lineBegin _ => "LINE_BEGIN"
  | .lineEnd _ => "LINE_END"
  | .publish _ => "PUBLISH"
  | .frameComplete => "FRAME_COMPLETE"
  | .audCap => "AUD_CAP"
  | .audEnq _ => "AUD_ENQ"
  | .setScale _ => "SET_SCALE"
  | .acquire => "ACQUIRE"
  | .release _ => "RELEASE"
  | .audDeq => "AUD_DEQ"
  | .start => "START"
  | .nop => "NOP"
  | .ctrl _ _ _ => "CTRL"
  | .pixels _ => "PIXELS"

/-- The textual operands of an operation, in decimal (30_encoding.md R119). -/
def Instr.operandText : Instr → List Nat
  | .lineBegin line => [line.toNat]
  | .lineEnd line => [line.toNat]
  | .publish buf => [buf.toBit.toNat]
  | .frameComplete => []
  | .audCap => []
  | .audEnq count => [count.toNat]
  | .setScale mode => [mode.toBit.toNat]
  | .acquire => []
  | .release buf => [buf.toBit.toNat]
  | .audDeq => []
  | .start => []
  | .nop => []
  | .ctrl vs hs n => [vs.toNat, hs.toNat, n.toNat]
  | .pixels n => [n.toNat]

/-- The text of an operation: its mnemonic, then its operands in decimal, without the payload (30_encoding.md R119). -/
def Instr.text (i : Instr) : String :=
  i.operandText.foldl (fun acc n => acc ++ " " ++ toString n) i.mnemonic

end Sys2Proof
end

