-- ==== Sys2Proof/Config.lean ====
section
/-! DEFINITION. The build parameters of 00_scope.md R6 and the free values the spec leaves open. -/

namespace Sys2Proof

/-- PIXEL_VARIANT (00_scope.md R6, 40_pixel_encoder.md R130). -/
inductive PixelVariant where
  | a   -- direct indexed-to-packed
  | b   -- palette-expand to high colour
  deriving DecidableEq, Repr

/-- AUDIO_SINK (45_audio.md R258). -/
inductive AudioSink where
  | timer
  | aux
  deriving DecidableEq, Repr

/-- PUBLISH_BUSY_POLICY (44_frame_exchange.md R232, R242). -/
inductive BusyPolicy where
  | drop
  | hold
  deriving DecidableEq, Repr

/-- TMDS_ENC: the default line code of 43_serializer_tmds.md R212 to R215, or some other one, of which nothing is known
but a name (DESIGN CHOICE, log 19). -/
inductive LineCode where
  | standard
  | other (id : Nat)
  deriving DecidableEq, Repr

/-- SCALE_MAP as a fixed periodic schedule (00_scope.md R7 (h)): output `o` shows source
`(o / offsets.length) * advance + offsets[o % offsets.length]` (DEDUCED, log 20). -/
structure ScaleSchedule where
  offsets : List Nat
  advance : Nat
  deriving DecidableEq, Repr

/-- The parameters of 00_scope.md R6 that are OPEN (AUDIO_TICK_PERIOD has no value and is not used: log 26). -/
structure Config where
  palette : List (BitVec 15)
  vFrontPorch : Nat
  vSyncWidth : Nat
  vBackPorch : Nat
  vActive : Nat
  hFrontPorch : Nat
  hSyncWidth : Nat
  hBackPorch : Nat
  hActive : Nat
  vsyncLevel : Bool
  hsyncLevel : Bool
  fifoDepth : Nat
  cmdListLen : Nat
  pixelVariant : PixelVariant
  twoPhase : Bool
  marginSample : PixelUnit
  srcX0 : Nat
  scaleMap : ScaleSchedule
  w0 : Nat
  w1 : Nat
  w2 : Nat
  w3 : Nat
  w4 : Nat
  sMin : Int
  sMax : Int
  audioCap : Nat
  audioSink : AudioSink
  auxPerLine : Nat
  publishBusyPolicy : BusyPolicy
  lineCode : LineCode
  deriving DecidableEq, Repr

/-! Free values: constants with no body, so nothing can be proved of their values. -/

/-- PALETTE of the default build: "OPEN with no default" (00_scope.md R6, 93 U11; log 2). -/
opaque Config.paletteEntry : Nat → BitVec 15

/-- What framebuffer byte `addr` holds after reset number `epoch` until it is written (93 U6; log 10). -/
opaque Config.fbPowerUp : (epoch addr : Nat) → Byte

/-- What line-buffer word `addr` holds after reset number `epoch` until it is written (93 U6; log 11). -/
opaque Config.lineBufPowerUp : (epoch addr : Nat) → Word

/-- What ring slot `slot` holds after reset number `epoch` until it is written (93 U6; log 11). -/
opaque Config.ringPowerUp : (epoch slot : Nat) → Word

/-- Byte `i` of payload row `k` where the requester delivered none (30_encoding.md R97; log 8). -/
opaque Config.missingPayload : (fresh k i : Nat) → Byte

/-- Which of the admitted bytes a racing framebuffer read returns (20_memory.md R72, 93 U1; log 13). -/
opaque Config.raceChoice : (fresh addr : Nat) → Nat

/-- What the pins carry in place of a popped word's records once a mark is set (10_state.md R35, 93 U2, U4; log 14). -/
opaque Config.corruptRecords : (fresh : Nat) → List OutRecord

/-- Which enabled agent moves when the environment offers no turn (00_scope.md R9; log 3). -/
opaque Config.agentChoice : (fresh : Nat) → Nat

/-- The level of the clock lane in the first half of a pixel period (93 U13; log 31). -/
opaque Config.clockFirstLevel : Bool

/-- The symbol and new disparity a line code other than the default gives (TMDS_ENC, 93 U12; log 19). -/
opaque Config.otherSymbol : (id : Nat) → (d : Byte) → (cnt : Int) → BitVec 10 × Int

/-- The control symbols of a line code other than the default (TMDS_ENC, 93 U12; log 19). -/
opaque Config.otherCtrlSymbol : (id : Nat) → (c1 c0 : Bool) → BitVec 10

/-- The default column of 00_scope.md R6 (log 1, log 30). -/
def Config.default : Config where
  palette := (List.range 64).map Config.paletteEntry
  vFrontPorch := 10
  vSyncWidth := 2
  vBackPorch := 33
  vActive := 480
  hFrontPorch := 16
  hSyncWidth := 96
  hBackPorch := 48
  hActive := 640
  vsyncLevel := false
  hsyncLevel := false
  fifoDepth := 8
  cmdListLen := 8
  pixelVariant := .a
  twoPhase := true
  marginSample := 0
  srcX0 := 0
  scaleMap := { offsets := [0, 0, 1, 2, 3, 4, 5, 6, 7], advance := 8 }
  w0 := 64
  w1 := 64
  w2 := 48
  w3 := 32
  w4 := 32
  sMin := -32768
  sMax := 32767
  audioCap := 1024
  audioSink := .timer
  auxPerLine := 1
  publishBusyPolicy := .drop
  lineCode := .standard

end Sys2Proof
end

