-- ==== Sys2Proof/Machine/State.lean ====
section
/-! DEFINITION. The state of VOUT (10_state.md), the ways a step can stop, and the state after reset (R38). -/

namespace Sys2Proof.Machine

/-- A DMA channel and its descriptor: "ping" is 0, "pong" is 1 (42_dma_scheduler.md R180). -/
inductive Slot where
  | ping
  | pong
  deriving DecidableEq, Repr

/-- The execution contexts of 60_exceptions.md R282 that can name themselves as a requester. -/
inductive Context where
  | producer            -- the producer core, thread level
  | consumerThread      -- the consumer core, thread level
  | consumerInterrupt   -- the consumer core, interrupt level
  deriving DecidableEq, Repr

/-- The holder of FX_LOCK (10_state.md R34). -/
inductive LockOwner where
  | free
  | producer
  | consumer
  deriving DecidableEq, Repr

/-- The five outcomes of 60_exceptions.md R270. -/
inductive OutcomeCode where
  | ok
  | badRequest
  | none
  | dropped
  | underflow
  deriving DecidableEq, Repr

/-- Which of the possible consumers of the ring dequeues (45_audio.md R258). -/
inductive AudioConsumer where
  | request      -- AUD_DEQ at the C-port
  | timer        -- `aud_isr`
  | auxPath      -- `aux_audio`
  deriving DecidableEq, Repr

/-- PHASE (10_state.md R25): which half of an active line is next. -/
inductive Phase where
  | cmd
  | pix
  deriving DecidableEq, Repr

/-- One turn offered to one agent: a request with its requester and payload, an agent step with no encoding
(30_encoding.md R118), the environment's timer tick (60_exceptions.md R275) or power-on reset (70 R300). -/
inductive Turn where
  | request (ctx : Context) (word : Word) (payload : List (List Byte))
  | dmaXfer (ch : Slot)
  | dmaComplete (ch : Slot)
  | handler
  | serPop
  | audTick
  | audIsr
  | reset
  deriving DecidableEq, Repr

/-- Why a step stops with a fault. -/
inductive Fault where
  /-- Raised by `dma_xfer` when RPTR is in no region of 20_memory.md R66: the address does not exist (93 U8, U18; log 23).
  Safe: the spec gives the read no value. -/
  | reservedDmaAddress (addr : BitVec 16)
  deriving DecidableEq, Repr

/-- Why a step is refused: the run is outside the spec, which says that a model refuses it. -/
inductive Refusal where
  /-- Raised by an arm of `exec` whose instruction has no meaning yet. Safe. -/
  | notModelled (mnemonic : String)
  /-- Raised by `step` when the build parameters break a constraint of 00_scope.md R7 (93 U12; log 22). Safe. -/
  | illegalBuild
  /-- Raised by a request whose context its port does not allow (30_encoding.md R101, 93 U7). Safe. -/
  | wrongPort (ctx : Context)
  /-- Raised by ACQUIRE and RELEASE while RUN = 1 (44_frame_exchange.md R235, 93 U9). Safe. -/
  | sequencerOwnsFrames
  /-- Raised by a dequeue of a second consumer (45_audio.md R258, 93 U9; log 16). Safe. -/
  | secondAudioConsumer (first second : AudioConsumer)
  /-- Raised by the trigger of a channel whose descriptor is outside the regions (20_memory.md R62, 93 U8; log 23). Safe. -/
  | badDescriptor (ch : Slot) (src len : BitVec 16)
  /-- Raised by `post` when V is not below V_TOTAL, where no region is defined (10_state.md R24, 41 R151; log 17). Safe. -/
  | lineOutOfRange (v : Nat)
  /-- Raised by PUBLISH and FRAME_COMPLETE under the policy HOLD while the other buffer is rendering: "HOLD is not
  specified" (93 U15; log 21). Safe. -/
  | holdPolicy
  deriving DecidableEq, Repr

/-- A memory: a list of (address, cell), addresses strictly rising; an address that is not listed holds no value
(log 12). With byte cells it is a list of `Host.Cell`. -/
abbrev Memory (w : Nat) := List (Nat × BitVec w)

/-- The FrameExchange bits and their mutex (10_state.md R21, R34). -/
structure FrameExchange where
  ready0 : Bool
  ready1 : Bool
  rendering0 : Bool
  rendering1 : Bool
  wt : BufId
  lock : LockOwner
  deriving DecidableEq, Repr

/-- One transfer channel: descriptor, running cursors, status bits (10_state.md R28, R29). -/
structure Channel where
  src : BitVec 16
  len : BitVec 16
  rptr : BitVec 16
  rem : BitVec 16
  busy : Bool
  done : Bool
  deriving DecidableEq, Repr

/-- The running disparity of the three lanes, CNT (10_state.md R32). -/
structure Disparity where
  lane0 : Int
  lane1 : Int
  lane2 : Int
  deriving DecidableEq, Repr

/-- The request port of the step being taken: requester and payload in, RSP, REQ_ERR and outcome out
(30_encoding.md R97, R98, 60_exceptions.md R270; log 6, 7, 9). -/
structure Port where
  ctx : Context
  payload : List (List Byte)
  rsp : Option Word
  reqErr : Bool
  outcome : Option OutcomeCode
  /-- The outcomes of the operations carried out inside a larger step, in order: the ACQUIRE of `frame_start`, the RELEASE
  of `frame_end`, each `dequeue` of `aux_audio` (60_exceptions.md R270; log 7). -/
  inner : List OutcomeCode
  deriving DecidableEq, Repr

/-- The whole state of VOUT. -/
structure State where
  /-- The build parameters; no step changes them (log 1). -/
  cfg : Config
  fx : FrameExchange
  prodOpen : Bool
  prodLine : BitVec 8
  v : Nat
  phase : Phase
  run : Bool
  lastDone : Slot
  dispValid : Bool
  dispBuf : BufId
  scalePending : ScaleMode
  scaleActive : ScaleMode
  ch0 : Channel
  ch1 : Channel
  fifo : List Word
  /-- LINEBUF[0] and LINEBUF[1], keyed by DMASPACE word address (20_memory.md R66). -/
  lineBuf : Memory 32
  /-- FB[0] and FB[1], keyed by `b * 76800 + y * 320 + x` (20_memory.md R60). -/
  fb : Memory 8
  /-- The bytes racing writes replaced, oldest first (20_memory.md R72; log 13). -/
  race : List Host.Cell
  serRem : BitVec 12
  cnt : Disparity
  out : List OutRecord
  ring : Memory 32
  wr : Nat
  rd : Nat
  last : Word
  audTick : Bool
  audTrace : List Word
  /-- Which consumer has dequeued (45_audio.md R258; log 16). -/
  audOwner : Option AudioConsumer
  mDesc : Bool
  mCmd : Bool
  port : Port
  /-- The turns the environment offers, next first (log 3). -/
  inbox : List Turn
  /-- The counter free values are applied to; one more at every step (log 29). -/
  fresh : Nat
  /-- How many resets have happened (log 28). -/
  epoch : Nat
  deriving DecidableEq, Repr

/-- A channel after reset (10_state.md R38). -/
def Channel.reset : Channel where
  src := 0
  len := 0
  rptr := 0
  rem := 0
  busy := false
  done := false

/-- The request port with nothing on it. -/
def Port.idle : Port where
  ctx := .consumerThread
  payload := []
  rsp := .none
  reqErr := false
  outcome := .none
  inner := []

/-- The reset state of a build (10_state.md R38, 70_reset_and_hazards.md R300). -/
def State.resetWith (c : Config) : State where
  cfg := c
  fx := { ready0 := false, ready1 := false, rendering0 := false, rendering1 := false, wt := .b1, lock := .free }
  prodOpen := false
  prodLine := 0
  v := 0
  phase := .cmd
  run := false
  lastDone := .pong
  dispValid := false
  dispBuf := .b0
  scalePending := .oneToOne
  scaleActive := .oneToOne
  ch0 := Channel.reset
  ch1 := Channel.reset
  fifo := []
  lineBuf := []
  fb := []
  race := []
  serRem := 0
  cnt := { lane0 := 0, lane1 := 0, lane2 := 0 }
  out := []
  ring := []
  wr := 0
  rd := 0
  last := 0
  audTick := false
  audTrace := []
  audOwner := none
  mDesc := false
  mCmd := false
  port := Port.idle
  inbox := []
  fresh := 0
  epoch := 0

/-- VOUT right after reset, with the default build (10_state.md R38, 00_scope.md R6). -/
def State.reset : State := State.resetWith Config.default

end Sys2Proof.Machine
end

