-- ==== Sys2Proof/Machine/Params.lean ====
section
/-! DEFINITION. Derived constants (00_scope.md R8) and the constraints on a build (R7). -/

namespace Sys2Proof.Machine

/-- FB_WIDTH = UNITS_PER_LINE (00_scope.md R6, R8). -/
def fbWidth : Nat := 320

/-- WORDS_PER_LINE (00_scope.md R8). -/
def wordsPerLine : Nat := 160

/-- Bytes in one framebuffer (10_state.md R37). -/
def fbBytes : Nat := 76800

/-- T_FP_END (00_scope.md R8). -/
def tFpEnd (c : Config) : Nat := c.vFrontPorch

/-- T_SYNC_END (00_scope.md R8). -/
def tSyncEnd (c : Config) : Nat := c.vFrontPorch + c.vSyncWidth

/-- T_BP_END (00_scope.md R8). -/
def tBpEnd (c : Config) : Nat := c.vFrontPorch + c.vSyncWidth + c.vBackPorch

/-- V_TOTAL (00_scope.md R8). -/
def vTotal (c : Config) : Nat := tBpEnd c + c.vActive

/-- H_TOTAL (00_scope.md R8). -/
def hTotal (c : Config) : Nat := c.hFrontPorch + c.hSyncWidth + c.hBackPorch + c.hActive

/-- LINE_REPEAT (00_scope.md R6). -/
def lineRepeat (c : Config) : Nat := c.vActive / fbHeight

/-- PIXEL_REPEAT (00_scope.md R6). -/
def pixelRepeat (c : Config) : Nat := c.hActive / fbWidth

/-- LB_WORDS (10_state.md R31). -/
def lbWords (c : Config) : Nat := c.cmdListLen + wordsPerLine

/-- SCALE_MAP(o) (00_scope.md R6, R7 (h), 40_pixel_encoder.md R136). -/
def scaleMap (m : ScaleSchedule) (o : Nat) : Nat :=
  (o / m.offsets.length) * m.advance + m.offsets.getD (o % m.offsets.length) 0

/-- SCALE_MAP is non-decreasing on 0..287 and stays in 0..255 (00_scope.md R7 (h)). -/
def scaleMapLegal (m : ScaleSchedule) : Bool :=
  m.offsets.length != 0 && (List.range 287).all (fun o => decide (scaleMap m o ≤ scaleMap m (o + 1)))
    && decide (scaleMap m 287 ≤ 255)

/-- An H_ count fits the command word's count field (00_scope.md R7 (c)). -/
def countLegal (n : Nat) : Bool := decide (1 ≤ n) && decide (n ≤ 4095)

/-- The vertical and horizontal raster numbers (00_scope.md R7 (a), (b), (c)). -/
def rasterLegal (c : Config) : Bool :=
  decide (1 ≤ lineRepeat c) && decide (c.vActive % fbHeight = 0)
    && decide (1 ≤ pixelRepeat c) && decide (c.hActive % fbWidth = 0)
    && (c.pixelVariant != .a || decide (pixelRepeat c = 2))
    && decide (1 ≤ c.vSyncWidth)
    && countLegal c.hFrontPorch && countLegal c.hSyncWidth && countLegal c.hBackPorch && countLegal c.hActive

/-- The FIFO and the command tables (00_scope.md R7 (d), 20_memory.md R66). -/
def tablesLegal (c : Config) : Bool :=
  decide (1 ≤ c.fifoDepth) && decide (c.fifoDepth ≤ c.cmdListLen) && decide (4 ≤ c.cmdListLen)
    && decide (c.cmdListLen ≤ 256) && decide (lbWords c ≤ 1024)

/-- The audio parameters (00_scope.md R7 (e), (f), 45_audio.md R251, 92 D22). -/
def audioLegal (c : Config) : Bool :=
  decide (c.w0 = c.w1) && decide (c.w2 < c.w1) && decide (c.w3 < c.w2) && decide (c.w4 < c.w2)
    && decide (-32768 ≤ c.sMin) && decide (c.sMin ≤ 0) && decide (0 ≤ c.sMax) && decide (c.sMax ≤ 32767)
    && decide (2 ≤ c.audioCap) && decide (c.audioCap ≤ 65536)

/-- The pixel encoder's parameters (00_scope.md R7 (h), 40_pixel_encoder.md R133). -/
def encoderLegal (c : Config) : Bool :=
  decide (c.palette.length = 64) && decide (c.srcX0 + 256 ≤ fbWidth) && scaleMapLegal c.scaleMap

/-- The assignment meets every constraint of 00_scope.md R7 that a parameter alone can break (log 22). -/
def buildLegal (c : Config) : Bool :=
  rasterLegal c && tablesLegal c && audioLegal c && encoderLegal c

end Sys2Proof.Machine
end

