-- ==== Sys2Proof/Machine/Ops.lean ====
section
/-! DEFINITION. Operations over memories, registers, the request port, the mutex and the output trace. -/

namespace Sys2Proof.Machine

/-! Memories. -/

/-- The cell at an address, if anything has written it (log 12). -/
def Memory.read? {w : Nat} : Memory w → Nat → Option (BitVec w)
  | [], _ => none
  | (k, x) :: m, a => if k = a then some x else Memory.read? m a

/-- Write one cell, keeping the addresses strictly rising. -/
def Memory.write {w : Nat} : Memory w → Nat → BitVec w → Memory w
  | [], a, x => [(a, x)]
  | (k, y) :: m, a, x =>
    if a < k then (a, x) :: (k, y) :: m
    else if a = k then (a, x) :: m
    else (k, y) :: Memory.write m a x

/-- Write consecutive cells from an address on: `MemWrite` (00_scope.md R11). -/
def Memory.writeList {w : Nat} : Memory w → Nat → List (BitVec w) → Memory w
  | m, _, [] => m
  | m, a, x :: xs => Memory.writeList (Memory.write m a x) (a + 1) xs

/-- Every listed address is above `lo` and the addresses rise strictly. -/
def Memory.risingFrom {w : Nat} : Nat → Memory w → Bool
  | _, [] => true
  | lo, (k, _) :: m => decide (lo < k) && Memory.risingFrom k m

/-- The canonical form: addresses strictly rising (an unlisted address holds no value, so no entry equals it). -/
def Memory.wf {w : Nat} : Memory w → Bool
  | [] => true
  | (k, _) :: m => Memory.risingFrom k m

/-! Buffer ids and slots: `other(b) = 1 - b` (00_scope.md R10). -/

/-- The other framebuffer. -/
def otherBuf : BufId → BufId
  | .b0 => .b1
  | .b1 => .b0

/-- The number of a buffer id. -/
def bufNum : BufId → Nat
  | .b0 => 0
  | .b1 => 1

/-- The other slot: a channel's chain target (42_dma_scheduler.md R180). -/
def otherSlot : Slot → Slot
  | .ping => .pong
  | .pong => .ping

/-! FrameExchange bits (10_state.md R21). -/

/-- READY[b]. -/
def FrameExchange.ready (f : FrameExchange) : BufId → Bool
  | .b0 => f.ready0
  | .b1 => f.ready1

/-- RENDERING[b]. -/
def FrameExchange.rendering (f : FrameExchange) : BufId → Bool
  | .b0 => f.rendering0
  | .b1 => f.rendering1

/-- READY[b] <- x. -/
def FrameExchange.setReady (f : FrameExchange) (b : BufId) (x : Bool) : FrameExchange :=
  match b with
  | .b0 => { f with ready0 := x }
  | .b1 => { f with ready1 := x }

/-- RENDERING[b] <- x. -/
def FrameExchange.setRendering (f : FrameExchange) (b : BufId) (x : Bool) : FrameExchange :=
  match b with
  | .b0 => { f with rendering0 := x }
  | .b1 => { f with rendering1 := x }

/-! Channels (10_state.md R28, R29). -/

/-- The registers of channel `ch`. -/
def State.chan (s : State) : Slot → Channel
  | .ping => s.ch0
  | .pong => s.ch1

/-- Replace the registers of channel `ch`. -/
def State.setChan (s : State) (ch : Slot) (c : Channel) : State :=
  match ch with
  | .ping => { s with ch0 := c }
  | .pong => { s with ch1 := c }

/-! Framebuffer bytes (20_memory.md R60). -/

/-- The key of byte `(b, y, x)`: the buffer's base plus its linear form `y * FB_WIDTH + x`. -/
def fbAddr (b : BufId) (y x : Nat) : Nat := bufNum b * fbBytes + y * fbWidth + x

/-- The framebuffer byte at a key: the last byte written, else the unspecified power-up byte (93 U6; log 10). -/
def fbByte (s : State) (a : Nat) : Byte := (Memory.read? s.fb a).getD (Config.fbPowerUp s.epoch a)

/-- The bytes racing writes replaced at a key, oldest first (20_memory.md R72; log 13). -/
def racedBytes (s : State) (a : Nat) : List Byte :=
  (s.race.filter (fun cell => cell.1 == a)).map (fun cell => cell.2)

/-- What `post` reads at a key: the byte, or, after a racing write, the byte before or after it: nothing fixes which
(20_memory.md R72). -/
def fbRead (s : State) (a : Nat) : Byte :=
  match racedBytes s a with
  | [] => fbByte s a
  | old :: olds =>
    (fbByte s a :: old :: olds).getD (Config.raceChoice s.fresh a % (olds.length + 2)) (fbByte s a)

/-- The keys of row `y` of buffer `b`. -/
def rowKeys (b : BufId) (y : Nat) : List Nat := (List.range fbWidth).map (fun x => fbAddr b y x)

/-- `MemRead(FBSPACE, (b, y, 0), 320)` (20_memory.md R60). -/
def readRow (s : State) (b : BufId) (y : Nat) : List Byte := (rowKeys b y).map (fbRead s)

/-- The bytes a row write replaces, remembered where the buffer is being rendered (20_memory.md R72). -/
def raceOfRow (s : State) (b : BufId) (y : Nat) : List Host.Cell :=
  if s.fx.rendering b then (rowKeys b y).map (fun a => (a, fbByte s a)) else []

/-- `MemWrite(FBSPACE, (b, y, 0), 320, data)` (20_memory.md R60), with the race bookkeeping of R72. -/
def writeRow (s : State) (b : BufId) (y : Nat) (data : List Byte) : State :=
  { s with fb := Memory.writeList s.fb (fbAddr b y 0) data, race := s.race ++ raceOfRow s b y }

/-- The race on buffer `b` ends with its RELEASE (20_memory.md R72). -/
def dropRace (b : BufId) (cells : List Host.Cell) : List Host.Cell :=
  cells.filter (fun cell => cell.1 / fbBytes != bufNum b)

/-! Line buffers and ring slots. -/

/-- The line-buffer word at a DMASPACE address, else its unspecified power-up content (93 U6; log 11). -/
def lineBufWord (s : State) (a : Nat) : Word := (Memory.read? s.lineBuf a).getD (Config.lineBufPowerUp s.epoch a)

/-- RING[slot], else its unspecified power-up content (93 U6; log 11). -/
def ringFrame (s : State) (slot : Nat) : Word := (Memory.read? s.ring slot).getD (Config.ringPowerUp s.epoch slot)

/-! Steps that are not taken. -/

/-- Why an operation is not carried out now. -/
inductive Halt where
  | wait                    -- the mutex is held: the step is not yet taken (20_memory.md R74)
  | refuse (r : Refusal)    -- the run is outside the spec
  | fault (r : Fault)       -- the step has no meaning
  deriving DecidableEq, Repr

/-- A procedure that may not be carried out. -/
abbrev Attempt (α : Type) := Except Halt α

/-! The request port (30_encoding.md R98, 60_exceptions.md R270). -/

/-- No response, no REQ_ERR, no outcome. -/
def clearOutputs (s : State) : State :=
  { s with port := { s.port with rsp := none, reqErr := false, outcome := none, inner := [] } }

/-- An operation inside a larger step ends with outcome `o` (60_exceptions.md R270; log 7). -/
def note (o : OutcomeCode) (s : State) : State :=
  { s with port := { s.port with inner := s.port.inner ++ [o] } }

/-- End an operation with outcome `o` and response `rsp`; REQ_ERR is pulsed for BadRequest alone (60 R271, R272). -/
def respond (o : OutcomeCode) (rsp : Option Word) (s : State) : State :=
  { s with port := { s.port with rsp := rsp, reqErr := o == .badRequest, outcome := some o } }

/-- The one error outcome, BadRequest: no architectural state changes, no response, REQ_ERR pulsed; nothing is saved
and no handler is entered, for VOUT takes no trap (60_exceptions.md R270, R271). -/
def badRequest (s : State) : State := respond .badRequest none s

/-- What an attempt makes of a step: a waiting step changes nothing but the port's outputs, which report no outcome. -/
def finish (s : State) : Attempt State → Host.Outcome State Fault Refusal
  | .ok t => .next t
  | .error .wait => .next (clearOutputs s)
  | .error (.refuse r) => .refused r
  | .error (.fault r) => .fault r

/-- A request, from a context its port allows (30_encoding.md R91, R101, 60_exceptions.md R282). -/
def serve (allowed : Context → Bool) (s : State) (body : Attempt State) : Host.Outcome State Fault Refusal :=
  if allowed s.port.ctx then finish s body else .refused (.wrongPort s.port.ctx)

/-- The P-port: OP high nibble 0x0 or 0x1 (30_encoding.md R91). -/
def producerPort (c : Context) : Bool := c == .producer

/-- The configuration port: high nibble 0x2, "either core, outside interrupt context" (30_encoding.md R91). -/
def configPort (c : Context) : Bool := c == .producer || c == .consumerThread

/-- The C-port and the system port: high nibble 0x4, 0x5 and 0x7 (30_encoding.md R91). -/
def consumerPort (c : Context) : Bool := c == .consumerThread

/-! The FrameExchange mutex (20_memory.md R74). -/

/-- FX_LOCK <- who. -/
def setLock (who : LockOwner) (s : State) : State := { s with fx := { s.fx with lock := who } }

/-- An operation under the mutex: enabled only while FX_LOCK is FREE; takes it, acts, frees it, in one step. -/
def underMutex (who : LockOwner) (s : State) (act : State → Attempt State) : Attempt State :=
  if s.fx.lock = .free then
    match act (setLock who s) with
    | .ok t => .ok (setLock .free t)
    | .error h => .error h
  else .error .wait

/-! The output trace (43_serializer_tmds.md R203). -/

/-- A mark is set, so the content of OUT is unspecified from here on (10_state.md R35). -/
def marked (s : State) : Bool := s.mDesc || s.mCmd

/-- Extend OUT by the records of one popped word; once a mark is set, by whatever the pins carry (93 U2, U4; log 14). -/
def extendOut (recs : List OutRecord) (s : State) : State :=
  { s with out := s.out ++ (if marked s then Config.corruptRecords s.fresh else recs) }

/-! DMASPACE (20_memory.md R66). -/

/-- LINEBUF_BASE[ch]. -/
def lineBufBase : Slot → Nat
  | .ping => 0x1000
  | .pong => 0x1400

/-- Procedure `write_desc` (42_dma_scheduler.md R184). -/
def writeDesc (ch : Slot) (src len : BitVec 16) (s : State) : State :=
  s.setChan ch { s.chan ch with src := src, len := len }

end Sys2Proof.Machine
end

