-- ==== Sys2Proof/Machine/Flags.lean ====
section
/-! DEFINITION. Interrupt request lines, status flags and the numbered view of the registers (10_state.md R36, 60 R274). -/

namespace Sys2Proof.Machine

/-- IRQ_DMA = DONE[0] | DONE[1] (60_exceptions.md R274). -/
def irqDma (s : State) : Bool := s.ch0.done || s.ch1.done

/-- IRQ_DMA is deliverable exactly while RUN = 1 (60_exceptions.md R274). -/
def irqDmaDeliverable (s : State) : Bool := s.run && irqDma s

/-- The state has a pending and deliverable IRQ_AUD: AUDIO_SINK = TIMER, AUD_TICK = 1, and no HANDLER step is enabled
(45_audio.md R260, 60_exceptions.md R275, R276; log 27). -/
def irqAudDeliverable (s : State) : Bool := s.cfg.audioSink == .timer && s.audTick && !irqDmaDeliverable s

/-- A word from its bits, bit 0 first. -/
def wordOfBits (bits : List Bool) : Word := (BitVec.ofBoolListLE bits).setWidth 32

/-- Register 0, FX_FLAGS (10_state.md R36). -/
def csrFxFlags (s : State) : Word :=
  wordOfBits [s.fx.ready0, s.fx.ready1, s.fx.rendering0, s.fx.rendering1, s.fx.wt.toBit]

/-- Register 2, SEQ_CTRL (10_state.md R36); PHASE reads as 0 with TWO_PHASE = false (R25). -/
def csrSeqCtrl (s : State) : Word :=
  wordOfBits [s.run, s.cfg.twoPhase && s.phase == .pix, s.lastDone == .pong, s.dispValid, s.dispBuf.toBit,
    s.scalePending.toBit, s.scaleActive.toBit]

/-- Register 7, DMA_STAT (10_state.md R36). -/
def csrDmaStat (s : State) : Word := wordOfBits [s.ch0.busy, s.ch1.busy, s.ch0.done, s.ch1.done]

/-- Register 11, PROD (10_state.md R36). -/
def csrProd (s : State) : Word := 0#23 ++ s.prodLine ++ BitVec.ofBool s.prodOpen

/-- Register 12, MARKS (10_state.md R36). -/
def csrMarks (s : State) : Word := wordOfBits [s.mDesc, s.mCmd]

/-- The thirteen numbered registers: labels, "no request reads or writes a register by number" (10_state.md R36). -/
def csr (s : State) (n : Nat) : Option Word :=
  match n with
  | 0 => some (csrFxFlags s)
  | 1 => some (BitVec.ofNat 32 s.v)
  | 2 => some (csrSeqCtrl s)
  | 3 => some (s.ch0.src.setWidth 32)
  | 4 => some (s.ch0.len.setWidth 32)
  | 5 => some (s.ch1.src.setWidth 32)
  | 6 => some (s.ch1.len.setWidth 32)
  | 7 => some (csrDmaStat s)
  | 8 => some (BitVec.ofNat 32 s.wr)
  | 9 => some (BitVec.ofNat 32 s.rd)
  | 10 => some s.last
  | 11 => some (csrProd s)
  | 12 => some (csrMarks s)
  | _ => none

end Sys2Proof.Machine
end

