-- ==== Sys2Proof/Machine/Operands.lean ====
section
/-! DEFINITION. Operand forms, payloads, response words, data words and command tables (30_encoding.md, 41 R160). -/

namespace Sys2Proof.Machine

/-- Byte `i` of payload row `k`: `data[i]` (k = 0) or `chan[k][i]` (30_encoding.md R97); a byte the requester did not
deliver is a free value (log 8). -/
def payloadByte (s : State) (k i : Nat) : Byte :=
  match s.port.payload[k]? with
  | some row => row.getD i (Config.missingPayload s.fresh k i)
  | none => Config.missingPayload s.fresh k i

/-- The 320 payload bytes of LINE_END (30_encoding.md R97). -/
def linePayload (s : State) : List Byte := (List.range fbWidth).map (payloadByte s 0)

/-- PROD_LINE holds the low 8 bits of a legal line (10_state.md R23, 30_encoding.md R94). -/
def lineField (line : BitVec 9) : BitVec 8 := line.setWidth 8

/-- A format-L operand is a legal line (30_encoding.md R94, R100). -/
def lineLegal (line : BitVec 9) : Bool := decide (line.toNat < fbHeight)

/-- RSP of ACQUIRE: bit 31 `some`, bit 0 `buf` (30_encoding.md R98). -/
def acquireRsp : Option BufId → Word
  | none => 0
  | some b => 0x80000000 ||| BitVec.ofNat 32 (bufNum b)

/-- Unit `2j` of a data word, the earlier one (30_encoding.md R115). -/
def lowUnit (w : Word) : PixelUnit := w.extractLsb' 0 16

/-- Unit `2j + 1` of a data word, the later one (30_encoding.md R115). -/
def highUnit (w : Word) : PixelUnit := w.extractLsb' 16 16

/-- The three command tables (41_scanline_sequencer.md R160). -/
inductive TableId where
  | blank
  | vsync
  | active
  deriving DecidableEq, Repr

/-- First word of a table in DMASPACE (20_memory.md R66). -/
def tableBase : TableId → Nat
  | .blank => 0x0000
  | .vsync => 0x0100
  | .active => 0x0200

/-- The wire level of the vertical sync bit in a table (41_scanline_sequencer.md R152, R160). -/
def tableVs (c : Config) : TableId → Bool
  | .blank => !c.vsyncLevel
  | .vsync => c.vsyncLevel
  | .active => !c.vsyncLevel

/-- The NOP entries of a table: `P = CMD_LIST_LEN - 4` of them (41_scanline_sequencer.md R160). -/
def tablePadding (c : Config) : List Instr := List.replicate (c.cmdListLen - 4) .nop

/-- The commands of a table, in order (41_scanline_sequencer.md R160). -/
def tableCommands (c : Config) (t : TableId) : List Instr :=
  let vs := tableVs c t
  let porches : List Instr :=
    [ .ctrl vs (!c.hsyncLevel) (BitVec.ofNat 12 c.hFrontPorch),
      .ctrl vs c.hsyncLevel (BitVec.ofNat 12 c.hSyncWidth),
      .ctrl vs (!c.hsyncLevel) (BitVec.ofNat 12 c.hBackPorch) ]
  let blankRun : List Instr := [.ctrl vs (!c.hsyncLevel) (BitVec.ofNat 12 c.hActive)]
  match t with
  | .blank => porches ++ blankRun ++ tablePadding c
  | .vsync => porches ++ blankRun ++ tablePadding c
  | .active => porches ++ tablePadding c ++ [.pixels (BitVec.ofNat 12 fbWidth)]

/-- The words of a table (41_scanline_sequencer.md R160). -/
def tableWords (c : Config) (t : TableId) : List Word := (tableCommands c t).map encode

/-- The regions of DMASPACE (20_memory.md R66). -/
inductive Region where
  | table (t : TableId)
  | lineBuf (ch : Slot)
  deriving DecidableEq, Repr

/-- All regions, in address order. -/
def allRegions : List Region := [.table .blank, .table .vsync, .table .active, .lineBuf .ping, .lineBuf .pong]

/-- First word of a region (20_memory.md R66). -/
def regionBase : Region → Nat
  | .table t => tableBase t
  | .lineBuf ch => lineBufBase ch

/-- Usable words of a region (20_memory.md R66). -/
def regionSize (c : Config) : Region → Nat
  | .table _ => c.cmdListLen
  | .lineBuf _ => lbWords c

/-- The region a word address lies in, if any: every other address is reserved (20_memory.md R66). -/
def regionAt (c : Config) (a : Nat) : Option Region :=
  allRegions.find? (fun r => decide (regionBase r ≤ a) && decide (a < regionBase r + regionSize c r))

/-- A descriptor the model accepts: SRC a region start, LEN not 0, the transfer inside the region
(20_memory.md R62, 42 R181, 93 U8). -/
def descriptorLegal (c : Config) (src len : BitVec 16) : Bool :=
  len != 0 && allRegions.any (fun r => decide (regionBase r = src.toNat) && decide (len.toNat ≤ regionSize c r))

/-- `MemRead(DMASPACE, a, 1)`: a table word or a line-buffer word; none where the address is reserved. -/
def dmaRead (s : State) (a : BitVec 16) : Option Word :=
  match regionAt s.cfg a.toNat with
  | some (.table t) => (tableWords s.cfg t)[a.toNat - tableBase t]?
  | some (.lineBuf _) => some (lineBufWord s a.toNat)
  | none => none

end Sys2Proof.Machine
end

