-- ==== Sys2Proof/Machine/Audio.lean ====
section
/-! DEFINITION. AudioMixer, its ring and the ring's consumers: AUD_CAP, AUD_ENQ, AUD_DEQ, `aux_audio`, `aud_isr`
(45_audio.md). -/

namespace Sys2Proof.Machine

/-- `clamp(v, lo, hi)` (00_scope.md R11). -/
def clamp (v lo hi : Int) : Int := min (max v lo) hi

/-- The weighted sum of five amplitudes, in mathematical integers (45_audio.md R251, R262 (a)). -/
def mixSum (c : Config) (a0 a1 a2 a3 a4 : Byte) : Int :=
  c.w0 * a0.toNat + c.w1 * a1.toNat + c.w2 * a2.toNat + c.w3 * a3.toNat + c.w4 * a4.toNat

/-- `mix` (45_audio.md R251). -/
def mix (c : Config) (a0 a1 a2 a3 a4 : Byte) : Int := clamp (mixSum c a0 a1 a2 a3 a4) c.sMin c.sMax

/-- The frame of a sample: the same 16 bits right and left (45_audio.md R254). -/
def sampleFrame (sample : Int) : Word := BitVec.ofInt 16 sample ++ BitVec.ofInt 16 sample

/-- Room in the ring: `(RD - WR - 1) mod AUDIO_CAP` (45_audio.md R252, R262 (b)). -/
def ringFree (s : State) : Nat := (((s.rd : Int) - (s.wr : Int) - 1) % (s.cfg.audioCap : Int)).toNat

/-- The frame AUD_ENQ makes of sample `i` of its payload (45_audio.md R253). -/
def mixedFrame (s : State) (i : Nat) : Word :=
  sampleFrame
    (mix s.cfg (payloadByte s 0 i) (payloadByte s 1 i) (payloadByte s 2 i) (payloadByte s 3 i) (payloadByte s 4 i))

/-- RING after the first `n` frames of AUD_ENQ are written from slot WR on (45_audio.md R253). -/
def ringWithFrames (s : State) : Nat → Memory 32
  | 0 => s.ring
  | n + 1 => Memory.write (ringWithFrames s n) ((s.wr + n) % s.cfg.audioCap) (mixedFrame s n)

/-- How many of `count` samples AUD_ENQ keeps (45_audio.md R253). -/
def enqueued (count : BitVec 16) (s : State) : Nat := min count.toNat (ringFree s)

/-- What AUD_ENQ writes: the ring's slots, then WR (45_audio.md R253, 20 R73). -/
def enqueueFrames (count : BitVec 16) (s : State) : State :=
  { s with ring := ringWithFrames s (enqueued count s), wr := (s.wr + enqueued count s) % s.cfg.audioCap }

/-- The ring has one consumer: the first to dequeue; another one is refused (45_audio.md R258, 93 U9; log 16). -/
def claimRing (who : AudioConsumer) (s : State) : Attempt State :=
  match s.audOwner with
  | none => .ok { s with audOwner := some who }
  | some first => if first = who then .ok s else .error (.refuse (.secondAudioConsumer first who))

/-- `dequeue` on a ring whose consumer it is; the frame it returns is LAST afterwards (45_audio.md R255). -/
def takeFrame (s : State) : State :=
  if s.rd = s.wr then { s with audTrace := s.audTrace ++ [s.last] }
  else
    { s with
      rd := (s.rd + 1) % s.cfg.audioCap
      last := ringFrame s s.rd
      audTrace := s.audTrace ++ [ringFrame s s.rd] }

/-- `dequeue` by consumer `who` (45_audio.md R255, R258). -/
def dequeue (who : AudioConsumer) (s : State) : Attempt State := do
  let t ← claimRing who s
  return takeFrame t

/-- The outcome of a dequeue: Underflow on an empty ring (45_audio.md R255). -/
def dequeueOutcome (s : State) : OutcomeCode := if s.rd = s.wr then .underflow else .ok

/-- `n` dequeues in a row inside a larger step, each with its outcome (60_exceptions.md R270). -/
def dequeueTimes (who : AudioConsumer) : Nat → State → Attempt State
  | 0, s => .ok s
  | n + 1, s => do
    let t ← dequeue who s
    dequeueTimes who n (note (dequeueOutcome s) t)

/-- Procedure `aux_audio` (45_audio.md R259). -/
def auxAudio (s : State) : Attempt State :=
  match s.cfg.audioSink with
  | .aux => dequeueTimes .auxPath s.cfg.auxPerLine s
  | .timer => .ok s

/-- Step `aud_isr` (45_audio.md R260); its outcome may be Underflow, and it has no requester (60_exceptions.md R270). -/
def audIsr (s : State) : Attempt State := do
  let t ← dequeue .timer { s with audTick := false }
  return respond (dequeueOutcome s) none t

/-- The audio timer's tick: AUD_TICK <- 1, merging with a pending one; with AUDIO_SINK = AUX the interrupt does not
exist (60_exceptions.md R275, 45 R260). -/
def audTick (s : State) : State :=
  match s.cfg.audioSink with
  | .timer => { s with audTick := true }
  | .aux => s

/-- AUD_CAP (45_audio.md R252). -/
def execAudCap (s : State) : Host.Outcome State Fault Refusal :=
  serve producerPort s (.ok (respond .ok (some (BitVec.ofNat 32 (ringFree s))) s))

/-- AUD_ENQ `count` with its payload (45_audio.md R253): Dropped where not all samples fit. -/
def execAudEnq (count : BitVec 16) (s : State) : Host.Outcome State Fault Refusal :=
  serve producerPort s
    (.ok (respond (if enqueued count s = count.toNat then .ok else .dropped) none (enqueueFrames count s)))

/-- AUD_DEQ (45_audio.md R255). -/
def execAudDeq (s : State) : Host.Outcome State Fault Refusal :=
  serve consumerPort s do
    let t ← dequeue .request s
    return respond (dequeueOutcome s) (some t.last) t

end Sys2Proof.Machine
end

