-- ==== Sys2Proof/Machine/Encoder.lean ====
section
/-! DEFINITION. PixelEncoder and the scaling mode: `ENC_A`, `ENC_B`, `pack`, `blank_line`, SET_SCALE
(40_pixel_encoder.md). -/

namespace Sys2Proof.Machine

/-- `ENC_A`: each byte twice (40_pixel_encoder.md R132). -/
def encA (src : List Byte) : List PixelUnit := src.map (fun x => x ++ x)

/-- `col(i)`: the palette entry of logical pixel `i`, its index masked to 6 bits (40_pixel_encoder.md R131, R133). -/
def col (c : Config) (src : List Byte) (i : Nat) : PixelUnit :=
  (c.palette.getD ((src.getD (c.srcX0 + i) 0) &&& 0x3F#8).toNat 0).setWidth 16

/-- Unit `o` of `ENC_B` in mode "1:1": margins of 32 units (40_pixel_encoder.md R134). -/
def unitOneToOne (c : Config) (src : List Byte) (o : Nat) : PixelUnit :=
  if 32 ≤ o ∧ o < 288 then col c src (o - 32) else c.marginSample

/-- Unit `o` of `ENC_B` in mode "8:7": margins of 16 units (40_pixel_encoder.md R135). -/
def unitEightToSeven (c : Config) (src : List Byte) (o : Nat) : PixelUnit :=
  if 16 ≤ o ∧ o < 304 then col c src (scaleMap c.scaleMap (o - 16)) else c.marginSample

/-- `ENC_B` (40_pixel_encoder.md R133 to R135). -/
def encB (c : Config) (mode : ScaleMode) (src : List Byte) : List PixelUnit :=
  match mode with
  | .oneToOne => (List.range fbWidth).map (unitOneToOne c src)
  | .eightToSeven => (List.range fbWidth).map (unitEightToSeven c src)

/-- The encoder of the build: PIXEL_VARIANT selects it; variant A ignores the scaling mode (40_pixel_encoder.md R130,
R132). -/
def encodeRow (c : Config) (mode : ScaleMode) (src : List Byte) : List PixelUnit :=
  match c.pixelVariant with
  | .a => encA src
  | .b => encB c mode src

/-- `blank_line()` (40_pixel_encoder.md R138). -/
def blankLine (c : Config) : List PixelUnit :=
  match c.pixelVariant with
  | .a => List.replicate fbWidth 0
  | .b => List.replicate fbWidth c.marginSample

/-- `pack`: two units a word, the earlier in bits 15:0 (40_pixel_encoder.md R137). -/
def pack : List PixelUnit → List Word
  | even :: odd :: rest => (odd ++ even) :: pack rest
  | _ => []

/-- SET_SCALE `mode` (40_pixel_encoder.md R141). -/
def execSetScale (mode : ScaleMode) (s : State) : Host.Outcome State Fault Refusal :=
  serve configPort s (.ok (respond .ok none { s with scalePending := mode }))

end Sys2Proof.Machine
end

