-- ==== Sys2Proof/Machine/FrameExchange.lean ====
section
/-! DEFINITION. FrameExchange: LINE_BEGIN, LINE_END, PUBLISH, FRAME_COMPLETE, ACQUIRE, RELEASE (44_frame_exchange.md). -/

namespace Sys2Proof.Machine

/-- What LINE_BEGIN writes (44_frame_exchange.md R230). -/
def openLine (line : BitVec 9) (s : State) : State := { s with prodLine := lineField line, prodOpen := true }

/-- No line is open, or another one than `line` (44_frame_exchange.md R231). -/
def lineNotOpen (line : BitVec 9) (s : State) : Bool := !s.prodOpen || s.prodLine != lineField line

/-- What LINE_END writes when its line is open: one row of FB[WT], then PROD_OPEN (44_frame_exchange.md R231). -/
def closeLine (line : BitVec 9) (s : State) : State :=
  { writeRow s s.fx.wt line.toNat (linePayload s) with prodOpen := false }

/-- The three writes of an accepted publish of `c` (44_frame_exchange.md R232). -/
def publishFlags (c : BufId) (f : FrameExchange) : FrameExchange :=
  ({ f.setReady c true with wt := otherBuf c }).setReady (otherBuf c) false

/-- PUBLISH under the mutex: dropped while the other buffer is rendering (44_frame_exchange.md R232); the policy HOLD is
not specified there (93 U15; log 21). -/
def publishAct (c : BufId) (s : State) : Attempt State :=
  if s.fx.rendering (otherBuf c) then
    match s.cfg.publishBusyPolicy with
    | .drop => .ok (respond .dropped none s)
    | .hold => .error (.refuse .holdPolicy)
  else .ok (respond .ok none { s with fx := publishFlags c s.fx })

/-- The buffer ACQUIRE returns: `ready && !rendering`, other(WT) first (44_frame_exchange.md R234). -/
def acquirePick (f : FrameExchange) : Option BufId :=
  if f.ready (otherBuf f.wt) && !f.rendering (otherBuf f.wt) then some (otherBuf f.wt)
  else if f.ready f.wt && !f.rendering f.wt then some f.wt
  else none

/-- The outcome of ACQUIRE: None where no buffer is returned (44_frame_exchange.md R234, 60_exceptions.md R270). -/
def acquireOutcome (pick : Option BufId) : OutcomeCode := if pick.isSome then .ok else .none

/-- RENDERING[b] <- 1 for the buffer returned, if any (44_frame_exchange.md R234). -/
def markRendering (pick : Option BufId) (s : State) : State :=
  match pick with
  | some b => { s with fx := s.fx.setRendering b true }
  | none => s

/-- ACQUIRE as a procedure: the new state and the buffer returned (44_frame_exchange.md R234). -/
def acquireFrame (s : State) : Attempt (State × Option BufId) := do
  let t ← underMutex .consumer s (fun u => .ok (markRendering (acquirePick u.fx) u))
  return (t, acquirePick s.fx)

/-- RENDERING[b] <- 0; the race on the buffer, if there was one, is over (44_frame_exchange.md R236, 20 R72). -/
def clearRendering (b : BufId) (s : State) : State :=
  { s with fx := s.fx.setRendering b false, race := dropRace b s.race }

/-- RELEASE as a procedure (44_frame_exchange.md R236). -/
def releaseFrame (b : BufId) (s : State) : Attempt State :=
  underMutex .consumer s (fun u => .ok (clearRendering b u))

/-- ACQUIRE and RELEASE as requests are for a consumer that is not running the sequencer; a model refuses them while
RUN = 1 (44_frame_exchange.md R235, 93 U9). -/
def whileStopped (s : State) (body : Attempt State) : Attempt State :=
  if s.run then .error (.refuse .sequencerOwnsFrames) else body

/-- LINE_BEGIN `line` (44_frame_exchange.md R230). -/
def execLineBegin (line : BitVec 9) (s : State) : Host.Outcome State Fault Refusal :=
  serve producerPort s
    (if lineLegal line then underMutex .producer s (fun t => .ok (respond .ok none (openLine line t)))
     else .ok (badRequest s))

/-- LINE_END `line` with its payload (44_frame_exchange.md R231). -/
def execLineEnd (line : BitVec 9) (s : State) : Host.Outcome State Fault Refusal :=
  serve producerPort s
    (if lineLegal line then
       underMutex .producer s (fun t =>
         .ok (if lineNotOpen line t then badRequest t else respond .ok none (closeLine line t)))
     else .ok (badRequest s))

/-- PUBLISH `buf` (44_frame_exchange.md R232). -/
def execPublish (buf : BufId) (s : State) : Host.Outcome State Fault Refusal :=
  serve producerPort s (underMutex .producer s (publishAct buf))

/-- FRAME_COMPLETE: PUBLISH of WT, read inside the same step (44_frame_exchange.md R233). -/
def execFrameComplete (s : State) : Host.Outcome State Fault Refusal :=
  serve producerPort s (underMutex .producer s (fun t => publishAct t.fx.wt t))

/-- ACQUIRE (44_frame_exchange.md R234, R235). -/
def execAcquire (s : State) : Host.Outcome State Fault Refusal :=
  serve consumerPort s
    (whileStopped s do
      let (t, pick) ← acquireFrame s
      return respond (acquireOutcome pick) (some (acquireRsp pick)) t)

/-- RELEASE `buf` (44_frame_exchange.md R235, R236). -/
def execRelease (buf : BufId) (s : State) : Host.Outcome State Fault Refusal :=
  serve consumerPort s
    (whileStopped s do
      let t ← releaseFrame buf s
      return respond .ok none t)

end Sys2Proof.Machine
end

