-- ==== Sys2Proof/Machine/Dma.lean ====
section
/-! DEFINITION. The two transfer channels: `dma_trigger`, `dma_xfer`, `dma_complete` (42_dma_scheduler.md). -/

namespace Sys2Proof.Machine

/-- The channel after its descriptor is sampled (42_dma_scheduler.md R181). -/
def loadedChannel (c : Channel) : Channel := { c with rptr := c.src, rem := c.len, busy := true }

/-- `dma_trigger` (42_dma_scheduler.md R181): no effect on a busy channel; a descriptor outside the regions of
20_memory.md R66, or of length 0, is refused (R62, 93 U8). -/
def dmaTrigger (ch : Slot) (s : State) : Attempt State :=
  let c := s.chan ch
  if c.busy then .ok s
  else if descriptorLegal s.cfg c.src c.len then .ok (s.setChan ch (loadedChannel c))
  else .error (.refuse (.badDescriptor ch c.src c.len))

/-- `dma_xfer ch` is enabled (42_dma_scheduler.md R182). -/
def dmaXferEnabled (ch : Slot) (s : State) : Bool :=
  (s.chan ch).busy && (s.chan ch).rem != 0 && decide (s.fifo.length < s.cfg.fifoDepth)

/-- Step `dma_xfer ch` (42_dma_scheduler.md R182): one word into the FIFO. -/
def dmaXfer (ch : Slot) (s : State) : Attempt State :=
  let c := s.chan ch
  match dmaRead s c.rptr with
  | some w => .ok ({ s with fifo := s.fifo ++ [w] }.setChan ch { c with rptr := c.rptr + 1, rem := c.rem - 1 })
  | none => .error (.fault (.reservedDmaAddress c.rptr))

/-- `dma_complete ch` is enabled (42_dma_scheduler.md R183). -/
def dmaCompleteEnabled (ch : Slot) (s : State) : Bool := (s.chan ch).busy && (s.chan ch).rem == 0

/-- Step `dma_complete ch` (42_dma_scheduler.md R183): the interrupt request, and the chain to the other channel. -/
def dmaComplete (ch : Slot) (s : State) : Attempt State :=
  dmaTrigger (otherSlot ch) (s.setChan ch { s.chan ch with busy := false, done := true })

end Sys2Proof.Machine
end

