-- ==== Sys2Proof/Machine/Sequencer.lean ====
section
/-! DEFINITION. The scanline sequencer: regions, `post`, `frame_start`, `frame_end`, the HANDLER step, START
(41_scanline_sequencer.md, 42_dma_scheduler.md R186). -/

namespace Sys2Proof.Machine

/-- The four regions of the raster (41_scanline_sequencer.md R151). -/
inductive VRegion where
  | frontPorch
  | sync
  | backPorch
  | active
  deriving DecidableEq, Repr

/-- `region(V)`; no region is defined at or past V_TOTAL (41_scanline_sequencer.md R151; log 17). -/
def region (c : Config) (v : Nat) : Option VRegion :=
  if v < tFpEnd c then some .frontPorch
  else if v < tSyncEnd c then some .sync
  else if v < tBpEnd c then some .backPorch
  else if v < vTotal c then some .active
  else none

/-- The five state names (41_scanline_sequencer.md R150, R151). -/
inductive SeqState where
  | vsyncFrontPorch
  | vsyncActive
  | vsyncBackPorch
  | activeVideoCommandPhase
  | activeVideoPixelPhase
  deriving DecidableEq, Repr

/-- `state(V, PHASE)`: not stored, a function of the line counter and the phase (41_scanline_sequencer.md R151). -/
def seqState (c : Config) (v : Nat) (phase : Phase) : Option SeqState :=
  match region c v with
  | some .frontPorch => some .vsyncFrontPorch
  | some .sync => some .vsyncActive
  | some .backPorch => some .vsyncBackPorch
  | some .active =>
    some (if c.twoPhase && phase == .pix then .activeVideoPixelPhase else .activeVideoCommandPhase)
  | none => none

/-- `row_of(V)` (41_scanline_sequencer.md R153). -/
def rowOf (c : Config) (v : Nat) : Nat := (v - tBpEnd c) / lineRepeat c

/-- `line_units()` (41_scanline_sequencer.md R155). -/
def lineUnits (s : State) : List PixelUnit :=
  if s.dispValid then encodeRow s.cfg s.scaleActive (readRow s s.dispBuf (rowOf s.cfg s.v)) else blankLine s.cfg

/-- The consumer now displays `pick`, if a buffer was acquired (41_scanline_sequencer.md R161). -/
def displayPick (pick : Option BufId) (s : State) : State :=
  match pick with
  | some b => { s with dispValid := true, dispBuf := b }
  | none => s

/-- `frame_start()` (41_scanline_sequencer.md R161), with the outcome of its ACQUIRE. -/
def frameStart (s : State) : Attempt State := do
  let (t, pick) ← acquireFrame { s with scaleActive := s.scalePending }
  return note (acquireOutcome pick) (displayPick pick t)

/-- `frame_end()` (41_scanline_sequencer.md R161), with the outcome of its RELEASE, where it calls it. -/
def frameEnd (s : State) : Attempt State :=
  if s.dispValid then do
    let t ← releaseFrame s.dispBuf s
    return note .ok t
  else .ok s

/-- The line counter's increment, with its wrap (10_state.md R24, 41 R156). -/
def nextLine (c : Config) (v : Nat) : Nat := if v + 1 = vTotal c then 0 else v + 1

/-- `advance()` (41_scanline_sequencer.md R156). -/
def advance (s : State) : Attempt State := do
  let t ← auxAudio s
  return { t with v := nextLine t.cfg t.v }

/-- Words written into a slot's line buffer, from its first word on (10_state.md R31). -/
def fillLineBuf (ch : Slot) (words : List Word) (s : State) : State :=
  { s with lineBuf := Memory.writeList s.lineBuf (lineBufBase ch) words }

/-- `write_desc` of a whole command table (42_dma_scheduler.md R184). -/
def describeTable (ch : Slot) (t : TableId) (s : State) : State :=
  writeDesc ch (BitVec.ofNat 16 (tableBase t)) (BitVec.ofNat 16 s.cfg.cmdListLen) s

/-- Write a work item into a slot's line buffer and describe it (41_scanline_sequencer.md R158, R159). -/
def describeLine (ch : Slot) (words : List Word) (len : Nat) (s : State) : State :=
  writeDesc ch (BitVec.ofNat 16 (lineBufBase ch)) (BitVec.ofNat 16 len) (fillLineBuf ch words s)

/-- `frame_start` on the first active line (41_scanline_sequencer.md R158, R159). -/
def startOfFrame (s : State) : Attempt State := if s.v = tBpEnd s.cfg then frameStart s else .ok s

/-- `frame_end` on the last active line (41_scanline_sequencer.md R158, R159). -/
def endOfFrame (s : State) : Attempt State := if s.v + 1 = vTotal s.cfg then frameEnd s else .ok s

/-- `post_blank` (41_scanline_sequencer.md R157). -/
def postBlank (ch : Slot) (t : TableId) (s : State) : Attempt State := advance (describeTable ch t s)

/-- `post_active2`, TWO_PHASE = true (41_scanline_sequencer.md R158). -/
def postActive2 (ch : Slot) (s : State) : Attempt State :=
  match s.phase with
  | .cmd => .ok { describeTable ch .active s with phase := .pix }
  | .pix => do
    let t ← startOfFrame s
    let u ← endOfFrame (describeLine ch (pack (lineUnits t)) wordsPerLine t)
    advance { u with phase := .cmd }

/-- `post_active1`, TWO_PHASE = false (41_scanline_sequencer.md R159). -/
def postActive1 (ch : Slot) (s : State) : Attempt State := do
  let t ← startOfFrame s
  let u ← endOfFrame
    (describeLine ch (tableWords t.cfg .active ++ pack (lineUnits t)) (t.cfg.cmdListLen + wordsPerLine) t)
  advance u

/-- Writing a slot that is being read sets M_DESC, before anything is written (42_dma_scheduler.md R185). -/
def markBusySlot (ch : Slot) (s : State) : State := { s with mDesc := s.mDesc || (s.chan ch).busy }

/-- The work item of `post`, by region (41_scanline_sequencer.md R156). -/
def postItem (ch : Slot) (s : State) : Attempt State :=
  match region s.cfg s.v with
  | some .frontPorch => postBlank ch .blank s
  | some .sync => postBlank ch .vsync s
  | some .backPorch => postBlank ch .blank s
  | some .active => if s.cfg.twoPhase then postActive2 ch s else postActive1 ch s
  | none => .error (.refuse (.lineOutOfRange s.v))

/-- Procedure `post` (41_scanline_sequencer.md R156). -/
def post (ch : Slot) (s : State) : Attempt State := postItem ch (markBusySlot ch s)

/-- The HANDLER's toggle and the clear of the completion flag it names: the interrupt's entry saves nothing and changes
no mode (42_dma_scheduler.md R186 (1), (2), 60_exceptions.md R277). -/
def acknowledge (s : State) : State :=
  { s with lastDone := otherSlot s.lastDone }.setChan (otherSlot s.lastDone)
    { s.chan (otherSlot s.lastDone) with done := false }

/-- Step `handler` (42_dma_scheduler.md R186); its return restores nothing (60_exceptions.md R278). -/
def handler (s : State) : Attempt State := post (otherSlot s.lastDone) (acknowledge s)

/-- The first assignments of START (41_scanline_sequencer.md R162). -/
def startSequencer (s : State) : State := { s with run := true, v := 0, phase := .cmd, lastDone := .pong }

/-- START (41_scanline_sequencer.md R162). -/
def execStart (s : State) : Host.Outcome State Fault Refusal :=
  serve consumerPort s
    (if s.run then .ok (badRequest s)
     else do
      let a ← post .ping (startSequencer s)
      let b ← post .pong a
      let c ← dmaTrigger .ping b
      return respond .ok none c)

end Sys2Proof.Machine
end

