-- ==== Sys2Proof/Machine/Tmds.lean ====
section
/-! DEFINITION. The line code TMDS_ENC: `tmds8`, `ctrl_sym`, `wire` and the lanes' bits (43_serializer_tmds.md R210 to
R215). The default code is the spec's, marked there as general knowledge (93 G1, G2; log 30). -/

namespace Sys2Proof.Machine

/-- `popcount` (00_scope.md R10). -/
def popcount {w : Nat} (x : BitVec w) : Nat := ((List.range w).filter (fun i => x.getLsbD i)).length

/-- Stage 1 takes the XNOR chain (43_serializer_tmds.md R212). -/
def usesXnor (d : Byte) : Bool := decide (4 < popcount d) || (popcount d == 4 && !d.getLsbD 0)

/-- Bit `i` of `q_m` for i in 0..7 (43_serializer_tmds.md R212). -/
def chainBit (xnor : Bool) (d : Byte) : Nat → Bool
  | 0 => d.getLsbD 0
  | i + 1 => if xnor then !(chainBit xnor d i ^^ d.getLsbD (i + 1)) else chainBit xnor d i ^^ d.getLsbD (i + 1)

/-- Bits 7:0 of `q_m` (43_serializer_tmds.md R212). -/
def chainByte (xnor : Bool) (d : Byte) : Byte := BitVec.ofBoolListLE ((List.range 8).map (chainBit xnor d))

/-- `q_m` (43_serializer_tmds.md R212). -/
def tmdsStage1 (d : Byte) : BitVec 9 := BitVec.ofBool (!usesXnor d) ++ chainByte (usesXnor d) d

/-- A symbol from bits 9, 8 and 7:0. -/
def symbolOf (bit9 bit8 : Bool) (low : Byte) : Symbol := BitVec.ofBool bit9 ++ BitVec.ofBool bit8 ++ low

/-- `tmds8`, stage 2, from `q_m` and the lane's disparity (43_serializer_tmds.md R213). -/
def tmdsStage2 (qm : BitVec 9) (cnt : Int) : Coded :=
  let low : Byte := qm.extractLsb' 0 8
  let m : Bool := qm.getLsbD 8
  let n1 : Int := popcount low
  let n0 : Int := 8 - n1
  if cnt = 0 ∨ n1 = n0 then
    { sym := symbolOf (!m) m (if m then low else ~~~low)
      cnt := if m then cnt + (n1 - n0) else cnt + (n0 - n1) }
  else if (0 < cnt ∧ n0 < n1) ∨ (cnt < 0 ∧ n1 < n0) then
    { sym := symbolOf true m (~~~low), cnt := cnt + 2 * (m.toNat : Int) + (n0 - n1) }
  else
    { sym := symbolOf false m low, cnt := cnt - 2 * (1 - (m.toNat : Int)) + (n1 - n0) }

/-- `tmds8` on one lane (43_serializer_tmds.md R212, R213), or what another line code gives (log 19). -/
def tmds8 (code : LineCode) (d : Byte) (cnt : Int) : Coded :=
  match code with
  | .standard => tmdsStage2 (tmdsStage1 d) cnt
  | .other id => { sym := (Config.otherSymbol id d cnt).1, cnt := (Config.otherSymbol id d cnt).2 }

/-- The four control symbols of the default code (43_serializer_tmds.md R214). -/
def standardCtrlSym (c1 c0 : Bool) : Symbol :=
  match c1, c0 with
  | false, false => 0x354
  | false, true => 0x0AB
  | true, false => 0x154
  | true, true => 0x2AB

/-- `ctrl_sym` (43_serializer_tmds.md R214). -/
def ctrlSym (code : LineCode) (c1 c0 : Bool) : Symbol :=
  match code with
  | .standard => standardCtrlSym c1 c0
  | .other id => Config.otherCtrlSymbol id c1 c0

/-- `wire(p)`: the record of one pixel period and the lanes' new disparity: blue and the sync bits on lane 0, green on
lane 1, red on lane 2 (43_serializer_tmds.md R210, R211). -/
def wirePeriod (code : LineCode) (cnt : Disparity) (p : PixelPeriod) : OutRecord × Disparity :=
  match p with
  | .ctrl vs hs =>
    ({ period := p
       wire := { sym0 := ctrlSym code vs hs, sym1 := ctrlSym code false false, sym2 := ctrlSym code false false } }, cnt)
  | .video r g b =>
    let l0 := tmds8 code b cnt.lane0
    let l1 := tmds8 code g cnt.lane1
    let l2 := tmds8 code r cnt.lane2
    ({ period := p, wire := { sym0 := l0.sym, sym1 := l1.sym, sym2 := l2.sym } },
     { lane0 := l0.cnt, lane1 := l1.cnt, lane2 := l2.cnt })

/-- The records of successive pixel periods. -/
def wireRecords (code : LineCode) : Disparity → List PixelPeriod → List OutRecord
  | _, [] => []
  | cnt, p :: ps => (wirePeriod code cnt p).1 :: wireRecords code (wirePeriod code cnt p).2 ps

/-- The disparity after successive pixel periods. -/
def wireDisparity (code : LineCode) : Disparity → List PixelPeriod → Disparity
  | cnt, [] => cnt
  | cnt, p :: ps => wireDisparity code (wirePeriod code cnt p).2 ps

/-- A lane's bits in one pixel period, bit 0 of the symbol first (43_serializer_tmds.md R215). -/
def laneBits (q : Symbol) : List Bool := (List.range 10).map (fun i => q.getLsbD i)

/-- The clock lane in one pixel period: five bit times at one level, five at the other; which comes first is not
specified (30_encoding.md R117, 93 U13; log 31). -/
def clockBits : List Bool := List.replicate 5 Config.clockFirstLevel ++ List.replicate 5 (!Config.clockFirstLevel)

/-- Bit `i` of what a receiver of the default code reads from symbol `q` (43_serializer_tmds.md R215). -/
def decodedBit (q : Symbol) (i : Nat) : Bool :=
  let x : Byte := if q.getLsbD 9 then ~~~(q.extractLsb' 0 8) else q.extractLsb' 0 8
  match i with
  | 0 => x.getLsbD 0
  | k + 1 => if q.getLsbD 8 then x.getLsbD (k + 1) ^^ x.getLsbD k else !(x.getLsbD (k + 1) ^^ x.getLsbD k)

/-- The byte a receiver of the default code reads from a symbol (43_serializer_tmds.md R215). -/
def tmdsDecode (q : Symbol) : Byte := BitVec.ofBoolListLE ((List.range 8).map (decodedBit q))

end Sys2Proof.Machine
end

