-- ==== Sys2Proof/Machine/Serializer.lean ====
section
/-! DEFINITION. The serial output peripheral: NOP, CTRL, PIXELS, data words, reserved words (43_serializer_tmds.md). -/

namespace Sys2Proof.Machine

/-- `expand(u, p)` (43_serializer_tmds.md R209): the channel in the top bits, zeros below. -/
def expand (variant : PixelVariant) (u : PixelUnit) (p : Nat) : PixelPeriod :=
  match variant with
  | .a =>
    let x : Byte := if p = 0 then u.extractLsb' 0 8 else u.extractLsb' 8 8
    .video (x.extractLsb' 5 3 ++ 0#5) (x.extractLsb' 2 3 ++ 0#5) (x.extractLsb' 0 2 ++ 0#6)
  | .b => .video (u.extractLsb' 10 5 ++ 0#3) (u.extractLsb' 5 5 ++ 0#3) (u.extractLsb' 0 5 ++ 0#3)

/-- The pixel periods of one unit (43_serializer_tmds.md R208). -/
def unitPeriods (c : Config) (u : PixelUnit) : List PixelPeriod :=
  (List.range (pixelRepeat c)).map (expand c.pixelVariant u)

/-- `emit` of successive pixel periods (43_serializer_tmds.md R203, R210). -/
def emitPeriods (ps : List PixelPeriod) (s : State) : State :=
  { extendOut (wireRecords s.cfg.lineCode s.cnt ps) s with cnt := wireDisparity s.cfg.lineCode s.cnt ps }

/-- `ctrl_run`: `n` control periods, then the disparity counters are cleared (43_serializer_tmds.md R206, R214). -/
def ctrlRun (vs hs : Bool) (n : Nat) (s : State) : State :=
  { emitPeriods (List.replicate n (.ctrl vs hs)) s with cnt := { lane0 := 0, lane1 := 0, lane2 := 0 } }

/-- A reserved command word: nothing is emitted and M_CMD is set (43_serializer_tmds.md R207). -/
def reservedCommand (s : State) : State := { extendOut [] s with mCmd := true }

/-- The units of a data word that are owed, the earlier first; an odd count skips the last high half
(43_serializer_tmds.md R208, 30_encoding.md R115). -/
def owedUnits (owed : BitVec 12) (w : Word) : List PixelUnit := [lowUnit w, highUnit w].take owed.toNat

/-- `data_word` (43_serializer_tmds.md R208). -/
def dataWord (w : Word) (s : State) : State :=
  let units := owedUnits s.serRem w
  { emitPeriods (units.flatMap (unitPeriods s.cfg)) s with serRem := s.serRem - BitVec.ofNat 12 units.length }

/-- NOP: consumed, nothing emitted (43_serializer_tmds.md R205). -/
def execNop (s : State) : Host.Outcome State Fault Refusal := .next (extendOut [] s)

/-- CTRL `vs hs n` (43_serializer_tmds.md R206); `n = 0` is reserved (30_encoding.md R114). -/
def execCtrl (vs hs : Bool) (n : BitVec 12) (s : State) : Host.Outcome State Fault Refusal :=
  .next (if n = 0 then reservedCommand s else ctrlRun vs hs n.toNat s)

/-- PIXELS `n`: SER_REM <- n (43_serializer_tmds.md R208); `n = 0` is reserved (30_encoding.md R114). -/
def execPixels (n : BitVec 12) (s : State) : Host.Outcome State Fault Refusal :=
  .next (if n = 0 then reservedCommand s else { extendOut [] s with serRem := n })

end Sys2Proof.Machine
end

