-- ==== Sys2Proof/Machine/Dispatch.lean ====
section
/-! DEFINITION. One arm per operation of the opcode table. -/

namespace Sys2Proof.Machine

def exec (i : Instr) (s : State) : Host.Outcome State Fault Refusal :=
  match i with
  | .lineBegin line => Sys2Proof.Machine.execLineBegin line s
  | .lineEnd line => Sys2Proof.Machine.execLineEnd line s
  | .publish buf => Sys2Proof.Machine.execPublish buf s
  | .frameComplete => Sys2Proof.Machine.execFrameComplete s
  | .audCap => Sys2Proof.Machine.execAudCap s
  | .audEnq count => Sys2Proof.Machine.execAudEnq count s
  | .setScale mode => Sys2Proof.Machine.execSetScale mode s
  | .acquire => Sys2Proof.Machine.execAcquire s
  | .release buf => Sys2Proof.Machine.execRelease buf s
  | .audDeq => Sys2Proof.Machine.execAudDeq s
  | .start => Sys2Proof.Machine.execStart s
  | .nop => Sys2Proof.Machine.execNop s
  | .ctrl vs hs n => Sys2Proof.Machine.execCtrl vs hs n s
  | .pixels n => Sys2Proof.Machine.execPixels n s

end Sys2Proof.Machine
end

