-- ==== Sys2Proof/Machine/Turns.lean ====
section
/-! DEFINITION. The turns of the agents: which agent moves, how a word is fetched and run (00_scope.md R9, R12). -/

namespace Sys2Proof.Machine

/-- The start of a step: the port's outputs of the step before are gone, the free-value counter moves. -/
def beginStep (s : State) : State := { s with port := Port.idle, fresh := s.fresh + 1 }

/-- A request at the port: who asks, and with which payload. -/
def present (ctx : Context) (payload : List (List Byte)) (s : State) : State :=
  { s with port := { s.port with ctx := ctx, payload := payload } }

/-- A request that ended with no outcome still waits for the mutex: its turn is offered again, after the others
(20_memory.md R74; log 15). -/
def settleRequest (turn : Turn) (o : Host.Outcome State Fault Refusal) : Host.Outcome State Fault Refusal :=
  match o with
  | .next t => .next (if t.port.outcome.isSome then t else { t with inbox := t.inbox ++ [turn] })
  | .fault r => .fault r
  | .refused r => .refused r

/-- An illegal request word: BadRequest, whoever sent it (30_encoding.md R100), but for the interrupt level of the consumer
core, which issues no request words at all (60_exceptions.md R282). -/
def illegalWord (s : State) : Host.Outcome State Fault Refusal :=
  if s.port.ctx == .consumerInterrupt then .refused (.wrongPort .consumerInterrupt) else .next (badRequest s)

/-- A request word at its port: decoded and run, or illegal (30_encoding.md R100, 60_exceptions.md R271). -/
def requestTurn (ctx : Context) (word : Word) (payload : List (List Byte)) (s : State) :
    Host.Outcome State Fault Refusal :=
  match decodeReq word with
  | .ok i => settleRequest (.request ctx word payload) (exec i (present ctx payload s))
  | .error _ => illegalWord (present ctx payload s)

/-- The word popped, with the FIFO after the pop, in data mode or command mode (43_serializer_tmds.md R204). -/
def runPopped (w : Word) (s : State) : Host.Outcome State Fault Refusal :=
  if s.serRem != 0 then .next (dataWord w s)
  else
    match decodeCmd w with
    | .ok i => exec i s
    | .error _ => .next (reservedCommand s)

/-- Step `ser_pop` (43_serializer_tmds.md R204); on an empty FIFO it is not enabled and the turn passes (log 4). -/
def serPopTurn (s : State) : Host.Outcome State Fault Refusal :=
  match s.fifo with
  | w :: rest => runPopped w { s with fifo := rest }
  | [] => .next s

/-- A step taken where it is enabled; the turn passes where it is not (log 4). -/
def whenEnabled (enabled : Bool) (s : State) (step : Attempt State) : Host.Outcome State Fault Refusal :=
  if enabled then finish s step else .next s

/-- Power-on reset: every piece of state to its reset value, all in one step (70_reset_and_hazards.md R300, R301); the
environment's turns go on and the unspecified contents are new ones (log 28). -/
def powerOn (s : State) : State :=
  { State.resetWith s.cfg with inbox := s.inbox, fresh := s.fresh, epoch := s.epoch + 1 }

/-- One agent's turn. -/
def takeTurn (turn : Turn) (s : State) : Host.Outcome State Fault Refusal :=
  match turn with
  | .request ctx word payload => requestTurn ctx word payload s
  | .dmaXfer ch => whenEnabled (dmaXferEnabled ch s) s (dmaXfer ch s)
  | .dmaComplete ch => whenEnabled (dmaCompleteEnabled ch s) s (dmaComplete ch s)
  | .handler => whenEnabled (irqDmaDeliverable s) s (handler s)
  | .serPop => serPopTurn s
  | .audTick => .next (audTick s)
  | .audIsr => whenEnabled (irqAudDeliverable s) s (audIsr s)
  | .reset => .next (powerOn s)

/-- The agent steps that are enabled (00_scope.md R9), the interrupts first (60_exceptions.md R276). -/
def enabledTurns (s : State) : List Turn :=
  (if irqDmaDeliverable s then [.handler] else [])
    ++ (if dmaCompleteEnabled .ping s then [.dmaComplete .ping] else [])
    ++ (if dmaCompleteEnabled .pong s then [.dmaComplete .pong] else [])
    ++ (if dmaXferEnabled .ping s then [.dmaXfer .ping] else [])
    ++ (if dmaXferEnabled .pong s then [.dmaXfer .pong] else [])
    ++ (if s.fifo.isEmpty then [] else [.serPop])
    ++ (if irqAudDeliverable s then [.audIsr] else [])

/-- With no turn offered, some enabled agent moves: which one is a free value; none where nothing is enabled and the
consumer's loop only spins (00_scope.md R9; log 3). -/
def freeTurn (s : State) : Option Turn :=
  match enabledTurns s with
  | [] => none
  | [only] => some only
  | first :: more => some ((first :: more).getD (Config.agentChoice s.fresh % (more.length + 1)) first)

/-- The turn the next step takes: the environment's first offer, else a free choice. The flash-erase rendezvous is the
model's choice between the two treatments of 70_reset_and_hazards.md R318 and 93 U14: an arbitrary finite pause of one core,
which is a run of turns with none for that core; nothing is refused for it (DESIGN CHOICE, log 36). -/
def nextTurn (s : State) : Option Turn :=
  match s.inbox with
  | turn :: _ => some turn
  | [] => freeTurn s

/-- One step of a legal build: the next turn is taken from the inbox and carried out; with none, VOUT is idle. -/
def runTurn (s : State) : Host.Outcome State Fault Refusal :=
  match nextTurn s with
  | some turn => takeTurn turn { beginStep s with inbox := s.inbox.tail }
  | none => .next (beginStep s)

/-- A request context that an operation's port allows (30_encoding.md R91). -/
def issuerOf : Instr → Context
  | .lineBegin _ => .producer
  | .lineEnd _ => .producer
  | .publish _ => .producer
  | .frameComplete => .producer
  | .audCap => .producer
  | .audEnq _ => .producer
  | .setScale _ => .producer
  | .acquire => .consumerThread
  | .release _ => .consumerThread
  | .audDeq => .consumerThread
  | .start => .consumerThread
  | .nop => .consumerThread
  | .ctrl _ _ _ => .consumerThread
  | .pixels _ => .consumerThread

/-- Put a word where the next step fetches it (log 5): a legal request word as the next offered turn, from a context its
port allows and with no payload; a legal command word at the head of the FIFO, in command mode, with SER's turn next; any
other word at the request port. -/
def placeWord (s : State) (w : Word) : State :=
  match decodeReq w with
  | .ok i => { s with inbox := .request (issuerOf i) w [] :: s.inbox }
  | .error _ =>
    match decodeCmd w with
    | .ok _ => { s with fifo := w :: s.fifo.tail, serRem := 0, inbox := .serPop :: s.inbox }
    | .error _ => { s with inbox := .request .consumerThread w [] :: s.inbox }

/-- Raster position of record `n` of OUT: line and column (43_serializer_tmds.md R203). -/
def rasterPosition (c : Config) (n : Nat) : Nat × Nat := (n / hTotal c % vTotal c, n % hTotal c)

end Sys2Proof.Machine
end

