-- ==== Sys2Proof/Machine/Step.lean ====
section
/-! DEFINITION. The step function, and where a test places an instruction. -/

namespace Sys2Proof.Machine

/-- One step of VOUT: a build that breaks a constraint of 00_scope.md R7 is refused (93 U12; log 22). -/
def step (s : State) : Host.Outcome State Fault Refusal :=
  if buildLegal s.cfg then runTurn s else .refused .illegalBuild

/-- `s` with the instruction whose bits are `w` where the very next step fetches it. -/
def State.withFetchWord (s : State) (nbits w : Nat) : State := placeWord s (BitVec.ofNat 32 (w % 2 ^ nbits))

end Sys2Proof.Machine
end

