-- ==== Sys2Proof/Safety.lean ====
section
/-! DEFINITION. What a safe run of VOUT is: the invariants the spec states, and the real-time premise RT (70 R310). -/

namespace Sys2Proof.Machine

/-- The invariants of the FrameExchange bits, (I-a) to (I-e) in order (10_state.md R22, 44 R240). -/
abbrev FxInv (f : FrameExchange) : Prop :=
  ¬(f.rendering0 = true ∧ f.rendering1 = true) ∧
  f.rendering f.wt = false ∧
  f.ready f.wt = false ∧
  ¬(f.ready0 = true ∧ f.ready1 = true) ∧
  (f.rendering0 = true → f.ready0 = true ∧ f.ready1 = false) ∧
  (f.rendering1 = true → f.ready1 = true ∧ f.ready0 = false)

/-- A FrameExchange state with a free mutex, in the notation of 44_frame_exchange.md R237. -/
def fxState (ready0 ready1 rendering0 rendering1 : Bool) (wt : BufId) : FrameExchange :=
  { ready0 := ready0, ready1 := ready1, rendering0 := rendering0, rendering1 := rendering1, wt := wt, lock := .free }

/-- The five states of 44_frame_exchange.md R237. -/
def fxFive : List FrameExchange :=
  [ fxState false false false false .b1, fxState true false false false .b1, fxState true false true false .b1,
    fxState false true false false .b0, fxState false true false true .b0 ]

/-- Every memory is in its canonical form. -/
abbrev MemInv (s : State) : Prop :=
  Memory.wf s.fb = true ∧ Memory.wf s.lineBuf = true ∧ Memory.wf s.ring = true

/-- The ranges of the line counter, the open line and the ring cursors (10_state.md R23, R24, R33). -/
abbrev RangeInv (s : State) : Prop :=
  s.v < vTotal s.cfg ∧ s.prodLine.toNat < fbHeight ∧ s.wr < s.cfg.audioCap ∧ s.rd < s.cfg.audioCap

/-- PHASE is 0 on every blanking line, and with TWO_PHASE = false always (10_state.md R25). -/
abbrev PhaseInv (s : State) : Prop :=
  (s.v < tBpEnd s.cfg → s.phase = .cmd) ∧ (s.cfg.twoPhase = false → s.phase = .cmd)

/-- The FIFO holds at most FIFO_DEPTH words (10_state.md R30). -/
abbrev FifoInv (s : State) : Prop := s.fifo.length ≤ s.cfg.fifoDepth

/-- A lane's disparity is even and at most 8 in magnitude (43_serializer_tmds.md R213). -/
abbrev LaneBalanced (cnt : Int) : Prop := -8 ≤ cnt ∧ cnt ≤ 8 ∧ cnt % 2 = 0

/-- All three lanes are balanced. -/
abbrev DisparityInv (s : State) : Prop :=
  LaneBalanced s.cnt.lane0 ∧ LaneBalanced s.cnt.lane1 ∧ LaneBalanced s.cnt.lane2

/-- The chain while slot `ch` streams: it alone is busy; either the other slot's completion is pending and the toggle
will name it, or every completion is served and the toggle names the slot that is streaming next
(42_dma_scheduler.md R186). -/
abbrev Streaming (ch : Slot) (s : State) : Prop :=
  (s.chan ch).busy = true ∧ (s.chan (otherSlot ch)).busy = false ∧ (s.chan ch).done = false ∧
  ((s.chan (otherSlot ch)).done = true ∧ s.lastDone = ch ∨
   (s.chan (otherSlot ch)).done = false ∧ s.lastDone = otherSlot ch)

/-- The transfer chain: at rest before START, and from then on always with one slot streaming. -/
abbrev ChainInv (s : State) : Prop :=
  (s.run = false ∧ s.ch0.busy = false ∧ s.ch1.busy = false ∧ s.ch0.done = false ∧ s.ch1.done = false) ∨
  (s.run = true ∧ (Streaming .ping s ∨ Streaming .pong s))

/-- Premise RT for one step: no channel completes while a completion is still to be served (70 R310). -/
def keepsRT (s : State) : Prop :=
  ∀ ch, nextTurn s = some (.dmaComplete ch) → dmaCompleteEnabled ch s = true → irqDma s = false

/-- No mark is set: the premise of every claim about the picture (10_state.md R35). -/
abbrev MarksClear (s : State) : Prop := s.mDesc = false ∧ s.mCmd = false

/-- A transfer lies inside one region from its running address to its last word (20_memory.md R62, 45 R262 (d)). -/
abbrev TransferInRegion (s : State) (c : Channel) : Prop :=
  ∃ r, r ∈ allRegions ∧ regionBase r ≤ c.rptr.toNat ∧ c.rptr.toNat + c.rem.toNat ≤ regionBase r + regionSize s.cfg r

/-- While VOUT runs both descriptors are ones `post` wrote; a busy channel implies that it runs and stays inside one
region (42_dma_scheduler.md R181, R184). -/
abbrev DmaInv (s : State) : Prop :=
  (s.run = true → descriptorLegal s.cfg s.ch0.src s.ch0.len = true ∧ descriptorLegal s.cfg s.ch1.src s.ch1.len = true) ∧
  (s.ch0.busy = true → s.run = true ∧ TransferInRegion s s.ch0) ∧
  (s.ch1.busy = true → s.run = true ∧ TransferInRegion s s.ch1)

/-- The number of frames the ring holds (45_audio.md R250). -/
def ringHeld (s : State) : Nat := (((s.wr : Int) - (s.rd : Int)) % (s.cfg.audioCap : Int)).toNat

/-- Every held slot of the ring has been written (45_audio.md R257). -/
abbrev RingInv (s : State) : Prop :=
  ∀ k, k < ringHeld s → (Memory.read? s.ring ((s.rd + k) % s.cfg.audioCap)).isSome = true

/-- A consumer may dequeue: no other one has (45_audio.md R258). -/
abbrev MayDequeue (who : AudioConsumer) (s : State) : Prop := s.audOwner = none ∨ s.audOwner = some who

/-- `advance` may run its `aux_audio` (45_audio.md R259). -/
abbrev MayAdvance (s : State) : Prop :=
  s.cfg.audioSink = .timer ∨ s.cfg.auxPerLine = 0 ∨ MayDequeue .auxPath s

/-- The next work item carries the pixels of a line: an active line, and its pixel phase where it has two
(41_scanline_sequencer.md R158, R159). -/
abbrev ShowsLine (s : State) : Prop :=
  tBpEnd s.cfg ≤ s.v ∧ s.v < vTotal s.cfg ∧ (s.cfg.twoPhase = true → s.phase = .pix)

/-- The outcomes of the ACQUIRE of `frame_start` and the RELEASE of `frame_end` in the `post` of a work item
(41_scanline_sequencer.md R161, 60_exceptions.md R270). -/
def boundaryOutcomes (s : State) : List OutcomeCode :=
  if ShowsLine s then
    (if s.v = tBpEnd s.cfg then [acquireOutcome (acquirePick s.fx)] else []) ++
      (if s.v + 1 = vTotal s.cfg ∧ (s.dispValid = true ∨ s.v = tBpEnd s.cfg ∧ acquirePick s.fx ≠ none) then [.ok] else [])
  else []

/-- How many of `n` dequeues find a frame in the ring (45_audio.md R255). -/
def auxServed (n : Nat) (s : State) : Nat := min n (ringHeld s)

/-- The frames `n` dequeues take from the ring, in ring order (45_audio.md R255). -/
def auxFrames (n : Nat) (s : State) : List Word :=
  (List.range (auxServed n s)).map (fun k => ringFrame s ((s.rd + k) % s.cfg.audioCap))

/-- The outcomes of `n` dequeues: Ok while the ring holds frames, then Underflow (45_audio.md R255, 60_exceptions.md R270). -/
def auxOutcomes (n : Nat) (s : State) : List OutcomeCode :=
  List.replicate (auxServed n s) .ok ++ List.replicate (n - auxServed n s) .underflow

/-- What `n` dequeues of the AUX path leave: RD past the frames taken, LAST the last of them, AUD_TRACE extended by them and
then by LAST again for each dequeue of the empty ring (45_audio.md R255, R259). -/
abbrev AuxDequeued (n : Nat) (s t : State) : Prop :=
  t.rd = (s.rd + auxServed n s) % s.cfg.audioCap ∧
  t.last = (auxFrames n s).getLastD s.last ∧
  t.audTrace = s.audTrace ++ auxFrames n s ++ List.replicate (n - auxServed n s) t.last ∧
  t.audOwner = if n = 0 then s.audOwner else some .auxPath

/-- The audio side of two states is the same. -/
abbrev SameAudioOut (s t : State) : Prop :=
  t.rd = s.rd ∧ t.last = s.last ∧ t.audTrace = s.audTrace ∧ t.audOwner = s.audOwner

/-- The reset table (10_state.md R38), an unspecified cell reading as a free value of the reset's number (log 10, log 11). -/
abbrev ResetTable (t : State) : Prop :=
  t.fx = fxState false false false false .b1 ∧
  t.prodOpen = false ∧ t.prodLine = 0 ∧
  t.v = 0 ∧ t.phase = .cmd ∧ t.run = false ∧ t.lastDone = .pong ∧
  t.dispValid = false ∧ t.dispBuf = .b0 ∧
  t.scalePending = .oneToOne ∧ t.scaleActive = .oneToOne ∧
  (∀ ch, t.chan ch = { src := 0, len := 0, rptr := 0, rem := 0, busy := false, done := false }) ∧
  t.fifo = [] ∧ t.serRem = 0 ∧ t.cnt = { lane0 := 0, lane1 := 0, lane2 := 0 } ∧
  t.out = [] ∧ t.audTrace = [] ∧
  t.wr = 0 ∧ t.rd = 0 ∧ t.last = 0 ∧ t.audTick = false ∧
  t.mDesc = false ∧ t.mCmd = false ∧ irqDma t = false ∧
  (∀ a, fbByte t a = Config.fbPowerUp t.epoch a ∧ lineBufWord t a = Config.lineBufPowerUp t.epoch a ∧
    ringFrame t a = Config.ringPowerUp t.epoch a)

/-- Changes of level between adjacent bits of a symbol (43_serializer_tmds.md R214). -/
def transitions (q : Symbol) : Nat := ((List.range 9).filter (fun i => q.getLsbD i != q.getLsbD (i + 1))).length

/-- SER's own registers, the marks it reads and the build, taken from `s`; everything else, the FIFO too, from `e`. -/
def withSerializerOf (s e : State) : State :=
  { e with cfg := s.cfg, serRem := s.serRem, cnt := s.cnt, out := s.out, mDesc := s.mDesc, mCmd := s.mCmd }

/-- SER pops once in each of these states, in order: between two pops the other agents may have made anything of the rest of
VOUT, of the FIFO behind the head word too, while SER's own registers, the marks and the build come from the pop before
(43_serializer_tmds.md R204). It stops where a pop does not answer a next state. -/
def popEach : List State → State → Host.Outcome State Fault Refusal
  | [], s => .next s
  | e :: es, s =>
    match serPopTurn (withSerializerOf s e) with
    | .next t => popEach es t
    | .fault r => .fault r
    | .refused r => .refused r

/-- The words at the heads of these states' FIFOs, in order. -/
abbrev HeadWords (es : List State) (words : List Word) : Prop := es.map (fun e => e.fifo.head?) = words.map some

end Sys2Proof.Machine
end

