-- ==== Sys2Proof/Certificates/Slice0/Obligations.lean ====
section
/-! DEFINITION. The statements for the provers, from the numbered rules of spec/. -/

open Sys2Proof Sys2Proof.Machine

/-! Encoding. -/

/-- Decoding the word of a well-formed operation gives it back (30_encoding.md R91 to R99, R110 to R113). -/
def Obligations.DecodeOfEncodeIsIdentity : Prop :=
  ∀ i : Instr, i.wellFormed = true → decodeAt i.interface (encode i) = .ok i

/-- What either decoder accepts is a well-formed operation of its interface, and encodes to the word it was read from: no
bit of a legal word is ignored (30_encoding.md R91, R100, R114). -/
def Obligations.EncodeOfDecodeIsIdentity : Prop :=
  ∀ (f : Interface) (w : Word) (i : Instr), decodeAt f w = .ok i →
    encode i = w ∧ i.interface = f ∧ i.wellFormed = true

/-- No word has the fixed bits of two rows of one interface (30_encoding.md R99). -/
def Obligations.OpcodeRowsAreDisjoint : Prop :=
  ∀ (w : Word) (r1 r2 : OpRow), r1 ∈ opTable → r2 ∈ opTable → r1.interface = r2.interface →
    r1.admits w = true → r2.admits w = true → r1 = r2

/-- A few words of the spec's own table decode to the operations they stand for (95_test_vectors.md T1, T2). -/
def Obligations.SpecWordsDecode : Prop :=
  decodeReq 0x010000EF = .ok (.lineBegin 239) ∧ decodeReq 0x03000001 = .ok (.publish .b1) ∧
  decodeReq 0x11000003 = .ok (.audEnq 3) ∧ decodeReq 0x20000001 = .ok (.setScale .eightToSeven) ∧
  decodeReq 0x70000000 = .ok .start ∧ decodeCmd 0x18000060 = .ok (.ctrl true false 96) ∧
  decodeCmd 0x20000140 = .ok (.pixels 320) ∧ decodeCmd 0 = .ok .nop

/-- R100 whole: which request words are illegal, and that an illegal one changes nothing but the port, where it pulses
REQ_ERR (30_encoding.md R100). -/
def Obligations.IllegalRequestOnlyPulsesReqErr : Prop :=
  ∀ (s : State) (ctx : Context) (w : Word) (pl : List (List Byte)) (rest : List Turn),
    buildLegal s.cfg = true → s.inbox = .request ctx w pl :: rest → ctx ≠ .consumerInterrupt →
    ((∀ r ∈ opTable, r.interface = .req → r.admits w = false) ∨
      ((w.extractLsb' 24 8 = 0x01#8 ∨ w.extractLsb' 24 8 = 0x02#8) ∧ 240 ≤ (w.extractLsb' 0 9).toNat)) →
    step s = .next
      { s with
        inbox := rest
        fresh := s.fresh + 1
        port := { ctx := ctx, payload := pl, rsp := none, reqErr := true, outcome := some .badRequest, inner := [] } }

/-- A reserved command word popped in command mode is consumed, emits nothing and sets M_CMD (30_encoding.md R114,
43_serializer_tmds.md R207). -/
def Obligations.ReservedCommandSetsMCmd : Prop :=
  ∀ (s : State) (w : Word) (rest : List Word), MarksClear s → s.serRem = 0 → s.fifo = w :: rest →
    (3 ≤ (w.extractLsb' 28 4).toNat ∨
      (w.extractLsb' 28 4 = 0#4 ∧ w.extractLsb' 0 28 ≠ 0) ∨
      ((w.extractLsb' 28 4 = 1#4 ∨ w.extractLsb' 28 4 = 2#4) ∧ w.extractLsb' 0 12 = 0) ∨
      (w.extractLsb' 28 4 = 1#4 ∧ w.extractLsb' 12 14 ≠ 0) ∨
      (w.extractLsb' 28 4 = 2#4 ∧ w.extractLsb' 12 16 ≠ 0)) →
    serPopTurn s = .next { s with fifo := rest, mCmd := true }

/-! Fetching. -/

/-- When a request word offered next decodes, the step is `exec` of its operation, with the requester and the payload at
the port; an operation that must wait for the mutex is offered again (00_scope.md R12, 30_encoding.md R90, 20 R74). -/
def Obligations.StepRunsDecodedRequest : Prop :=
  ∀ (s : State) (ctx : Context) (w : Word) (pl : List (List Byte)) (rest : List Turn) (i : Instr),
    buildLegal s.cfg = true → s.inbox = .request ctx w pl :: rest → decodeReq w = .ok i →
    step s = settleRequest (.request ctx w pl)
      (exec i
        { s with
          inbox := rest
          fresh := s.fresh + 1
          port := { ctx := ctx, payload := pl, rsp := none, reqErr := false, outcome := none, inner := [] } })

/-- When SER's turn is next, the serializer is in command mode and the word at the FIFO's head decodes, the step is `exec`
of its command on the state without that word (43_serializer_tmds.md R204). -/
def Obligations.StepRunsPoppedCommand : Prop :=
  ∀ (s : State) (w : Word) (ws : List Word) (rest : List Turn) (i : Instr),
    buildLegal s.cfg = true → s.inbox = .serPop :: rest → s.fifo = w :: ws → s.serRem = 0 → decodeCmd w = .ok i →
    step s = exec i { s with inbox := rest, fresh := s.fresh + 1, port := Port.idle, fifo := ws }

/-- A well-formed operation placed by `withFetchWord` is the one the very next step runs; the one word that is legal at
both interfaces, 0x20000001, is placed as a request (log 5, log 24). -/
def Obligations.PlacedOperationIsRunNext : Prop :=
  ∀ (s : State) (i : Instr), buildLegal s.cfg = true → i.wellFormed = true → i ≠ .pixels 1 →
    (i.interface = .req →
      step (s.withFetchWord 32 (encode i).toNat) =
        settleRequest (.request (issuerOf i) (encode i) []) (exec i (present (issuerOf i) [] (beginStep s)))) ∧
    (i.interface = .cmd →
      step (s.withFetchWord 32 (encode i).toNat) =
        exec i { beginStep s with fifo := s.fifo.tail, serRem := 0 })

/-- A request from a context its port does not allow, by the high nibble of its OP, is refused (30_encoding.md R91, R101);
so are ACQUIRE and RELEASE from the consumer while RUN = 1 (44_frame_exchange.md R235). -/
def Obligations.RequestsOutOfTheirPlaceAreRefused : Prop :=
  ∀ (s : State) (i : Instr), i.interface = .req →
    (¬((((encode i).extractLsb' 28 4 = 0#4 ∨ (encode i).extractLsb' 28 4 = 1#4) ∧ s.port.ctx = .producer) ∨
      ((encode i).extractLsb' 28 4 = 2#4 ∧ s.port.ctx ≠ .consumerInterrupt) ∨
      (((encode i).extractLsb' 28 4 = 4#4 ∨ (encode i).extractLsb' 28 4 = 5#4 ∨ (encode i).extractLsb' 28 4 = 7#4) ∧
        s.port.ctx = .consumerThread)) →
      exec i s = .refused (.wrongPort s.port.ctx)) ∧
    ((i = .acquire ∨ ∃ buf, i = .release buf) → s.port.ctx = .consumerThread → s.run = true →
      exec i s = .refused .sequencerOwnsFrames)

/-- A FrameExchange operation whose mutex is held is not yet taken: its turn is offered again after the others, and nothing
else happens (20_memory.md R74; the queue of turns is the model's, log 3, log 15). -/
def Obligations.HeldMutexMakesRequestWait : Prop :=
  ∀ (s : State) (ctx : Context) (w : Word) (pl : List (List Byte)) (rest : List Turn) (i : Instr),
    buildLegal s.cfg = true → s.inbox = .request ctx w pl :: rest → decodeReq w = .ok i → s.fx.lock ≠ .free →
    ((ctx = .producer ∧
        ((∃ line, i = .lineBegin line ∨ i = .lineEnd line) ∨ (∃ buf, i = .publish buf) ∨ i = .frameComplete)) ∨
      (ctx = .consumerThread ∧ s.run = false ∧ (i = .acquire ∨ ∃ buf, i = .release buf))) →
    step s = .next
      { s with
        inbox := rest ++ [.request ctx w pl]
        fresh := s.fresh + 1
        port := { ctx := ctx, payload := pl, rsp := none, reqErr := false, outcome := none, inner := [] } }

/-! FrameExchange. -/

/-- LINE_BEGIN of a legal line opens it and changes nothing else (44_frame_exchange.md R230). -/
def Obligations.LineBeginOpensLine : Prop :=
  ∀ (s : State) (line : BitVec 9), s.port.ctx = .producer → s.fx.lock = .free → line.toNat < 240 →
    exec (.lineBegin line) s = .next
      { s with
        prodLine := line.setWidth 8
        prodOpen := true
        port := { s.port with rsp := none, reqErr := false, outcome := some .ok } }

/-- LINE_END of the open line stores its payload in the row of FB[WT], closes the line, and changes no other byte of
either framebuffer and nothing else; bytes a racing write replaced are remembered only for a buffer that is rendering
(44_frame_exchange.md R231, 20_memory.md R72). -/
def Obligations.LineEndStoresRow : Prop :=
  ∀ (s : State) (line : BitVec 9), s.port.ctx = .producer → s.fx.lock = .free → line.toNat < 240 →
    s.prodOpen = true → s.prodLine = line.setWidth 8 →
    ∃ t, exec (.lineEnd line) s = .next t ∧
      (∀ x, x < 320 → fbByte t (fbAddr s.fx.wt line.toNat x) = payloadByte s 0 x) ∧
      (∀ data, s.port.payload = [data] → data.length = 320 → ∀ x, x < 320 →
        fbByte t (fbAddr s.fx.wt line.toNat x) = data.getD x 0) ∧
      (∀ a, (∀ x, x < 320 → a ≠ fbAddr s.fx.wt line.toNat x) → fbByte t a = fbByte s a) ∧
      (s.fx.rendering s.fx.wt = false → t.race = s.race) ∧
      t.prodOpen = false ∧
      t.port = { s.port with rsp := none, reqErr := false, outcome := some .ok } ∧
      { t with fb := s.fb, race := s.race, prodOpen := s.prodOpen, port := s.port } = s

/-- The requests that can be rejected on their operand or on the state: LINE_BEGIN and LINE_END of a line of 240 and more
(an operand the decoder never gives: log 25), LINE_END of a line that is not open, START while running. Each is BadRequest
and changes nothing but the port (44_frame_exchange.md R230, R231, 41_scanline_sequencer.md R162, 60_exceptions.md R271). -/
def Obligations.RejectedRequestsChangeNothing : Prop :=
  ∀ (s : State) (i : Instr),
    ((s.port.ctx = .producer ∧ ∃ line : BitVec 9, 240 ≤ line.toNat ∧ (i = .lineBegin line ∨ i = .lineEnd line)) ∨
      (s.port.ctx = .producer ∧ s.fx.lock = .free ∧
        ∃ line : BitVec 9, (s.prodOpen = false ∨ s.prodLine ≠ line.setWidth 8) ∧ i = .lineEnd line) ∨
      (s.port.ctx = .consumerThread ∧ s.run = true ∧ i = .start)) →
    exec i s = .next { s with port := { s.port with rsp := none, reqErr := true, outcome := some .badRequest } }

/-- PUBLISH, and FRAME_COMPLETE where `buf` is WT: while the other buffer is not rendering, `buf` becomes ready, the other
one the write target and not ready, and nothing else changes (44_frame_exchange.md R232, R233). -/
def Obligations.AcceptedPublishHandsFrameOver : Prop :=
  ∀ (s : State) (buf : BufId), s.port.ctx = .producer → s.fx.lock = .free →
    s.fx.rendering (otherBuf buf) = false →
    ∃ t, exec (.publish buf) s = .next t ∧ (buf = s.fx.wt → exec .frameComplete s = .next t) ∧
      t.fx.ready buf = true ∧ t.fx.ready (otherBuf buf) = false ∧ t.fx.wt = otherBuf buf ∧
      t.fx.rendering0 = s.fx.rendering0 ∧ t.fx.rendering1 = s.fx.rendering1 ∧ t.fx.lock = .free ∧
      t.port = { s.port with rsp := none, reqErr := false, outcome := some .ok } ∧
      { t with fx := s.fx, port := s.port } = s

/-- PUBLISH while the other buffer is rendering: under DROP nothing changes and nothing is signalled; HOLD is refused
(44_frame_exchange.md R232, 93 U15; log 21). -/
def Obligations.PublishOfBusyBufferIsDropped : Prop :=
  ∀ (s : State) (buf : BufId), s.port.ctx = .producer → s.fx.lock = .free →
    s.fx.rendering (otherBuf buf) = true →
    (s.cfg.publishBusyPolicy = .drop →
      exec (.publish buf) s = .next
        { s with port := { s.port with rsp := none, reqErr := false, outcome := some .dropped } }) ∧
    (s.cfg.publishBusyPolicy = .hold → exec (.publish buf) s = .refused .holdPolicy)

/-- FRAME_COMPLETE, the word 0x04000000, is PUBLISH of the WT that its own step reads, in every state and with every outcome;
from the reset state it gives FX_FLAGS = 0x02 (44_frame_exchange.md R233). -/
def Obligations.FrameCompleteIsPublishOfWriteTarget : Prop :=
  decodeReq 0x04000000 = .ok .frameComplete ∧ (∀ s : State, exec .frameComplete s = exec (.publish s.fx.wt) s) ∧
  (∃ t, exec .frameComplete (present .producer [] State.reset) = .next t ∧ csr t 0 = some 0x02)

/-- ACQUIRE while the sequencer is not running: it marks and returns the buffer that is ready and not rendering, the one
that is not the write target first, or returns nothing; nothing else changes (44_frame_exchange.md R234, R235). -/
def Obligations.AcquireReturnsReadyBuffer : Prop :=
  ∀ s : State, s.port.ctx = .consumerThread → s.run = false → s.fx.lock = .free →
    (∀ b, s.fx.ready b = true → s.fx.rendering b = false →
      (b = otherBuf s.fx.wt ∨ ¬(s.fx.ready (otherBuf s.fx.wt) = true ∧ s.fx.rendering (otherBuf s.fx.wt) = false)) →
      ∃ t, exec .acquire s = .next t ∧
        t.fx.rendering b = true ∧ t.fx.rendering (otherBuf b) = s.fx.rendering (otherBuf b) ∧
        t.fx.ready0 = s.fx.ready0 ∧ t.fx.ready1 = s.fx.ready1 ∧ t.fx.wt = s.fx.wt ∧ t.fx.lock = .free ∧
        t.port = { s.port with
          rsp := some (if b = .b1 then 0x80000001 else 0x80000000), reqErr := false, outcome := some .ok } ∧
        { t with fx := s.fx, port := s.port } = s) ∧
    ((∀ b, ¬(s.fx.ready b = true ∧ s.fx.rendering b = false)) →
      exec .acquire s = .next
        { s with port := { s.port with rsp := some 0, reqErr := false, outcome := some .none } })

/-- RELEASE while the sequencer is not running clears RENDERING of its buffer, ends a race on it, and changes nothing else
(44_frame_exchange.md R235, R236; log 13). -/
def Obligations.ReleaseClearsRendering : Prop :=
  ∀ (s : State) (buf : BufId), s.port.ctx = .consumerThread → s.run = false → s.fx.lock = .free →
    ∃ t, exec (.release buf) s = .next t ∧
      t.fx.rendering buf = false ∧ t.fx.rendering (otherBuf buf) = s.fx.rendering (otherBuf buf) ∧
      t.fx.ready0 = s.fx.ready0 ∧ t.fx.ready1 = s.fx.ready1 ∧ t.fx.wt = s.fx.wt ∧ t.fx.lock = .free ∧
      (∀ y x, y < 240 → x < 320 →
        racedBytes t (fbAddr buf y x) = [] ∧
        racedBytes t (fbAddr (otherBuf buf) y x) = racedBytes s (fbAddr (otherBuf buf) y x)) ∧
      t.port = { s.port with rsp := none, reqErr := false, outcome := some .ok } ∧
      { t with fx := s.fx, race := s.race, port := s.port } = s

/-- After an accepted publish of `b`, ACQUIRE finds `b`, unless it is rendering, and never another buffer
(44_frame_exchange.md R241). -/
def Obligations.AcquireFindsLatestPublish : Prop :=
  ∀ (s t : State) (b : BufId), s.port.ctx = .producer → s.fx.lock = .free → s.fx.rendering (otherBuf b) = false →
    exec (.publish b) s = .next t →
    acquirePick t.fx = if s.fx.rendering b = true then none else some b

/-- Every step keeps the invariants (I-a) to (I-e) of the FrameExchange bits, with the mutex free between steps, and keeps
the bits among the five states of R237 (44_frame_exchange.md R237, R240, 20_memory.md R74). -/
def Obligations.StepKeepsFrameExchangeInvariants : Prop :=
  ∀ s s' : State, step s = .next s' →
    (FxInv s.fx → s.fx.lock = .free → FxInv s'.fx ∧ s'.fx.lock = .free) ∧ (s.fx ∈ fxFive → s'.fx ∈ fxFive)

/-- No step but a reset changes a byte of a buffer that is rendering, and no racing write is ever recorded: "no data race"
(44_frame_exchange.md R240, 20_memory.md R72; the record of racing writes is the model's, log 13). -/
def Obligations.RenderedBufferIsNeverWritten : Prop :=
  ∀ s s' : State, FxInv s.fx → step s = .next s' →
    (nextTurn s ≠ some .reset → ∀ b y x, y < 240 → x < 320 → s.fx.rendering b = true →
      fbByte s' (fbAddr b y x) = fbByte s (fbAddr b y x)) ∧
    (s.race = [] → s'.race = [])

/-- Only the buffer that is the write target ever changes, and only by LINE_END: every other step leaves every byte of
both framebuffers (44_frame_exchange.md R244, 60_exceptions.md R282). -/
def Obligations.FramebufferChangesOnlyByLineEnd : Prop :=
  ∀ s s' : State, nextTurn s ≠ some .reset → step s = .next s' →
    (∀ y x, y < 240 → x < 320 →
      fbByte s' (fbAddr (otherBuf s.fx.wt) y x) = fbByte s (fbAddr (otherBuf s.fx.wt) y x)) ∧
    ((∀ ctx w pl line, nextTurn s = some (.request ctx w pl) → decodeReq w ≠ .ok (.lineEnd line)) →
      ∀ a, fbByte s' a = fbByte s a)

/-! Scaling mode. -/

/-- SET_SCALE, from either core, writes SCALE_PENDING and nothing else (40_pixel_encoder.md R141). -/
def Obligations.SetScaleOnlySetsPending : Prop :=
  ∀ (s : State) (mode : ScaleMode), (s.port.ctx = .producer ∨ s.port.ctx = .consumerThread) →
    exec (.setScale mode) s = .next
      { s with
        scalePending := mode
        port := { s.port with rsp := none, reqErr := false, outcome := some .ok } }

/-- The frame boundary. While VOUT runs, SCALE_ACTIVE, DISP_VALID and DISP_BUF change only in the HANDLER step that handles
the first active line: never mid-frame. A `post` of that line latches SCALE_PENDING, marks the buffer that is ready and not
rendering (the one that is not the write target first) and displays it, or keeps the displayed one; a `post` of the last
active line releases the displayed buffer; every other `post` leaves the FrameExchange bits and the displayed buffer. A raster
with one active line only, which no legal build has, is in neither boundary clause (40_pixel_encoder.md R141, 41_scanline_sequencer.md R161,
70_reset_and_hazards.md R315). -/
def Obligations.ScaleNeverChangesMidFrame : Prop :=
  (∀ s s' : State, s.run = true → nextTurn s ≠ some .reset → step s = .next s' →
    (s'.scaleActive ≠ s.scaleActive ∨ s'.dispValid ≠ s.dispValid ∨ s'.dispBuf ≠ s.dispBuf) →
    nextTurn s = some .handler ∧ s.v = tBpEnd s.cfg ∧ s'.scaleActive = s.scalePending) ∧
  ∀ (s t : State) (ch : Slot), post ch s = .ok t →
    (¬(ShowsLine s ∧ (s.v = tBpEnd s.cfg ∨ s.v + 1 = vTotal s.cfg)) →
      t.fx = s.fx ∧ t.race = s.race ∧
      t.scaleActive = s.scaleActive ∧ t.dispValid = s.dispValid ∧ t.dispBuf = s.dispBuf) ∧
    (ShowsLine s → s.v = tBpEnd s.cfg → s.v + 1 ≠ vTotal s.cfg →
      t.scaleActive = s.scalePending ∧ t.race = s.race ∧
      (∀ b, s.fx.ready b = true → s.fx.rendering b = false →
        (b = otherBuf s.fx.wt ∨ ¬(s.fx.ready (otherBuf s.fx.wt) = true ∧ s.fx.rendering (otherBuf s.fx.wt) = false)) →
        t.dispValid = true ∧ t.dispBuf = b ∧ t.fx = s.fx.setRendering b true) ∧
      ((∀ b, ¬(s.fx.ready b = true ∧ s.fx.rendering b = false)) →
        t.dispValid = s.dispValid ∧ t.dispBuf = s.dispBuf ∧ t.fx = s.fx)) ∧
    (ShowsLine s → s.v ≠ tBpEnd s.cfg → s.v + 1 = vTotal s.cfg →
      t.scaleActive = s.scaleActive ∧ t.dispValid = s.dispValid ∧ t.dispBuf = s.dispBuf ∧
      (s.dispValid = true → t.fx = s.fx.setRendering s.dispBuf false ∧ t.race = dropRace s.dispBuf s.race) ∧
      (s.dispValid = false → t.fx = s.fx ∧ t.race = s.race))

/-! Audio. -/

/-- AUD_CAP answers `(RD - WR - 1) mod AUDIO_CAP` and changes nothing else; with the frames held it makes AUDIO_CAP - 1
(45_audio.md R250, R252). -/
def Obligations.AudCapAnswersFreeSlots : Prop :=
  ∀ s : State, s.port.ctx = .producer → 2 ≤ s.cfg.audioCap →
    exec .audCap s = .next
      { s with port := { s.port with
          rsp := some (BitVec.ofInt 32 (((s.rd : Int) - s.wr - 1) % s.cfg.audioCap))
          reqErr := false
          outcome := some .ok } } ∧
    ringHeld s + ringFree s + 1 = s.cfg.audioCap

/-- AUD_ENQ keeps the earliest samples that fit, each in its slot, moves WR past them, and changes no other slot and
nothing else (45_audio.md R253). -/
def Obligations.AudEnqFillsRing : Prop :=
  ∀ (s : State) (count : BitVec 16), s.port.ctx = .producer → 2 ≤ s.cfg.audioCap →
    s.wr < s.cfg.audioCap → s.rd < s.cfg.audioCap →
    ∃ (t : State) (n : Nat), n = min count.toNat (ringFree s) ∧ exec (.audEnq count) s = .next t ∧
      t.wr = (s.wr + n) % s.cfg.audioCap ∧
      (∀ i, i < n → ringFrame t ((s.wr + i) % s.cfg.audioCap) =
        sampleFrame (mix s.cfg (payloadByte s 0 i) (payloadByte s 1 i) (payloadByte s 2 i) (payloadByte s 3 i)
          (payloadByte s 4 i))) ∧
      (∀ k row, s.port.payload[k]? = some row → ∀ i, i < row.length → payloadByte s k i = row.getD i 0) ∧
      (∀ a, (∀ i, i < n → a ≠ (s.wr + i) % s.cfg.audioCap) → ringFrame t a = ringFrame s a) ∧
      t.port = { s.port with
        rsp := none, reqErr := false, outcome := some (if n = count.toNat then .ok else .dropped) } ∧
      { t with ring := s.ring, wr := s.wr, port := s.port } = s

/-- AUD_DEQ by the ring's consumer returns the frame at RD and moves RD, or, on an empty ring, repeats LAST and moves
nothing; another consumer is refused (45_audio.md R255, R258). -/
def Obligations.AudDeqReturnsFrame : Prop :=
  ∀ s : State, s.port.ctx = .consumerThread →
    (MayDequeue .request s → s.rd ≠ s.wr →
      exec .audDeq s = .next
        { s with
          rd := (s.rd + 1) % s.cfg.audioCap
          last := ringFrame s s.rd
          audTrace := s.audTrace ++ [ringFrame s s.rd]
          audOwner := some .request
          port := { s.port with rsp := some (ringFrame s s.rd), reqErr := false, outcome := some .ok } }) ∧
    (MayDequeue .request s → s.rd = s.wr →
      exec .audDeq s = .next
        { s with
          audTrace := s.audTrace ++ [s.last]
          audOwner := some .request
          port := { s.port with rsp := some s.last, reqErr := false, outcome := some .underflow } }) ∧
    (∀ who, s.audOwner = some who → who ≠ .request →
      exec .audDeq s = .refused (.secondAudioConsumer who .request))

/-- `mix` is `min(max(sum, S_MIN), S_MAX)` of the sum that gives each channel its own weight; it never leaves S_MIN..S_MAX,
its sum is in 0..255 * (W[0] + ... + W[4]), and both halves of the frame are the sample
(45_audio.md R251, R254, R262 (a)). -/
def Obligations.MixIsClampedAndFramed : Prop :=
  ∀ (c : Config) (a0 a1 a2 a3 a4 : Byte), audioLegal c = true →
    mixSum c a0 a1 a2 a3 a4 =
      (c.w0 * a0.toNat + c.w1 * a1.toNat + c.w2 * a2.toNat + c.w3 * a3.toNat + c.w4 * a4.toNat : Nat) ∧
    mix c a0 a1 a2 a3 a4 = min (max (mixSum c a0 a1 a2 a3 a4) c.sMin) c.sMax ∧
    0 ≤ mixSum c a0 a1 a2 a3 a4 ∧ mixSum c a0 a1 a2 a3 a4 ≤ 255 * (c.w0 + c.w1 + c.w2 + c.w3 + c.w4 : Nat) ∧
    c.sMin ≤ mix c a0 a1 a2 a3 a4 ∧ mix c a0 a1 a2 a3 a4 ≤ c.sMax ∧
    ((sampleFrame (mix c a0 a1 a2 a3 a4)).extractLsb' 0 16).toInt = mix c a0 a1 a2 a3 a4 ∧
    ((sampleFrame (mix c a0 a1 a2 a3 a4)).extractLsb' 16 16).toInt = mix c a0 a1 a2 a3 a4

/-- From a state whose registers are in range and whose held ring slots have all been written, every step leads to such a
state: no dequeue reads reset content (45_audio.md R257). -/
def Obligations.HeldRingSlotsAreWritten : Prop :=
  ∀ s s' : State, RangeInv s → RingInv s → step s = .next s' → RangeInv s' ∧ RingInv s'

/-- The audio interrupt: a tick sets AUD_TICK, merging with a pending one, and no step but a tick, `aud_isr` and a reset
changes it; `aud_isr` waits while the HANDLER is enabled (RUN = 1 and IRQ_DMA pending: log 27), and else serves the tick with
one dequeue, which on an empty ring repeats LAST with the outcome Underflow; with AUDIO_SINK = AUX there is none. That a turn
of an agent that is not enabled passes, and the record of who dequeues, are the model's (log 4, log 16)
(60_exceptions.md R270, R275, R276, 45_audio.md R255, R258, R260). -/
def Obligations.AudioInterruptYieldsToDma : Prop :=
  (∀ s s' : State, step s = .next s' →
    nextTurn s ≠ some .audTick → nextTurn s ≠ some .audIsr → nextTurn s ≠ some .reset → s'.audTick = s.audTick) ∧
  ∀ s : State,
    (s.cfg.audioSink = .timer → takeTurn .audTick s = .next { s with audTick := true }) ∧
    (s.cfg.audioSink = .aux → takeTurn .audTick s = .next s ∧ takeTurn .audIsr s = .next s) ∧
    (s.audTick = false ∨ (s.run = true ∧ irqDma s = true) → takeTurn .audIsr s = .next s) ∧
    (s.cfg.audioSink = .timer → s.audTick = true → (s.run = false ∨ irqDma s = false) → MayDequeue .timer s →
      (s.rd ≠ s.wr →
        takeTurn .audIsr s = .next
          { s with
            audTick := false
            rd := (s.rd + 1) % s.cfg.audioCap
            last := ringFrame s s.rd
            audTrace := s.audTrace ++ [ringFrame s s.rd]
            audOwner := some .timer
            port := { s.port with rsp := none, reqErr := false, outcome := some .ok } }) ∧
      (s.rd = s.wr →
        takeTurn .audIsr s = .next
          { s with
            audTick := false
            audTrace := s.audTrace ++ [s.last]
            audOwner := some .timer
            port := { s.port with rsp := none, reqErr := false, outcome := some .underflow } }))

/-! The pixel encoder. -/

/-- Variant A: unit `x` of a row is byte `x` twice, whatever the palette and the scaling mode; 0x2C gives 0x2C2C
(40_pixel_encoder.md R132). -/
def Obligations.VariantADoublesBytes : Prop :=
  ∀ (c : Config) (mode : ScaleMode) (src : List Byte), c.pixelVariant = .a → src.length = 320 →
    (encodeRow c mode src).length = 320 ∧
    (∀ x, x < 320 →
      (encodeRow c mode src).getD x 0 = src.getD x 0 ++ src.getD x 0 ∧
      (src.getD x 0 = 0x2C → (encodeRow c mode src).getD x 0 = 0x2C2C)) ∧
    (∀ (c' : Config) (mode' : ScaleMode), c'.pixelVariant = .a → encodeRow c' mode' src = encodeRow c mode src)

/-- Variant B: mode "1:1" shows each of the 256 logical pixels once, between margins of 32 units; mode "8:7" shows pixel
SCALE_MAP(o - 16) in unit `o`, between margins of 16 units; the default SCALE_MAP is floor(8 * o / 9)
(40_pixel_encoder.md R133 to R136). -/
def Obligations.VariantBPlacesLogicalLine : Prop :=
  ∀ (c : Config) (src : List Byte) (o : Nat), o < 320 →
    ((encB c .oneToOne src).getD o 0 =
      if 32 ≤ o ∧ o < 288 then
        (c.palette.getD ((src.getD (c.srcX0 + (o - 32)) 0).toNat % 64) 0).setWidth 16
      else c.marginSample) ∧
    ((encB c .eightToSeven src).getD o 0 =
      if 16 ≤ o ∧ o < 304 then
        (c.palette.getD ((src.getD (c.srcX0 + scaleMap c.scaleMap (o - 16)) 0).toNat % 64) 0).setWidth 16
      else c.marginSample) ∧
    (o < 288 → scaleMap Config.default.scaleMap o = 8 * o / 9)

/-- Variant B reads no byte of the row outside the 256 columns from SRC_X0 on, in either mode
(40_pixel_encoder.md R133, R135; 95_test_vectors.md S5). -/
def Obligations.VariantBReadsOnlyLogicalLine : Prop :=
  ∀ (c : Config) (mode : ScaleMode) (src src' : List Byte), encoderLegal c = true →
    (∀ i, i < 256 → src.getD (c.srcX0 + i) 0 = src'.getD (c.srcX0 + i) 0) →
    encB c mode src = encB c mode src'

/-- Any 320 units pack into 160 words, the earlier unit of each in bits 15:0 (40_pixel_encoder.md R137), and a line is 320
units whatever the build, the mode and the state (40_pixel_encoder.md R130, R138, 41_scanline_sequencer.md R155). -/
def Obligations.LinePacksInto160Words : Prop :=
  (∀ units : List PixelUnit, units.length = 320 → (pack units).length = 160 ∧
    ∀ j, j < 160 → (pack units).getD j 0 = units.getD (2 * j + 1) 0 ++ units.getD (2 * j) 0) ∧
  ∀ s : State, (lineUnits s).length = 320

/-- What a line shows of row floor((V - T_BP_END) / LINE_REPEAT), a row below 240, of the displayed framebuffer: under
variant A unit `x` is twice the byte of the row, under variant B unit `x` is that of `ENC_B` of the whole row in the mode
SCALE_ACTIVE; before any frame was acquired it is 0, or MARGIN_SAMPLE under variant B
(41_scanline_sequencer.md R153, R155, 40_pixel_encoder.md R132 to R135, R138). -/
def Obligations.LineShowsDisplayedRow : Prop :=
  ∀ (s : State) (x : Nat), buildLegal s.cfg = true → x < 320 → tBpEnd s.cfg ≤ s.v → s.v < vTotal s.cfg → s.race = [] →
    (s.v - tBpEnd s.cfg) / (s.cfg.vActive / 240) < 240 ∧
    (s.dispValid = true → s.cfg.pixelVariant = .a →
      (lineUnits s).getD x 0 =
        fbByte s (fbAddr s.dispBuf ((s.v - tBpEnd s.cfg) / (s.cfg.vActive / 240)) x) ++
          fbByte s (fbAddr s.dispBuf ((s.v - tBpEnd s.cfg) / (s.cfg.vActive / 240)) x)) ∧
    (s.dispValid = true → s.cfg.pixelVariant = .b →
      (lineUnits s).getD x 0 =
        (encB s.cfg s.scaleActive ((List.range 320).map
          (fun i => fbByte s (fbAddr s.dispBuf ((s.v - tBpEnd s.cfg) / (s.cfg.vActive / 240)) i)))).getD x 0) ∧
    (s.dispValid = false → (lineUnits s).getD x 0 = if s.cfg.pixelVariant = .a then 0 else s.cfg.marginSample)

/-! The serializer. -/

/-- NOP: the word is consumed and, while no mark is set, no state other than the FIFO changes; once a mark is set only
OUT may change, and only at its end (43_serializer_tmds.md R205, 10_state.md R35). -/
def Obligations.NopOnlyPopsFifo : Prop :=
  ∀ s : State,
    (MarksClear s → exec .nop s = .next s) ∧
    (MarksClear s → s.serRem = 0 → ∀ rest, s.fifo = 0 :: rest → serPopTurn s = .next { s with fifo := rest }) ∧
    (∃ t extra, exec .nop s = .next t ∧ t.out = s.out ++ extra ∧ { t with out := s.out } = s)

/-- CTRL emits its run of control records, with the control symbols on the lanes, and clears the disparity counters;
nothing else changes. Under the default line code lane 0 carries the symbol of the two sync bits and the others that of two
zeros; the four symbols and the lanes are general knowledge in the spec (log 30)
(43_serializer_tmds.md R206, R210, R211, R214). -/
def Obligations.CtrlEmitsControlRun : Prop :=
  ∀ (s : State) (vs hs : Bool) (n : BitVec 12), n ≠ 0 →
    ∃ t, exec (.ctrl vs hs n) s = .next t ∧
      (MarksClear s → t.out = s.out ++ List.replicate n.toNat
        { period := .ctrl vs hs
          wire :=
            { sym0 := ctrlSym s.cfg.lineCode vs hs
              sym1 := ctrlSym s.cfg.lineCode false false
              sym2 := ctrlSym s.cfg.lineCode false false } }) ∧
      (MarksClear s → s.cfg.lineCode = .standard → t.out = s.out ++ List.replicate n.toNat
        { period := .ctrl vs hs
          wire :=
            { sym0 := if vs then (if hs then 0x2AB else 0x154) else (if hs then 0x0AB else 0x354)
              sym1 := 0x354
              sym2 := 0x354 } }) ∧
      t.cnt = { lane0 := 0, lane1 := 0, lane2 := 0 } ∧
      { t with out := s.out, cnt := s.cnt } = s

/-- PIXELS only sets SER_REM (43_serializer_tmds.md R208). -/
def Obligations.PixelsSetsUnitsOwed : Prop :=
  ∀ (s : State) (n : BitVec 12), n ≠ 0 →
    (MarksClear s → exec (.pixels n) s = .next { s with serRem := n }) ∧
    (∃ t, exec (.pixels n) s = .next t ∧ { t with out := s.out } = { s with serRem := n })

/-- A word popped while units are owed is data: it leaves the FIFO, its low unit and, if two or more are owed, its high unit
are emitted, PIXEL_REPEAT periods each, and SER_REM counts them. On the wires each period's record follows the disparity the
period before it left, blue on lane 0, green on lane 1 and red on lane 2, each coded by `tmds8` on that lane's CNT
`expand` gives each channel in the top bits of its byte: of variant A's byte 7:0 of the unit in period 0 and 15:8 otherwise,
bits 7:5, 4:2 and 1:0; of variant B's unit, bits 14:10, 9:5 and 4:0, bit 15 ignored. The lanes and the bits of variant A's
byte are general knowledge in the spec (log 30) (43_serializer_tmds.md R203, R208, R209, R210). -/
def Obligations.DataWordEmitsOwedUnits : Prop :=
  (∀ (s : State) (w : Word) (rest : List Word), MarksClear s → s.serRem ≠ 0 → s.fifo = w :: rest →
    ∃ (t : State) (periods : List PixelPeriod), serPopTurn s = .next t ∧
      periods = (List.range (pixelRepeat s.cfg)).map (expand s.cfg.pixelVariant (lowUnit w)) ++
        (if s.serRem = 1 then []
          else (List.range (pixelRepeat s.cfg)).map (expand s.cfg.pixelVariant (highUnit w))) ∧
      t.fifo = rest ∧
      t.out.map (fun r => r.period) = s.out.map (fun r => r.period) ++ periods ∧
      t.out = s.out ++ wireRecords s.cfg.lineCode s.cnt periods ∧
      t.cnt = wireDisparity s.cfg.lineCode s.cnt periods ∧
      t.serRem.toNat = s.serRem.toNat - 2 ∧
      { t with fifo := s.fifo, out := s.out, serRem := s.serRem, cnt := s.cnt } = s) ∧
  (∀ (u : PixelUnit) (p : Nat),
    (∀ x, x = (if p = 0 then u.toNat % 256 else u.toNat / 256) →
      expand .a u p = .video
        (BitVec.ofNat 8 (x / 32 * 32)) (BitVec.ofNat 8 (x / 4 % 8 * 32)) (BitVec.ofNat 8 (x % 4 * 64))) ∧
    expand .b u p = .video
      (BitVec.ofNat 8 (u.toNat / 1024 % 32 * 8)) (BitVec.ofNat 8 (u.toNat / 32 % 32 * 8))
      (BitVec.ofNat 8 (u.toNat % 32 * 8))) ∧
  ∀ (code : LineCode) (cnt : Disparity) (r g b : Byte) (ps : List PixelPeriod),
    wireRecords code cnt [] = [] ∧ wireDisparity code cnt [] = cnt ∧
    wireRecords code cnt (.video r g b :: ps) =
      { period := .video r g b
        wire :=
          { sym0 := (tmds8 code b cnt.lane0).sym
            sym1 := (tmds8 code g cnt.lane1).sym
            sym2 := (tmds8 code r cnt.lane2).sym } } ::
      wireRecords code
        { lane0 := (tmds8 code b cnt.lane0).cnt, lane1 := (tmds8 code g cnt.lane1).cnt,
          lane2 := (tmds8 code r cnt.lane2).cnt } ps ∧
    wireDisparity code cnt (.video r g b :: ps) =
      wireDisparity code
        { lane0 := (tmds8 code b cnt.lane0).cnt, lane1 := (tmds8 code g cnt.lane1).cnt,
          lane2 := (tmds8 code r cnt.lane2).cnt } ps

/-- A receiver reads back the byte that was coded, whatever the disparity (43_serializer_tmds.md R215), and finds the control
symbols: no video symbol has more than five transitions, every control symbol has seven or more, and the four are those of
R214's table, which the spec marks as general knowledge (log 30). -/
def Obligations.TmdsDecodesBack : Prop :=
  (∀ (d : Byte) (cnt : Int), tmdsDecode (tmds8 .standard d cnt).sym = d ∧ transitions (tmds8 .standard d cnt).sym ≤ 5) ∧
  (∀ c1 c0 : Bool, 7 ≤ transitions (ctrlSym .standard c1 c0)) ∧
  ctrlSym .standard false false = 0b1101010100 ∧ ctrlSym .standard false true = 0b0010101011 ∧
  ctrlSym .standard true false = 0b0101010100 ∧ ctrlSym .standard true true = 0b1010101011

/-- The new disparity is the old one plus the ones minus the zeros of the symbol, and a balanced lane stays balanced
(43_serializer_tmds.md R213). -/
def Obligations.TmdsTracksDisparity : Prop :=
  ∀ (d : Byte) (cnt : Int),
    (tmds8 .standard d cnt).cnt = cnt + popcount (tmds8 .standard d cnt).sym - (10 - popcount (tmds8 .standard d cnt).sym : Int) ∧
    (LaneBalanced cnt → LaneBalanced (tmds8 .standard d cnt).cnt)

/-- Every step keeps the three lanes balanced under the default line code (43_serializer_tmds.md R213, 45 R262 (g)). -/
def Obligations.StepKeepsLanesBalanced : Prop :=
  ∀ s s' : State, s.cfg.lineCode = .standard → DisparityInv s → step s = .next s' → DisparityInv s'

/-- The words of a blanking table, handed to SER one at a time from command mode, are exactly one raster line: horizontal
front porch, sync, back porch and active part, all control periods, the vertical sync level asserted for TBL_VSYNC only.
Behind each word the FIFO, and the rest of VOUT but for SER's own registers, the marks and the build, may be anything; a pop
takes the head word and leaves all that as it is (41_scanline_sequencer.md R152, R160, 43_serializer_tmds.md R204, R216). -/
def Obligations.BlankingTableIsOneLine : Prop :=
  ∀ (s : State) (es : List State) (t : TableId),
    buildLegal s.cfg = true → MarksClear s → s.serRem = 0 → t ≠ .active → HeadWords es (tableWords s.cfg t) →
    ∃ u, popEach es s = .next u ∧
      u.out.map (fun r => r.period) = s.out.map (fun r => r.period) ++
        List.replicate s.cfg.hFrontPorch (.ctrl (if t = .vsync then s.cfg.vsyncLevel else !s.cfg.vsyncLevel) (!s.cfg.hsyncLevel)) ++
        List.replicate s.cfg.hSyncWidth (.ctrl (if t = .vsync then s.cfg.vsyncLevel else !s.cfg.vsyncLevel) s.cfg.hsyncLevel) ++
        List.replicate (s.cfg.hBackPorch + s.cfg.hActive)
          (.ctrl (if t = .vsync then s.cfg.vsyncLevel else !s.cfg.vsyncLevel) (!s.cfg.hsyncLevel)) ∧
      u.out.length = s.out.length + hTotal s.cfg ∧
      u.serRem = 0 ∧ MarksClear u ∧ u.cfg = s.cfg ∧
      (∀ e, es.getLast? = some e → u = { withSerializerOf u e with fifo := e.fifo.tail })

/-- The words of the active table followed by a packed line, handed to SER one at a time from command mode, are exactly one
raster line of H_TOTAL records: the porches and the sync pulse, then every unit for PIXEL_REPEAT periods, in order. Behind
each word the FIFO, and the rest of VOUT but for SER's own registers, the marks and the build, may be anything; a pop takes
the head word and leaves all that as it is (43_serializer_tmds.md R204, R216). -/
def Obligations.ActiveLineIsOneLine : Prop :=
  ∀ (s : State) (es : List State) (units : List PixelUnit),
    buildLegal s.cfg = true → MarksClear s → s.serRem = 0 → units.length = 320 →
    HeadWords es (tableWords s.cfg .active ++ pack units) →
    ∃ u, popEach es s = .next u ∧
      u.out.map (fun r => r.period) = s.out.map (fun r => r.period) ++
        List.replicate s.cfg.hFrontPorch (.ctrl (!s.cfg.vsyncLevel) (!s.cfg.hsyncLevel)) ++
        List.replicate s.cfg.hSyncWidth (.ctrl (!s.cfg.vsyncLevel) s.cfg.hsyncLevel) ++
        List.replicate s.cfg.hBackPorch (.ctrl (!s.cfg.vsyncLevel) (!s.cfg.hsyncLevel)) ++
        units.flatMap (fun x => (List.range (pixelRepeat s.cfg)).map (expand s.cfg.pixelVariant x)) ∧
      u.out.length = s.out.length + hTotal s.cfg ∧
      u.serRem = 0 ∧ MarksClear u ∧ u.cfg = s.cfg ∧
      (∀ e, es.getLast? = some e → u = { withSerializerOf u e with fifo := e.fifo.tail })

/-! The sequencer and the transfer channels. -/

/-- START from a stopped, idle VOUT: the first two work items in the two slots, slot 0 triggered, V = 2; FrameExchange,
memories, FIFO and pins untouched; the audio side untouched under TIMER, and under AUX two lines' dequeues done, each with its
outcome noted (log 7); a build whose blanking is shorter than two lines is not covered
(41_scanline_sequencer.md R162, 45_audio.md R259). -/
def Obligations.StartPostsTwoItemsAndTriggers : Prop :=
  ∀ s : State, buildLegal s.cfg = true → s.port.ctx = .consumerThread → s.run = false →
    s.ch0.busy = false → s.ch1.busy = false → 2 ≤ tBpEnd s.cfg → MayAdvance s →
    ∃ t, exec .start s = .next t ∧ t.run = true ∧ t.v = 2 ∧ t.phase = .cmd ∧ t.lastDone = .pong ∧
      t.ch0 = { s.ch0 with
        src := if s.cfg.vFrontPorch = 0 then 0x0100 else 0x0000
        len := BitVec.ofNat 16 s.cfg.cmdListLen
        rptr := if s.cfg.vFrontPorch = 0 then 0x0100 else 0x0000
        rem := BitVec.ofNat 16 s.cfg.cmdListLen
        busy := true } ∧
      t.ch1 = { s.ch1 with
        src := if s.cfg.vFrontPorch ≤ 1 ∧ 1 < s.cfg.vFrontPorch + s.cfg.vSyncWidth then 0x0100 else 0x0000
        len := BitVec.ofNat 16 s.cfg.cmdListLen } ∧
      t.port = { s.port with rsp := none, reqErr := false, outcome := some .ok, inner := t.port.inner } ∧
      { t with
        run := s.run, v := s.v, phase := s.phase, lastDone := s.lastDone, ch0 := s.ch0, ch1 := s.ch1, port := s.port
        rd := s.rd, last := s.last, audTrace := s.audTrace, audOwner := s.audOwner } = s ∧
      (s.cfg.audioSink = .timer → SameAudioOut s t ∧ t.port.inner = s.port.inner) ∧
      (s.cfg.audioSink = .aux → s.wr < s.cfg.audioCap → s.rd < s.cfg.audioCap →
        AuxDequeued (2 * s.cfg.auxPerLine) s t ∧
        t.port.inner = s.port.inner ++ auxOutcomes (2 * s.cfg.auxPerLine) s)

/-- `post` advances V by one line, with its wrap, exactly when a whole line has been posted: not in the command phase of an
active line, which only moves PHASE on. Each advance under AUX is AUX_PER_LINE dequeues; the command phase and every advance
under TIMER leave the audio side. The operations inside it end, in order, with the outcomes of the frame boundary's ACQUIRE
and RELEASE and then of the dequeues (log 7) (10_state.md R24, 41_scanline_sequencer.md R157 to R159, R161, 45_audio.md R255,
R259, 60_exceptions.md R270). -/
def Obligations.PostAdvancesOnlyWholeLines : Prop :=
  ∀ (s t : State) (ch : Slot), post ch s = .ok t →
    if tBpEnd s.cfg ≤ s.v ∧ s.cfg.twoPhase = true ∧ s.phase = .cmd then
      t.v = s.v ∧ t.phase = .pix ∧ SameAudioOut s t ∧ t.port = s.port
    else
      t.v = (if s.v + 1 = vTotal s.cfg then 0 else s.v + 1) ∧
      t.phase = (if tBpEnd s.cfg ≤ s.v ∧ s.cfg.twoPhase = true then .cmd else s.phase) ∧
      (s.cfg.audioSink = .timer →
        SameAudioOut s t ∧ t.port = { s.port with inner := s.port.inner ++ boundaryOutcomes s }) ∧
      (s.cfg.audioSink = .aux → s.wr < s.cfg.audioCap → s.rd < s.cfg.audioCap →
        AuxDequeued s.cfg.auxPerLine s t ∧
        t.port = { s.port with
          inner := s.port.inner ++ boundaryOutcomes s ++ auxOutcomes s.cfg.auxPerLine s })

/-- What `post` writes into its slot's descriptor, by region and phase: TBL_VSYNC on exactly the V_SYNC_WIDTH lines of the
SYNC region, TBL_BLANK on the porch lines, TBL_ACTIVE in the command phase, each of CMD_LIST_LEN words; the slot's own line
buffer with 160 words in the pixel phase, and with CMD_LIST_LEN + 160 words where an active line is one item. The rest of the
slot's registers and the other slot are as before (41_scanline_sequencer.md R151, R152, R157 to R159). -/
def Obligations.SyncTablePostedExactlyOnSyncLines : Prop :=
  ∀ (s t : State) (ch : Slot), post ch s = .ok t →
    ((t.chan ch).src = 0x0100 ↔ s.cfg.vFrontPorch ≤ s.v ∧ s.v < s.cfg.vFrontPorch + s.cfg.vSyncWidth) ∧
    (s.v < tBpEnd s.cfg →
      (t.chan ch).src = (if s.cfg.vFrontPorch ≤ s.v ∧ s.v < s.cfg.vFrontPorch + s.cfg.vSyncWidth then 0x0100 else 0x0000) ∧
      (t.chan ch).len = BitVec.ofNat 16 s.cfg.cmdListLen) ∧
    (tBpEnd s.cfg ≤ s.v → s.cfg.twoPhase = true → s.phase = .cmd →
      (t.chan ch).src = 0x0200 ∧ (t.chan ch).len = BitVec.ofNat 16 s.cfg.cmdListLen) ∧
    (tBpEnd s.cfg ≤ s.v → s.cfg.twoPhase = true → s.phase = .pix →
      (t.chan ch).src = (if ch = .ping then 0x1000 else 0x1400) ∧ (t.chan ch).len = 160) ∧
    (tBpEnd s.cfg ≤ s.v → s.cfg.twoPhase = false →
      (t.chan ch).src = (if ch = .ping then 0x1000 else 0x1400) ∧
      (t.chan ch).len = BitVec.ofNat 16 (s.cfg.cmdListLen + 160)) ∧
    t.chan ch = { s.chan ch with src := (t.chan ch).src, len := (t.chan ch).len } ∧
    t.chan (otherSlot ch) = s.chan (otherSlot ch)

/-- The line counter returns to its value after exactly V_TOTAL advances, the porches, the sync width and the active lines
together, and not before (41_scanline_sequencer.md R163). -/
def Obligations.LineCounterHasPeriodVTotal : Prop :=
  ∀ (c : Config) (v : Nat), v < vTotal c →
    vTotal c = c.vFrontPorch + c.vSyncWidth + c.vBackPorch + c.vActive ∧
    (nextLine c)^[vTotal c] v = v ∧ ∀ k, 0 < k → k < vTotal c → (nextLine c)^[k] v ≠ v

/-- A HANDLER step with nothing in its way completes: it toggles LAST_DONE, clears the DONE flag the toggle names, and is
then the `post` into that slot: what that writes is said by the statements about `post`. It marks M_DESC exactly where that
slot is busy, and leaves the other slot (its registers and, in a legal build, its line buffer) and everything that `post`
does not write as before (42_dma_scheduler.md R185, R186, 41_scanline_sequencer.md R156). -/
def Obligations.HandlerServesToggledSlot : Prop :=
  ∀ s : State, s.run = true → irqDma s = true → s.v < vTotal s.cfg → s.fx.lock = .free → MayAdvance s →
    ∃ t, takeTurn .handler s = .next t ∧ post (otherSlot s.lastDone) (acknowledge s) = .ok t ∧
      t.lastDone = otherSlot s.lastDone ∧
      (t.chan (otherSlot s.lastDone)).done = false ∧
      (t.chan (otherSlot s.lastDone)).busy = (s.chan (otherSlot s.lastDone)).busy ∧
      (t.chan (otherSlot s.lastDone)).rptr = (s.chan (otherSlot s.lastDone)).rptr ∧
      (t.chan (otherSlot s.lastDone)).rem = (s.chan (otherSlot s.lastDone)).rem ∧
      t.chan s.lastDone = s.chan s.lastDone ∧
      (buildLegal s.cfg = true → ∀ k, k < 1024 →
        lineBufWord t (lineBufBase s.lastDone + k) = lineBufWord s (lineBufBase s.lastDone + k)) ∧
      t.mDesc = (s.mDesc || (s.chan (otherSlot s.lastDone)).busy) ∧ t.mCmd = s.mCmd ∧
      t.fifo = s.fifo ∧ t.out = s.out ∧ t.serRem = s.serRem ∧ t.cnt = s.cnt ∧
      t.fb = s.fb ∧ t.ring = s.ring ∧ t.wr = s.wr ∧ t.audTick = s.audTick ∧ t.run = s.run ∧
      t.prodOpen = s.prodOpen ∧ t.prodLine = s.prodLine ∧ t.scalePending = s.scalePending ∧
      t.fx.ready0 = s.fx.ready0 ∧ t.fx.ready1 = s.fx.ready1 ∧ t.fx.wt = s.fx.wt ∧ t.fx.lock = .free ∧
      t.cfg = s.cfg ∧ t.port = { s.port with inner := t.port.inner } ∧
      t.inbox = s.inbox ∧ t.fresh = s.fresh ∧ t.epoch = s.epoch ∧
      (s.cfg.audioSink = .timer → SameAudioOut s t)

/-- The work item that carries a line's pixels stands in the slot's own line buffer and is described there: the packed units
alone in the pixel phase of a two-phase build; TBL_ACTIVE and then the packed units where an active line is one item. Every
word outside it is left; `u` is the state after the `frame_start` of the first active line
(41_scanline_sequencer.md R158, R159; 10_state.md R31). -/
def Obligations.PixelPhaseFillsLineBuffer : Prop :=
  ∀ (s t u : State) (ch : Slot), tBpEnd s.cfg ≤ s.v →
    startOfFrame (markBusySlot ch s) = .ok u → post ch s = .ok t →
    (s.cfg.twoPhase = true → s.phase = .pix →
      (t.chan ch).src = BitVec.ofNat 16 (lineBufBase ch) ∧ (t.chan ch).len = 160 ∧
      (∀ j, j < 160 → lineBufWord t (lineBufBase ch + j) =
        (lineUnits u).getD (2 * j + 1) 0 ++ (lineUnits u).getD (2 * j) 0) ∧
      (∀ a, a < lineBufBase ch ∨ lineBufBase ch + 160 ≤ a → lineBufWord t a = lineBufWord s a)) ∧
    (s.cfg.twoPhase = false → 4 ≤ s.cfg.cmdListLen →
      (t.chan ch).src = BitVec.ofNat 16 (lineBufBase ch) ∧ (t.chan ch).len = BitVec.ofNat 16 (s.cfg.cmdListLen + 160) ∧
      (∀ j, j < s.cfg.cmdListLen → lineBufWord t (lineBufBase ch + j) = (tableWords s.cfg .active).getD j 0) ∧
      (∀ j, j < 160 → lineBufWord t (lineBufBase ch + s.cfg.cmdListLen + j) =
        (lineUnits u).getD (2 * j + 1) 0 ++ (lineUnits u).getD (2 * j) 0) ∧
      (∀ a, a < lineBufBase ch ∨ lineBufBase ch + s.cfg.cmdListLen + 160 ≤ a → lineBufWord t a = lineBufWord s a))

/-- `dma_xfer`, where enabled and inside a region, pushes the word at RPTR and moves the cursors, and nothing else. What
stands at an address of a legal build is the region map: word `k` of a command table at the table's base plus `k`, the
line-buffer word at a line buffer's base plus `k`, and nothing elsewhere (42_dma_scheduler.md R182, 20_memory.md R66). Two
clauses are the model's choice: at a reserved address, which the spec says a model refuses (20_memory.md R66, 93 U8, U18), it
stops with a fault (log 23); where it is not enabled the turn passes (log 4). -/
def Obligations.DmaXferPushesOneWord : Prop :=
  (∀ (s : State) (ch : Slot),
    (∀ w, dmaXferEnabled ch s = true → dmaRead s (s.chan ch).rptr = some w →
      ∃ t, takeTurn (.dmaXfer ch) s = .next t ∧ t.fifo = s.fifo ++ [w] ∧
        t.chan ch = { s.chan ch with rptr := (s.chan ch).rptr + 1, rem := (s.chan ch).rem - 1 } ∧
        t.chan (otherSlot ch) = s.chan (otherSlot ch) ∧
        { t with fifo := s.fifo, ch0 := s.ch0, ch1 := s.ch1 } = s) ∧
    (dmaXferEnabled ch s = true → dmaRead s (s.chan ch).rptr = none →
      takeTurn (.dmaXfer ch) s = .fault (.reservedDmaAddress (s.chan ch).rptr)) ∧
    (dmaXferEnabled ch s = false → takeTurn (.dmaXfer ch) s = .next s) ∧
    (dmaXferEnabled ch s = true ↔
      (s.chan ch).busy = true ∧ 0 < (s.chan ch).rem.toNat ∧ s.fifo.length < s.cfg.fifoDepth)) ∧
  (tableBase .blank = 0x0000 ∧ tableBase .vsync = 0x0100 ∧ tableBase .active = 0x0200 ∧
    lineBufBase .ping = 0x1000 ∧ lineBufBase .pong = 0x1400) ∧
  ∀ (s : State) (a : BitVec 16), buildLegal s.cfg = true →
    (∀ t k, k < s.cfg.cmdListLen → a.toNat = tableBase t + k → dmaRead s a = (tableWords s.cfg t)[k]? ∧
      (tableWords s.cfg t)[k]?.isSome = true) ∧
    (∀ ch k, k < s.cfg.cmdListLen + 160 → a.toNat = lineBufBase ch + k → dmaRead s a = some (lineBufWord s a.toNat)) ∧
    ((∀ t k, k < s.cfg.cmdListLen → a.toNat ≠ tableBase t + k) →
      (∀ ch k, k < s.cfg.cmdListLen + 160 → a.toNat ≠ lineBufBase ch + k) → dmaRead s a = none)

/-- `dma_complete` raises DONE, frees its channel and starts the other one on the descriptor it holds
(42_dma_scheduler.md R181, R183). -/
def Obligations.DmaCompleteChainsOtherChannel : Prop :=
  ∀ (s : State) (ch : Slot), dmaCompleteEnabled ch s = true → (s.chan (otherSlot ch)).busy = false →
    descriptorLegal s.cfg (s.chan (otherSlot ch)).src (s.chan (otherSlot ch)).len = true →
    ∃ t, takeTurn (.dmaComplete ch) s = .next t ∧
      t.chan ch = { s.chan ch with busy := false, done := true } ∧
      t.chan (otherSlot ch) = { s.chan (otherSlot ch) with
        rptr := (s.chan (otherSlot ch)).src, rem := (s.chan (otherSlot ch)).len, busy := true } ∧
      { t with ch0 := s.ch0, ch1 := s.ch1 } = s

/-- While the transfers stay inside their regions no step faults or meets a bad descriptor, and every step keeps it so
(20_memory.md R62, R66, 45 R262 (d)). -/
def Obligations.TransfersNeverLeaveTheirRegion : Prop :=
  ∀ s : State, DmaInv s →
    (∀ f, step s ≠ .fault f) ∧ (∀ ch src len, step s ≠ .refused (.badDescriptor ch src len)) ∧
    (∀ s', step s = .next s' → DmaInv s')

/-- Under premise RT the chain never falls out of step with the toggle, and M_DESC is never set
(70_reset_and_hazards.md R310, 42_dma_scheduler.md R185). -/
def Obligations.RealTimeOrderKeepsChain : Prop :=
  ∀ s s' : State, ChainInv s → keepsRT s → nextTurn s ≠ some .reset → step s = .next s' →
    ChainInv s' ∧ s'.mDesc = s.mDesc

/-! The whole machine. -/

/-- Every step keeps the memories in canonical form (log 12). -/
def Obligations.StepKeepsMemoriesCanonical : Prop :=
  ∀ s s' : State, MemInv s → step s = .next s' → MemInv s'

/-- Every step keeps the line counter, the open line, the ring cursors, PHASE and the FIFO's length in range
(10_state.md R23 to R25, R30, R33). -/
def Obligations.StepKeepsRegistersInRange : Prop :=
  ∀ s s' : State, RangeInv s ∧ PhaseInv s ∧ FifoInv s → step s = .next s' → RangeInv s' ∧ PhaseInv s' ∧ FifoInv s'

/-- Marks are sticky, OUT is only ever extended at its end and only by SER, no other agent writes SER_REM or CNT, and the
build never changes (10_state.md R35, 43_serializer_tmds.md R203, R204, 70 R319). Where a mark is set the spec leaves the content of OUT unspecified
(93 U2): that OUT keeps its earlier records then is the model's choice (DESIGN CHOICE, log 14). -/
def Obligations.MarksStickAndOutOnlyGrows : Prop :=
  ∀ s s' : State, step s = .next s' →
    s'.cfg = s.cfg ∧
    (nextTurn s ≠ some .reset →
      (s.mDesc = true → s'.mDesc = true) ∧ (s.mCmd = true → s'.mCmd = true) ∧
      (∃ more, s'.out = s.out ++ more ∧ (nextTurn s ≠ some .serPop → more = [])) ∧
      (nextTurn s ≠ some .serPop → s'.serRem = s.serRem ∧ s'.cnt = s.cnt)) ∧
    (nextTurn s = some .reset → s'.mDesc = false ∧ s'.mCmd = false ∧ s'.out = [])

/-- The state right after reset, of the default build, of every other build, and after a reset turn in any state, has every
value of the reset table, in one step; what a byte, a line-buffer word or a ring slot holds is a free value; a reset turn
keeps the build (10_state.md R38, 70_reset_and_hazards.md R300). -/
def Obligations.ResetStateMatchesTable : Prop :=
  ResetTable State.reset ∧ State.reset.cfg = Config.default ∧
  (∀ c : Config, ResetTable (State.resetWith c) ∧ (State.resetWith c).cfg = c) ∧
  ∀ s : State, ∃ t, takeTurn .reset s = .next t ∧ ResetTable t ∧ t.cfg = s.cfg

/-- The reset state of every legal build meets every invariant stated here (10_state.md R22, R38). -/
def Obligations.ResetMeetsInvariants : Prop :=
  ∀ c : Config, buildLegal c = true →
    (State.resetWith c).fx ∈ fxFive ∧ FxInv (State.resetWith c).fx ∧ MemInv (State.resetWith c) ∧
    RangeInv (State.resetWith c) ∧ PhaseInv (State.resetWith c) ∧ FifoInv (State.resetWith c) ∧
    DisparityInv (State.resetWith c) ∧ ChainInv (State.resetWith c) ∧ DmaInv (State.resetWith c) ∧
    RingInv (State.resetWith c) ∧ MarksClear (State.resetWith c) ∧ (State.resetWith c).race = []
end

