-- ==== Sys2Proof/Laws/Memory.lean ====
section
/-! SUPPORT. Laws of the memories: read after write, and that every operation keeps the canonical form. -/

namespace Sys2Proof.Machine

theorem Memory.read?_write_same {w : Nat} (m : Memory w) (a : Nat) (x : BitVec w) :
    (m.write a x).read? a = some x := by
  induction m with
  | nil => simp [Memory.write, Memory.read?]
  | cons c m ih =>
    obtain ⟨k, y⟩ := c
    simp only [Memory.write]
    split
    · simp [Memory.read?]
    · split
      · simp [Memory.read?]
      · simp only [Memory.read?]
        rw [if_neg (by omega)]
        exact ih

theorem Memory.read?_write_other {w : Nat} (m : Memory w) {a b : Nat} (x : BitVec w) (h : b ≠ a) :
    (m.write a x).read? b = m.read? b := by
  induction m with
  | nil => simp [Memory.write, Memory.read?, Ne.symm h]
  | cons c m ih =>
    obtain ⟨k, y⟩ := c
    simp only [Memory.write]
    split
    · simp [Memory.read?, Ne.symm h]
    · split
      · rename_i hk; subst hk; simp [Memory.read?, Ne.symm h]
      · simp only [Memory.read?, ih]

theorem Memory.read?_write {w : Nat} (m : Memory w) (a b : Nat) (x : BitVec w) :
    (m.write a x).read? b = if b = a then some x else m.read? b := by
  split
  · rename_i h; subst h; exact m.read?_write_same b x
  · rename_i h; exact m.read?_write_other x h

theorem Memory.read?_writeList_outside {w : Nat} (xs : List (BitVec w)) (m : Memory w) (a b : Nat)
    (h : b < a ∨ a + xs.length ≤ b) : (m.writeList a xs).read? b = m.read? b := by
  induction xs generalizing m a with
  | nil => rfl
  | cons x xs ih =>
    simp only [List.length_cons] at h
    rw [Memory.writeList, ih _ _ (by omega), Memory.read?_write_other _ _ (by omega)]

theorem Memory.read?_writeList_inside {w : Nat} (xs : List (BitVec w)) (m : Memory w) (a i : Nat)
    (h : i < xs.length) : (m.writeList a xs).read? (a + i) = xs[i]? := by
  induction xs generalizing m a i with
  | nil => simp at h
  | cons x xs ih =>
    cases i with
    | zero =>
      rw [Memory.writeList, Memory.read?_writeList_outside _ _ _ _ (by omega), Nat.add_zero,
        Memory.read?_write_same, List.getElem?_cons_zero]
    | succ i =>
      simp only [List.length_cons] at h
      rw [Memory.writeList, show a + (i + 1) = (a + 1) + i by omega, ih _ _ _ (by omega), List.getElem?_cons_succ]

theorem Memory.risingFrom_mono {w : Nat} {lo hi : Nat} {m : Memory w} (h : lo ≤ hi)
    (hm : m.risingFrom hi = true) : m.risingFrom lo = true := by
  cases m with
  | nil => rfl
  | cons c m =>
    simp only [Memory.risingFrom, Bool.and_eq_true, decide_eq_true_eq] at hm ⊢
    exact ⟨by omega, hm.2⟩

theorem Memory.risingFrom_write {w : Nat} (m : Memory w) (lo a : Nat) (x : BitVec w) (h : lo < a)
    (hm : m.risingFrom lo = true) : (m.write a x).risingFrom lo = true := by
  induction m generalizing lo with
  | nil => simp [Memory.write, Memory.risingFrom, h]
  | cons c m ih =>
    obtain ⟨k, y⟩ := c
    simp only [Memory.risingFrom, Bool.and_eq_true, decide_eq_true_eq] at hm
    simp only [Memory.write]
    split
    · rename_i hak
      simp [Memory.risingFrom, h, hak, hm.2]
    · split
      · rename_i hak; subst hak; simp [Memory.risingFrom, h, hm.2]
      · simp only [Memory.risingFrom, Bool.and_eq_true, decide_eq_true_eq]
        exact ⟨hm.1, ih k (by omega) hm.2⟩

/-- A write keeps the canonical form. -/
theorem Memory.wf_write {w : Nat} (m : Memory w) (a : Nat) (x : BitVec w) (hm : m.wf = true) :
    (m.write a x).wf = true := by
  cases m with
  | nil => rfl
  | cons c m =>
    obtain ⟨k, y⟩ := c
    simp only [Memory.wf] at hm
    simp only [Memory.write]
    split
    · rename_i hak; simp [Memory.wf, Memory.risingFrom, hak, hm]
    · split
      · rename_i hak; subst hak; exact hm
      · exact Memory.risingFrom_write m k a x (by omega) hm

/-- A run of writes keeps the canonical form. -/
theorem Memory.wf_writeList {w : Nat} (xs : List (BitVec w)) (m : Memory w) (a : Nat) (hm : m.wf = true) :
    (m.writeList a xs).wf = true := by
  induction xs generalizing m a with
  | nil => exact hm
  | cons x xs ih => exact ih _ _ (Memory.wf_write m a x hm)

theorem wf_writeRow (s : State) (b : BufId) (y : Nat) (data : List Byte) (h : Memory.wf s.fb = true) :
    Memory.wf (writeRow s b y data).fb = true := Memory.wf_writeList data s.fb _ h

theorem wf_fillLineBuf (s : State) (ch : Slot) (words : List Word) (h : Memory.wf s.lineBuf = true) :
    Memory.wf (fillLineBuf ch words s).lineBuf = true := Memory.wf_writeList words s.lineBuf _ h

theorem wf_ringWithFrames (s : State) (n : Nat) (h : Memory.wf s.ring = true) :
    Memory.wf (ringWithFrames s n) = true := by
  induction n with
  | zero => exact h
  | succ n ih => exact Memory.wf_write _ _ _ ih

theorem wf_enqueueFrames (s : State) (count : BitVec 16) (h : Memory.wf s.ring = true) :
    Memory.wf (enqueueFrames count s).ring = true := wf_ringWithFrames s _ h

/-- The memories of a reset state list nothing. -/
theorem wf_resetWith (c : Config) :
    Memory.wf (State.resetWith c).fb = true ∧ Memory.wf (State.resetWith c).lineBuf = true ∧
      Memory.wf (State.resetWith c).ring = true := ⟨rfl, rfl, rfl⟩

/-! Keys of framebuffer bytes. -/

theorem fbAddr_row (b : BufId) (y x : Nat) : fbAddr b y x = fbAddr b y 0 + x := by
  simp [fbAddr]

theorem bufNum_of_fbAddr (b : BufId) (y x : Nat) (hy : y < 240) (hx : x < 320) :
    fbAddr b y x / fbBytes = bufNum b := by
  have h : y * fbWidth + x < fbBytes := by simp only [fbWidth, fbBytes]; omega
  simp only [fbAddr, fbWidth, fbBytes] at h ⊢
  omega

theorem otherBuf_ne (b : BufId) : otherBuf b ≠ b := by cases b <;> decide

theorem bufNum_otherBuf_ne (b : BufId) : bufNum (otherBuf b) ≠ bufNum b := by cases b <;> decide

theorem otherBuf_otherBuf (b : BufId) : otherBuf (otherBuf b) = b := by cases b <;> rfl

theorem otherSlot_otherSlot (ch : Slot) : otherSlot (otherSlot ch) = ch := by cases ch <;> rfl

theorem otherSlot_ne (ch : Slot) : otherSlot ch ≠ ch := by cases ch <;> decide

end Sys2Proof.Machine
end

