-- ==== Sys2Proof/Laws/State.lean ====
section
/-! SUPPORT. The small lemmas of State: for every update and every field, what the field is afterwards. -/

namespace Sys2Proof.Machine

/-! Channels and FrameExchange bits. -/

@[simp] theorem chan_setChan_same (ch : Slot) (c : Channel) (s : State) : (s.setChan ch c).chan ch = c := by
  cases ch <;> rfl
@[simp] theorem chan_otherSlot_setChan (ch : Slot) (c : Channel) (s : State) :
    (s.setChan ch c).chan (otherSlot ch) = s.chan (otherSlot ch) := by cases ch <;> rfl
@[simp] theorem chan_setChan_otherSlot (ch : Slot) (c : Channel) (s : State) :
    (s.setChan (otherSlot ch) c).chan ch = s.chan ch := by cases ch <;> rfl
@[simp] theorem chan_ping (s : State) : s.chan .ping = s.ch0 := rfl
@[simp] theorem chan_pong (s : State) : s.chan .pong = s.ch1 := rfl
@[simp] theorem setChan_ping_ch0 (c : Channel) (s : State) : (s.setChan .ping c).ch0 = c := rfl
@[simp] theorem setChan_ping_ch1 (c : Channel) (s : State) : (s.setChan .ping c).ch1 = s.ch1 := rfl
@[simp] theorem setChan_pong_ch0 (c : Channel) (s : State) : (s.setChan .pong c).ch0 = s.ch0 := rfl
@[simp] theorem setChan_pong_ch1 (c : Channel) (s : State) : (s.setChan .pong c).ch1 = c := rfl
@[simp] theorem otherBuf_b0 : otherBuf .b0 = .b1 := rfl
@[simp] theorem otherBuf_b1 : otherBuf .b1 = .b0 := rfl
@[simp] theorem otherSlot_ping : otherSlot .ping = .pong := rfl
@[simp] theorem otherSlot_pong : otherSlot .pong = .ping := rfl
@[simp] theorem ready_b0 (f : FrameExchange) : f.ready .b0 = f.ready0 := rfl
@[simp] theorem ready_b1 (f : FrameExchange) : f.ready .b1 = f.ready1 := rfl
@[simp] theorem rendering_b0 (f : FrameExchange) : f.rendering .b0 = f.rendering0 := rfl
@[simp] theorem rendering_b1 (f : FrameExchange) : f.rendering .b1 = f.rendering1 := rfl
@[simp] theorem ready_setReady_same (f : FrameExchange) (b : BufId) (x : Bool) : (f.setReady b x).ready b = x := by
  cases b <;> rfl
@[simp] theorem ready_setReady_other (f : FrameExchange) (b : BufId) (x : Bool) :
    (f.setReady b x).ready (otherBuf b) = f.ready (otherBuf b) := by cases b <;> rfl
@[simp] theorem rendering_setRendering_same (f : FrameExchange) (b : BufId) (x : Bool) :
    (f.setRendering b x).rendering b = x := by cases b <;> rfl
@[simp] theorem rendering_setRendering_other (f : FrameExchange) (b : BufId) (x : Bool) :
    (f.setRendering b x).rendering (otherBuf b) = f.rendering (otherBuf b) := by cases b <;> rfl
@[simp] theorem setReady_rendering0 (f : FrameExchange) (b : BufId) (x : Bool) : (f.setReady b x).rendering0 = f.rendering0 := by
  cases b <;> rfl
@[simp] theorem setReady_rendering1 (f : FrameExchange) (b : BufId) (x : Bool) : (f.setReady b x).rendering1 = f.rendering1 := by
  cases b <;> rfl
@[simp] theorem setReady_wt (f : FrameExchange) (b : BufId) (x : Bool) : (f.setReady b x).wt = f.wt := by
  cases b <;> rfl
@[simp] theorem setReady_lock (f : FrameExchange) (b : BufId) (x : Bool) : (f.setReady b x).lock = f.lock := by
  cases b <;> rfl
@[simp] theorem setRendering_ready0 (f : FrameExchange) (b : BufId) (x : Bool) : (f.setRendering b x).ready0 = f.ready0 := by
  cases b <;> rfl
@[simp] theorem setRendering_ready1 (f : FrameExchange) (b : BufId) (x : Bool) : (f.setRendering b x).ready1 = f.ready1 := by
  cases b <;> rfl
@[simp] theorem setRendering_wt (f : FrameExchange) (b : BufId) (x : Bool) : (f.setRendering b x).wt = f.wt := by
  cases b <;> rfl
@[simp] theorem setRendering_lock (f : FrameExchange) (b : BufId) (x : Bool) : (f.setRendering b x).lock = f.lock := by
  cases b <;> rfl
@[simp] theorem ready_lock (f : FrameExchange) (who : LockOwner) (b : BufId) :
    ({ f with lock := who } : FrameExchange).ready b = f.ready b := by cases b <;> rfl
@[simp] theorem rendering_lock (f : FrameExchange) (who : LockOwner) (b : BufId) :
    ({ f with lock := who } : FrameExchange).rendering b = f.rendering b := by cases b <;> rfl
@[simp] theorem acquirePick_lock (f : FrameExchange) (who : LockOwner) :
    acquirePick { f with lock := who } = acquirePick f := by simp [acquirePick]
@[simp] theorem setLock_setLock (a b : LockOwner) (s : State) : setLock a (setLock b s) = setLock a s := rfl
@[simp] theorem setLock_respond (a : LockOwner) (o : OutcomeCode) (r : Option Word) (s : State) :
    setLock a (respond o r s) = respond o r (setLock a s) := rfl
@[simp] theorem setLock_note (a : LockOwner) (o : OutcomeCode) (s : State) : setLock a (note o s) = note o (setLock a s) := rfl
@[simp] theorem acquireOutcome_some (b : BufId) : acquireOutcome (some b) = .ok := rfl
@[simp] theorem acquireOutcome_none : acquireOutcome none = .none := rfl
theorem setLock_free_of_free (s : State) (h : s.fx.lock = .free) : setLock .free s = s := by
  unfold setLock; rw [← h]

/-! `clearOutputs`. -/
@[simp] theorem clearOutputs_cfg (s : State) : (clearOutputs s).cfg = s.cfg := rfl
@[simp] theorem clearOutputs_fx (s : State) : (clearOutputs s).fx = s.fx := rfl
@[simp] theorem clearOutputs_prodOpen (s : State) : (clearOutputs s).prodOpen = s.prodOpen := rfl
@[simp] theorem clearOutputs_prodLine (s : State) : (clearOutputs s).prodLine = s.prodLine := rfl
@[simp] theorem clearOutputs_v (s : State) : (clearOutputs s).v = s.v := rfl
@[simp] theorem clearOutputs_phase (s : State) : (clearOutputs s).phase = s.phase := rfl
@[simp] theorem clearOutputs_run (s : State) : (clearOutputs s).run = s.run := rfl
@[simp] theorem clearOutputs_lastDone (s : State) : (clearOutputs s).lastDone = s.lastDone := rfl
@[simp] theorem clearOutputs_dispValid (s : State) : (clearOutputs s).dispValid = s.dispValid := rfl
@[simp] theorem clearOutputs_dispBuf (s : State) : (clearOutputs s).dispBuf = s.dispBuf := rfl
@[simp] theorem clearOutputs_scalePending (s : State) : (clearOutputs s).scalePending = s.scalePending := rfl
@[simp] theorem clearOutputs_scaleActive (s : State) : (clearOutputs s).scaleActive = s.scaleActive := rfl
@[simp] theorem clearOutputs_ch0 (s : State) : (clearOutputs s).ch0 = s.ch0 := rfl
@[simp] theorem clearOutputs_ch1 (s : State) : (clearOutputs s).ch1 = s.ch1 := rfl
@[simp] theorem clearOutputs_fifo (s : State) : (clearOutputs s).fifo = s.fifo := rfl
@[simp] theorem clearOutputs_lineBuf (s : State) : (clearOutputs s).lineBuf = s.lineBuf := rfl
@[simp] theorem clearOutputs_fb (s : State) : (clearOutputs s).fb = s.fb := rfl
@[simp] theorem clearOutputs_race (s : State) : (clearOutputs s).race = s.race := rfl
@[simp] theorem clearOutputs_serRem (s : State) : (clearOutputs s).serRem = s.serRem := rfl
@[simp] theorem clearOutputs_cnt (s : State) : (clearOutputs s).cnt = s.cnt := rfl
@[simp] theorem clearOutputs_out (s : State) : (clearOutputs s).out = s.out := rfl
@[simp] theorem clearOutputs_ring (s : State) : (clearOutputs s).ring = s.ring := rfl
@[simp] theorem clearOutputs_wr (s : State) : (clearOutputs s).wr = s.wr := rfl
@[simp] theorem clearOutputs_rd (s : State) : (clearOutputs s).rd = s.rd := rfl
@[simp] theorem clearOutputs_last (s : State) : (clearOutputs s).last = s.last := rfl
@[simp] theorem clearOutputs_audTick (s : State) : (clearOutputs s).audTick = s.audTick := rfl
@[simp] theorem clearOutputs_audTrace (s : State) : (clearOutputs s).audTrace = s.audTrace := rfl
@[simp] theorem clearOutputs_audOwner (s : State) : (clearOutputs s).audOwner = s.audOwner := rfl
@[simp] theorem clearOutputs_mDesc (s : State) : (clearOutputs s).mDesc = s.mDesc := rfl
@[simp] theorem clearOutputs_mCmd (s : State) : (clearOutputs s).mCmd = s.mCmd := rfl
@[simp] theorem clearOutputs_inbox (s : State) : (clearOutputs s).inbox = s.inbox := rfl
@[simp] theorem clearOutputs_fresh (s : State) : (clearOutputs s).fresh = s.fresh := rfl
@[simp] theorem clearOutputs_epoch (s : State) : (clearOutputs s).epoch = s.epoch := rfl
@[simp] theorem clearOutputs_chan (ch' : Slot) (s : State) : (clearOutputs s).chan ch' = s.chan ch' := by
  cases ch' <;> simp

/-! `respond`. -/
@[simp] theorem respond_cfg (o : OutcomeCode) (r : Option Word) (s : State) : (respond o r s).cfg = s.cfg := rfl
@[simp] theorem respond_fx (o : OutcomeCode) (r : Option Word) (s : State) : (respond o r s).fx = s.fx := rfl
@[simp] theorem respond_prodOpen (o : OutcomeCode) (r : Option Word) (s : State) :
    (respond o r s).prodOpen = s.prodOpen := rfl
@[simp] theorem respond_prodLine (o : OutcomeCode) (r : Option Word) (s : State) :
    (respond o r s).prodLine = s.prodLine := rfl
@[simp] theorem respond_v (o : OutcomeCode) (r : Option Word) (s : State) : (respond o r s).v = s.v := rfl
@[simp] theorem respond_phase (o : OutcomeCode) (r : Option Word) (s : State) : (respond o r s).phase = s.phase := rfl
@[simp] theorem respond_run (o : OutcomeCode) (r : Option Word) (s : State) : (respond o r s).run = s.run := rfl
@[simp] theorem respond_lastDone (o : OutcomeCode) (r : Option Word) (s : State) :
    (respond o r s).lastDone = s.lastDone := rfl
@[simp] theorem respond_dispValid (o : OutcomeCode) (r : Option Word) (s : State) :
    (respond o r s).dispValid = s.dispValid := rfl
@[simp] theorem respond_dispBuf (o : OutcomeCode) (r : Option Word) (s : State) :
    (respond o r s).dispBuf = s.dispBuf := rfl
@[simp] theorem respond_scalePending (o : OutcomeCode) (r : Option Word) (s : State) :
    (respond o r s).scalePending = s.scalePending := rfl
@[simp] theorem respond_scaleActive (o : OutcomeCode) (r : Option Word) (s : State) :
    (respond o r s).scaleActive = s.scaleActive := rfl
@[simp] theorem respond_ch0 (o : OutcomeCode) (r : Option Word) (s : State) : (respond o r s).ch0 = s.ch0 := rfl
@[simp] theorem respond_ch1 (o : OutcomeCode) (r : Option Word) (s : State) : (respond o r s).ch1 = s.ch1 := rfl
@[simp] theorem respond_fifo (o : OutcomeCode) (r : Option Word) (s : State) : (respond o r s).fifo = s.fifo := rfl
@[simp] theorem respond_lineBuf (o : OutcomeCode) (r : Option Word) (s : State) :
    (respond o r s).lineBuf = s.lineBuf := rfl
@[simp] theorem respond_fb (o : OutcomeCode) (r : Option Word) (s : State) : (respond o r s).fb = s.fb := rfl
@[simp] theorem respond_race (o : OutcomeCode) (r : Option Word) (s : State) : (respond o r s).race = s.race := rfl
@[simp] theorem respond_serRem (o : OutcomeCode) (r : Option Word) (s : State) :
    (respond o r s).serRem = s.serRem := rfl
@[simp] theorem respond_cnt (o : OutcomeCode) (r : Option Word) (s : State) : (respond o r s).cnt = s.cnt := rfl
@[simp] theorem respond_out (o : OutcomeCode) (r : Option Word) (s : State) : (respond o r s).out = s.out := rfl
@[simp] theorem respond_ring (o : OutcomeCode) (r : Option Word) (s : State) : (respond o r s).ring = s.ring := rfl
@[simp] theorem respond_wr (o : OutcomeCode) (r : Option Word) (s : State) : (respond o r s).wr = s.wr := rfl
@[simp] theorem respond_rd (o : OutcomeCode) (r : Option Word) (s : State) : (respond o r s).rd = s.rd := rfl
@[simp] theorem respond_last (o : OutcomeCode) (r : Option Word) (s : State) : (respond o r s).last = s.last := rfl
@[simp] theorem respond_audTick (o : OutcomeCode) (r : Option Word) (s : State) :
    (respond o r s).audTick = s.audTick := rfl
@[simp] theorem respond_audTrace (o : OutcomeCode) (r : Option Word) (s : State) :
    (respond o r s).audTrace = s.audTrace := rfl
@[simp] theorem respond_audOwner (o : OutcomeCode) (r : Option Word) (s : State) :
    (respond o r s).audOwner = s.audOwner := rfl
@[simp] theorem respond_mDesc (o : OutcomeCode) (r : Option Word) (s : State) : (respond o r s).mDesc = s.mDesc := rfl
@[simp] theorem respond_mCmd (o : OutcomeCode) (r : Option Word) (s : State) : (respond o r s).mCmd = s.mCmd := rfl
@[simp] theorem respond_port (o : OutcomeCode) (r : Option Word) (s : State) :
    (respond o r s).port = { s.port with rsp := r, reqErr := o == .badRequest, outcome := some o } := rfl
@[simp] theorem respond_inbox (o : OutcomeCode) (r : Option Word) (s : State) : (respond o r s).inbox = s.inbox := rfl
@[simp] theorem respond_fresh (o : OutcomeCode) (r : Option Word) (s : State) : (respond o r s).fresh = s.fresh := rfl
@[simp] theorem respond_epoch (o : OutcomeCode) (r : Option Word) (s : State) : (respond o r s).epoch = s.epoch := rfl
@[simp] theorem respond_chan (o : OutcomeCode) (r : Option Word) (ch' : Slot) (s : State) : (respond o r s).chan ch' = s.chan ch' := by
  cases ch' <;> simp

/-! `note`. -/
@[simp] theorem note_cfg (o : OutcomeCode) (s : State) : (note o s).cfg = s.cfg := rfl
@[simp] theorem note_fx (o : OutcomeCode) (s : State) : (note o s).fx = s.fx := rfl
@[simp] theorem note_prodOpen (o : OutcomeCode) (s : State) : (note o s).prodOpen = s.prodOpen := rfl
@[simp] theorem note_prodLine (o : OutcomeCode) (s : State) : (note o s).prodLine = s.prodLine := rfl
@[simp] theorem note_v (o : OutcomeCode) (s : State) : (note o s).v = s.v := rfl
@[simp] theorem note_phase (o : OutcomeCode) (s : State) : (note o s).phase = s.phase := rfl
@[simp] theorem note_run (o : OutcomeCode) (s : State) : (note o s).run = s.run := rfl
@[simp] theorem note_lastDone (o : OutcomeCode) (s : State) : (note o s).lastDone = s.lastDone := rfl
@[simp] theorem note_dispValid (o : OutcomeCode) (s : State) : (note o s).dispValid = s.dispValid := rfl
@[simp] theorem note_dispBuf (o : OutcomeCode) (s : State) : (note o s).dispBuf = s.dispBuf := rfl
@[simp] theorem note_scalePending (o : OutcomeCode) (s : State) : (note o s).scalePending = s.scalePending := rfl
@[simp] theorem note_scaleActive (o : OutcomeCode) (s : State) : (note o s).scaleActive = s.scaleActive := rfl
@[simp] theorem note_ch0 (o : OutcomeCode) (s : State) : (note o s).ch0 = s.ch0 := rfl
@[simp] theorem note_ch1 (o : OutcomeCode) (s : State) : (note o s).ch1 = s.ch1 := rfl
@[simp] theorem note_fifo (o : OutcomeCode) (s : State) : (note o s).fifo = s.fifo := rfl
@[simp] theorem note_lineBuf (o : OutcomeCode) (s : State) : (note o s).lineBuf = s.lineBuf := rfl
@[simp] theorem note_fb (o : OutcomeCode) (s : State) : (note o s).fb = s.fb := rfl
@[simp] theorem note_race (o : OutcomeCode) (s : State) : (note o s).race = s.race := rfl
@[simp] theorem note_serRem (o : OutcomeCode) (s : State) : (note o s).serRem = s.serRem := rfl
@[simp] theorem note_cnt (o : OutcomeCode) (s : State) : (note o s).cnt = s.cnt := rfl
@[simp] theorem note_out (o : OutcomeCode) (s : State) : (note o s).out = s.out := rfl
@[simp] theorem note_ring (o : OutcomeCode) (s : State) : (note o s).ring = s.ring := rfl
@[simp] theorem note_wr (o : OutcomeCode) (s : State) : (note o s).wr = s.wr := rfl
@[simp] theorem note_rd (o : OutcomeCode) (s : State) : (note o s).rd = s.rd := rfl
@[simp] theorem note_last (o : OutcomeCode) (s : State) : (note o s).last = s.last := rfl
@[simp] theorem note_audTick (o : OutcomeCode) (s : State) : (note o s).audTick = s.audTick := rfl
@[simp] theorem note_audTrace (o : OutcomeCode) (s : State) : (note o s).audTrace = s.audTrace := rfl
@[simp] theorem note_audOwner (o : OutcomeCode) (s : State) : (note o s).audOwner = s.audOwner := rfl
@[simp] theorem note_mDesc (o : OutcomeCode) (s : State) : (note o s).mDesc = s.mDesc := rfl
@[simp] theorem note_mCmd (o : OutcomeCode) (s : State) : (note o s).mCmd = s.mCmd := rfl
@[simp] theorem note_port (o : OutcomeCode) (s : State) :
    (note o s).port = { s.port with inner := s.port.inner ++ [o] } := rfl
@[simp] theorem note_inbox (o : OutcomeCode) (s : State) : (note o s).inbox = s.inbox := rfl
@[simp] theorem note_fresh (o : OutcomeCode) (s : State) : (note o s).fresh = s.fresh := rfl
@[simp] theorem note_epoch (o : OutcomeCode) (s : State) : (note o s).epoch = s.epoch := rfl
@[simp] theorem note_chan (o : OutcomeCode) (ch' : Slot) (s : State) : (note o s).chan ch' = s.chan ch' := by
  cases ch' <;> simp

/-! `setLock`. -/
@[simp] theorem setLock_cfg (who : LockOwner) (s : State) : (setLock who s).cfg = s.cfg := rfl
@[simp] theorem setLock_fx (who : LockOwner) (s : State) : (setLock who s).fx = { s.fx with lock := who } := rfl
@[simp] theorem setLock_prodOpen (who : LockOwner) (s : State) : (setLock who s).prodOpen = s.prodOpen := rfl
@[simp] theorem setLock_prodLine (who : LockOwner) (s : State) : (setLock who s).prodLine = s.prodLine := rfl
@[simp] theorem setLock_v (who : LockOwner) (s : State) : (setLock who s).v = s.v := rfl
@[simp] theorem setLock_phase (who : LockOwner) (s : State) : (setLock who s).phase = s.phase := rfl
@[simp] theorem setLock_run (who : LockOwner) (s : State) : (setLock who s).run = s.run := rfl
@[simp] theorem setLock_lastDone (who : LockOwner) (s : State) : (setLock who s).lastDone = s.lastDone := rfl
@[simp] theorem setLock_dispValid (who : LockOwner) (s : State) : (setLock who s).dispValid = s.dispValid := rfl
@[simp] theorem setLock_dispBuf (who : LockOwner) (s : State) : (setLock who s).dispBuf = s.dispBuf := rfl
@[simp] theorem setLock_scalePending (who : LockOwner) (s : State) :
    (setLock who s).scalePending = s.scalePending := rfl
@[simp] theorem setLock_scaleActive (who : LockOwner) (s : State) : (setLock who s).scaleActive = s.scaleActive := rfl
@[simp] theorem setLock_ch0 (who : LockOwner) (s : State) : (setLock who s).ch0 = s.ch0 := rfl
@[simp] theorem setLock_ch1 (who : LockOwner) (s : State) : (setLock who s).ch1 = s.ch1 := rfl
@[simp] theorem setLock_fifo (who : LockOwner) (s : State) : (setLock who s).fifo = s.fifo := rfl
@[simp] theorem setLock_lineBuf (who : LockOwner) (s : State) : (setLock who s).lineBuf = s.lineBuf := rfl
@[simp] theorem setLock_fb (who : LockOwner) (s : State) : (setLock who s).fb = s.fb := rfl
@[simp] theorem setLock_race (who : LockOwner) (s : State) : (setLock who s).race = s.race := rfl
@[simp] theorem setLock_serRem (who : LockOwner) (s : State) : (setLock who s).serRem = s.serRem := rfl
@[simp] theorem setLock_cnt (who : LockOwner) (s : State) : (setLock who s).cnt = s.cnt := rfl
@[simp] theorem setLock_out (who : LockOwner) (s : State) : (setLock who s).out = s.out := rfl
@[simp] theorem setLock_ring (who : LockOwner) (s : State) : (setLock who s).ring = s.ring := rfl
@[simp] theorem setLock_wr (who : LockOwner) (s : State) : (setLock who s).wr = s.wr := rfl
@[simp] theorem setLock_rd (who : LockOwner) (s : State) : (setLock who s).rd = s.rd := rfl
@[simp] theorem setLock_last (who : LockOwner) (s : State) : (setLock who s).last = s.last := rfl
@[simp] theorem setLock_audTick (who : LockOwner) (s : State) : (setLock who s).audTick = s.audTick := rfl
@[simp] theorem setLock_audTrace (who : LockOwner) (s : State) : (setLock who s).audTrace = s.audTrace := rfl
@[simp] theorem setLock_audOwner (who : LockOwner) (s : State) : (setLock who s).audOwner = s.audOwner := rfl
@[simp] theorem setLock_mDesc (who : LockOwner) (s : State) : (setLock who s).mDesc = s.mDesc := rfl
@[simp] theorem setLock_mCmd (who : LockOwner) (s : State) : (setLock who s).mCmd = s.mCmd := rfl
@[simp] theorem setLock_port (who : LockOwner) (s : State) : (setLock who s).port = s.port := rfl
@[simp] theorem setLock_inbox (who : LockOwner) (s : State) : (setLock who s).inbox = s.inbox := rfl
@[simp] theorem setLock_fresh (who : LockOwner) (s : State) : (setLock who s).fresh = s.fresh := rfl
@[simp] theorem setLock_epoch (who : LockOwner) (s : State) : (setLock who s).epoch = s.epoch := rfl
@[simp] theorem setLock_chan (who : LockOwner) (ch' : Slot) (s : State) : (setLock who s).chan ch' = s.chan ch' := by
  cases ch' <;> simp

/-! `extendOut`. -/
@[simp] theorem extendOut_cfg (recs : List OutRecord) (s : State) : (extendOut recs s).cfg = s.cfg := rfl
@[simp] theorem extendOut_fx (recs : List OutRecord) (s : State) : (extendOut recs s).fx = s.fx := rfl
@[simp] theorem extendOut_prodOpen (recs : List OutRecord) (s : State) : (extendOut recs s).prodOpen = s.prodOpen := rfl
@[simp] theorem extendOut_prodLine (recs : List OutRecord) (s : State) : (extendOut recs s).prodLine = s.prodLine := rfl
@[simp] theorem extendOut_v (recs : List OutRecord) (s : State) : (extendOut recs s).v = s.v := rfl
@[simp] theorem extendOut_phase (recs : List OutRecord) (s : State) : (extendOut recs s).phase = s.phase := rfl
@[simp] theorem extendOut_run (recs : List OutRecord) (s : State) : (extendOut recs s).run = s.run := rfl
@[simp] theorem extendOut_lastDone (recs : List OutRecord) (s : State) : (extendOut recs s).lastDone = s.lastDone := rfl
@[simp] theorem extendOut_dispValid (recs : List OutRecord) (s : State) :
    (extendOut recs s).dispValid = s.dispValid := rfl
@[simp] theorem extendOut_dispBuf (recs : List OutRecord) (s : State) : (extendOut recs s).dispBuf = s.dispBuf := rfl
@[simp] theorem extendOut_scalePending (recs : List OutRecord) (s : State) :
    (extendOut recs s).scalePending = s.scalePending := rfl
@[simp] theorem extendOut_scaleActive (recs : List OutRecord) (s : State) :
    (extendOut recs s).scaleActive = s.scaleActive := rfl
@[simp] theorem extendOut_ch0 (recs : List OutRecord) (s : State) : (extendOut recs s).ch0 = s.ch0 := rfl
@[simp] theorem extendOut_ch1 (recs : List OutRecord) (s : State) : (extendOut recs s).ch1 = s.ch1 := rfl
@[simp] theorem extendOut_fifo (recs : List OutRecord) (s : State) : (extendOut recs s).fifo = s.fifo := rfl
@[simp] theorem extendOut_lineBuf (recs : List OutRecord) (s : State) : (extendOut recs s).lineBuf = s.lineBuf := rfl
@[simp] theorem extendOut_fb (recs : List OutRecord) (s : State) : (extendOut recs s).fb = s.fb := rfl
@[simp] theorem extendOut_race (recs : List OutRecord) (s : State) : (extendOut recs s).race = s.race := rfl
@[simp] theorem extendOut_serRem (recs : List OutRecord) (s : State) : (extendOut recs s).serRem = s.serRem := rfl
@[simp] theorem extendOut_cnt (recs : List OutRecord) (s : State) : (extendOut recs s).cnt = s.cnt := rfl
@[simp] theorem extendOut_ring (recs : List OutRecord) (s : State) : (extendOut recs s).ring = s.ring := rfl
@[simp] theorem extendOut_wr (recs : List OutRecord) (s : State) : (extendOut recs s).wr = s.wr := rfl
@[simp] theorem extendOut_rd (recs : List OutRecord) (s : State) : (extendOut recs s).rd = s.rd := rfl
@[simp] theorem extendOut_last (recs : List OutRecord) (s : State) : (extendOut recs s).last = s.last := rfl
@[simp] theorem extendOut_audTick (recs : List OutRecord) (s : State) : (extendOut recs s).audTick = s.audTick := rfl
@[simp] theorem extendOut_audTrace (recs : List OutRecord) (s : State) : (extendOut recs s).audTrace = s.audTrace := rfl
@[simp] theorem extendOut_audOwner (recs : List OutRecord) (s : State) : (extendOut recs s).audOwner = s.audOwner := rfl
@[simp] theorem extendOut_mDesc (recs : List OutRecord) (s : State) : (extendOut recs s).mDesc = s.mDesc := rfl
@[simp] theorem extendOut_mCmd (recs : List OutRecord) (s : State) : (extendOut recs s).mCmd = s.mCmd := rfl
@[simp] theorem extendOut_port (recs : List OutRecord) (s : State) : (extendOut recs s).port = s.port := rfl
@[simp] theorem extendOut_inbox (recs : List OutRecord) (s : State) : (extendOut recs s).inbox = s.inbox := rfl
@[simp] theorem extendOut_fresh (recs : List OutRecord) (s : State) : (extendOut recs s).fresh = s.fresh := rfl
@[simp] theorem extendOut_epoch (recs : List OutRecord) (s : State) : (extendOut recs s).epoch = s.epoch := rfl
@[simp] theorem extendOut_chan (recs : List OutRecord) (ch' : Slot) (s : State) : (extendOut recs s).chan ch' = s.chan ch' := by
  cases ch' <;> simp

/-! `emitPeriods`. -/
@[simp] theorem emitPeriods_cfg (ps : List PixelPeriod) (s : State) : (emitPeriods ps s).cfg = s.cfg := rfl
@[simp] theorem emitPeriods_fx (ps : List PixelPeriod) (s : State) : (emitPeriods ps s).fx = s.fx := rfl
@[simp] theorem emitPeriods_prodOpen (ps : List PixelPeriod) (s : State) :
    (emitPeriods ps s).prodOpen = s.prodOpen := rfl
@[simp] theorem emitPeriods_prodLine (ps : List PixelPeriod) (s : State) :
    (emitPeriods ps s).prodLine = s.prodLine := rfl
@[simp] theorem emitPeriods_v (ps : List PixelPeriod) (s : State) : (emitPeriods ps s).v = s.v := rfl
@[simp] theorem emitPeriods_phase (ps : List PixelPeriod) (s : State) : (emitPeriods ps s).phase = s.phase := rfl
@[simp] theorem emitPeriods_run (ps : List PixelPeriod) (s : State) : (emitPeriods ps s).run = s.run := rfl
@[simp] theorem emitPeriods_lastDone (ps : List PixelPeriod) (s : State) :
    (emitPeriods ps s).lastDone = s.lastDone := rfl
@[simp] theorem emitPeriods_dispValid (ps : List PixelPeriod) (s : State) :
    (emitPeriods ps s).dispValid = s.dispValid := rfl
@[simp] theorem emitPeriods_dispBuf (ps : List PixelPeriod) (s : State) : (emitPeriods ps s).dispBuf = s.dispBuf := rfl
@[simp] theorem emitPeriods_scalePending (ps : List PixelPeriod) (s : State) :
    (emitPeriods ps s).scalePending = s.scalePending := rfl
@[simp] theorem emitPeriods_scaleActive (ps : List PixelPeriod) (s : State) :
    (emitPeriods ps s).scaleActive = s.scaleActive := rfl
@[simp] theorem emitPeriods_ch0 (ps : List PixelPeriod) (s : State) : (emitPeriods ps s).ch0 = s.ch0 := rfl
@[simp] theorem emitPeriods_ch1 (ps : List PixelPeriod) (s : State) : (emitPeriods ps s).ch1 = s.ch1 := rfl
@[simp] theorem emitPeriods_fifo (ps : List PixelPeriod) (s : State) : (emitPeriods ps s).fifo = s.fifo := rfl
@[simp] theorem emitPeriods_lineBuf (ps : List PixelPeriod) (s : State) : (emitPeriods ps s).lineBuf = s.lineBuf := rfl
@[simp] theorem emitPeriods_fb (ps : List PixelPeriod) (s : State) : (emitPeriods ps s).fb = s.fb := rfl
@[simp] theorem emitPeriods_race (ps : List PixelPeriod) (s : State) : (emitPeriods ps s).race = s.race := rfl
@[simp] theorem emitPeriods_serRem (ps : List PixelPeriod) (s : State) : (emitPeriods ps s).serRem = s.serRem := rfl
@[simp] theorem emitPeriods_cnt (ps : List PixelPeriod) (s : State) :
    (emitPeriods ps s).cnt = wireDisparity s.cfg.lineCode s.cnt ps := rfl
@[simp] theorem emitPeriods_ring (ps : List PixelPeriod) (s : State) : (emitPeriods ps s).ring = s.ring := rfl
@[simp] theorem emitPeriods_wr (ps : List PixelPeriod) (s : State) : (emitPeriods ps s).wr = s.wr := rfl
@[simp] theorem emitPeriods_rd (ps : List PixelPeriod) (s : State) : (emitPeriods ps s).rd = s.rd := rfl
@[simp] theorem emitPeriods_last (ps : List PixelPeriod) (s : State) : (emitPeriods ps s).last = s.last := rfl
@[simp] theorem emitPeriods_audTick (ps : List PixelPeriod) (s : State) : (emitPeriods ps s).audTick = s.audTick := rfl
@[simp] theorem emitPeriods_audTrace (ps : List PixelPeriod) (s : State) :
    (emitPeriods ps s).audTrace = s.audTrace := rfl
@[simp] theorem emitPeriods_audOwner (ps : List PixelPeriod) (s : State) :
    (emitPeriods ps s).audOwner = s.audOwner := rfl
@[simp] theorem emitPeriods_mDesc (ps : List PixelPeriod) (s : State) : (emitPeriods ps s).mDesc = s.mDesc := rfl
@[simp] theorem emitPeriods_mCmd (ps : List PixelPeriod) (s : State) : (emitPeriods ps s).mCmd = s.mCmd := rfl
@[simp] theorem emitPeriods_port (ps : List PixelPeriod) (s : State) : (emitPeriods ps s).port = s.port := rfl
@[simp] theorem emitPeriods_inbox (ps : List PixelPeriod) (s : State) : (emitPeriods ps s).inbox = s.inbox := rfl
@[simp] theorem emitPeriods_fresh (ps : List PixelPeriod) (s : State) : (emitPeriods ps s).fresh = s.fresh := rfl
@[simp] theorem emitPeriods_epoch (ps : List PixelPeriod) (s : State) : (emitPeriods ps s).epoch = s.epoch := rfl
@[simp] theorem emitPeriods_chan (ps : List PixelPeriod) (ch' : Slot) (s : State) : (emitPeriods ps s).chan ch' = s.chan ch' := by
  cases ch' <;> simp

/-! `ctrlRun`. -/
@[simp] theorem ctrlRun_cfg (vs hs : Bool) (n : Nat) (s : State) : (ctrlRun vs hs n s).cfg = s.cfg := rfl
@[simp] theorem ctrlRun_fx (vs hs : Bool) (n : Nat) (s : State) : (ctrlRun vs hs n s).fx = s.fx := rfl
@[simp] theorem ctrlRun_prodOpen (vs hs : Bool) (n : Nat) (s : State) : (ctrlRun vs hs n s).prodOpen = s.prodOpen := rfl
@[simp] theorem ctrlRun_prodLine (vs hs : Bool) (n : Nat) (s : State) : (ctrlRun vs hs n s).prodLine = s.prodLine := rfl
@[simp] theorem ctrlRun_v (vs hs : Bool) (n : Nat) (s : State) : (ctrlRun vs hs n s).v = s.v := rfl
@[simp] theorem ctrlRun_phase (vs hs : Bool) (n : Nat) (s : State) : (ctrlRun vs hs n s).phase = s.phase := rfl
@[simp] theorem ctrlRun_run (vs hs : Bool) (n : Nat) (s : State) : (ctrlRun vs hs n s).run = s.run := rfl
@[simp] theorem ctrlRun_lastDone (vs hs : Bool) (n : Nat) (s : State) : (ctrlRun vs hs n s).lastDone = s.lastDone := rfl
@[simp] theorem ctrlRun_dispValid (vs hs : Bool) (n : Nat) (s : State) :
    (ctrlRun vs hs n s).dispValid = s.dispValid := rfl
@[simp] theorem ctrlRun_dispBuf (vs hs : Bool) (n : Nat) (s : State) : (ctrlRun vs hs n s).dispBuf = s.dispBuf := rfl
@[simp] theorem ctrlRun_scalePending (vs hs : Bool) (n : Nat) (s : State) :
    (ctrlRun vs hs n s).scalePending = s.scalePending := rfl
@[simp] theorem ctrlRun_scaleActive (vs hs : Bool) (n : Nat) (s : State) :
    (ctrlRun vs hs n s).scaleActive = s.scaleActive := rfl
@[simp] theorem ctrlRun_ch0 (vs hs : Bool) (n : Nat) (s : State) : (ctrlRun vs hs n s).ch0 = s.ch0 := rfl
@[simp] theorem ctrlRun_ch1 (vs hs : Bool) (n : Nat) (s : State) : (ctrlRun vs hs n s).ch1 = s.ch1 := rfl
@[simp] theorem ctrlRun_fifo (vs hs : Bool) (n : Nat) (s : State) : (ctrlRun vs hs n s).fifo = s.fifo := rfl
@[simp] theorem ctrlRun_lineBuf (vs hs : Bool) (n : Nat) (s : State) : (ctrlRun vs hs n s).lineBuf = s.lineBuf := rfl
@[simp] theorem ctrlRun_fb (vs hs : Bool) (n : Nat) (s : State) : (ctrlRun vs hs n s).fb = s.fb := rfl
@[simp] theorem ctrlRun_race (vs hs : Bool) (n : Nat) (s : State) : (ctrlRun vs hs n s).race = s.race := rfl
@[simp] theorem ctrlRun_serRem (vs hs : Bool) (n : Nat) (s : State) : (ctrlRun vs hs n s).serRem = s.serRem := rfl
@[simp] theorem ctrlRun_cnt (vs hs : Bool) (n : Nat) (s : State) :
    (ctrlRun vs hs n s).cnt = { lane0 := 0, lane1 := 0, lane2 := 0 } := rfl
@[simp] theorem ctrlRun_ring (vs hs : Bool) (n : Nat) (s : State) : (ctrlRun vs hs n s).ring = s.ring := rfl
@[simp] theorem ctrlRun_wr (vs hs : Bool) (n : Nat) (s : State) : (ctrlRun vs hs n s).wr = s.wr := rfl
@[simp] theorem ctrlRun_rd (vs hs : Bool) (n : Nat) (s : State) : (ctrlRun vs hs n s).rd = s.rd := rfl
@[simp] theorem ctrlRun_last (vs hs : Bool) (n : Nat) (s : State) : (ctrlRun vs hs n s).last = s.last := rfl
@[simp] theorem ctrlRun_audTick (vs hs : Bool) (n : Nat) (s : State) : (ctrlRun vs hs n s).audTick = s.audTick := rfl
@[simp] theorem ctrlRun_audTrace (vs hs : Bool) (n : Nat) (s : State) : (ctrlRun vs hs n s).audTrace = s.audTrace := rfl
@[simp] theorem ctrlRun_audOwner (vs hs : Bool) (n : Nat) (s : State) : (ctrlRun vs hs n s).audOwner = s.audOwner := rfl
@[simp] theorem ctrlRun_mDesc (vs hs : Bool) (n : Nat) (s : State) : (ctrlRun vs hs n s).mDesc = s.mDesc := rfl
@[simp] theorem ctrlRun_mCmd (vs hs : Bool) (n : Nat) (s : State) : (ctrlRun vs hs n s).mCmd = s.mCmd := rfl
@[simp] theorem ctrlRun_port (vs hs : Bool) (n : Nat) (s : State) : (ctrlRun vs hs n s).port = s.port := rfl
@[simp] theorem ctrlRun_inbox (vs hs : Bool) (n : Nat) (s : State) : (ctrlRun vs hs n s).inbox = s.inbox := rfl
@[simp] theorem ctrlRun_fresh (vs hs : Bool) (n : Nat) (s : State) : (ctrlRun vs hs n s).fresh = s.fresh := rfl
@[simp] theorem ctrlRun_epoch (vs hs : Bool) (n : Nat) (s : State) : (ctrlRun vs hs n s).epoch = s.epoch := rfl
@[simp] theorem ctrlRun_chan (vs hs : Bool) (n : Nat) (ch' : Slot) (s : State) : (ctrlRun vs hs n s).chan ch' = s.chan ch' := by
  cases ch' <;> simp

/-! `reservedCommand`. -/
@[simp] theorem reservedCommand_cfg (s : State) : (reservedCommand s).cfg = s.cfg := rfl
@[simp] theorem reservedCommand_fx (s : State) : (reservedCommand s).fx = s.fx := rfl
@[simp] theorem reservedCommand_prodOpen (s : State) : (reservedCommand s).prodOpen = s.prodOpen := rfl
@[simp] theorem reservedCommand_prodLine (s : State) : (reservedCommand s).prodLine = s.prodLine := rfl
@[simp] theorem reservedCommand_v (s : State) : (reservedCommand s).v = s.v := rfl
@[simp] theorem reservedCommand_phase (s : State) : (reservedCommand s).phase = s.phase := rfl
@[simp] theorem reservedCommand_run (s : State) : (reservedCommand s).run = s.run := rfl
@[simp] theorem reservedCommand_lastDone (s : State) : (reservedCommand s).lastDone = s.lastDone := rfl
@[simp] theorem reservedCommand_dispValid (s : State) : (reservedCommand s).dispValid = s.dispValid := rfl
@[simp] theorem reservedCommand_dispBuf (s : State) : (reservedCommand s).dispBuf = s.dispBuf := rfl
@[simp] theorem reservedCommand_scalePending (s : State) : (reservedCommand s).scalePending = s.scalePending := rfl
@[simp] theorem reservedCommand_scaleActive (s : State) : (reservedCommand s).scaleActive = s.scaleActive := rfl
@[simp] theorem reservedCommand_ch0 (s : State) : (reservedCommand s).ch0 = s.ch0 := rfl
@[simp] theorem reservedCommand_ch1 (s : State) : (reservedCommand s).ch1 = s.ch1 := rfl
@[simp] theorem reservedCommand_fifo (s : State) : (reservedCommand s).fifo = s.fifo := rfl
@[simp] theorem reservedCommand_lineBuf (s : State) : (reservedCommand s).lineBuf = s.lineBuf := rfl
@[simp] theorem reservedCommand_fb (s : State) : (reservedCommand s).fb = s.fb := rfl
@[simp] theorem reservedCommand_race (s : State) : (reservedCommand s).race = s.race := rfl
@[simp] theorem reservedCommand_serRem (s : State) : (reservedCommand s).serRem = s.serRem := rfl
@[simp] theorem reservedCommand_cnt (s : State) : (reservedCommand s).cnt = s.cnt := rfl
@[simp] theorem reservedCommand_ring (s : State) : (reservedCommand s).ring = s.ring := rfl
@[simp] theorem reservedCommand_wr (s : State) : (reservedCommand s).wr = s.wr := rfl
@[simp] theorem reservedCommand_rd (s : State) : (reservedCommand s).rd = s.rd := rfl
@[simp] theorem reservedCommand_last (s : State) : (reservedCommand s).last = s.last := rfl
@[simp] theorem reservedCommand_audTick (s : State) : (reservedCommand s).audTick = s.audTick := rfl
@[simp] theorem reservedCommand_audTrace (s : State) : (reservedCommand s).audTrace = s.audTrace := rfl
@[simp] theorem reservedCommand_audOwner (s : State) : (reservedCommand s).audOwner = s.audOwner := rfl
@[simp] theorem reservedCommand_mDesc (s : State) : (reservedCommand s).mDesc = s.mDesc := rfl
@[simp] theorem reservedCommand_mCmd (s : State) : (reservedCommand s).mCmd = true := rfl
@[simp] theorem reservedCommand_port (s : State) : (reservedCommand s).port = s.port := rfl
@[simp] theorem reservedCommand_inbox (s : State) : (reservedCommand s).inbox = s.inbox := rfl
@[simp] theorem reservedCommand_fresh (s : State) : (reservedCommand s).fresh = s.fresh := rfl
@[simp] theorem reservedCommand_epoch (s : State) : (reservedCommand s).epoch = s.epoch := rfl
@[simp] theorem reservedCommand_chan (ch' : Slot) (s : State) : (reservedCommand s).chan ch' = s.chan ch' := by
  cases ch' <;> simp

/-! `dataWord`. -/
@[simp] theorem dataWord_cfg (w : Word) (s : State) : (dataWord w s).cfg = s.cfg := rfl
@[simp] theorem dataWord_fx (w : Word) (s : State) : (dataWord w s).fx = s.fx := rfl
@[simp] theorem dataWord_prodOpen (w : Word) (s : State) : (dataWord w s).prodOpen = s.prodOpen := rfl
@[simp] theorem dataWord_prodLine (w : Word) (s : State) : (dataWord w s).prodLine = s.prodLine := rfl
@[simp] theorem dataWord_v (w : Word) (s : State) : (dataWord w s).v = s.v := rfl
@[simp] theorem dataWord_phase (w : Word) (s : State) : (dataWord w s).phase = s.phase := rfl
@[simp] theorem dataWord_run (w : Word) (s : State) : (dataWord w s).run = s.run := rfl
@[simp] theorem dataWord_lastDone (w : Word) (s : State) : (dataWord w s).lastDone = s.lastDone := rfl
@[simp] theorem dataWord_dispValid (w : Word) (s : State) : (dataWord w s).dispValid = s.dispValid := rfl
@[simp] theorem dataWord_dispBuf (w : Word) (s : State) : (dataWord w s).dispBuf = s.dispBuf := rfl
@[simp] theorem dataWord_scalePending (w : Word) (s : State) : (dataWord w s).scalePending = s.scalePending := rfl
@[simp] theorem dataWord_scaleActive (w : Word) (s : State) : (dataWord w s).scaleActive = s.scaleActive := rfl
@[simp] theorem dataWord_ch0 (w : Word) (s : State) : (dataWord w s).ch0 = s.ch0 := rfl
@[simp] theorem dataWord_ch1 (w : Word) (s : State) : (dataWord w s).ch1 = s.ch1 := rfl
@[simp] theorem dataWord_fifo (w : Word) (s : State) : (dataWord w s).fifo = s.fifo := rfl
@[simp] theorem dataWord_lineBuf (w : Word) (s : State) : (dataWord w s).lineBuf = s.lineBuf := rfl
@[simp] theorem dataWord_fb (w : Word) (s : State) : (dataWord w s).fb = s.fb := rfl
@[simp] theorem dataWord_race (w : Word) (s : State) : (dataWord w s).race = s.race := rfl
@[simp] theorem dataWord_ring (w : Word) (s : State) : (dataWord w s).ring = s.ring := rfl
@[simp] theorem dataWord_wr (w : Word) (s : State) : (dataWord w s).wr = s.wr := rfl
@[simp] theorem dataWord_rd (w : Word) (s : State) : (dataWord w s).rd = s.rd := rfl
@[simp] theorem dataWord_last (w : Word) (s : State) : (dataWord w s).last = s.last := rfl
@[simp] theorem dataWord_audTick (w : Word) (s : State) : (dataWord w s).audTick = s.audTick := rfl
@[simp] theorem dataWord_audTrace (w : Word) (s : State) : (dataWord w s).audTrace = s.audTrace := rfl
@[simp] theorem dataWord_audOwner (w : Word) (s : State) : (dataWord w s).audOwner = s.audOwner := rfl
@[simp] theorem dataWord_mDesc (w : Word) (s : State) : (dataWord w s).mDesc = s.mDesc := rfl
@[simp] theorem dataWord_mCmd (w : Word) (s : State) : (dataWord w s).mCmd = s.mCmd := rfl
@[simp] theorem dataWord_port (w : Word) (s : State) : (dataWord w s).port = s.port := rfl
@[simp] theorem dataWord_inbox (w : Word) (s : State) : (dataWord w s).inbox = s.inbox := rfl
@[simp] theorem dataWord_fresh (w : Word) (s : State) : (dataWord w s).fresh = s.fresh := rfl
@[simp] theorem dataWord_epoch (w : Word) (s : State) : (dataWord w s).epoch = s.epoch := rfl
@[simp] theorem dataWord_chan (w : Word) (ch' : Slot) (s : State) : (dataWord w s).chan ch' = s.chan ch' := by
  cases ch' <;> simp

/-! `setChan`. -/
@[simp] theorem setChan_cfg (ch : Slot) (c : Channel) (s : State) : (s.setChan ch c).cfg = s.cfg := by cases ch <;> rfl
@[simp] theorem setChan_fx (ch : Slot) (c : Channel) (s : State) : (s.setChan ch c).fx = s.fx := by cases ch <;> rfl
@[simp] theorem setChan_prodOpen (ch : Slot) (c : Channel) (s : State) :
    (s.setChan ch c).prodOpen = s.prodOpen := by cases ch <;> rfl
@[simp] theorem setChan_prodLine (ch : Slot) (c : Channel) (s : State) :
    (s.setChan ch c).prodLine = s.prodLine := by cases ch <;> rfl
@[simp] theorem setChan_v (ch : Slot) (c : Channel) (s : State) : (s.setChan ch c).v = s.v := by cases ch <;> rfl
@[simp] theorem setChan_phase (ch : Slot) (c : Channel) (s : State) :
    (s.setChan ch c).phase = s.phase := by cases ch <;> rfl
@[simp] theorem setChan_run (ch : Slot) (c : Channel) (s : State) : (s.setChan ch c).run = s.run := by cases ch <;> rfl
@[simp] theorem setChan_lastDone (ch : Slot) (c : Channel) (s : State) :
    (s.setChan ch c).lastDone = s.lastDone := by cases ch <;> rfl
@[simp] theorem setChan_dispValid (ch : Slot) (c : Channel) (s : State) :
    (s.setChan ch c).dispValid = s.dispValid := by cases ch <;> rfl
@[simp] theorem setChan_dispBuf (ch : Slot) (c : Channel) (s : State) :
    (s.setChan ch c).dispBuf = s.dispBuf := by cases ch <;> rfl
@[simp] theorem setChan_scalePending (ch : Slot) (c : Channel) (s : State) :
    (s.setChan ch c).scalePending = s.scalePending := by cases ch <;> rfl
@[simp] theorem setChan_scaleActive (ch : Slot) (c : Channel) (s : State) :
    (s.setChan ch c).scaleActive = s.scaleActive := by cases ch <;> rfl
@[simp] theorem setChan_fifo (ch : Slot) (c : Channel) (s : State) :
    (s.setChan ch c).fifo = s.fifo := by cases ch <;> rfl
@[simp] theorem setChan_lineBuf (ch : Slot) (c : Channel) (s : State) :
    (s.setChan ch c).lineBuf = s.lineBuf := by cases ch <;> rfl
@[simp] theorem setChan_fb (ch : Slot) (c : Channel) (s : State) : (s.setChan ch c).fb = s.fb := by cases ch <;> rfl
@[simp] theorem setChan_race (ch : Slot) (c : Channel) (s : State) :
    (s.setChan ch c).race = s.race := by cases ch <;> rfl
@[simp] theorem setChan_serRem (ch : Slot) (c : Channel) (s : State) :
    (s.setChan ch c).serRem = s.serRem := by cases ch <;> rfl
@[simp] theorem setChan_cnt (ch : Slot) (c : Channel) (s : State) : (s.setChan ch c).cnt = s.cnt := by cases ch <;> rfl
@[simp] theorem setChan_out (ch : Slot) (c : Channel) (s : State) : (s.setChan ch c).out = s.out := by cases ch <;> rfl
@[simp] theorem setChan_ring (ch : Slot) (c : Channel) (s : State) :
    (s.setChan ch c).ring = s.ring := by cases ch <;> rfl
@[simp] theorem setChan_wr (ch : Slot) (c : Channel) (s : State) : (s.setChan ch c).wr = s.wr := by cases ch <;> rfl
@[simp] theorem setChan_rd (ch : Slot) (c : Channel) (s : State) : (s.setChan ch c).rd = s.rd := by cases ch <;> rfl
@[simp] theorem setChan_last (ch : Slot) (c : Channel) (s : State) :
    (s.setChan ch c).last = s.last := by cases ch <;> rfl
@[simp] theorem setChan_audTick (ch : Slot) (c : Channel) (s : State) :
    (s.setChan ch c).audTick = s.audTick := by cases ch <;> rfl
@[simp] theorem setChan_audTrace (ch : Slot) (c : Channel) (s : State) :
    (s.setChan ch c).audTrace = s.audTrace := by cases ch <;> rfl
@[simp] theorem setChan_audOwner (ch : Slot) (c : Channel) (s : State) :
    (s.setChan ch c).audOwner = s.audOwner := by cases ch <;> rfl
@[simp] theorem setChan_mDesc (ch : Slot) (c : Channel) (s : State) :
    (s.setChan ch c).mDesc = s.mDesc := by cases ch <;> rfl
@[simp] theorem setChan_mCmd (ch : Slot) (c : Channel) (s : State) :
    (s.setChan ch c).mCmd = s.mCmd := by cases ch <;> rfl
@[simp] theorem setChan_port (ch : Slot) (c : Channel) (s : State) :
    (s.setChan ch c).port = s.port := by cases ch <;> rfl
@[simp] theorem setChan_inbox (ch : Slot) (c : Channel) (s : State) :
    (s.setChan ch c).inbox = s.inbox := by cases ch <;> rfl
@[simp] theorem setChan_fresh (ch : Slot) (c : Channel) (s : State) :
    (s.setChan ch c).fresh = s.fresh := by cases ch <;> rfl
@[simp] theorem setChan_epoch (ch : Slot) (c : Channel) (s : State) :
    (s.setChan ch c).epoch = s.epoch := by cases ch <;> rfl

/-! `writeDesc`. -/
@[simp] theorem writeDesc_cfg (ch : Slot) (src len : BitVec 16) (s : State) :
    (writeDesc ch src len s).cfg = s.cfg := by cases ch <;> rfl
@[simp] theorem writeDesc_fx (ch : Slot) (src len : BitVec 16) (s : State) :
    (writeDesc ch src len s).fx = s.fx := by cases ch <;> rfl
@[simp] theorem writeDesc_prodOpen (ch : Slot) (src len : BitVec 16) (s : State) :
    (writeDesc ch src len s).prodOpen = s.prodOpen := by cases ch <;> rfl
@[simp] theorem writeDesc_prodLine (ch : Slot) (src len : BitVec 16) (s : State) :
    (writeDesc ch src len s).prodLine = s.prodLine := by cases ch <;> rfl
@[simp] theorem writeDesc_v (ch : Slot) (src len : BitVec 16) (s : State) :
    (writeDesc ch src len s).v = s.v := by cases ch <;> rfl
@[simp] theorem writeDesc_phase (ch : Slot) (src len : BitVec 16) (s : State) :
    (writeDesc ch src len s).phase = s.phase := by cases ch <;> rfl
@[simp] theorem writeDesc_run (ch : Slot) (src len : BitVec 16) (s : State) :
    (writeDesc ch src len s).run = s.run := by cases ch <;> rfl
@[simp] theorem writeDesc_lastDone (ch : Slot) (src len : BitVec 16) (s : State) :
    (writeDesc ch src len s).lastDone = s.lastDone := by cases ch <;> rfl
@[simp] theorem writeDesc_dispValid (ch : Slot) (src len : BitVec 16) (s : State) :
    (writeDesc ch src len s).dispValid = s.dispValid := by cases ch <;> rfl
@[simp] theorem writeDesc_dispBuf (ch : Slot) (src len : BitVec 16) (s : State) :
    (writeDesc ch src len s).dispBuf = s.dispBuf := by cases ch <;> rfl
@[simp] theorem writeDesc_scalePending (ch : Slot) (src len : BitVec 16) (s : State) :
    (writeDesc ch src len s).scalePending = s.scalePending := by cases ch <;> rfl
@[simp] theorem writeDesc_scaleActive (ch : Slot) (src len : BitVec 16) (s : State) :
    (writeDesc ch src len s).scaleActive = s.scaleActive := by cases ch <;> rfl
@[simp] theorem writeDesc_fifo (ch : Slot) (src len : BitVec 16) (s : State) :
    (writeDesc ch src len s).fifo = s.fifo := by cases ch <;> rfl
@[simp] theorem writeDesc_lineBuf (ch : Slot) (src len : BitVec 16) (s : State) :
    (writeDesc ch src len s).lineBuf = s.lineBuf := by cases ch <;> rfl
@[simp] theorem writeDesc_fb (ch : Slot) (src len : BitVec 16) (s : State) :
    (writeDesc ch src len s).fb = s.fb := by cases ch <;> rfl
@[simp] theorem writeDesc_race (ch : Slot) (src len : BitVec 16) (s : State) :
    (writeDesc ch src len s).race = s.race := by cases ch <;> rfl
@[simp] theorem writeDesc_serRem (ch : Slot) (src len : BitVec 16) (s : State) :
    (writeDesc ch src len s).serRem = s.serRem := by cases ch <;> rfl
@[simp] theorem writeDesc_cnt (ch : Slot) (src len : BitVec 16) (s : State) :
    (writeDesc ch src len s).cnt = s.cnt := by cases ch <;> rfl
@[simp] theorem writeDesc_out (ch : Slot) (src len : BitVec 16) (s : State) :
    (writeDesc ch src len s).out = s.out := by cases ch <;> rfl
@[simp] theorem writeDesc_ring (ch : Slot) (src len : BitVec 16) (s : State) :
    (writeDesc ch src len s).ring = s.ring := by cases ch <;> rfl
@[simp] theorem writeDesc_wr (ch : Slot) (src len : BitVec 16) (s : State) :
    (writeDesc ch src len s).wr = s.wr := by cases ch <;> rfl
@[simp] theorem writeDesc_rd (ch : Slot) (src len : BitVec 16) (s : State) :
    (writeDesc ch src len s).rd = s.rd := by cases ch <;> rfl
@[simp] theorem writeDesc_last (ch : Slot) (src len : BitVec 16) (s : State) :
    (writeDesc ch src len s).last = s.last := by cases ch <;> rfl
@[simp] theorem writeDesc_audTick (ch : Slot) (src len : BitVec 16) (s : State) :
    (writeDesc ch src len s).audTick = s.audTick := by cases ch <;> rfl
@[simp] theorem writeDesc_audTrace (ch : Slot) (src len : BitVec 16) (s : State) :
    (writeDesc ch src len s).audTrace = s.audTrace := by cases ch <;> rfl
@[simp] theorem writeDesc_audOwner (ch : Slot) (src len : BitVec 16) (s : State) :
    (writeDesc ch src len s).audOwner = s.audOwner := by cases ch <;> rfl
@[simp] theorem writeDesc_mDesc (ch : Slot) (src len : BitVec 16) (s : State) :
    (writeDesc ch src len s).mDesc = s.mDesc := by cases ch <;> rfl
@[simp] theorem writeDesc_mCmd (ch : Slot) (src len : BitVec 16) (s : State) :
    (writeDesc ch src len s).mCmd = s.mCmd := by cases ch <;> rfl
@[simp] theorem writeDesc_port (ch : Slot) (src len : BitVec 16) (s : State) :
    (writeDesc ch src len s).port = s.port := by cases ch <;> rfl
@[simp] theorem writeDesc_inbox (ch : Slot) (src len : BitVec 16) (s : State) :
    (writeDesc ch src len s).inbox = s.inbox := by cases ch <;> rfl
@[simp] theorem writeDesc_fresh (ch : Slot) (src len : BitVec 16) (s : State) :
    (writeDesc ch src len s).fresh = s.fresh := by cases ch <;> rfl
@[simp] theorem writeDesc_epoch (ch : Slot) (src len : BitVec 16) (s : State) :
    (writeDesc ch src len s).epoch = s.epoch := by cases ch <;> rfl

/-! `beginStep`. -/
@[simp] theorem beginStep_cfg (s : State) : (beginStep s).cfg = s.cfg := rfl
@[simp] theorem beginStep_fx (s : State) : (beginStep s).fx = s.fx := rfl
@[simp] theorem beginStep_prodOpen (s : State) : (beginStep s).prodOpen = s.prodOpen := rfl
@[simp] theorem beginStep_prodLine (s : State) : (beginStep s).prodLine = s.prodLine := rfl
@[simp] theorem beginStep_v (s : State) : (beginStep s).v = s.v := rfl
@[simp] theorem beginStep_phase (s : State) : (beginStep s).phase = s.phase := rfl
@[simp] theorem beginStep_run (s : State) : (beginStep s).run = s.run := rfl
@[simp] theorem beginStep_lastDone (s : State) : (beginStep s).lastDone = s.lastDone := rfl
@[simp] theorem beginStep_dispValid (s : State) : (beginStep s).dispValid = s.dispValid := rfl
@[simp] theorem beginStep_dispBuf (s : State) : (beginStep s).dispBuf = s.dispBuf := rfl
@[simp] theorem beginStep_scalePending (s : State) : (beginStep s).scalePending = s.scalePending := rfl
@[simp] theorem beginStep_scaleActive (s : State) : (beginStep s).scaleActive = s.scaleActive := rfl
@[simp] theorem beginStep_ch0 (s : State) : (beginStep s).ch0 = s.ch0 := rfl
@[simp] theorem beginStep_ch1 (s : State) : (beginStep s).ch1 = s.ch1 := rfl
@[simp] theorem beginStep_fifo (s : State) : (beginStep s).fifo = s.fifo := rfl
@[simp] theorem beginStep_lineBuf (s : State) : (beginStep s).lineBuf = s.lineBuf := rfl
@[simp] theorem beginStep_fb (s : State) : (beginStep s).fb = s.fb := rfl
@[simp] theorem beginStep_race (s : State) : (beginStep s).race = s.race := rfl
@[simp] theorem beginStep_serRem (s : State) : (beginStep s).serRem = s.serRem := rfl
@[simp] theorem beginStep_cnt (s : State) : (beginStep s).cnt = s.cnt := rfl
@[simp] theorem beginStep_out (s : State) : (beginStep s).out = s.out := rfl
@[simp] theorem beginStep_ring (s : State) : (beginStep s).ring = s.ring := rfl
@[simp] theorem beginStep_wr (s : State) : (beginStep s).wr = s.wr := rfl
@[simp] theorem beginStep_rd (s : State) : (beginStep s).rd = s.rd := rfl
@[simp] theorem beginStep_last (s : State) : (beginStep s).last = s.last := rfl
@[simp] theorem beginStep_audTick (s : State) : (beginStep s).audTick = s.audTick := rfl
@[simp] theorem beginStep_audTrace (s : State) : (beginStep s).audTrace = s.audTrace := rfl
@[simp] theorem beginStep_audOwner (s : State) : (beginStep s).audOwner = s.audOwner := rfl
@[simp] theorem beginStep_mDesc (s : State) : (beginStep s).mDesc = s.mDesc := rfl
@[simp] theorem beginStep_mCmd (s : State) : (beginStep s).mCmd = s.mCmd := rfl
@[simp] theorem beginStep_port (s : State) : (beginStep s).port = Port.idle := rfl
@[simp] theorem beginStep_inbox (s : State) : (beginStep s).inbox = s.inbox := rfl
@[simp] theorem beginStep_fresh (s : State) : (beginStep s).fresh = s.fresh + 1 := rfl
@[simp] theorem beginStep_epoch (s : State) : (beginStep s).epoch = s.epoch := rfl
@[simp] theorem beginStep_chan (ch' : Slot) (s : State) : (beginStep s).chan ch' = s.chan ch' := by
  cases ch' <;> simp

/-! `present`. -/
@[simp] theorem present_cfg (ctx : Context) (pl : List (List Byte)) (s : State) : (present ctx pl s).cfg = s.cfg := rfl
@[simp] theorem present_fx (ctx : Context) (pl : List (List Byte)) (s : State) : (present ctx pl s).fx = s.fx := rfl
@[simp] theorem present_prodOpen (ctx : Context) (pl : List (List Byte)) (s : State) :
    (present ctx pl s).prodOpen = s.prodOpen := rfl
@[simp] theorem present_prodLine (ctx : Context) (pl : List (List Byte)) (s : State) :
    (present ctx pl s).prodLine = s.prodLine := rfl
@[simp] theorem present_v (ctx : Context) (pl : List (List Byte)) (s : State) : (present ctx pl s).v = s.v := rfl
@[simp] theorem present_phase (ctx : Context) (pl : List (List Byte)) (s : State) :
    (present ctx pl s).phase = s.phase := rfl
@[simp] theorem present_run (ctx : Context) (pl : List (List Byte)) (s : State) : (present ctx pl s).run = s.run := rfl
@[simp] theorem present_lastDone (ctx : Context) (pl : List (List Byte)) (s : State) :
    (present ctx pl s).lastDone = s.lastDone := rfl
@[simp] theorem present_dispValid (ctx : Context) (pl : List (List Byte)) (s : State) :
    (present ctx pl s).dispValid = s.dispValid := rfl
@[simp] theorem present_dispBuf (ctx : Context) (pl : List (List Byte)) (s : State) :
    (present ctx pl s).dispBuf = s.dispBuf := rfl
@[simp] theorem present_scalePending (ctx : Context) (pl : List (List Byte)) (s : State) :
    (present ctx pl s).scalePending = s.scalePending := rfl
@[simp] theorem present_scaleActive (ctx : Context) (pl : List (List Byte)) (s : State) :
    (present ctx pl s).scaleActive = s.scaleActive := rfl
@[simp] theorem present_ch0 (ctx : Context) (pl : List (List Byte)) (s : State) : (present ctx pl s).ch0 = s.ch0 := rfl
@[simp] theorem present_ch1 (ctx : Context) (pl : List (List Byte)) (s : State) : (present ctx pl s).ch1 = s.ch1 := rfl
@[simp] theorem present_fifo (ctx : Context) (pl : List (List Byte)) (s : State) :
    (present ctx pl s).fifo = s.fifo := rfl
@[simp] theorem present_lineBuf (ctx : Context) (pl : List (List Byte)) (s : State) :
    (present ctx pl s).lineBuf = s.lineBuf := rfl
@[simp] theorem present_fb (ctx : Context) (pl : List (List Byte)) (s : State) : (present ctx pl s).fb = s.fb := rfl
@[simp] theorem present_race (ctx : Context) (pl : List (List Byte)) (s : State) :
    (present ctx pl s).race = s.race := rfl
@[simp] theorem present_serRem (ctx : Context) (pl : List (List Byte)) (s : State) :
    (present ctx pl s).serRem = s.serRem := rfl
@[simp] theorem present_cnt (ctx : Context) (pl : List (List Byte)) (s : State) : (present ctx pl s).cnt = s.cnt := rfl
@[simp] theorem present_out (ctx : Context) (pl : List (List Byte)) (s : State) : (present ctx pl s).out = s.out := rfl
@[simp] theorem present_ring (ctx : Context) (pl : List (List Byte)) (s : State) :
    (present ctx pl s).ring = s.ring := rfl
@[simp] theorem present_wr (ctx : Context) (pl : List (List Byte)) (s : State) : (present ctx pl s).wr = s.wr := rfl
@[simp] theorem present_rd (ctx : Context) (pl : List (List Byte)) (s : State) : (present ctx pl s).rd = s.rd := rfl
@[simp] theorem present_last (ctx : Context) (pl : List (List Byte)) (s : State) :
    (present ctx pl s).last = s.last := rfl
@[simp] theorem present_audTick (ctx : Context) (pl : List (List Byte)) (s : State) :
    (present ctx pl s).audTick = s.audTick := rfl
@[simp] theorem present_audTrace (ctx : Context) (pl : List (List Byte)) (s : State) :
    (present ctx pl s).audTrace = s.audTrace := rfl
@[simp] theorem present_audOwner (ctx : Context) (pl : List (List Byte)) (s : State) :
    (present ctx pl s).audOwner = s.audOwner := rfl
@[simp] theorem present_mDesc (ctx : Context) (pl : List (List Byte)) (s : State) :
    (present ctx pl s).mDesc = s.mDesc := rfl
@[simp] theorem present_mCmd (ctx : Context) (pl : List (List Byte)) (s : State) :
    (present ctx pl s).mCmd = s.mCmd := rfl
@[simp] theorem present_port (ctx : Context) (pl : List (List Byte)) (s : State) :
    (present ctx pl s).port = { s.port with ctx := ctx, payload := pl } := rfl
@[simp] theorem present_inbox (ctx : Context) (pl : List (List Byte)) (s : State) :
    (present ctx pl s).inbox = s.inbox := rfl
@[simp] theorem present_fresh (ctx : Context) (pl : List (List Byte)) (s : State) :
    (present ctx pl s).fresh = s.fresh := rfl
@[simp] theorem present_epoch (ctx : Context) (pl : List (List Byte)) (s : State) :
    (present ctx pl s).epoch = s.epoch := rfl
@[simp] theorem present_chan (ctx : Context) (pl : List (List Byte)) (ch' : Slot) (s : State) : (present ctx pl s).chan ch' = s.chan ch' := by
  cases ch' <;> simp

/-! `openLine`. -/
@[simp] theorem openLine_cfg (line : BitVec 9) (s : State) : (openLine line s).cfg = s.cfg := rfl
@[simp] theorem openLine_fx (line : BitVec 9) (s : State) : (openLine line s).fx = s.fx := rfl
@[simp] theorem openLine_prodOpen (line : BitVec 9) (s : State) : (openLine line s).prodOpen = true := rfl
@[simp] theorem openLine_prodLine (line : BitVec 9) (s : State) : (openLine line s).prodLine = lineField line := rfl
@[simp] theorem openLine_v (line : BitVec 9) (s : State) : (openLine line s).v = s.v := rfl
@[simp] theorem openLine_phase (line : BitVec 9) (s : State) : (openLine line s).phase = s.phase := rfl
@[simp] theorem openLine_run (line : BitVec 9) (s : State) : (openLine line s).run = s.run := rfl
@[simp] theorem openLine_lastDone (line : BitVec 9) (s : State) : (openLine line s).lastDone = s.lastDone := rfl
@[simp] theorem openLine_dispValid (line : BitVec 9) (s : State) : (openLine line s).dispValid = s.dispValid := rfl
@[simp] theorem openLine_dispBuf (line : BitVec 9) (s : State) : (openLine line s).dispBuf = s.dispBuf := rfl
@[simp] theorem openLine_scalePending (line : BitVec 9) (s : State) :
    (openLine line s).scalePending = s.scalePending := rfl
@[simp] theorem openLine_scaleActive (line : BitVec 9) (s : State) :
    (openLine line s).scaleActive = s.scaleActive := rfl
@[simp] theorem openLine_ch0 (line : BitVec 9) (s : State) : (openLine line s).ch0 = s.ch0 := rfl
@[simp] theorem openLine_ch1 (line : BitVec 9) (s : State) : (openLine line s).ch1 = s.ch1 := rfl
@[simp] theorem openLine_fifo (line : BitVec 9) (s : State) : (openLine line s).fifo = s.fifo := rfl
@[simp] theorem openLine_lineBuf (line : BitVec 9) (s : State) : (openLine line s).lineBuf = s.lineBuf := rfl
@[simp] theorem openLine_fb (line : BitVec 9) (s : State) : (openLine line s).fb = s.fb := rfl
@[simp] theorem openLine_race (line : BitVec 9) (s : State) : (openLine line s).race = s.race := rfl
@[simp] theorem openLine_serRem (line : BitVec 9) (s : State) : (openLine line s).serRem = s.serRem := rfl
@[simp] theorem openLine_cnt (line : BitVec 9) (s : State) : (openLine line s).cnt = s.cnt := rfl
@[simp] theorem openLine_out (line : BitVec 9) (s : State) : (openLine line s).out = s.out := rfl
@[simp] theorem openLine_ring (line : BitVec 9) (s : State) : (openLine line s).ring = s.ring := rfl
@[simp] theorem openLine_wr (line : BitVec 9) (s : State) : (openLine line s).wr = s.wr := rfl
@[simp] theorem openLine_rd (line : BitVec 9) (s : State) : (openLine line s).rd = s.rd := rfl
@[simp] theorem openLine_last (line : BitVec 9) (s : State) : (openLine line s).last = s.last := rfl
@[simp] theorem openLine_audTick (line : BitVec 9) (s : State) : (openLine line s).audTick = s.audTick := rfl
@[simp] theorem openLine_audTrace (line : BitVec 9) (s : State) : (openLine line s).audTrace = s.audTrace := rfl
@[simp] theorem openLine_audOwner (line : BitVec 9) (s : State) : (openLine line s).audOwner = s.audOwner := rfl
@[simp] theorem openLine_mDesc (line : BitVec 9) (s : State) : (openLine line s).mDesc = s.mDesc := rfl
@[simp] theorem openLine_mCmd (line : BitVec 9) (s : State) : (openLine line s).mCmd = s.mCmd := rfl
@[simp] theorem openLine_port (line : BitVec 9) (s : State) : (openLine line s).port = s.port := rfl
@[simp] theorem openLine_inbox (line : BitVec 9) (s : State) : (openLine line s).inbox = s.inbox := rfl
@[simp] theorem openLine_fresh (line : BitVec 9) (s : State) : (openLine line s).fresh = s.fresh := rfl
@[simp] theorem openLine_epoch (line : BitVec 9) (s : State) : (openLine line s).epoch = s.epoch := rfl
@[simp] theorem openLine_chan (line : BitVec 9) (ch' : Slot) (s : State) : (openLine line s).chan ch' = s.chan ch' := by
  cases ch' <;> simp

/-! `writeRow`. -/
@[simp] theorem writeRow_cfg (b : BufId) (y : Nat) (data : List Byte) (s : State) :
    (writeRow s b y data).cfg = s.cfg := rfl
@[simp] theorem writeRow_fx (b : BufId) (y : Nat) (data : List Byte) (s : State) :
    (writeRow s b y data).fx = s.fx := rfl
@[simp] theorem writeRow_prodOpen (b : BufId) (y : Nat) (data : List Byte) (s : State) :
    (writeRow s b y data).prodOpen = s.prodOpen := rfl
@[simp] theorem writeRow_prodLine (b : BufId) (y : Nat) (data : List Byte) (s : State) :
    (writeRow s b y data).prodLine = s.prodLine := rfl
@[simp] theorem writeRow_v (b : BufId) (y : Nat) (data : List Byte) (s : State) : (writeRow s b y data).v = s.v := rfl
@[simp] theorem writeRow_phase (b : BufId) (y : Nat) (data : List Byte) (s : State) :
    (writeRow s b y data).phase = s.phase := rfl
@[simp] theorem writeRow_run (b : BufId) (y : Nat) (data : List Byte) (s : State) :
    (writeRow s b y data).run = s.run := rfl
@[simp] theorem writeRow_lastDone (b : BufId) (y : Nat) (data : List Byte) (s : State) :
    (writeRow s b y data).lastDone = s.lastDone := rfl
@[simp] theorem writeRow_dispValid (b : BufId) (y : Nat) (data : List Byte) (s : State) :
    (writeRow s b y data).dispValid = s.dispValid := rfl
@[simp] theorem writeRow_dispBuf (b : BufId) (y : Nat) (data : List Byte) (s : State) :
    (writeRow s b y data).dispBuf = s.dispBuf := rfl
@[simp] theorem writeRow_scalePending (b : BufId) (y : Nat) (data : List Byte) (s : State) :
    (writeRow s b y data).scalePending = s.scalePending := rfl
@[simp] theorem writeRow_scaleActive (b : BufId) (y : Nat) (data : List Byte) (s : State) :
    (writeRow s b y data).scaleActive = s.scaleActive := rfl
@[simp] theorem writeRow_ch0 (b : BufId) (y : Nat) (data : List Byte) (s : State) :
    (writeRow s b y data).ch0 = s.ch0 := rfl
@[simp] theorem writeRow_ch1 (b : BufId) (y : Nat) (data : List Byte) (s : State) :
    (writeRow s b y data).ch1 = s.ch1 := rfl
@[simp] theorem writeRow_fifo (b : BufId) (y : Nat) (data : List Byte) (s : State) :
    (writeRow s b y data).fifo = s.fifo := rfl
@[simp] theorem writeRow_lineBuf (b : BufId) (y : Nat) (data : List Byte) (s : State) :
    (writeRow s b y data).lineBuf = s.lineBuf := rfl
@[simp] theorem writeRow_fb (b : BufId) (y : Nat) (data : List Byte) (s : State) :
    (writeRow s b y data).fb = Memory.writeList s.fb (fbAddr b y 0) data := rfl
@[simp] theorem writeRow_race (b : BufId) (y : Nat) (data : List Byte) (s : State) :
    (writeRow s b y data).race = s.race ++ raceOfRow s b y := rfl
@[simp] theorem writeRow_serRem (b : BufId) (y : Nat) (data : List Byte) (s : State) :
    (writeRow s b y data).serRem = s.serRem := rfl
@[simp] theorem writeRow_cnt (b : BufId) (y : Nat) (data : List Byte) (s : State) :
    (writeRow s b y data).cnt = s.cnt := rfl
@[simp] theorem writeRow_out (b : BufId) (y : Nat) (data : List Byte) (s : State) :
    (writeRow s b y data).out = s.out := rfl
@[simp] theorem writeRow_ring (b : BufId) (y : Nat) (data : List Byte) (s : State) :
    (writeRow s b y data).ring = s.ring := rfl
@[simp] theorem writeRow_wr (b : BufId) (y : Nat) (data : List Byte) (s : State) :
    (writeRow s b y data).wr = s.wr := rfl
@[simp] theorem writeRow_rd (b : BufId) (y : Nat) (data : List Byte) (s : State) :
    (writeRow s b y data).rd = s.rd := rfl
@[simp] theorem writeRow_last (b : BufId) (y : Nat) (data : List Byte) (s : State) :
    (writeRow s b y data).last = s.last := rfl
@[simp] theorem writeRow_audTick (b : BufId) (y : Nat) (data : List Byte) (s : State) :
    (writeRow s b y data).audTick = s.audTick := rfl
@[simp] theorem writeRow_audTrace (b : BufId) (y : Nat) (data : List Byte) (s : State) :
    (writeRow s b y data).audTrace = s.audTrace := rfl
@[simp] theorem writeRow_audOwner (b : BufId) (y : Nat) (data : List Byte) (s : State) :
    (writeRow s b y data).audOwner = s.audOwner := rfl
@[simp] theorem writeRow_mDesc (b : BufId) (y : Nat) (data : List Byte) (s : State) :
    (writeRow s b y data).mDesc = s.mDesc := rfl
@[simp] theorem writeRow_mCmd (b : BufId) (y : Nat) (data : List Byte) (s : State) :
    (writeRow s b y data).mCmd = s.mCmd := rfl
@[simp] theorem writeRow_port (b : BufId) (y : Nat) (data : List Byte) (s : State) :
    (writeRow s b y data).port = s.port := rfl
@[simp] theorem writeRow_inbox (b : BufId) (y : Nat) (data : List Byte) (s : State) :
    (writeRow s b y data).inbox = s.inbox := rfl
@[simp] theorem writeRow_fresh (b : BufId) (y : Nat) (data : List Byte) (s : State) :
    (writeRow s b y data).fresh = s.fresh := rfl
@[simp] theorem writeRow_epoch (b : BufId) (y : Nat) (data : List Byte) (s : State) :
    (writeRow s b y data).epoch = s.epoch := rfl
@[simp] theorem writeRow_chan (b : BufId) (y : Nat) (data : List Byte) (ch' : Slot) (s : State) : (writeRow s b y data).chan ch' = s.chan ch' := by
  cases ch' <;> simp

/-! `closeLine`. -/
@[simp] theorem closeLine_cfg (line : BitVec 9) (s : State) : (closeLine line s).cfg = s.cfg := by simp [closeLine]
@[simp] theorem closeLine_fx (line : BitVec 9) (s : State) : (closeLine line s).fx = s.fx := by simp [closeLine]
@[simp] theorem closeLine_prodOpen (line : BitVec 9) (s : State) :
    (closeLine line s).prodOpen = false := by simp [closeLine]
@[simp] theorem closeLine_prodLine (line : BitVec 9) (s : State) :
    (closeLine line s).prodLine = s.prodLine := by simp [closeLine]
@[simp] theorem closeLine_v (line : BitVec 9) (s : State) : (closeLine line s).v = s.v := by simp [closeLine]
@[simp] theorem closeLine_phase (line : BitVec 9) (s : State) :
    (closeLine line s).phase = s.phase := by simp [closeLine]
@[simp] theorem closeLine_run (line : BitVec 9) (s : State) : (closeLine line s).run = s.run := by simp [closeLine]
@[simp] theorem closeLine_lastDone (line : BitVec 9) (s : State) :
    (closeLine line s).lastDone = s.lastDone := by simp [closeLine]
@[simp] theorem closeLine_dispValid (line : BitVec 9) (s : State) :
    (closeLine line s).dispValid = s.dispValid := by simp [closeLine]
@[simp] theorem closeLine_dispBuf (line : BitVec 9) (s : State) :
    (closeLine line s).dispBuf = s.dispBuf := by simp [closeLine]
@[simp] theorem closeLine_scalePending (line : BitVec 9) (s : State) :
    (closeLine line s).scalePending = s.scalePending := by simp [closeLine]
@[simp] theorem closeLine_scaleActive (line : BitVec 9) (s : State) :
    (closeLine line s).scaleActive = s.scaleActive := by simp [closeLine]
@[simp] theorem closeLine_ch0 (line : BitVec 9) (s : State) : (closeLine line s).ch0 = s.ch0 := by simp [closeLine]
@[simp] theorem closeLine_ch1 (line : BitVec 9) (s : State) : (closeLine line s).ch1 = s.ch1 := by simp [closeLine]
@[simp] theorem closeLine_fifo (line : BitVec 9) (s : State) : (closeLine line s).fifo = s.fifo := by simp [closeLine]
@[simp] theorem closeLine_lineBuf (line : BitVec 9) (s : State) :
    (closeLine line s).lineBuf = s.lineBuf := by simp [closeLine]
@[simp] theorem closeLine_fb (line : BitVec 9) (s : State) :
    (closeLine line s).fb = Memory.writeList s.fb (fbAddr s.fx.wt line.toNat 0) (linePayload s) := by simp [closeLine]
@[simp] theorem closeLine_race (line : BitVec 9) (s : State) :
    (closeLine line s).race = s.race ++ raceOfRow s s.fx.wt line.toNat := by simp [closeLine]
@[simp] theorem closeLine_serRem (line : BitVec 9) (s : State) :
    (closeLine line s).serRem = s.serRem := by simp [closeLine]
@[simp] theorem closeLine_cnt (line : BitVec 9) (s : State) : (closeLine line s).cnt = s.cnt := by simp [closeLine]
@[simp] theorem closeLine_out (line : BitVec 9) (s : State) : (closeLine line s).out = s.out := by simp [closeLine]
@[simp] theorem closeLine_ring (line : BitVec 9) (s : State) : (closeLine line s).ring = s.ring := by simp [closeLine]
@[simp] theorem closeLine_wr (line : BitVec 9) (s : State) : (closeLine line s).wr = s.wr := by simp [closeLine]
@[simp] theorem closeLine_rd (line : BitVec 9) (s : State) : (closeLine line s).rd = s.rd := by simp [closeLine]
@[simp] theorem closeLine_last (line : BitVec 9) (s : State) : (closeLine line s).last = s.last := by simp [closeLine]
@[simp] theorem closeLine_audTick (line : BitVec 9) (s : State) :
    (closeLine line s).audTick = s.audTick := by simp [closeLine]
@[simp] theorem closeLine_audTrace (line : BitVec 9) (s : State) :
    (closeLine line s).audTrace = s.audTrace := by simp [closeLine]
@[simp] theorem closeLine_audOwner (line : BitVec 9) (s : State) :
    (closeLine line s).audOwner = s.audOwner := by simp [closeLine]
@[simp] theorem closeLine_mDesc (line : BitVec 9) (s : State) :
    (closeLine line s).mDesc = s.mDesc := by simp [closeLine]
@[simp] theorem closeLine_mCmd (line : BitVec 9) (s : State) : (closeLine line s).mCmd = s.mCmd := by simp [closeLine]
@[simp] theorem closeLine_port (line : BitVec 9) (s : State) : (closeLine line s).port = s.port := by simp [closeLine]
@[simp] theorem closeLine_inbox (line : BitVec 9) (s : State) :
    (closeLine line s).inbox = s.inbox := by simp [closeLine]
@[simp] theorem closeLine_fresh (line : BitVec 9) (s : State) :
    (closeLine line s).fresh = s.fresh := by simp [closeLine]
@[simp] theorem closeLine_epoch (line : BitVec 9) (s : State) :
    (closeLine line s).epoch = s.epoch := by simp [closeLine]
@[simp] theorem closeLine_chan (line : BitVec 9) (ch' : Slot) (s : State) : (closeLine line s).chan ch' = s.chan ch' := by
  cases ch' <;> simp

/-! `markRendering`. -/
@[simp] theorem markRendering_cfg (pick : Option BufId) (s : State) :
    (markRendering pick s).cfg = s.cfg := by cases pick <;> rfl
@[simp] theorem markRendering_prodOpen (pick : Option BufId) (s : State) :
    (markRendering pick s).prodOpen = s.prodOpen := by cases pick <;> rfl
@[simp] theorem markRendering_prodLine (pick : Option BufId) (s : State) :
    (markRendering pick s).prodLine = s.prodLine := by cases pick <;> rfl
@[simp] theorem markRendering_v (pick : Option BufId) (s : State) :
    (markRendering pick s).v = s.v := by cases pick <;> rfl
@[simp] theorem markRendering_phase (pick : Option BufId) (s : State) :
    (markRendering pick s).phase = s.phase := by cases pick <;> rfl
@[simp] theorem markRendering_run (pick : Option BufId) (s : State) :
    (markRendering pick s).run = s.run := by cases pick <;> rfl
@[simp] theorem markRendering_lastDone (pick : Option BufId) (s : State) :
    (markRendering pick s).lastDone = s.lastDone := by cases pick <;> rfl
@[simp] theorem markRendering_dispValid (pick : Option BufId) (s : State) :
    (markRendering pick s).dispValid = s.dispValid := by cases pick <;> rfl
@[simp] theorem markRendering_dispBuf (pick : Option BufId) (s : State) :
    (markRendering pick s).dispBuf = s.dispBuf := by cases pick <;> rfl
@[simp] theorem markRendering_scalePending (pick : Option BufId) (s : State) :
    (markRendering pick s).scalePending = s.scalePending := by cases pick <;> rfl
@[simp] theorem markRendering_scaleActive (pick : Option BufId) (s : State) :
    (markRendering pick s).scaleActive = s.scaleActive := by cases pick <;> rfl
@[simp] theorem markRendering_ch0 (pick : Option BufId) (s : State) :
    (markRendering pick s).ch0 = s.ch0 := by cases pick <;> rfl
@[simp] theorem markRendering_ch1 (pick : Option BufId) (s : State) :
    (markRendering pick s).ch1 = s.ch1 := by cases pick <;> rfl
@[simp] theorem markRendering_fifo (pick : Option BufId) (s : State) :
    (markRendering pick s).fifo = s.fifo := by cases pick <;> rfl
@[simp] theorem markRendering_lineBuf (pick : Option BufId) (s : State) :
    (markRendering pick s).lineBuf = s.lineBuf := by cases pick <;> rfl
@[simp] theorem markRendering_fb (pick : Option BufId) (s : State) :
    (markRendering pick s).fb = s.fb := by cases pick <;> rfl
@[simp] theorem markRendering_race (pick : Option BufId) (s : State) :
    (markRendering pick s).race = s.race := by cases pick <;> rfl
@[simp] theorem markRendering_serRem (pick : Option BufId) (s : State) :
    (markRendering pick s).serRem = s.serRem := by cases pick <;> rfl
@[simp] theorem markRendering_cnt (pick : Option BufId) (s : State) :
    (markRendering pick s).cnt = s.cnt := by cases pick <;> rfl
@[simp] theorem markRendering_out (pick : Option BufId) (s : State) :
    (markRendering pick s).out = s.out := by cases pick <;> rfl
@[simp] theorem markRendering_ring (pick : Option BufId) (s : State) :
    (markRendering pick s).ring = s.ring := by cases pick <;> rfl
@[simp] theorem markRendering_wr (pick : Option BufId) (s : State) :
    (markRendering pick s).wr = s.wr := by cases pick <;> rfl
@[simp] theorem markRendering_rd (pick : Option BufId) (s : State) :
    (markRendering pick s).rd = s.rd := by cases pick <;> rfl
@[simp] theorem markRendering_last (pick : Option BufId) (s : State) :
    (markRendering pick s).last = s.last := by cases pick <;> rfl
@[simp] theorem markRendering_audTick (pick : Option BufId) (s : State) :
    (markRendering pick s).audTick = s.audTick := by cases pick <;> rfl
@[simp] theorem markRendering_audTrace (pick : Option BufId) (s : State) :
    (markRendering pick s).audTrace = s.audTrace := by cases pick <;> rfl
@[simp] theorem markRendering_audOwner (pick : Option BufId) (s : State) :
    (markRendering pick s).audOwner = s.audOwner := by cases pick <;> rfl
@[simp] theorem markRendering_mDesc (pick : Option BufId) (s : State) :
    (markRendering pick s).mDesc = s.mDesc := by cases pick <;> rfl
@[simp] theorem markRendering_mCmd (pick : Option BufId) (s : State) :
    (markRendering pick s).mCmd = s.mCmd := by cases pick <;> rfl
@[simp] theorem markRendering_port (pick : Option BufId) (s : State) :
    (markRendering pick s).port = s.port := by cases pick <;> rfl
@[simp] theorem markRendering_inbox (pick : Option BufId) (s : State) :
    (markRendering pick s).inbox = s.inbox := by cases pick <;> rfl
@[simp] theorem markRendering_fresh (pick : Option BufId) (s : State) :
    (markRendering pick s).fresh = s.fresh := by cases pick <;> rfl
@[simp] theorem markRendering_epoch (pick : Option BufId) (s : State) :
    (markRendering pick s).epoch = s.epoch := by cases pick <;> rfl
@[simp] theorem markRendering_chan (pick : Option BufId) (ch' : Slot) (s : State) : (markRendering pick s).chan ch' = s.chan ch' := by
  cases ch' <;> simp

/-! `clearRendering`. -/
@[simp] theorem clearRendering_cfg (b : BufId) (s : State) : (clearRendering b s).cfg = s.cfg := rfl
@[simp] theorem clearRendering_fx (b : BufId) (s : State) : (clearRendering b s).fx = s.fx.setRendering b false := rfl
@[simp] theorem clearRendering_prodOpen (b : BufId) (s : State) : (clearRendering b s).prodOpen = s.prodOpen := rfl
@[simp] theorem clearRendering_prodLine (b : BufId) (s : State) : (clearRendering b s).prodLine = s.prodLine := rfl
@[simp] theorem clearRendering_v (b : BufId) (s : State) : (clearRendering b s).v = s.v := rfl
@[simp] theorem clearRendering_phase (b : BufId) (s : State) : (clearRendering b s).phase = s.phase := rfl
@[simp] theorem clearRendering_run (b : BufId) (s : State) : (clearRendering b s).run = s.run := rfl
@[simp] theorem clearRendering_lastDone (b : BufId) (s : State) : (clearRendering b s).lastDone = s.lastDone := rfl
@[simp] theorem clearRendering_dispValid (b : BufId) (s : State) : (clearRendering b s).dispValid = s.dispValid := rfl
@[simp] theorem clearRendering_dispBuf (b : BufId) (s : State) : (clearRendering b s).dispBuf = s.dispBuf := rfl
@[simp] theorem clearRendering_scalePending (b : BufId) (s : State) :
    (clearRendering b s).scalePending = s.scalePending := rfl
@[simp] theorem clearRendering_scaleActive (b : BufId) (s : State) :
    (clearRendering b s).scaleActive = s.scaleActive := rfl
@[simp] theorem clearRendering_ch0 (b : BufId) (s : State) : (clearRendering b s).ch0 = s.ch0 := rfl
@[simp] theorem clearRendering_ch1 (b : BufId) (s : State) : (clearRendering b s).ch1 = s.ch1 := rfl
@[simp] theorem clearRendering_fifo (b : BufId) (s : State) : (clearRendering b s).fifo = s.fifo := rfl
@[simp] theorem clearRendering_lineBuf (b : BufId) (s : State) : (clearRendering b s).lineBuf = s.lineBuf := rfl
@[simp] theorem clearRendering_fb (b : BufId) (s : State) : (clearRendering b s).fb = s.fb := rfl
@[simp] theorem clearRendering_race (b : BufId) (s : State) : (clearRendering b s).race = dropRace b s.race := rfl
@[simp] theorem clearRendering_serRem (b : BufId) (s : State) : (clearRendering b s).serRem = s.serRem := rfl
@[simp] theorem clearRendering_cnt (b : BufId) (s : State) : (clearRendering b s).cnt = s.cnt := rfl
@[simp] theorem clearRendering_out (b : BufId) (s : State) : (clearRendering b s).out = s.out := rfl
@[simp] theorem clearRendering_ring (b : BufId) (s : State) : (clearRendering b s).ring = s.ring := rfl
@[simp] theorem clearRendering_wr (b : BufId) (s : State) : (clearRendering b s).wr = s.wr := rfl
@[simp] theorem clearRendering_rd (b : BufId) (s : State) : (clearRendering b s).rd = s.rd := rfl
@[simp] theorem clearRendering_last (b : BufId) (s : State) : (clearRendering b s).last = s.last := rfl
@[simp] theorem clearRendering_audTick (b : BufId) (s : State) : (clearRendering b s).audTick = s.audTick := rfl
@[simp] theorem clearRendering_audTrace (b : BufId) (s : State) : (clearRendering b s).audTrace = s.audTrace := rfl
@[simp] theorem clearRendering_audOwner (b : BufId) (s : State) : (clearRendering b s).audOwner = s.audOwner := rfl
@[simp] theorem clearRendering_mDesc (b : BufId) (s : State) : (clearRendering b s).mDesc = s.mDesc := rfl
@[simp] theorem clearRendering_mCmd (b : BufId) (s : State) : (clearRendering b s).mCmd = s.mCmd := rfl
@[simp] theorem clearRendering_port (b : BufId) (s : State) : (clearRendering b s).port = s.port := rfl
@[simp] theorem clearRendering_inbox (b : BufId) (s : State) : (clearRendering b s).inbox = s.inbox := rfl
@[simp] theorem clearRendering_fresh (b : BufId) (s : State) : (clearRendering b s).fresh = s.fresh := rfl
@[simp] theorem clearRendering_epoch (b : BufId) (s : State) : (clearRendering b s).epoch = s.epoch := rfl
@[simp] theorem clearRendering_chan (b : BufId) (ch' : Slot) (s : State) : (clearRendering b s).chan ch' = s.chan ch' := by
  cases ch' <;> simp

/-! `displayPick`. -/
@[simp] theorem displayPick_cfg (pick : Option BufId) (s : State) :
    (displayPick pick s).cfg = s.cfg := by cases pick <;> rfl
@[simp] theorem displayPick_fx (pick : Option BufId) (s : State) :
    (displayPick pick s).fx = s.fx := by cases pick <;> rfl
@[simp] theorem displayPick_prodOpen (pick : Option BufId) (s : State) :
    (displayPick pick s).prodOpen = s.prodOpen := by cases pick <;> rfl
@[simp] theorem displayPick_prodLine (pick : Option BufId) (s : State) :
    (displayPick pick s).prodLine = s.prodLine := by cases pick <;> rfl
@[simp] theorem displayPick_v (pick : Option BufId) (s : State) : (displayPick pick s).v = s.v := by cases pick <;> rfl
@[simp] theorem displayPick_phase (pick : Option BufId) (s : State) :
    (displayPick pick s).phase = s.phase := by cases pick <;> rfl
@[simp] theorem displayPick_run (pick : Option BufId) (s : State) :
    (displayPick pick s).run = s.run := by cases pick <;> rfl
@[simp] theorem displayPick_lastDone (pick : Option BufId) (s : State) :
    (displayPick pick s).lastDone = s.lastDone := by cases pick <;> rfl
@[simp] theorem displayPick_scalePending (pick : Option BufId) (s : State) :
    (displayPick pick s).scalePending = s.scalePending := by cases pick <;> rfl
@[simp] theorem displayPick_scaleActive (pick : Option BufId) (s : State) :
    (displayPick pick s).scaleActive = s.scaleActive := by cases pick <;> rfl
@[simp] theorem displayPick_ch0 (pick : Option BufId) (s : State) :
    (displayPick pick s).ch0 = s.ch0 := by cases pick <;> rfl
@[simp] theorem displayPick_ch1 (pick : Option BufId) (s : State) :
    (displayPick pick s).ch1 = s.ch1 := by cases pick <;> rfl
@[simp] theorem displayPick_fifo (pick : Option BufId) (s : State) :
    (displayPick pick s).fifo = s.fifo := by cases pick <;> rfl
@[simp] theorem displayPick_lineBuf (pick : Option BufId) (s : State) :
    (displayPick pick s).lineBuf = s.lineBuf := by cases pick <;> rfl
@[simp] theorem displayPick_fb (pick : Option BufId) (s : State) :
    (displayPick pick s).fb = s.fb := by cases pick <;> rfl
@[simp] theorem displayPick_race (pick : Option BufId) (s : State) :
    (displayPick pick s).race = s.race := by cases pick <;> rfl
@[simp] theorem displayPick_serRem (pick : Option BufId) (s : State) :
    (displayPick pick s).serRem = s.serRem := by cases pick <;> rfl
@[simp] theorem displayPick_cnt (pick : Option BufId) (s : State) :
    (displayPick pick s).cnt = s.cnt := by cases pick <;> rfl
@[simp] theorem displayPick_out (pick : Option BufId) (s : State) :
    (displayPick pick s).out = s.out := by cases pick <;> rfl
@[simp] theorem displayPick_ring (pick : Option BufId) (s : State) :
    (displayPick pick s).ring = s.ring := by cases pick <;> rfl
@[simp] theorem displayPick_wr (pick : Option BufId) (s : State) :
    (displayPick pick s).wr = s.wr := by cases pick <;> rfl
@[simp] theorem displayPick_rd (pick : Option BufId) (s : State) :
    (displayPick pick s).rd = s.rd := by cases pick <;> rfl
@[simp] theorem displayPick_last (pick : Option BufId) (s : State) :
    (displayPick pick s).last = s.last := by cases pick <;> rfl
@[simp] theorem displayPick_audTick (pick : Option BufId) (s : State) :
    (displayPick pick s).audTick = s.audTick := by cases pick <;> rfl
@[simp] theorem displayPick_audTrace (pick : Option BufId) (s : State) :
    (displayPick pick s).audTrace = s.audTrace := by cases pick <;> rfl
@[simp] theorem displayPick_audOwner (pick : Option BufId) (s : State) :
    (displayPick pick s).audOwner = s.audOwner := by cases pick <;> rfl
@[simp] theorem displayPick_mDesc (pick : Option BufId) (s : State) :
    (displayPick pick s).mDesc = s.mDesc := by cases pick <;> rfl
@[simp] theorem displayPick_mCmd (pick : Option BufId) (s : State) :
    (displayPick pick s).mCmd = s.mCmd := by cases pick <;> rfl
@[simp] theorem displayPick_port (pick : Option BufId) (s : State) :
    (displayPick pick s).port = s.port := by cases pick <;> rfl
@[simp] theorem displayPick_inbox (pick : Option BufId) (s : State) :
    (displayPick pick s).inbox = s.inbox := by cases pick <;> rfl
@[simp] theorem displayPick_fresh (pick : Option BufId) (s : State) :
    (displayPick pick s).fresh = s.fresh := by cases pick <;> rfl
@[simp] theorem displayPick_epoch (pick : Option BufId) (s : State) :
    (displayPick pick s).epoch = s.epoch := by cases pick <;> rfl
@[simp] theorem displayPick_chan (pick : Option BufId) (ch' : Slot) (s : State) : (displayPick pick s).chan ch' = s.chan ch' := by
  cases ch' <;> simp

/-! `fillLineBuf`. -/
@[simp] theorem fillLineBuf_cfg (ch : Slot) (words : List Word) (s : State) :
    (fillLineBuf ch words s).cfg = s.cfg := rfl
@[simp] theorem fillLineBuf_fx (ch : Slot) (words : List Word) (s : State) : (fillLineBuf ch words s).fx = s.fx := rfl
@[simp] theorem fillLineBuf_prodOpen (ch : Slot) (words : List Word) (s : State) :
    (fillLineBuf ch words s).prodOpen = s.prodOpen := rfl
@[simp] theorem fillLineBuf_prodLine (ch : Slot) (words : List Word) (s : State) :
    (fillLineBuf ch words s).prodLine = s.prodLine := rfl
@[simp] theorem fillLineBuf_v (ch : Slot) (words : List Word) (s : State) : (fillLineBuf ch words s).v = s.v := rfl
@[simp] theorem fillLineBuf_phase (ch : Slot) (words : List Word) (s : State) :
    (fillLineBuf ch words s).phase = s.phase := rfl
@[simp] theorem fillLineBuf_run (ch : Slot) (words : List Word) (s : State) :
    (fillLineBuf ch words s).run = s.run := rfl
@[simp] theorem fillLineBuf_lastDone (ch : Slot) (words : List Word) (s : State) :
    (fillLineBuf ch words s).lastDone = s.lastDone := rfl
@[simp] theorem fillLineBuf_dispValid (ch : Slot) (words : List Word) (s : State) :
    (fillLineBuf ch words s).dispValid = s.dispValid := rfl
@[simp] theorem fillLineBuf_dispBuf (ch : Slot) (words : List Word) (s : State) :
    (fillLineBuf ch words s).dispBuf = s.dispBuf := rfl
@[simp] theorem fillLineBuf_scalePending (ch : Slot) (words : List Word) (s : State) :
    (fillLineBuf ch words s).scalePending = s.scalePending := rfl
@[simp] theorem fillLineBuf_scaleActive (ch : Slot) (words : List Word) (s : State) :
    (fillLineBuf ch words s).scaleActive = s.scaleActive := rfl
@[simp] theorem fillLineBuf_ch0 (ch : Slot) (words : List Word) (s : State) :
    (fillLineBuf ch words s).ch0 = s.ch0 := rfl
@[simp] theorem fillLineBuf_ch1 (ch : Slot) (words : List Word) (s : State) :
    (fillLineBuf ch words s).ch1 = s.ch1 := rfl
@[simp] theorem fillLineBuf_fifo (ch : Slot) (words : List Word) (s : State) :
    (fillLineBuf ch words s).fifo = s.fifo := rfl
@[simp] theorem fillLineBuf_lineBuf (ch : Slot) (words : List Word) (s : State) :
    (fillLineBuf ch words s).lineBuf = Memory.writeList s.lineBuf (lineBufBase ch) words := rfl
@[simp] theorem fillLineBuf_fb (ch : Slot) (words : List Word) (s : State) : (fillLineBuf ch words s).fb = s.fb := rfl
@[simp] theorem fillLineBuf_race (ch : Slot) (words : List Word) (s : State) :
    (fillLineBuf ch words s).race = s.race := rfl
@[simp] theorem fillLineBuf_serRem (ch : Slot) (words : List Word) (s : State) :
    (fillLineBuf ch words s).serRem = s.serRem := rfl
@[simp] theorem fillLineBuf_cnt (ch : Slot) (words : List Word) (s : State) :
    (fillLineBuf ch words s).cnt = s.cnt := rfl
@[simp] theorem fillLineBuf_out (ch : Slot) (words : List Word) (s : State) :
    (fillLineBuf ch words s).out = s.out := rfl
@[simp] theorem fillLineBuf_ring (ch : Slot) (words : List Word) (s : State) :
    (fillLineBuf ch words s).ring = s.ring := rfl
@[simp] theorem fillLineBuf_wr (ch : Slot) (words : List Word) (s : State) : (fillLineBuf ch words s).wr = s.wr := rfl
@[simp] theorem fillLineBuf_rd (ch : Slot) (words : List Word) (s : State) : (fillLineBuf ch words s).rd = s.rd := rfl
@[simp] theorem fillLineBuf_last (ch : Slot) (words : List Word) (s : State) :
    (fillLineBuf ch words s).last = s.last := rfl
@[simp] theorem fillLineBuf_audTick (ch : Slot) (words : List Word) (s : State) :
    (fillLineBuf ch words s).audTick = s.audTick := rfl
@[simp] theorem fillLineBuf_audTrace (ch : Slot) (words : List Word) (s : State) :
    (fillLineBuf ch words s).audTrace = s.audTrace := rfl
@[simp] theorem fillLineBuf_audOwner (ch : Slot) (words : List Word) (s : State) :
    (fillLineBuf ch words s).audOwner = s.audOwner := rfl
@[simp] theorem fillLineBuf_mDesc (ch : Slot) (words : List Word) (s : State) :
    (fillLineBuf ch words s).mDesc = s.mDesc := rfl
@[simp] theorem fillLineBuf_mCmd (ch : Slot) (words : List Word) (s : State) :
    (fillLineBuf ch words s).mCmd = s.mCmd := rfl
@[simp] theorem fillLineBuf_port (ch : Slot) (words : List Word) (s : State) :
    (fillLineBuf ch words s).port = s.port := rfl
@[simp] theorem fillLineBuf_inbox (ch : Slot) (words : List Word) (s : State) :
    (fillLineBuf ch words s).inbox = s.inbox := rfl
@[simp] theorem fillLineBuf_fresh (ch : Slot) (words : List Word) (s : State) :
    (fillLineBuf ch words s).fresh = s.fresh := rfl
@[simp] theorem fillLineBuf_epoch (ch : Slot) (words : List Word) (s : State) :
    (fillLineBuf ch words s).epoch = s.epoch := rfl
@[simp] theorem fillLineBuf_chan (ch : Slot) (words : List Word) (ch' : Slot) (s : State) : (fillLineBuf ch words s).chan ch' = s.chan ch' := by
  cases ch' <;> simp

/-! `describeTable`. -/
@[simp] theorem describeTable_cfg (ch : Slot) (t : TableId) (s : State) :
    (describeTable ch t s).cfg = s.cfg := by cases ch <;> rfl
@[simp] theorem describeTable_fx (ch : Slot) (t : TableId) (s : State) :
    (describeTable ch t s).fx = s.fx := by cases ch <;> rfl
@[simp] theorem describeTable_prodOpen (ch : Slot) (t : TableId) (s : State) :
    (describeTable ch t s).prodOpen = s.prodOpen := by cases ch <;> rfl
@[simp] theorem describeTable_prodLine (ch : Slot) (t : TableId) (s : State) :
    (describeTable ch t s).prodLine = s.prodLine := by cases ch <;> rfl
@[simp] theorem describeTable_v (ch : Slot) (t : TableId) (s : State) :
    (describeTable ch t s).v = s.v := by cases ch <;> rfl
@[simp] theorem describeTable_phase (ch : Slot) (t : TableId) (s : State) :
    (describeTable ch t s).phase = s.phase := by cases ch <;> rfl
@[simp] theorem describeTable_run (ch : Slot) (t : TableId) (s : State) :
    (describeTable ch t s).run = s.run := by cases ch <;> rfl
@[simp] theorem describeTable_lastDone (ch : Slot) (t : TableId) (s : State) :
    (describeTable ch t s).lastDone = s.lastDone := by cases ch <;> rfl
@[simp] theorem describeTable_dispValid (ch : Slot) (t : TableId) (s : State) :
    (describeTable ch t s).dispValid = s.dispValid := by cases ch <;> rfl
@[simp] theorem describeTable_dispBuf (ch : Slot) (t : TableId) (s : State) :
    (describeTable ch t s).dispBuf = s.dispBuf := by cases ch <;> rfl
@[simp] theorem describeTable_scalePending (ch : Slot) (t : TableId) (s : State) :
    (describeTable ch t s).scalePending = s.scalePending := by cases ch <;> rfl
@[simp] theorem describeTable_scaleActive (ch : Slot) (t : TableId) (s : State) :
    (describeTable ch t s).scaleActive = s.scaleActive := by cases ch <;> rfl
@[simp] theorem describeTable_fifo (ch : Slot) (t : TableId) (s : State) :
    (describeTable ch t s).fifo = s.fifo := by cases ch <;> rfl
@[simp] theorem describeTable_lineBuf (ch : Slot) (t : TableId) (s : State) :
    (describeTable ch t s).lineBuf = s.lineBuf := by cases ch <;> rfl
@[simp] theorem describeTable_fb (ch : Slot) (t : TableId) (s : State) :
    (describeTable ch t s).fb = s.fb := by cases ch <;> rfl
@[simp] theorem describeTable_race (ch : Slot) (t : TableId) (s : State) :
    (describeTable ch t s).race = s.race := by cases ch <;> rfl
@[simp] theorem describeTable_serRem (ch : Slot) (t : TableId) (s : State) :
    (describeTable ch t s).serRem = s.serRem := by cases ch <;> rfl
@[simp] theorem describeTable_cnt (ch : Slot) (t : TableId) (s : State) :
    (describeTable ch t s).cnt = s.cnt := by cases ch <;> rfl
@[simp] theorem describeTable_out (ch : Slot) (t : TableId) (s : State) :
    (describeTable ch t s).out = s.out := by cases ch <;> rfl
@[simp] theorem describeTable_ring (ch : Slot) (t : TableId) (s : State) :
    (describeTable ch t s).ring = s.ring := by cases ch <;> rfl
@[simp] theorem describeTable_wr (ch : Slot) (t : TableId) (s : State) :
    (describeTable ch t s).wr = s.wr := by cases ch <;> rfl
@[simp] theorem describeTable_rd (ch : Slot) (t : TableId) (s : State) :
    (describeTable ch t s).rd = s.rd := by cases ch <;> rfl
@[simp] theorem describeTable_last (ch : Slot) (t : TableId) (s : State) :
    (describeTable ch t s).last = s.last := by cases ch <;> rfl
@[simp] theorem describeTable_audTick (ch : Slot) (t : TableId) (s : State) :
    (describeTable ch t s).audTick = s.audTick := by cases ch <;> rfl
@[simp] theorem describeTable_audTrace (ch : Slot) (t : TableId) (s : State) :
    (describeTable ch t s).audTrace = s.audTrace := by cases ch <;> rfl
@[simp] theorem describeTable_audOwner (ch : Slot) (t : TableId) (s : State) :
    (describeTable ch t s).audOwner = s.audOwner := by cases ch <;> rfl
@[simp] theorem describeTable_mDesc (ch : Slot) (t : TableId) (s : State) :
    (describeTable ch t s).mDesc = s.mDesc := by cases ch <;> rfl
@[simp] theorem describeTable_mCmd (ch : Slot) (t : TableId) (s : State) :
    (describeTable ch t s).mCmd = s.mCmd := by cases ch <;> rfl
@[simp] theorem describeTable_port (ch : Slot) (t : TableId) (s : State) :
    (describeTable ch t s).port = s.port := by cases ch <;> rfl
@[simp] theorem describeTable_inbox (ch : Slot) (t : TableId) (s : State) :
    (describeTable ch t s).inbox = s.inbox := by cases ch <;> rfl
@[simp] theorem describeTable_fresh (ch : Slot) (t : TableId) (s : State) :
    (describeTable ch t s).fresh = s.fresh := by cases ch <;> rfl
@[simp] theorem describeTable_epoch (ch : Slot) (t : TableId) (s : State) :
    (describeTable ch t s).epoch = s.epoch := by cases ch <;> rfl

/-! `describeLine`. -/
@[simp] theorem describeLine_cfg (ch : Slot) (words : List Word) (len : Nat) (s : State) :
    (describeLine ch words len s).cfg = s.cfg := by cases ch <;> rfl
@[simp] theorem describeLine_fx (ch : Slot) (words : List Word) (len : Nat) (s : State) :
    (describeLine ch words len s).fx = s.fx := by cases ch <;> rfl
@[simp] theorem describeLine_prodOpen (ch : Slot) (words : List Word) (len : Nat) (s : State) :
    (describeLine ch words len s).prodOpen = s.prodOpen := by cases ch <;> rfl
@[simp] theorem describeLine_prodLine (ch : Slot) (words : List Word) (len : Nat) (s : State) :
    (describeLine ch words len s).prodLine = s.prodLine := by cases ch <;> rfl
@[simp] theorem describeLine_v (ch : Slot) (words : List Word) (len : Nat) (s : State) :
    (describeLine ch words len s).v = s.v := by cases ch <;> rfl
@[simp] theorem describeLine_phase (ch : Slot) (words : List Word) (len : Nat) (s : State) :
    (describeLine ch words len s).phase = s.phase := by cases ch <;> rfl
@[simp] theorem describeLine_run (ch : Slot) (words : List Word) (len : Nat) (s : State) :
    (describeLine ch words len s).run = s.run := by cases ch <;> rfl
@[simp] theorem describeLine_lastDone (ch : Slot) (words : List Word) (len : Nat) (s : State) :
    (describeLine ch words len s).lastDone = s.lastDone := by cases ch <;> rfl
@[simp] theorem describeLine_dispValid (ch : Slot) (words : List Word) (len : Nat) (s : State) :
    (describeLine ch words len s).dispValid = s.dispValid := by cases ch <;> rfl
@[simp] theorem describeLine_dispBuf (ch : Slot) (words : List Word) (len : Nat) (s : State) :
    (describeLine ch words len s).dispBuf = s.dispBuf := by cases ch <;> rfl
@[simp] theorem describeLine_scalePending (ch : Slot) (words : List Word) (len : Nat) (s : State) :
    (describeLine ch words len s).scalePending = s.scalePending := by cases ch <;> rfl
@[simp] theorem describeLine_scaleActive (ch : Slot) (words : List Word) (len : Nat) (s : State) :
    (describeLine ch words len s).scaleActive = s.scaleActive := by cases ch <;> rfl
@[simp] theorem describeLine_fifo (ch : Slot) (words : List Word) (len : Nat) (s : State) :
    (describeLine ch words len s).fifo = s.fifo := by cases ch <;> rfl
@[simp] theorem describeLine_lineBuf (ch : Slot) (words : List Word) (len : Nat) (s : State) :
    (describeLine ch words len s).lineBuf = Memory.writeList s.lineBuf (lineBufBase ch) words := by cases ch <;> rfl
@[simp] theorem describeLine_fb (ch : Slot) (words : List Word) (len : Nat) (s : State) :
    (describeLine ch words len s).fb = s.fb := by cases ch <;> rfl
@[simp] theorem describeLine_race (ch : Slot) (words : List Word) (len : Nat) (s : State) :
    (describeLine ch words len s).race = s.race := by cases ch <;> rfl
@[simp] theorem describeLine_serRem (ch : Slot) (words : List Word) (len : Nat) (s : State) :
    (describeLine ch words len s).serRem = s.serRem := by cases ch <;> rfl
@[simp] theorem describeLine_cnt (ch : Slot) (words : List Word) (len : Nat) (s : State) :
    (describeLine ch words len s).cnt = s.cnt := by cases ch <;> rfl
@[simp] theorem describeLine_out (ch : Slot) (words : List Word) (len : Nat) (s : State) :
    (describeLine ch words len s).out = s.out := by cases ch <;> rfl
@[simp] theorem describeLine_ring (ch : Slot) (words : List Word) (len : Nat) (s : State) :
    (describeLine ch words len s).ring = s.ring := by cases ch <;> rfl
@[simp] theorem describeLine_wr (ch : Slot) (words : List Word) (len : Nat) (s : State) :
    (describeLine ch words len s).wr = s.wr := by cases ch <;> rfl
@[simp] theorem describeLine_rd (ch : Slot) (words : List Word) (len : Nat) (s : State) :
    (describeLine ch words len s).rd = s.rd := by cases ch <;> rfl
@[simp] theorem describeLine_last (ch : Slot) (words : List Word) (len : Nat) (s : State) :
    (describeLine ch words len s).last = s.last := by cases ch <;> rfl
@[simp] theorem describeLine_audTick (ch : Slot) (words : List Word) (len : Nat) (s : State) :
    (describeLine ch words len s).audTick = s.audTick := by cases ch <;> rfl
@[simp] theorem describeLine_audTrace (ch : Slot) (words : List Word) (len : Nat) (s : State) :
    (describeLine ch words len s).audTrace = s.audTrace := by cases ch <;> rfl
@[simp] theorem describeLine_audOwner (ch : Slot) (words : List Word) (len : Nat) (s : State) :
    (describeLine ch words len s).audOwner = s.audOwner := by cases ch <;> rfl
@[simp] theorem describeLine_mDesc (ch : Slot) (words : List Word) (len : Nat) (s : State) :
    (describeLine ch words len s).mDesc = s.mDesc := by cases ch <;> rfl
@[simp] theorem describeLine_mCmd (ch : Slot) (words : List Word) (len : Nat) (s : State) :
    (describeLine ch words len s).mCmd = s.mCmd := by cases ch <;> rfl
@[simp] theorem describeLine_port (ch : Slot) (words : List Word) (len : Nat) (s : State) :
    (describeLine ch words len s).port = s.port := by cases ch <;> rfl
@[simp] theorem describeLine_inbox (ch : Slot) (words : List Word) (len : Nat) (s : State) :
    (describeLine ch words len s).inbox = s.inbox := by cases ch <;> rfl
@[simp] theorem describeLine_fresh (ch : Slot) (words : List Word) (len : Nat) (s : State) :
    (describeLine ch words len s).fresh = s.fresh := by cases ch <;> rfl
@[simp] theorem describeLine_epoch (ch : Slot) (words : List Word) (len : Nat) (s : State) :
    (describeLine ch words len s).epoch = s.epoch := by cases ch <;> rfl

/-! `markBusySlot`. -/
@[simp] theorem markBusySlot_cfg (ch : Slot) (s : State) : (markBusySlot ch s).cfg = s.cfg := rfl
@[simp] theorem markBusySlot_fx (ch : Slot) (s : State) : (markBusySlot ch s).fx = s.fx := rfl
@[simp] theorem markBusySlot_prodOpen (ch : Slot) (s : State) : (markBusySlot ch s).prodOpen = s.prodOpen := rfl
@[simp] theorem markBusySlot_prodLine (ch : Slot) (s : State) : (markBusySlot ch s).prodLine = s.prodLine := rfl
@[simp] theorem markBusySlot_v (ch : Slot) (s : State) : (markBusySlot ch s).v = s.v := rfl
@[simp] theorem markBusySlot_phase (ch : Slot) (s : State) : (markBusySlot ch s).phase = s.phase := rfl
@[simp] theorem markBusySlot_run (ch : Slot) (s : State) : (markBusySlot ch s).run = s.run := rfl
@[simp] theorem markBusySlot_lastDone (ch : Slot) (s : State) : (markBusySlot ch s).lastDone = s.lastDone := rfl
@[simp] theorem markBusySlot_dispValid (ch : Slot) (s : State) : (markBusySlot ch s).dispValid = s.dispValid := rfl
@[simp] theorem markBusySlot_dispBuf (ch : Slot) (s : State) : (markBusySlot ch s).dispBuf = s.dispBuf := rfl
@[simp] theorem markBusySlot_scalePending (ch : Slot) (s : State) :
    (markBusySlot ch s).scalePending = s.scalePending := rfl
@[simp] theorem markBusySlot_scaleActive (ch : Slot) (s : State) :
    (markBusySlot ch s).scaleActive = s.scaleActive := rfl
@[simp] theorem markBusySlot_ch0 (ch : Slot) (s : State) : (markBusySlot ch s).ch0 = s.ch0 := rfl
@[simp] theorem markBusySlot_ch1 (ch : Slot) (s : State) : (markBusySlot ch s).ch1 = s.ch1 := rfl
@[simp] theorem markBusySlot_fifo (ch : Slot) (s : State) : (markBusySlot ch s).fifo = s.fifo := rfl
@[simp] theorem markBusySlot_lineBuf (ch : Slot) (s : State) : (markBusySlot ch s).lineBuf = s.lineBuf := rfl
@[simp] theorem markBusySlot_fb (ch : Slot) (s : State) : (markBusySlot ch s).fb = s.fb := rfl
@[simp] theorem markBusySlot_race (ch : Slot) (s : State) : (markBusySlot ch s).race = s.race := rfl
@[simp] theorem markBusySlot_serRem (ch : Slot) (s : State) : (markBusySlot ch s).serRem = s.serRem := rfl
@[simp] theorem markBusySlot_cnt (ch : Slot) (s : State) : (markBusySlot ch s).cnt = s.cnt := rfl
@[simp] theorem markBusySlot_out (ch : Slot) (s : State) : (markBusySlot ch s).out = s.out := rfl
@[simp] theorem markBusySlot_ring (ch : Slot) (s : State) : (markBusySlot ch s).ring = s.ring := rfl
@[simp] theorem markBusySlot_wr (ch : Slot) (s : State) : (markBusySlot ch s).wr = s.wr := rfl
@[simp] theorem markBusySlot_rd (ch : Slot) (s : State) : (markBusySlot ch s).rd = s.rd := rfl
@[simp] theorem markBusySlot_last (ch : Slot) (s : State) : (markBusySlot ch s).last = s.last := rfl
@[simp] theorem markBusySlot_audTick (ch : Slot) (s : State) : (markBusySlot ch s).audTick = s.audTick := rfl
@[simp] theorem markBusySlot_audTrace (ch : Slot) (s : State) : (markBusySlot ch s).audTrace = s.audTrace := rfl
@[simp] theorem markBusySlot_audOwner (ch : Slot) (s : State) : (markBusySlot ch s).audOwner = s.audOwner := rfl
@[simp] theorem markBusySlot_mDesc (ch : Slot) (s : State) :
    (markBusySlot ch s).mDesc = (s.mDesc || (s.chan ch).busy) := rfl
@[simp] theorem markBusySlot_mCmd (ch : Slot) (s : State) : (markBusySlot ch s).mCmd = s.mCmd := rfl
@[simp] theorem markBusySlot_port (ch : Slot) (s : State) : (markBusySlot ch s).port = s.port := rfl
@[simp] theorem markBusySlot_inbox (ch : Slot) (s : State) : (markBusySlot ch s).inbox = s.inbox := rfl
@[simp] theorem markBusySlot_fresh (ch : Slot) (s : State) : (markBusySlot ch s).fresh = s.fresh := rfl
@[simp] theorem markBusySlot_epoch (ch : Slot) (s : State) : (markBusySlot ch s).epoch = s.epoch := rfl
@[simp] theorem markBusySlot_chan (ch : Slot) (ch' : Slot) (s : State) : (markBusySlot ch s).chan ch' = s.chan ch' := by
  cases ch' <;> simp

/-! `acknowledge`. -/
@[simp] theorem acknowledge_cfg (s : State) : (acknowledge s).cfg = s.cfg := by simp [acknowledge]
@[simp] theorem acknowledge_fx (s : State) : (acknowledge s).fx = s.fx := by simp [acknowledge]
@[simp] theorem acknowledge_prodOpen (s : State) : (acknowledge s).prodOpen = s.prodOpen := by simp [acknowledge]
@[simp] theorem acknowledge_prodLine (s : State) : (acknowledge s).prodLine = s.prodLine := by simp [acknowledge]
@[simp] theorem acknowledge_v (s : State) : (acknowledge s).v = s.v := by simp [acknowledge]
@[simp] theorem acknowledge_phase (s : State) : (acknowledge s).phase = s.phase := by simp [acknowledge]
@[simp] theorem acknowledge_run (s : State) : (acknowledge s).run = s.run := by simp [acknowledge]
@[simp] theorem acknowledge_lastDone (s : State) :
    (acknowledge s).lastDone = otherSlot s.lastDone := by simp [acknowledge]
@[simp] theorem acknowledge_dispValid (s : State) : (acknowledge s).dispValid = s.dispValid := by simp [acknowledge]
@[simp] theorem acknowledge_dispBuf (s : State) : (acknowledge s).dispBuf = s.dispBuf := by simp [acknowledge]
@[simp] theorem acknowledge_scalePending (s : State) :
    (acknowledge s).scalePending = s.scalePending := by simp [acknowledge]
@[simp] theorem acknowledge_scaleActive (s : State) :
    (acknowledge s).scaleActive = s.scaleActive := by simp [acknowledge]
@[simp] theorem acknowledge_fifo (s : State) : (acknowledge s).fifo = s.fifo := by simp [acknowledge]
@[simp] theorem acknowledge_lineBuf (s : State) : (acknowledge s).lineBuf = s.lineBuf := by simp [acknowledge]
@[simp] theorem acknowledge_fb (s : State) : (acknowledge s).fb = s.fb := by simp [acknowledge]
@[simp] theorem acknowledge_race (s : State) : (acknowledge s).race = s.race := by simp [acknowledge]
@[simp] theorem acknowledge_serRem (s : State) : (acknowledge s).serRem = s.serRem := by simp [acknowledge]
@[simp] theorem acknowledge_cnt (s : State) : (acknowledge s).cnt = s.cnt := by simp [acknowledge]
@[simp] theorem acknowledge_out (s : State) : (acknowledge s).out = s.out := by simp [acknowledge]
@[simp] theorem acknowledge_ring (s : State) : (acknowledge s).ring = s.ring := by simp [acknowledge]
@[simp] theorem acknowledge_wr (s : State) : (acknowledge s).wr = s.wr := by simp [acknowledge]
@[simp] theorem acknowledge_rd (s : State) : (acknowledge s).rd = s.rd := by simp [acknowledge]
@[simp] theorem acknowledge_last (s : State) : (acknowledge s).last = s.last := by simp [acknowledge]
@[simp] theorem acknowledge_audTick (s : State) : (acknowledge s).audTick = s.audTick := by simp [acknowledge]
@[simp] theorem acknowledge_audTrace (s : State) : (acknowledge s).audTrace = s.audTrace := by simp [acknowledge]
@[simp] theorem acknowledge_audOwner (s : State) : (acknowledge s).audOwner = s.audOwner := by simp [acknowledge]
@[simp] theorem acknowledge_mDesc (s : State) : (acknowledge s).mDesc = s.mDesc := by simp [acknowledge]
@[simp] theorem acknowledge_mCmd (s : State) : (acknowledge s).mCmd = s.mCmd := by simp [acknowledge]
@[simp] theorem acknowledge_port (s : State) : (acknowledge s).port = s.port := by simp [acknowledge]
@[simp] theorem acknowledge_inbox (s : State) : (acknowledge s).inbox = s.inbox := by simp [acknowledge]
@[simp] theorem acknowledge_fresh (s : State) : (acknowledge s).fresh = s.fresh := by simp [acknowledge]
@[simp] theorem acknowledge_epoch (s : State) : (acknowledge s).epoch = s.epoch := by simp [acknowledge]

/-! `startSequencer`. -/
@[simp] theorem startSequencer_cfg (s : State) : (startSequencer s).cfg = s.cfg := rfl
@[simp] theorem startSequencer_fx (s : State) : (startSequencer s).fx = s.fx := rfl
@[simp] theorem startSequencer_prodOpen (s : State) : (startSequencer s).prodOpen = s.prodOpen := rfl
@[simp] theorem startSequencer_prodLine (s : State) : (startSequencer s).prodLine = s.prodLine := rfl
@[simp] theorem startSequencer_v (s : State) : (startSequencer s).v = 0 := rfl
@[simp] theorem startSequencer_phase (s : State) : (startSequencer s).phase = .cmd := rfl
@[simp] theorem startSequencer_run (s : State) : (startSequencer s).run = true := rfl
@[simp] theorem startSequencer_lastDone (s : State) : (startSequencer s).lastDone = .pong := rfl
@[simp] theorem startSequencer_dispValid (s : State) : (startSequencer s).dispValid = s.dispValid := rfl
@[simp] theorem startSequencer_dispBuf (s : State) : (startSequencer s).dispBuf = s.dispBuf := rfl
@[simp] theorem startSequencer_scalePending (s : State) : (startSequencer s).scalePending = s.scalePending := rfl
@[simp] theorem startSequencer_scaleActive (s : State) : (startSequencer s).scaleActive = s.scaleActive := rfl
@[simp] theorem startSequencer_ch0 (s : State) : (startSequencer s).ch0 = s.ch0 := rfl
@[simp] theorem startSequencer_ch1 (s : State) : (startSequencer s).ch1 = s.ch1 := rfl
@[simp] theorem startSequencer_fifo (s : State) : (startSequencer s).fifo = s.fifo := rfl
@[simp] theorem startSequencer_lineBuf (s : State) : (startSequencer s).lineBuf = s.lineBuf := rfl
@[simp] theorem startSequencer_fb (s : State) : (startSequencer s).fb = s.fb := rfl
@[simp] theorem startSequencer_race (s : State) : (startSequencer s).race = s.race := rfl
@[simp] theorem startSequencer_serRem (s : State) : (startSequencer s).serRem = s.serRem := rfl
@[simp] theorem startSequencer_cnt (s : State) : (startSequencer s).cnt = s.cnt := rfl
@[simp] theorem startSequencer_out (s : State) : (startSequencer s).out = s.out := rfl
@[simp] theorem startSequencer_ring (s : State) : (startSequencer s).ring = s.ring := rfl
@[simp] theorem startSequencer_wr (s : State) : (startSequencer s).wr = s.wr := rfl
@[simp] theorem startSequencer_rd (s : State) : (startSequencer s).rd = s.rd := rfl
@[simp] theorem startSequencer_last (s : State) : (startSequencer s).last = s.last := rfl
@[simp] theorem startSequencer_audTick (s : State) : (startSequencer s).audTick = s.audTick := rfl
@[simp] theorem startSequencer_audTrace (s : State) : (startSequencer s).audTrace = s.audTrace := rfl
@[simp] theorem startSequencer_audOwner (s : State) : (startSequencer s).audOwner = s.audOwner := rfl
@[simp] theorem startSequencer_mDesc (s : State) : (startSequencer s).mDesc = s.mDesc := rfl
@[simp] theorem startSequencer_mCmd (s : State) : (startSequencer s).mCmd = s.mCmd := rfl
@[simp] theorem startSequencer_port (s : State) : (startSequencer s).port = s.port := rfl
@[simp] theorem startSequencer_inbox (s : State) : (startSequencer s).inbox = s.inbox := rfl
@[simp] theorem startSequencer_fresh (s : State) : (startSequencer s).fresh = s.fresh := rfl
@[simp] theorem startSequencer_epoch (s : State) : (startSequencer s).epoch = s.epoch := rfl
@[simp] theorem startSequencer_chan (ch' : Slot) (s : State) : (startSequencer s).chan ch' = s.chan ch' := by
  cases ch' <;> simp

/-! `takeFrame`. -/
@[simp] theorem takeFrame_cfg (s : State) : (takeFrame s).cfg = s.cfg := by unfold takeFrame; split <;> rfl
@[simp] theorem takeFrame_fx (s : State) : (takeFrame s).fx = s.fx := by unfold takeFrame; split <;> rfl
@[simp] theorem takeFrame_prodOpen (s : State) :
    (takeFrame s).prodOpen = s.prodOpen := by unfold takeFrame; split <;> rfl
@[simp] theorem takeFrame_prodLine (s : State) :
    (takeFrame s).prodLine = s.prodLine := by unfold takeFrame; split <;> rfl
@[simp] theorem takeFrame_v (s : State) : (takeFrame s).v = s.v := by unfold takeFrame; split <;> rfl
@[simp] theorem takeFrame_phase (s : State) : (takeFrame s).phase = s.phase := by unfold takeFrame; split <;> rfl
@[simp] theorem takeFrame_run (s : State) : (takeFrame s).run = s.run := by unfold takeFrame; split <;> rfl
@[simp] theorem takeFrame_lastDone (s : State) :
    (takeFrame s).lastDone = s.lastDone := by unfold takeFrame; split <;> rfl
@[simp] theorem takeFrame_dispValid (s : State) :
    (takeFrame s).dispValid = s.dispValid := by unfold takeFrame; split <;> rfl
@[simp] theorem takeFrame_dispBuf (s : State) : (takeFrame s).dispBuf = s.dispBuf := by unfold takeFrame; split <;> rfl
@[simp] theorem takeFrame_scalePending (s : State) :
    (takeFrame s).scalePending = s.scalePending := by unfold takeFrame; split <;> rfl
@[simp] theorem takeFrame_scaleActive (s : State) :
    (takeFrame s).scaleActive = s.scaleActive := by unfold takeFrame; split <;> rfl
@[simp] theorem takeFrame_ch0 (s : State) : (takeFrame s).ch0 = s.ch0 := by unfold takeFrame; split <;> rfl
@[simp] theorem takeFrame_ch1 (s : State) : (takeFrame s).ch1 = s.ch1 := by unfold takeFrame; split <;> rfl
@[simp] theorem takeFrame_fifo (s : State) : (takeFrame s).fifo = s.fifo := by unfold takeFrame; split <;> rfl
@[simp] theorem takeFrame_lineBuf (s : State) : (takeFrame s).lineBuf = s.lineBuf := by unfold takeFrame; split <;> rfl
@[simp] theorem takeFrame_fb (s : State) : (takeFrame s).fb = s.fb := by unfold takeFrame; split <;> rfl
@[simp] theorem takeFrame_race (s : State) : (takeFrame s).race = s.race := by unfold takeFrame; split <;> rfl
@[simp] theorem takeFrame_serRem (s : State) : (takeFrame s).serRem = s.serRem := by unfold takeFrame; split <;> rfl
@[simp] theorem takeFrame_cnt (s : State) : (takeFrame s).cnt = s.cnt := by unfold takeFrame; split <;> rfl
@[simp] theorem takeFrame_out (s : State) : (takeFrame s).out = s.out := by unfold takeFrame; split <;> rfl
@[simp] theorem takeFrame_ring (s : State) : (takeFrame s).ring = s.ring := by unfold takeFrame; split <;> rfl
@[simp] theorem takeFrame_wr (s : State) : (takeFrame s).wr = s.wr := by unfold takeFrame; split <;> rfl
@[simp] theorem takeFrame_audTick (s : State) : (takeFrame s).audTick = s.audTick := by unfold takeFrame; split <;> rfl
@[simp] theorem takeFrame_audOwner (s : State) :
    (takeFrame s).audOwner = s.audOwner := by unfold takeFrame; split <;> rfl
@[simp] theorem takeFrame_mDesc (s : State) : (takeFrame s).mDesc = s.mDesc := by unfold takeFrame; split <;> rfl
@[simp] theorem takeFrame_mCmd (s : State) : (takeFrame s).mCmd = s.mCmd := by unfold takeFrame; split <;> rfl
@[simp] theorem takeFrame_port (s : State) : (takeFrame s).port = s.port := by unfold takeFrame; split <;> rfl
@[simp] theorem takeFrame_inbox (s : State) : (takeFrame s).inbox = s.inbox := by unfold takeFrame; split <;> rfl
@[simp] theorem takeFrame_fresh (s : State) : (takeFrame s).fresh = s.fresh := by unfold takeFrame; split <;> rfl
@[simp] theorem takeFrame_epoch (s : State) : (takeFrame s).epoch = s.epoch := by unfold takeFrame; split <;> rfl
@[simp] theorem takeFrame_chan (ch' : Slot) (s : State) : (takeFrame s).chan ch' = s.chan ch' := by
  cases ch' <;> simp

/-! `enqueueFrames`. -/
@[simp] theorem enqueueFrames_cfg (count : BitVec 16) (s : State) : (enqueueFrames count s).cfg = s.cfg := rfl
@[simp] theorem enqueueFrames_fx (count : BitVec 16) (s : State) : (enqueueFrames count s).fx = s.fx := rfl
@[simp] theorem enqueueFrames_prodOpen (count : BitVec 16) (s : State) :
    (enqueueFrames count s).prodOpen = s.prodOpen := rfl
@[simp] theorem enqueueFrames_prodLine (count : BitVec 16) (s : State) :
    (enqueueFrames count s).prodLine = s.prodLine := rfl
@[simp] theorem enqueueFrames_v (count : BitVec 16) (s : State) : (enqueueFrames count s).v = s.v := rfl
@[simp] theorem enqueueFrames_phase (count : BitVec 16) (s : State) : (enqueueFrames count s).phase = s.phase := rfl
@[simp] theorem enqueueFrames_run (count : BitVec 16) (s : State) : (enqueueFrames count s).run = s.run := rfl
@[simp] theorem enqueueFrames_lastDone (count : BitVec 16) (s : State) :
    (enqueueFrames count s).lastDone = s.lastDone := rfl
@[simp] theorem enqueueFrames_dispValid (count : BitVec 16) (s : State) :
    (enqueueFrames count s).dispValid = s.dispValid := rfl
@[simp] theorem enqueueFrames_dispBuf (count : BitVec 16) (s : State) :
    (enqueueFrames count s).dispBuf = s.dispBuf := rfl
@[simp] theorem enqueueFrames_scalePending (count : BitVec 16) (s : State) :
    (enqueueFrames count s).scalePending = s.scalePending := rfl
@[simp] theorem enqueueFrames_scaleActive (count : BitVec 16) (s : State) :
    (enqueueFrames count s).scaleActive = s.scaleActive := rfl
@[simp] theorem enqueueFrames_ch0 (count : BitVec 16) (s : State) : (enqueueFrames count s).ch0 = s.ch0 := rfl
@[simp] theorem enqueueFrames_ch1 (count : BitVec 16) (s : State) : (enqueueFrames count s).ch1 = s.ch1 := rfl
@[simp] theorem enqueueFrames_fifo (count : BitVec 16) (s : State) : (enqueueFrames count s).fifo = s.fifo := rfl
@[simp] theorem enqueueFrames_lineBuf (count : BitVec 16) (s : State) :
    (enqueueFrames count s).lineBuf = s.lineBuf := rfl
@[simp] theorem enqueueFrames_fb (count : BitVec 16) (s : State) : (enqueueFrames count s).fb = s.fb := rfl
@[simp] theorem enqueueFrames_race (count : BitVec 16) (s : State) : (enqueueFrames count s).race = s.race := rfl
@[simp] theorem enqueueFrames_serRem (count : BitVec 16) (s : State) : (enqueueFrames count s).serRem = s.serRem := rfl
@[simp] theorem enqueueFrames_cnt (count : BitVec 16) (s : State) : (enqueueFrames count s).cnt = s.cnt := rfl
@[simp] theorem enqueueFrames_out (count : BitVec 16) (s : State) : (enqueueFrames count s).out = s.out := rfl
@[simp] theorem enqueueFrames_ring (count : BitVec 16) (s : State) :
    (enqueueFrames count s).ring = ringWithFrames s (enqueued count s) := rfl
@[simp] theorem enqueueFrames_wr (count : BitVec 16) (s : State) :
    (enqueueFrames count s).wr = (s.wr + enqueued count s) % s.cfg.audioCap := rfl
@[simp] theorem enqueueFrames_rd (count : BitVec 16) (s : State) : (enqueueFrames count s).rd = s.rd := rfl
@[simp] theorem enqueueFrames_last (count : BitVec 16) (s : State) : (enqueueFrames count s).last = s.last := rfl
@[simp] theorem enqueueFrames_audTick (count : BitVec 16) (s : State) :
    (enqueueFrames count s).audTick = s.audTick := rfl
@[simp] theorem enqueueFrames_audTrace (count : BitVec 16) (s : State) :
    (enqueueFrames count s).audTrace = s.audTrace := rfl
@[simp] theorem enqueueFrames_audOwner (count : BitVec 16) (s : State) :
    (enqueueFrames count s).audOwner = s.audOwner := rfl
@[simp] theorem enqueueFrames_mDesc (count : BitVec 16) (s : State) : (enqueueFrames count s).mDesc = s.mDesc := rfl
@[simp] theorem enqueueFrames_mCmd (count : BitVec 16) (s : State) : (enqueueFrames count s).mCmd = s.mCmd := rfl
@[simp] theorem enqueueFrames_port (count : BitVec 16) (s : State) : (enqueueFrames count s).port = s.port := rfl
@[simp] theorem enqueueFrames_inbox (count : BitVec 16) (s : State) : (enqueueFrames count s).inbox = s.inbox := rfl
@[simp] theorem enqueueFrames_fresh (count : BitVec 16) (s : State) : (enqueueFrames count s).fresh = s.fresh := rfl
@[simp] theorem enqueueFrames_epoch (count : BitVec 16) (s : State) : (enqueueFrames count s).epoch = s.epoch := rfl
@[simp] theorem enqueueFrames_chan (count : BitVec 16) (ch' : Slot) (s : State) : (enqueueFrames count s).chan ch' = s.chan ch' := by
  cases ch' <;> simp

/-! `audTick`. -/
@[simp] theorem audTick_cfg (s : State) : (audTick s).cfg = s.cfg := by unfold audTick; split <;> rfl
@[simp] theorem audTick_fx (s : State) : (audTick s).fx = s.fx := by unfold audTick; split <;> rfl
@[simp] theorem audTick_prodOpen (s : State) : (audTick s).prodOpen = s.prodOpen := by unfold audTick; split <;> rfl
@[simp] theorem audTick_prodLine (s : State) : (audTick s).prodLine = s.prodLine := by unfold audTick; split <;> rfl
@[simp] theorem audTick_v (s : State) : (audTick s).v = s.v := by unfold audTick; split <;> rfl
@[simp] theorem audTick_phase (s : State) : (audTick s).phase = s.phase := by unfold audTick; split <;> rfl
@[simp] theorem audTick_run (s : State) : (audTick s).run = s.run := by unfold audTick; split <;> rfl
@[simp] theorem audTick_lastDone (s : State) : (audTick s).lastDone = s.lastDone := by unfold audTick; split <;> rfl
@[simp] theorem audTick_dispValid (s : State) : (audTick s).dispValid = s.dispValid := by unfold audTick; split <;> rfl
@[simp] theorem audTick_dispBuf (s : State) : (audTick s).dispBuf = s.dispBuf := by unfold audTick; split <;> rfl
@[simp] theorem audTick_scalePending (s : State) :
    (audTick s).scalePending = s.scalePending := by unfold audTick; split <;> rfl
@[simp] theorem audTick_scaleActive (s : State) :
    (audTick s).scaleActive = s.scaleActive := by unfold audTick; split <;> rfl
@[simp] theorem audTick_ch0 (s : State) : (audTick s).ch0 = s.ch0 := by unfold audTick; split <;> rfl
@[simp] theorem audTick_ch1 (s : State) : (audTick s).ch1 = s.ch1 := by unfold audTick; split <;> rfl
@[simp] theorem audTick_fifo (s : State) : (audTick s).fifo = s.fifo := by unfold audTick; split <;> rfl
@[simp] theorem audTick_lineBuf (s : State) : (audTick s).lineBuf = s.lineBuf := by unfold audTick; split <;> rfl
@[simp] theorem audTick_fb (s : State) : (audTick s).fb = s.fb := by unfold audTick; split <;> rfl
@[simp] theorem audTick_race (s : State) : (audTick s).race = s.race := by unfold audTick; split <;> rfl
@[simp] theorem audTick_serRem (s : State) : (audTick s).serRem = s.serRem := by unfold audTick; split <;> rfl
@[simp] theorem audTick_cnt (s : State) : (audTick s).cnt = s.cnt := by unfold audTick; split <;> rfl
@[simp] theorem audTick_out (s : State) : (audTick s).out = s.out := by unfold audTick; split <;> rfl
@[simp] theorem audTick_ring (s : State) : (audTick s).ring = s.ring := by unfold audTick; split <;> rfl
@[simp] theorem audTick_wr (s : State) : (audTick s).wr = s.wr := by unfold audTick; split <;> rfl
@[simp] theorem audTick_rd (s : State) : (audTick s).rd = s.rd := by unfold audTick; split <;> rfl
@[simp] theorem audTick_last (s : State) : (audTick s).last = s.last := by unfold audTick; split <;> rfl
@[simp] theorem audTick_audTrace (s : State) : (audTick s).audTrace = s.audTrace := by unfold audTick; split <;> rfl
@[simp] theorem audTick_audOwner (s : State) : (audTick s).audOwner = s.audOwner := by unfold audTick; split <;> rfl
@[simp] theorem audTick_mDesc (s : State) : (audTick s).mDesc = s.mDesc := by unfold audTick; split <;> rfl
@[simp] theorem audTick_mCmd (s : State) : (audTick s).mCmd = s.mCmd := by unfold audTick; split <;> rfl
@[simp] theorem audTick_port (s : State) : (audTick s).port = s.port := by unfold audTick; split <;> rfl
@[simp] theorem audTick_inbox (s : State) : (audTick s).inbox = s.inbox := by unfold audTick; split <;> rfl
@[simp] theorem audTick_fresh (s : State) : (audTick s).fresh = s.fresh := by unfold audTick; split <;> rfl
@[simp] theorem audTick_epoch (s : State) : (audTick s).epoch = s.epoch := by unfold audTick; split <;> rfl
@[simp] theorem audTick_chan (ch' : Slot) (s : State) : (audTick s).chan ch' = s.chan ch' := by
  cases ch' <;> simp

/-! Updates that read what they replace. -/

@[simp] theorem markRendering_none (s : State) : markRendering none s = s := rfl
@[simp] theorem markRendering_some_fx (b : BufId) (s : State) :
    (markRendering (some b) s).fx = s.fx.setRendering b true := rfl
@[simp] theorem displayPick_none (s : State) : displayPick none s = s := rfl
@[simp] theorem displayPick_some_dispValid (b : BufId) (s : State) : (displayPick (some b) s).dispValid = true := rfl
@[simp] theorem displayPick_some_dispBuf (b : BufId) (s : State) : (displayPick (some b) s).dispBuf = b := rfl
theorem extendOut_out (recs : List OutRecord) (s : State) :
    (extendOut recs s).out = s.out ++ (if marked s then Config.corruptRecords s.fresh else recs) := rfl
theorem extendOut_out_of_clear (recs : List OutRecord) (s : State) (h : marked s = false) :
    (extendOut recs s).out = s.out ++ recs := by simp [extendOut_out, h]
@[simp] theorem writeDesc_chan_same (ch : Slot) (src len : BitVec 16) (s : State) :
    (writeDesc ch src len s).chan ch = { s.chan ch with src := src, len := len } := by cases ch <;> rfl
@[simp] theorem writeDesc_chan_other (ch : Slot) (src len : BitVec 16) (s : State) :
    (writeDesc ch src len s).chan (otherSlot ch) = s.chan (otherSlot ch) := by cases ch <;> rfl
@[simp] theorem describeTable_chan_same (ch : Slot) (t : TableId) (s : State) :
    (describeTable ch t s).chan ch =
      { s.chan ch with src := BitVec.ofNat 16 (tableBase t), len := BitVec.ofNat 16 s.cfg.cmdListLen } := by
  cases ch <;> rfl
@[simp] theorem describeTable_chan_other (ch : Slot) (t : TableId) (s : State) :
    (describeTable ch t s).chan (otherSlot ch) = s.chan (otherSlot ch) := by cases ch <;> rfl
@[simp] theorem describeLine_chan_same (ch : Slot) (words : List Word) (len : Nat) (s : State) :
    (describeLine ch words len s).chan ch =
      { s.chan ch with src := BitVec.ofNat 16 (lineBufBase ch), len := BitVec.ofNat 16 len } := by cases ch <;> rfl
@[simp] theorem describeLine_chan_other (ch : Slot) (words : List Word) (len : Nat) (s : State) :
    (describeLine ch words len s).chan (otherSlot ch) = s.chan (otherSlot ch) := by cases ch <;> rfl
theorem acknowledge_chan_named (s : State) :
    (acknowledge s).chan (otherSlot s.lastDone) = { s.chan (otherSlot s.lastDone) with done := false } := by
  simp [acknowledge]
theorem acknowledge_chan_other (s : State) : (acknowledge s).chan s.lastDone = s.chan s.lastDone := by
  unfold acknowledge; cases h : s.lastDone <;> simp [State.chan]
theorem takeFrame_of_empty (s : State) (h : s.rd = s.wr) :
    takeFrame s = { s with audTrace := s.audTrace ++ [s.last] } := by simp [takeFrame, h]
theorem takeFrame_of_held (s : State) (h : s.rd ≠ s.wr) :
    takeFrame s = { s with
      rd := (s.rd + 1) % s.cfg.audioCap, last := ringFrame s s.rd, audTrace := s.audTrace ++ [ringFrame s s.rd] } := by
  simp [takeFrame, h]
theorem audTick_timer (s : State) (h : s.cfg.audioSink = .timer) : audTick s = { s with audTick := true } := by
  simp [audTick, h]
theorem audTick_aux (s : State) (h : s.cfg.audioSink = .aux) : audTick s = s := by simp [audTick, h]

end Sys2Proof.Machine
end

