-- ==== Sys2Proof/Laws/Ops.lean ====
section
/-! SUPPORT. What each shared operation can do, said once: "if it answers next t, then ...". -/

namespace Sys2Proof.Machine

/-! Attempts and requests. -/

theorem ok_eq_iff {α : Type} (a t : α) : (Except.ok a : Attempt α) = .ok t ↔ t = a := by
  constructor
  · intro h; cases h; rfl
  · rintro rfl; rfl

theorem finish_next (s t : State) (a : Attempt State) :
    finish s a = .next t ↔ a = .ok t ∨ (a = .error .wait ∧ t = clearOutputs s) := by
  cases a with
  | ok u => simp [finish]
  | error h => cases h <;> simp [finish, eq_comm]

theorem finish_refused (s : State) (a : Attempt State) (r : Refusal) :
    finish s a = .refused r ↔ a = .error (.refuse r) := by
  cases a with
  | ok u => simp [finish]
  | error h => cases h <;> simp [finish]

theorem finish_fault (s : State) (a : Attempt State) (r : Fault) :
    finish s a = .fault r ↔ a = .error (.fault r) := by
  cases a with
  | ok u => simp [finish]
  | error h => cases h <;> simp [finish]

theorem serve_next (p : Context → Bool) (s t : State) (a : Attempt State) :
    serve p s a = .next t ↔ p s.port.ctx = true ∧ finish s a = .next t := by
  unfold serve; split <;> simp_all

theorem serve_allowed (p : Context → Bool) (s : State) (a : Attempt State) (h : p s.port.ctx = true) :
    serve p s a = finish s a := by simp [serve, h]

theorem whenEnabled_next (e : Bool) (s t : State) (a : Attempt State) :
    whenEnabled e s a = .next t ↔ (e = true ∧ finish s a = .next t) ∨ (e = false ∧ t = s) := by
  cases e <;> simp [whenEnabled, eq_comm]

theorem bind_ok {α β : Type} (a : Attempt α) (f : α → Attempt β) (y : β) :
    (a >>= f) = .ok y ↔ ∃ x, a = .ok x ∧ f x = .ok y := by
  cases a with
  | ok x => simp [bind, Except.bind]
  | error h => simp [bind, Except.bind]

/-! The mutex. -/

theorem underMutex_ok (who : LockOwner) (s t : State) (act : State → Attempt State) :
    underMutex who s act = .ok t ↔
      s.fx.lock = .free ∧ ∃ u, act (setLock who s) = .ok u ∧ t = setLock .free u := by
  unfold underMutex
  split
  · rename_i hl
    cases act (setLock who s) with
    | ok u => simp [hl, ok_eq_iff, -Except.ok.injEq]
    | error e => simp
  · rename_i hl; simp [hl]

theorem underMutex_held (who : LockOwner) (s : State) (act : State → Attempt State) (h : s.fx.lock ≠ .free) :
    underMutex who s act = .error .wait := by simp [underMutex, h]

/-! FrameExchange. -/

theorem publishFlags_ready (c : BufId) (f : FrameExchange) : (publishFlags c f).ready c = true := by
  cases c <;> rfl

theorem publishFlags_ready_other (c : BufId) (f : FrameExchange) :
    (publishFlags c f).ready (otherBuf c) = false := by cases c <;> rfl

theorem publishFlags_wt (c : BufId) (f : FrameExchange) : (publishFlags c f).wt = otherBuf c := by cases c <;> rfl

theorem publishFlags_rendering (c b : BufId) (f : FrameExchange) : (publishFlags c f).rendering b = f.rendering b := by
  cases c <;> cases b <;> rfl

theorem publishFlags_lock (c : BufId) (f : FrameExchange) : (publishFlags c f).lock = f.lock := by cases c <;> rfl

theorem publishAct_ok (c : BufId) (s t : State) :
    publishAct c s = .ok t ↔
      (s.fx.rendering (otherBuf c) = true ∧ s.cfg.publishBusyPolicy = .drop ∧ t = respond .dropped none s) ∨
      (s.fx.rendering (otherBuf c) = false ∧ t = respond .ok none { s with fx := publishFlags c s.fx }) := by
  unfold publishAct
  split
  · rename_i h; split <;> rename_i hp <;> simp [h, hp, ok_eq_iff, -Except.ok.injEq]
  · rename_i h; simp [Bool.eq_false_of_not_eq_true h, ok_eq_iff, -Except.ok.injEq]

/-- What ACQUIRE returns is ready and not rendering. -/
theorem acquirePick_some (f : FrameExchange) (b : BufId) (h : acquirePick f = some b) :
    f.ready b = true ∧ f.rendering b = false := by
  unfold acquirePick at h
  split at h
  · simp_all
  · split at h <;> simp_all

theorem acquirePick_none (f : FrameExchange) :
    acquirePick f = none ↔ ∀ b, ¬(f.ready b = true ∧ f.rendering b = false) := by
  constructor
  · intro h b hb
    unfold acquirePick at h
    obtain ⟨r0, r1, d0, d1, wt, lk⟩ := f
    cases b <;> cases wt <;> simp [hb] at h <;> split at h <;> simp at h
  · intro h
    have h0 := h .b0
    have h1 := h .b1
    clear h
    obtain ⟨r0, r1, d0, d1, wt, lk⟩ := f
    unfold acquirePick
    cases wt <;> cases r0 <;> cases r1 <;> simp_all

theorem acquireFrame_ok (s t : State) (pick : Option BufId) :
    acquireFrame s = .ok (t, pick) ↔
      s.fx.lock = .free ∧ pick = acquirePick s.fx ∧
        t = setLock .free (markRendering (acquirePick s.fx) (setLock .consumer s)) := by
  simp only [acquireFrame, bind_ok, underMutex_ok]
  constructor
  · rintro ⟨u, ⟨hl, v, hv, rfl⟩, h⟩
    cases hv
    cases h
    exact ⟨hl, rfl, by simp⟩
  · rintro ⟨hl, rfl, rfl⟩
    exact ⟨_, ⟨hl, _, rfl, rfl⟩, by simp [pure, Except.pure]⟩

theorem releaseFrame_ok (b : BufId) (s t : State) :
    releaseFrame b s = .ok t ↔
      s.fx.lock = .free ∧ t = setLock .free (clearRendering b (setLock .consumer s)) := by
  unfold releaseFrame
  rw [underMutex_ok]
  constructor
  · rintro ⟨hl, u, hu, rfl⟩; cases hu; exact ⟨hl, rfl⟩
  · rintro ⟨hl, rfl⟩; exact ⟨hl, _, rfl, rfl⟩

theorem whileStopped_ok (s t : State) (a : Attempt State) :
    whileStopped s a = .ok t ↔ s.run = false ∧ a = .ok t := by
  unfold whileStopped
  split
  · rename_i h; simp [h]
  · rename_i h; simp [h]

/-! Audio. -/

theorem claimRing_ok (who : AudioConsumer) (s t : State) :
    claimRing who s = .ok t ↔
      (s.audOwner = none ∨ s.audOwner = some who) ∧ t = { s with audOwner := some who } := by
  unfold claimRing
  split
  · rename_i h; simp [h, ok_eq_iff, -Except.ok.injEq]
  · rename_i first h
    split
    · rename_i hf; subst hf
      have hs : ({ s with audOwner := some first } : State) = s := by rw [← h]
      simp only [hs, h, ok_eq_iff, or_true, true_and]
    · rename_i hf; simp [h, hf]

theorem dequeue_ok (who : AudioConsumer) (s t : State) :
    dequeue who s = .ok t ↔
      (s.audOwner = none ∨ s.audOwner = some who) ∧ t = takeFrame { s with audOwner := some who } := by
  simp only [dequeue, bind_ok, claimRing_ok]
  constructor
  · rintro ⟨u, ⟨h, rfl⟩, hu⟩; cases hu; exact ⟨h, rfl⟩
  · rintro ⟨h, rfl⟩; exact ⟨_, ⟨h, rfl⟩, rfl⟩

/-- The registers a dequeue writes: RD, LAST, AUD_TRACE, the model's record of the consumer and, inside a larger step, the
outcome noted at the port; nothing else. -/
def onlyDequeued (s t : State) : Prop :=
  { t with
    rd := s.rd, last := s.last, audTrace := s.audTrace, audOwner := s.audOwner
    port := { t.port with inner := s.port.inner } } = s

theorem onlyDequeued_refl (s : State) : onlyDequeued s s := rfl

theorem onlyDequeued_trans {s t u : State} (h : onlyDequeued s t) (k : onlyDequeued t u) : onlyDequeued s u :=
  (congrArg (fun x : State =>
    ({ x with
      rd := s.rd, last := s.last, audTrace := s.audTrace, audOwner := s.audOwner
      port := { x.port with inner := s.port.inner } } : State)) k).trans h

theorem takeFrame_onlyDequeued (s : State) : onlyDequeued s (takeFrame s) := by
  unfold takeFrame onlyDequeued; split <;> rfl

theorem dequeue_onlyDequeued (who : AudioConsumer) (s t : State) (h : dequeue who s = .ok t) : onlyDequeued s t := by
  obtain ⟨_, rfl⟩ := (dequeue_ok who s t).1 h
  exact onlyDequeued_trans (t := { s with audOwner := some who }) rfl (takeFrame_onlyDequeued _)

theorem note_onlyDequeued (o : OutcomeCode) (s : State) : onlyDequeued s (note o s) := rfl

theorem dequeueTimes_succ_ok (who : AudioConsumer) (n : Nat) (s t : State) :
    dequeueTimes who (n + 1) s = .ok t ↔
      (s.audOwner = none ∨ s.audOwner = some who) ∧
        dequeueTimes who n (note (dequeueOutcome s) (takeFrame { s with audOwner := some who })) = .ok t := by
  simp only [dequeueTimes, bind_ok, dequeue_ok]
  constructor
  · rintro ⟨u, ⟨h, rfl⟩, hu⟩; exact ⟨h, hu⟩
  · rintro ⟨h, hu⟩; exact ⟨_, ⟨h, rfl⟩, hu⟩

theorem dequeueTimes_onlyDequeued (who : AudioConsumer) (n : Nat) (s t : State)
    (h : dequeueTimes who n s = .ok t) : onlyDequeued s t := by
  induction n generalizing s with
  | zero => cases h; exact onlyDequeued_refl _
  | succ n ih =>
    obtain ⟨u, hu, ht⟩ := (bind_ok _ _ _).1 h
    exact onlyDequeued_trans (dequeue_onlyDequeued who s u hu) (onlyDequeued_trans (note_onlyDequeued _ u) (ih _ ht))

/-- A consumer that may dequeue once may dequeue any number of times. -/
theorem dequeueTimes_completes (who : AudioConsumer) (n : Nat) (s : State)
    (h : s.audOwner = none ∨ s.audOwner = some who) : ∃ t, dequeueTimes who n s = .ok t := by
  induction n generalizing s with
  | zero => exact ⟨s, rfl⟩
  | succ n ih =>
    obtain ⟨t, ht⟩ := ih (note (dequeueOutcome s) (takeFrame { s with audOwner := some who })) (.inr (by simp))
    exact ⟨t, (dequeueTimes_succ_ok who n s t).2 ⟨h, ht⟩⟩

theorem auxAudio_onlyDequeued (s t : State) (h : auxAudio s = .ok t) : onlyDequeued s t := by
  unfold auxAudio at h
  split at h
  · exact dequeueTimes_onlyDequeued _ _ s t h
  · cases h; exact onlyDequeued_refl _

theorem auxAudio_timer (s : State) (h : s.cfg.audioSink = .timer) : auxAudio s = .ok s := by
  simp [auxAudio, h]

theorem auxAudio_completes (s : State)
    (h : s.cfg.audioSink = .timer ∨ s.cfg.auxPerLine = 0 ∨ s.audOwner = none ∨ s.audOwner = some .auxPath) :
    ∃ t, auxAudio s = .ok t := by
  unfold auxAudio
  split
  · rename_i hk
    rcases h with h | h | h
    · simp [h] at hk
    · exact ⟨s, by rw [h]; rfl⟩
    · exact dequeueTimes_completes _ _ s h
  · exact ⟨s, rfl⟩

theorem advance_ok (s t : State) :
    advance s = .ok t ↔ ∃ u, auxAudio s = .ok u ∧ t = { u with v := nextLine u.cfg u.v } := by
  simp only [advance, bind_ok]
  constructor
  · rintro ⟨u, hu, ht⟩; cases ht; exact ⟨u, hu, rfl⟩
  · rintro ⟨u, hu, rfl⟩; exact ⟨u, hu, rfl⟩

/-! The transfer channels. -/

theorem dmaTrigger_ok (ch : Slot) (s t : State) :
    dmaTrigger ch s = .ok t ↔
      ((s.chan ch).busy = true ∧ t = s) ∨
      ((s.chan ch).busy = false ∧ descriptorLegal s.cfg (s.chan ch).src (s.chan ch).len = true ∧
        t = s.setChan ch (loadedChannel (s.chan ch))) := by
  unfold dmaTrigger
  simp only
  split
  · rename_i h; simp [h, ok_eq_iff, -Except.ok.injEq]
  · rename_i h
    split <;> rename_i hd <;> simp [h, hd, ok_eq_iff, -Except.ok.injEq]

theorem dmaXfer_ok (ch : Slot) (s t : State) :
    dmaXfer ch s = .ok t ↔ ∃ w, dmaRead s (s.chan ch).rptr = some w ∧
      t = { s with fifo := s.fifo ++ [w] }.setChan ch
        { s.chan ch with rptr := (s.chan ch).rptr + 1, rem := (s.chan ch).rem - 1 } := by
  unfold dmaXfer
  simp only
  split <;> rename_i hw <;> simp [hw, ok_eq_iff, -Except.ok.injEq]

theorem dmaComplete_ok (ch : Slot) (s t : State) :
    dmaComplete ch s = .ok t ↔
      ((s.chan (otherSlot ch)).busy = true ∧ t = s.setChan ch { s.chan ch with busy := false, done := true }) ∨
      ((s.chan (otherSlot ch)).busy = false ∧
        descriptorLegal s.cfg (s.chan (otherSlot ch)).src (s.chan (otherSlot ch)).len = true ∧
        t = (s.setChan ch { s.chan ch with busy := false, done := true }).setChan (otherSlot ch)
          (loadedChannel (s.chan (otherSlot ch)))) := by
  unfold dmaComplete
  rw [dmaTrigger_ok]
  simp

/-! The sequencer. -/

@[simp] theorem lineUnits_note (o : OutcomeCode) (s : State) : lineUnits (note o s) = lineUnits s := rfl

theorem frameStart_ok (s t : State) :
    frameStart s = .ok t ↔ s.fx.lock = .free ∧
      t = note (acquireOutcome (acquirePick s.fx)) (displayPick (acquirePick s.fx)
        (setLock .free
          (markRendering (acquirePick s.fx) (setLock .consumer { s with scaleActive := s.scalePending })))) := by
  simp only [frameStart, bind_ok, Prod.exists, acquireFrame_ok]
  constructor
  · rintro ⟨u, p, ⟨hl, rfl, rfl⟩, ht⟩; cases ht; exact ⟨hl, rfl⟩
  · rintro ⟨hl, rfl⟩; exact ⟨_, _, ⟨hl, rfl, rfl⟩, rfl⟩

theorem frameEnd_ok (s t : State) :
    frameEnd s = .ok t ↔
      (s.dispValid = false ∧ t = s) ∨
      (s.dispValid = true ∧ s.fx.lock = .free ∧
        t = note .ok (setLock .free (clearRendering s.dispBuf (setLock .consumer s)))) := by
  unfold frameEnd
  split
  · rename_i h
    simp only [h, bind_ok, releaseFrame_ok, reduceCtorEq, false_and, true_and, false_or]
    constructor
    · rintro ⟨u, ⟨hl, rfl⟩, ht⟩; cases ht; exact ⟨hl, rfl⟩
    · rintro ⟨hl, rfl⟩; exact ⟨_, ⟨hl, rfl⟩, rfl⟩
  · rename_i h; simp [h, ok_eq_iff, -Except.ok.injEq]

theorem startOfFrame_ok (s t : State) :
    startOfFrame s = .ok t ↔ (s.v = tBpEnd s.cfg ∧ frameStart s = .ok t) ∨ (s.v ≠ tBpEnd s.cfg ∧ t = s) := by
  unfold startOfFrame; split <;> rename_i h <;> simp [h, ok_eq_iff, -Except.ok.injEq]

theorem endOfFrame_ok (s t : State) :
    endOfFrame s = .ok t ↔ (s.v + 1 = vTotal s.cfg ∧ frameEnd s = .ok t) ∨ (s.v + 1 ≠ vTotal s.cfg ∧ t = s) := by
  unfold endOfFrame; split <;> rename_i h <;> simp [h, ok_eq_iff, -Except.ok.injEq]

/-- The region of a line inside the raster (41_scanline_sequencer.md R151). -/
theorem region_active (c : Config) (v : Nat) : region c v = some .active ↔ tBpEnd c ≤ v ∧ v < vTotal c := by
  unfold region vTotal tBpEnd tSyncEnd tFpEnd
  split
  · simp; omega
  · split
    · simp; omega
    · split
      · simp; omega
      · split <;> simp <;> omega

theorem region_sync (c : Config) (v : Nat) : region c v = some .sync ↔ tFpEnd c ≤ v ∧ v < tSyncEnd c := by
  unfold region vTotal tBpEnd tSyncEnd tFpEnd
  split
  · simp; omega
  · split
    · simp; omega
    · split
      · simp; omega
      · split <;> simp <;> omega

theorem region_none (c : Config) (v : Nat) : region c v = none ↔ vTotal c ≤ v := by
  unfold region vTotal tBpEnd tSyncEnd tFpEnd
  split
  · simp; omega
  · split
    · simp; omega
    · split
      · simp; omega
      · split <;> simp <;> omega

/-- The cases of `post` (41_scanline_sequencer.md R156). -/
theorem post_ok (ch : Slot) (s t : State) (h : post ch s = .ok t) :
    (s.v < tBpEnd s.cfg ∧
      ∃ tbl, (tbl = .vsync ↔ region s.cfg s.v = some .sync) ∧ tbl ≠ .active ∧
        advance (describeTable ch tbl (markBusySlot ch s)) = .ok t) ∨
    (tBpEnd s.cfg ≤ s.v ∧ s.v < vTotal s.cfg ∧ s.cfg.twoPhase = true ∧ postActive2 ch (markBusySlot ch s) = .ok t) ∨
    (tBpEnd s.cfg ≤ s.v ∧ s.v < vTotal s.cfg ∧ s.cfg.twoPhase = false ∧
      postActive1 ch (markBusySlot ch s) = .ok t) := by
  unfold post postItem at h
  simp only [markBusySlot_cfg, markBusySlot_v] at h
  split at h
  · rename_i hr
    refine .inl ⟨?_, .blank, ?_, by decide, h⟩
    · unfold region at hr; unfold tBpEnd
      split at hr
      · rename_i hv; simp only [tFpEnd] at hv; omega
      · split at hr
        · simp at hr
        · split at hr
          · simp at hr
          · split at hr <;> simp at hr
    · simp [hr]
  · rename_i hr
    refine .inl ⟨?_, .vsync, ?_, by decide, h⟩
    · have := (region_sync _ _).1 hr
      simp only [tSyncEnd, tBpEnd] at *
      omega
    · simp [hr]
  · rename_i hr
    refine .inl ⟨?_, .blank, ?_, by decide, h⟩
    · unfold region at hr
      split at hr
      · simp at hr
      · split at hr
        · simp at hr
        · split at hr
          · assumption
          · split at hr <;> simp at hr
    · simp [hr]
  · rename_i hr
    obtain ⟨h1, h2⟩ := (region_active _ _).1 hr
    cases hp : s.cfg.twoPhase <;> simp only [hp, if_true, Bool.false_eq_true, if_false] at h
    · exact .inr (.inr ⟨h1, h2, rfl, h⟩)
    · exact .inr (.inl ⟨h1, h2, rfl, h⟩)
  · simp at h

theorem postActive2_ok (ch : Slot) (s t : State) :
    postActive2 ch s = .ok t ↔
      (s.phase = .cmd ∧ t = { describeTable ch .active s with phase := .pix }) ∨
      (s.phase = .pix ∧ ∃ a b, startOfFrame s = .ok a ∧
        endOfFrame (describeLine ch (pack (lineUnits a)) wordsPerLine a) = .ok b ∧
        advance { b with phase := .cmd } = .ok t) := by
  unfold postActive2
  split
  · rename_i hp; simp [hp, ok_eq_iff, -Except.ok.injEq]
  · rename_i hp
    simp only [bind_ok, hp, true_and, reduceCtorEq, false_and, false_or]
    constructor
    · rintro ⟨a, ha, b, hb, ht⟩; exact ⟨a, b, ha, hb, ht⟩
    · rintro ⟨a, b, ha, hb, ht⟩; exact ⟨a, ha, b, hb, ht⟩

theorem postActive1_ok (ch : Slot) (s t : State) :
    postActive1 ch s = .ok t ↔
      ∃ a b, startOfFrame s = .ok a ∧
        endOfFrame (describeLine ch (tableWords a.cfg .active ++ pack (lineUnits a))
          (a.cfg.cmdListLen + wordsPerLine) a) = .ok b ∧
        advance b = .ok t := by
  simp only [postActive1, bind_ok]
  constructor
  · rintro ⟨a, ha, b, hb, ht⟩; exact ⟨a, b, ha, hb, ht⟩
  · rintro ⟨a, b, ha, hb, ht⟩; exact ⟨a, ha, b, hb, ht⟩

theorem execStart_next (s t : State) (h : execStart s = .next t) :
    s.port.ctx = .consumerThread ∧
      ((s.run = true ∧ t = badRequest s) ∨
       (s.run = false ∧ ∃ a b c, post .ping (startSequencer s) = .ok a ∧ post .pong a = .ok b ∧
          dmaTrigger .ping b = .ok c ∧ t = respond .ok none c) ∨
       (s.run = false ∧ t = clearOutputs s)) := by
  unfold execStart at h
  rw [serve_next, finish_next] at h
  obtain ⟨hc, h⟩ := h
  refine ⟨by simpa [consumerPort] using hc, ?_⟩
  split at h
  · rename_i hr; rcases h with h | ⟨h, _⟩
    · cases h; exact .inl ⟨hr, rfl⟩
    · cases h
  · rename_i hr
    have hr : s.run = false := by simpa using hr
    rcases h with h | ⟨h, ht⟩
    · simp only [bind_ok] at h
      obtain ⟨a, ha, b, hb, c, hcc, ht⟩ := h
      cases ht
      exact .inr (.inl ⟨hr, a, b, c, ha, hb, hcc, rfl⟩)
    · exact .inr (.inr ⟨hr, ht⟩)

end Sys2Proof.Machine
end

