-- ==== Sys2Proof/Laws/PerInstr.lean ====
section
/-! SUPPORT. Laws stated for every operation and proved one operation at a time. -/

namespace Sys2Proof.Laws

/-- The encoding of a well-formed operation has the fixed bits of the opcode table's row with its mnemonic and interface
(30_encoding.md R99, R111 to R113). -/
def EncodedInTable.Statement (i : Instr) : Prop :=
  i.wellFormed = true → ∃ r ∈ opTable, r.mnemonic = i.mnemonic ∧ r.interface = i.interface ∧ r.admits (encode i) = true

/-- A mask that is zero in the low field keeps only the high one. -/
theorem append_and_high (w v : Nat) (x m : BitVec w) (y : BitVec v) : (x ++ y) &&& (m ++ 0#v) = (x &&& m) ++ 0#v := by
  rw [BitVec.and_append, BitVec.and_zero]

/-- A request word whose operand field is zero under the low 24 bits of the row's mask is admitted by the row. -/
theorem reqWord_and_mask (op : BitVec 8) (operand mask : BitVec 24) (h : operand &&& mask = 0) :
    reqWord op operand &&& (0xFF#8 ++ mask) = op ++ 0#24 := by
  unfold reqWord
  rw [BitVec.and_append, h, show (0xFF#8) = BitVec.allOnes 8 from rfl, BitVec.and_allOnes]
  rfl

/-- The operand of format L is zero outside its low nine bits. -/
theorem lineOperand_and_mask (line : BitVec 9) : (0#15 ++ line) &&& 0xFFFE00#24 = 0 :=
  append_and_high 15 9 0 0x7FFF line

/-- The operand of format C is zero outside its low sixteen bits. -/
theorem countOperand_and_mask (count : BitVec 16) : (0#8 ++ count) &&& 0xFF0000#24 = 0 :=
  append_and_high 8 16 0 0xFF count

theorem EncodedInTable.lineBegin (line : BitVec 9) : EncodedInTable.Statement (.lineBegin line) := by
  intro _
  refine ⟨opTable[0], by decide, rfl, rfl, ?_⟩
  exact beq_iff_eq.2 (reqWord_and_mask 0x01 _ 0xFFFE00 (lineOperand_and_mask line))

theorem EncodedInTable.lineEnd (line : BitVec 9) : EncodedInTable.Statement (.lineEnd line) := by
  intro _
  refine ⟨opTable[1], by decide, rfl, rfl, ?_⟩
  exact beq_iff_eq.2 (reqWord_and_mask 0x02 _ 0xFFFE00 (lineOperand_and_mask line))

theorem EncodedInTable.publish (buf : BufId) : EncodedInTable.Statement (.publish buf) := by
  intro _
  refine ⟨opTable[2], by decide, rfl, rfl, ?_⟩
  cases buf <;> decide

theorem EncodedInTable.frameComplete : EncodedInTable.Statement .frameComplete := by
  intro _
  refine ⟨opTable[3], by decide, rfl, rfl, ?_⟩
  decide

theorem EncodedInTable.audCap : EncodedInTable.Statement .audCap := by
  intro _
  refine ⟨opTable[4], by decide, rfl, rfl, ?_⟩
  decide

theorem EncodedInTable.audEnq (count : BitVec 16) : EncodedInTable.Statement (.audEnq count) := by
  intro _
  refine ⟨opTable[5], by decide, rfl, rfl, ?_⟩
  exact beq_iff_eq.2 (reqWord_and_mask 0x11 _ 0xFF0000 (countOperand_and_mask count))

theorem EncodedInTable.setScale (mode : ScaleMode) : EncodedInTable.Statement (.setScale mode) := by
  intro _
  refine ⟨opTable[6], by decide, rfl, rfl, ?_⟩
  cases mode <;> decide

theorem EncodedInTable.acquire : EncodedInTable.Statement .acquire := by
  intro _
  refine ⟨opTable[7], by decide, rfl, rfl, ?_⟩
  decide

theorem EncodedInTable.release (buf : BufId) : EncodedInTable.Statement (.release buf) := by
  intro _
  refine ⟨opTable[8], by decide, rfl, rfl, ?_⟩
  cases buf <;> decide

theorem EncodedInTable.audDeq : EncodedInTable.Statement .audDeq := by
  intro _
  refine ⟨opTable[9], by decide, rfl, rfl, ?_⟩
  decide

theorem EncodedInTable.start : EncodedInTable.Statement .start := by
  intro _
  refine ⟨opTable[10], by decide, rfl, rfl, ?_⟩
  decide

theorem EncodedInTable.nop : EncodedInTable.Statement .nop := by
  intro _
  refine ⟨opTable[11], by decide, rfl, rfl, ?_⟩
  decide

theorem EncodedInTable.ctrl (vs hs : Bool) (n : BitVec 12) : EncodedInTable.Statement (.ctrl vs hs n) := by
  intro _
  refine ⟨opTable[12], by decide, rfl, rfl, ?_⟩
  refine beq_iff_eq.2 ((append_and_high 20 12 _ 0xF3FFF n).trans ?_)
  cases vs <;> cases hs <;> rfl

theorem EncodedInTable.pixels (n : BitVec 12) : EncodedInTable.Statement (.pixels n) := by
  intro _
  refine ⟨opTable[13], by decide, rfl, rfl, ?_⟩
  exact beq_iff_eq.2 (append_and_high 20 12 _ 0xFFFFF n)

end Sys2Proof.Laws
end

