-- ==== Sys2Proof/Laws/Step.lean ====
section
/-! SUPPORT. What each operation and each turn can do when it answers a next state. -/

namespace Sys2Proof.Machine

/-! Decoding stays at its interface. -/

theorem decodeN_ok (i j : Instr) (w : Word) (h : decodeN i w = .ok j) : j = i := by
  unfold decodeN at h; split at h <;> cases h; rfl

theorem decodeB_ok (k : BufId → Instr) (j : Instr) (w : Word) (h : decodeB k w = .ok j) : ∃ b, j = k b := by
  unfold decodeB at h; split at h <;> cases h; exact ⟨_, rfl⟩

theorem decodeL_ok (k : BitVec 9 → Instr) (j : Instr) (w : Word) (h : decodeL k w = .ok j) :
    ∃ line : BitVec 9, line.toNat < fbHeight ∧ j = k line := by
  unfold decodeL at h
  split at h
  · split at h
    · cases h; exact ⟨_, by assumption, rfl⟩
    · cases h
  · cases h

theorem decodeC_ok (k : BitVec 16 → Instr) (j : Instr) (w : Word) (h : decodeC k w = .ok j) : ∃ c, j = k c := by
  unfold decodeC at h; split at h <;> cases h; exact ⟨_, rfl⟩

theorem decodeM_ok (k : ScaleMode → Instr) (j : Instr) (w : Word) (h : decodeM k w = .ok j) : ∃ m, j = k m := by
  unfold decodeM at h; split at h <;> cases h; exact ⟨_, rfl⟩

/-- The operations a request word can be: each line operand is below 240. -/
theorem decodeReq_ok (w : Word) (i : Instr) (h : decodeReq w = .ok i) :
    (∃ line : BitVec 9, line.toNat < fbHeight ∧ (i = .lineBegin line ∨ i = .lineEnd line)) ∨
    (∃ b, i = .publish b) ∨ i = .frameComplete ∨ i = .audCap ∨ (∃ c, i = .audEnq c) ∨ (∃ m, i = .setScale m) ∨
    i = .acquire ∨ (∃ b, i = .release b) ∨ i = .audDeq ∨ i = .start := by
  unfold decodeReq at h
  split at h
  · obtain ⟨l, hl, rfl⟩ := decodeL_ok _ _ _ h; exact .inl ⟨l, hl, .inl rfl⟩
  · obtain ⟨l, hl, rfl⟩ := decodeL_ok _ _ _ h; exact .inl ⟨l, hl, .inr rfl⟩
  · obtain ⟨b, rfl⟩ := decodeB_ok _ _ _ h; simp
  · have := decodeN_ok _ _ _ h; simp [this]
  · have := decodeN_ok _ _ _ h; simp [this]
  · obtain ⟨c, rfl⟩ := decodeC_ok _ _ _ h; simp
  · obtain ⟨m, rfl⟩ := decodeM_ok _ _ _ h; simp
  · have := decodeN_ok _ _ _ h; simp [this]
  · obtain ⟨b, rfl⟩ := decodeB_ok _ _ _ h; simp
  · have := decodeN_ok _ _ _ h; simp [this]
  · have := decodeN_ok _ _ _ h; simp [this]
  · cases h

/-- The operations a command word can be. -/
theorem decodeCmd_ok (w : Word) (i : Instr) (h : decodeCmd w = .ok i) :
    i = .nop ∨ (∃ vs hs n, n ≠ 0 ∧ i = .ctrl vs hs n) ∨ (∃ n, n ≠ 0 ∧ i = .pixels n) := by
  unfold decodeCmd at h
  split at h
  · split at h <;> cases h; exact .inl rfl
  · split at h
    · split at h
      · cases h
      · cases h; exact .inr (.inl ⟨_, _, _, by assumption, rfl⟩)
    · cases h
  · split at h
    · split at h
      · cases h
      · cases h; exact .inr (.inr ⟨_, by assumption, rfl⟩)
    · cases h
  · cases h

/-! The meanings of the request operations. -/

theorem lineLegal_iff (line : BitVec 9) : lineLegal line = true ↔ line.toNat < 240 := by
  unfold lineLegal fbHeight; exact decide_eq_true_iff

/-! What an operation does between taking and freeing the mutex is what it does to the state itself. -/

theorem closeLine_underLock (line : BitVec 9) (s : State) (h : s.fx.lock = .free) :
    setLock .free (closeLine line (setLock .producer s)) = closeLine line s := by
  rcases s with ⟨cfg, ⟨r0, r1, d0, d1, wt, lk⟩⟩
  subst h
  unfold closeLine writeRow raceOfRow setLock
  simp only
  rfl

theorem publishFlags_underLock (c : BufId) (s : State) (h : s.fx.lock = .free) :
    setLock .free { setLock .producer s with fx := publishFlags c (setLock .producer s).fx } =
      { s with fx := publishFlags c s.fx } := by
  rcases s with ⟨cfg, ⟨r0, r1, d0, d1, wt, lk⟩⟩
  subst h
  cases c <;> rfl

theorem markRendering_underLock (pick : Option BufId) (s : State) (h : s.fx.lock = .free) :
    setLock .free (markRendering pick (setLock .consumer s)) = markRendering pick s := by
  rcases s with ⟨cfg, ⟨r0, r1, d0, d1, wt, lk⟩⟩
  subst h
  rcases pick with _ | b
  · rfl
  · cases b <;> rfl

theorem clearRendering_underLock (b : BufId) (s : State) (h : s.fx.lock = .free) :
    setLock .free (clearRendering b (setLock .consumer s)) = clearRendering b s := by
  rcases s with ⟨cfg, ⟨r0, r1, d0, d1, wt, lk⟩⟩
  subst h
  cases b <;> rfl

/-- A request under the mutex: carried out, or waiting for the lock. -/
theorem serve_underMutex_next (p : Context → Bool) (who : LockOwner) (s t : State) (act : State → Attempt State)
    (hw : act (setLock who s) ≠ .error .wait) :
    serve p s (underMutex who s act) = .next t ↔
      p s.port.ctx = true ∧
        ((s.fx.lock = .free ∧ ∃ u, act (setLock who s) = .ok u ∧ t = setLock .free u) ∨
         (s.fx.lock ≠ .free ∧ t = clearOutputs s)) := by
  rw [serve_next, finish_next, underMutex_ok]
  by_cases hl : s.fx.lock = .free
  · have : underMutex who s act ≠ .error .wait := by
      unfold underMutex
      rw [if_pos hl]
      cases h : act (setLock who s) with
      | ok u => simp
      | error e => rw [h] at hw; simpa using hw
    simp [hl, this]
  · simp [hl, underMutex_held who s act hl]

theorem publishAct_not_wait (c : BufId) (s : State) : publishAct c s ≠ .error .wait := by
  unfold publishAct
  split
  · split <;> simp
  · simp

theorem execLineBegin_next (line : BitVec 9) (s t : State) (h : execLineBegin line s = .next t) :
    s.port.ctx = .producer ∧
      ((240 ≤ line.toNat ∧ t = badRequest s) ∨
       (line.toNat < 240 ∧ s.fx.lock = .free ∧ t = respond .ok none (openLine line s)) ∨
       (s.fx.lock ≠ .free ∧ t = clearOutputs s)) := by
  unfold execLineBegin at h
  split at h
  · rename_i hl
    obtain ⟨hc, hb⟩ := (serve_underMutex_next _ _ _ _ _ (by simp)).1 h
    refine ⟨by simpa [producerPort] using hc, ?_⟩
    rcases hb with ⟨hf, u, hu, rfl⟩ | ⟨hf, rfl⟩
    · cases hu
      refine .inr (.inl ⟨by simpa [lineLegal_iff] using hl, hf, ?_⟩)
      exact congrArg (fun x => respond .ok none (openLine line x)) (setLock_free_of_free s hf)
    · exact .inr (.inr ⟨hf, rfl⟩)
  · rename_i hl
    obtain ⟨hc, hb⟩ := (serve_next _ _ _ _).1 h
    refine ⟨by simpa [producerPort] using hc, .inl ⟨by simpa [lineLegal_iff] using hl, ?_⟩⟩
    simpa [finish, eq_comm] using hb

theorem execLineEnd_next (line : BitVec 9) (s t : State) (h : execLineEnd line s = .next t) :
    s.port.ctx = .producer ∧
      (((240 ≤ line.toNat ∨ lineNotOpen line s = true) ∧ t = badRequest s) ∨
       (line.toNat < 240 ∧ lineNotOpen line s = false ∧ s.fx.lock = .free ∧ t = respond .ok none (closeLine line s)) ∨
       (s.fx.lock ≠ .free ∧ t = clearOutputs s)) := by
  unfold execLineEnd at h
  split at h
  · rename_i hl
    obtain ⟨hc, hb⟩ := (serve_underMutex_next _ _ _ _ _ (by simp)).1 h
    refine ⟨by simpa [producerPort] using hc, ?_⟩
    rcases hb with ⟨hf, u, hu, rfl⟩ | ⟨hf, rfl⟩
    · rw [ok_eq_iff] at hu
      have hs := setLock_free_of_free s hf
      have hn : lineNotOpen line (setLock .producer s) = lineNotOpen line s := rfl
      rw [hn] at hu
      cases ho : lineNotOpen line s
      · refine .inr (.inl ⟨by simpa [lineLegal_iff] using hl, rfl, hf, ?_⟩)
        rw [hu, ho]
        simp [closeLine_underLock line s hf]
      · refine .inl ⟨.inr rfl, ?_⟩
        rw [hu, ho]
        exact congrArg badRequest hs
    · exact .inr (.inr ⟨hf, rfl⟩)
  · rename_i hl
    obtain ⟨hc, hb⟩ := (serve_next _ _ _ _).1 h
    refine ⟨by simpa [producerPort] using hc, .inl ⟨.inl (by simpa [lineLegal_iff] using hl), ?_⟩⟩
    simpa [finish, eq_comm] using hb

theorem publish_next (c : BufId) (s t : State)
    (h : serve producerPort s (underMutex .producer s (publishAct c)) = .next t) :
    s.port.ctx = .producer ∧
      ((s.fx.lock = .free ∧ s.fx.rendering (otherBuf c) = true ∧ s.cfg.publishBusyPolicy = .drop ∧
          t = respond .dropped none s) ∨
       (s.fx.lock = .free ∧ s.fx.rendering (otherBuf c) = false ∧
          t = respond .ok none { s with fx := publishFlags c s.fx }) ∨
       (s.fx.lock ≠ .free ∧ t = clearOutputs s)) := by
  obtain ⟨hc, hb⟩ := (serve_underMutex_next _ _ _ _ _ (publishAct_not_wait c _)).1 h
  refine ⟨by simpa [producerPort] using hc, ?_⟩
  rcases hb with ⟨hf, u, hu, rfl⟩ | ⟨hf, rfl⟩
  · have hs := setLock_free_of_free s hf
    rcases (publishAct_ok c _ u).1 hu with ⟨hr, hp, rfl⟩ | ⟨hr, rfl⟩
    · exact .inl ⟨hf, by simpa using hr, hp, by simp [hs]⟩
    · refine .inr (.inl ⟨hf, by simpa using hr, ?_⟩)
      rw [setLock_respond, publishFlags_underLock c s hf]
  · exact .inr (.inr ⟨hf, rfl⟩)

theorem execPublish_next (c : BufId) (s t : State) (h : execPublish c s = .next t) :
    s.port.ctx = .producer ∧
      ((s.fx.lock = .free ∧ s.fx.rendering (otherBuf c) = true ∧ s.cfg.publishBusyPolicy = .drop ∧
          t = respond .dropped none s) ∨
       (s.fx.lock = .free ∧ s.fx.rendering (otherBuf c) = false ∧
          t = respond .ok none { s with fx := publishFlags c s.fx }) ∨
       (s.fx.lock ≠ .free ∧ t = clearOutputs s)) := publish_next c s t h

theorem execAcquire_next (s t : State) (h : execAcquire s = .next t) :
    s.port.ctx = .consumerThread ∧ s.run = false ∧
      ((s.fx.lock = .free ∧
          t = respond (acquireOutcome (acquirePick s.fx)) (some (acquireRsp (acquirePick s.fx)))
            (markRendering (acquirePick s.fx) s)) ∨
       t = clearOutputs s) := by
  unfold execAcquire at h
  obtain ⟨hc, hb⟩ := (serve_next _ _ _ _).1 h
  refine ⟨by simpa [consumerPort] using hc, ?_⟩
  rw [finish_next, whileStopped_ok] at hb
  rcases hb with ⟨hr, hb⟩ | ⟨hb, ht⟩
  · obtain ⟨⟨u, p⟩, hu, ht⟩ := (bind_ok _ _ _).1 hb
    obtain ⟨hf, rfl, rfl⟩ := (acquireFrame_ok _ _ _).1 hu
    cases ht
    refine ⟨hr, .inl ⟨hf, ?_⟩⟩
    rw [markRendering_underLock _ s hf]
  · unfold whileStopped at hb
    cases hr : s.run
    · exact ⟨rfl, .inr ht⟩
    · simp [hr] at hb

theorem execRelease_next (b : BufId) (s t : State) (h : execRelease b s = .next t) :
    s.port.ctx = .consumerThread ∧ s.run = false ∧
      ((s.fx.lock = .free ∧ t = respond .ok none (clearRendering b s)) ∨ t = clearOutputs s) := by
  unfold execRelease at h
  obtain ⟨hc, hb⟩ := (serve_next _ _ _ _).1 h
  refine ⟨by simpa [consumerPort] using hc, ?_⟩
  rw [finish_next, whileStopped_ok] at hb
  rcases hb with ⟨hr, hb⟩ | ⟨hb, ht⟩
  · obtain ⟨u, hu, ht⟩ := (bind_ok _ _ _).1 hb
    obtain ⟨hf, rfl⟩ := (releaseFrame_ok _ _ _).1 hu
    cases ht
    refine ⟨hr, .inl ⟨hf, ?_⟩⟩
    rw [clearRendering_underLock b s hf]
  · unfold whileStopped at hb
    cases hr : s.run
    · exact ⟨rfl, .inr ht⟩
    · simp [hr] at hb

theorem execAudDeq_next (s t : State) (h : execAudDeq s = .next t) :
    s.port.ctx = .consumerThread ∧ (s.audOwner = none ∨ s.audOwner = some .request) ∧
      t = respond (dequeueOutcome s) (some (takeFrame { s with audOwner := some .request }).last)
        (takeFrame { s with audOwner := some .request }) := by
  unfold execAudDeq at h
  obtain ⟨hc, hb⟩ := (serve_next _ _ _ _).1 h
  refine ⟨by simpa [consumerPort] using hc, ?_⟩
  rw [finish_next] at hb
  rcases hb with hb | ⟨hb, _⟩
  · obtain ⟨u, hu, ht⟩ := (bind_ok _ _ _).1 hb
    obtain ⟨ho, rfl⟩ := (dequeue_ok _ _ _).1 hu
    cases ht
    exact ⟨ho, rfl⟩
  · unfold dequeue claimRing at hb
    split at hb
    · simp [bind, Except.bind, pure, Except.pure] at hb
    · split at hb <;> simp [bind, Except.bind, pure, Except.pure] at hb

/-! Turns. -/

theorem settleRequest_next (turn : Turn) (o : Host.Outcome State Fault Refusal) (t : State) :
    settleRequest turn o = .next t ↔
      ∃ u, o = .next u ∧ t = if u.port.outcome.isSome then u else { u with inbox := u.inbox ++ [turn] } := by
  cases o with
  | next u =>
    constructor
    · intro h; cases h; exact ⟨u, rfl, rfl⟩
    · rintro ⟨v, hv, rfl⟩; cases hv; rfl
  | fault r => simp [settleRequest]
  | refused r => simp [settleRequest]

theorem requestTurn_next (ctx : Context) (w : Word) (pl : List (List Byte)) (s t : State)
    (h : requestTurn ctx w pl s = .next t) :
    (∃ i u, decodeReq w = .ok i ∧ exec i (present ctx pl s) = .next u ∧
      t = if u.port.outcome.isSome then u else { u with inbox := u.inbox ++ [.request ctx w pl] }) ∨
    ((∃ e, decodeReq w = .error e) ∧ ctx ≠ .consumerInterrupt ∧ t = badRequest (present ctx pl s)) := by
  unfold requestTurn at h
  split at h
  · rename_i i hi
    obtain ⟨u, hu, ht⟩ := (settleRequest_next _ _ _).1 h
    exact .inl ⟨i, u, hi, hu, ht⟩
  · rename_i e he
    unfold illegalWord at h
    split at h
    · cases h
    · rename_i hc
      cases h
      exact .inr ⟨⟨e, he⟩, by simpa using hc, rfl⟩

theorem serPopTurn_next (s t : State) (h : serPopTurn s = .next t) :
    (s.fifo = [] ∧ t = s) ∨
    ∃ w rest, s.fifo = w :: rest ∧
      ((s.serRem ≠ 0 ∧ t = dataWord w { s with fifo := rest }) ∨
       (s.serRem = 0 ∧ ∃ i, decodeCmd w = .ok i ∧ exec i { s with fifo := rest } = .next t) ∨
       (s.serRem = 0 ∧ (∃ e, decodeCmd w = .error e) ∧ t = reservedCommand { s with fifo := rest })) := by
  unfold serPopTurn at h
  split at h
  · rename_i w rest hf
    refine .inr ⟨w, rest, hf, ?_⟩
    unfold runPopped at h
    simp only at h
    split at h
    · rename_i hr
      cases h
      exact .inl ⟨by simpa using hr, rfl⟩
    · rename_i hr
      have hr : s.serRem = 0 := by simpa using hr
      split at h
      · rename_i i hi; exact .inr (.inl ⟨hr, i, hi, h⟩)
      · rename_i e he; cases h; exact .inr (.inr ⟨hr, ⟨e, he⟩, rfl⟩)
  · rename_i hf
    cases h
    exact .inl ⟨hf, rfl⟩

/-- A word handed to SER always leads to a next state: data, a command or a reserved word. -/
theorem runPopped_completes (w : Word) (s : State) : ∃ t, runPopped w s = .next t := by
  unfold runPopped
  split
  · exact ⟨_, rfl⟩
  · split
    · rename_i i hi
      rcases decodeCmd_ok w i hi with rfl | ⟨vs, hs, n, _, rfl⟩ | ⟨n, _, rfl⟩ <;> exact ⟨_, rfl⟩
    · exact ⟨_, rfl⟩

/-- A pop completes in every state, on an empty FIFO by passing. -/
theorem serPopTurn_completes (s : State) : ∃ t, serPopTurn s = .next t := by
  unfold serPopTurn
  split
  · exact runPopped_completes _ _
  · exact ⟨s, rfl⟩

/-- Everything a step can do: idle, or carry out the next turn. -/
theorem step_next (s t : State) :
    step s = .next t ↔ buildLegal s.cfg = true ∧
      ((nextTurn s = none ∧ t = beginStep s) ∨
       ∃ turn, nextTurn s = some turn ∧ takeTurn turn { beginStep s with inbox := s.inbox.tail } = .next t) := by
  unfold step runTurn
  cases buildLegal s.cfg with
  | false => simp
  | true => cases nextTurn s <;> simp [eq_comm]

/-- A free choice is one of the enabled agent steps, never a request, a tick or a reset. -/
theorem freeTurn_mem (s : State) (turn : Turn) (h : freeTurn s = some turn) : turn ∈ enabledTurns s := by
  unfold freeTurn at h
  split at h
  · cases h
  · rename_i only he; cases h; simp [he]
  · rename_i first more hm he
    cases h
    rw [he]
    have hl : Config.agentChoice s.fresh % (more.length + 1) < (first :: more).length :=
      Nat.mod_lt _ (Nat.succ_pos _)
    rw [List.getD_eq_getElem?_getD, List.getElem?_eq_getElem hl]
    exact List.getElem_mem hl

end Sys2Proof.Machine
end

