-- ==== Sys2Proof/Tests/Slice0.lean ====
section
/-! SUPPORT. The model's own tests, with expected values from 95_test_vectors.md and the rules' examples, and for every
obligation with hypotheses a witness that meets them. -/

namespace Sys2Proof.Tests

/-! One test at a time: each waits for the kernel, and too many waiting at once exhaust the threads. -/

set_option Elab.async false

open Sys2Proof Sys2Proof.Machine

/-! Helpers: small states, and the state an outcome carries. -/

/-- PAL_T of 95_test_vectors.md: entry `i` is `i * 0x0101`. -/
def palT : List (BitVec 15) := (List.range 64).map (fun i => BitVec.ofNat 15 (i * 0x0101))

def cfgA : Config := { Config.default with palette := palT }

def cfgB : Config := { cfgA with pixelVariant := .b }

def s0 : State := State.resetWith cfgA

def from_ (ctx : Context) (s : State) : State := present ctx [] s

def isNext (o : Host.Outcome State Fault Refusal) : Bool :=
  match o with
  | .next _ => true
  | _ => false

def after (o : Host.Outcome State Fault Refusal) : State :=
  match o with
  | .next t => t
  | _ => s0

def refusal (o : Host.Outcome State Fault Refusal) : Option Refusal :=
  match o with
  | .refused r => some r
  | _ => none

theorem next_after {o : Host.Outcome State Fault Refusal} (h : isNext o = true) : o = .next (after o) := by
  cases o <;> simp_all [isNext, after]

/-- The step of `s` with one turn offered. -/
def offered (s : State) (turn : Turn) : State := { s with inbox := [turn] }

/-- VOUT running: a channel busy on the blanking table. -/
def busyChannel : Channel := { src := 0x0000, len := 8, rptr := 0x0000, rem := 8, busy := true, done := false }

def idleChannel : Channel := { src := 0x0100, len := 8, rptr := 0, rem := 0, busy := false, done := false }

def running : State := { s0 with run := true, v := 2, ch0 := busyChannel, ch1 := idleChannel }

/-- VOUT running, slot 0's completion pending and slot 1 streaming. -/
def completed : State :=
  { running with ch0 := { idleChannel with done := true }, ch1 := { busyChannel with src := 0x0100, rptr := 0x0100 },
                 lastDone := .pong }

/-! WellFormed refuses an ill-formed term of every check. -/

theorem test_illFormed_lineBegin : (Instr.lineBegin 240).wellFormed = false := by decide
theorem test_illFormed_lineEnd : (Instr.lineEnd 511).wellFormed = false := by decide
theorem test_illFormed_ctrl : (Instr.ctrl true true 0).wellFormed = false := by decide
theorem test_illFormed_pixels : (Instr.pixels 0).wellFormed = false := by decide

/-! Decoding: words from vectors T1 and T2, bit by bit from R91 to R96 and R110 to R113. -/

theorem test_decode_lineBegin : decodeReq 0b00000001_000000000000000_011101111 = .ok (.lineBegin 239) := by decide
theorem test_decode_lineEnd : decodeReq 0b00000010_000000000000000_000010001 = .ok (.lineEnd 17) := by decide
theorem test_decode_publish : decodeReq 0b00000011_00000000000000000000000_1 = .ok (.publish .b1) := by decide
theorem test_decode_frameComplete : decodeReq 0b00000100_000000000000000000000000 = .ok .frameComplete := by decide
theorem test_decode_audCap : decodeReq 0b00010000_000000000000000000000000 = .ok .audCap := by decide
theorem test_decode_audEnq : decodeReq 0b00010001_00000000_1111111111111110 = .ok (.audEnq 65534) := by decide
theorem test_decode_setScale : decodeReq 0b00100000_00000000000000000000000_1 = .ok (.setScale .eightToSeven) := by decide
theorem test_decode_acquire : decodeReq 0b01000000_000000000000000000000000 = .ok .acquire := by decide
theorem test_decode_release : decodeReq 0b01000001_00000000000000000000000_0 = .ok (.release .b0) := by decide
theorem test_decode_audDeq : decodeReq 0b01010000_000000000000000000000000 = .ok .audDeq := by decide
theorem test_decode_start : decodeReq 0b01110000_000000000000000000000000 = .ok .start := by decide
theorem test_decode_nop : decodeCmd 0b0000_0_0_00000000000000_000000000000 = .ok .nop := by decide
theorem test_decode_ctrl : decodeCmd 0b0001_1_0_00000000000000_000001100000 = .ok (.ctrl true false 96) := by decide
theorem test_decode_pixels : decodeCmd 0b0010_0_0_00000000000000_000101000000 = .ok (.pixels 320) := by decide

theorem test_decode_illegalRequests :
    [0x010000F0, 0x010001FF, 0x01000200, 0x01800000, 0x02000100, 0x03000002, 0x04000001, 0x10000001, 0x11010000,
      0x20000002, 0x40000001, 0x41000003, 0x50800000, 0x70000001, 0x00000000, 0x05000000, 0x12000000, 0x21000000,
      0x30000000, 0x42000000, 0x60000000, 0x80000000, 0xFFFFFFFF].all
      (fun w => (decodeReq w).toOption.isNone) = true := by decide

theorem test_decode_reservedCommands :
    [0x10000000, 0x20000000, 0x00000001, 0x08000000, 0x10001010, 0x12000010, 0x24000010, 0x28000140, 0x30000001,
      0xF0000000, 0xFFFFFFFF].all (fun w => (decodeCmd w).toOption.isNone) = true := by decide

theorem test_text : (Instr.ctrl true false 96).text = "CTRL 1 0 96" := by decide +kernel

/-! FrameExchange (examples of R230 to R236, scenario R243). -/

theorem test_lineBegin_opens :
    let t := after (exec (.lineBegin 17) (from_ .producer s0))
    t.prodLine = 17 ∧ t.prodOpen = true := by decide +kernel

theorem test_lineEnd_stores :
    let s := present .producer [0x2C :: 0x01 :: List.replicate 318 0x3F] { s0 with prodOpen := true }
    let t := after (exec (.lineEnd 0) s)
    Memory.read? t.fb 76800 = some 0x2C ∧ Memory.read? t.fb 76801 = some 0x01 ∧ Memory.read? t.fb 77119 = some 0x3F ∧
      Memory.read? t.fb 77120 = none ∧ Memory.read? t.fb 0 = none ∧ t.prodOpen = false := by decide +kernel

theorem test_publish_flags : csr (after (exec (.publish .b0) (from_ .producer s0))) 0 = some 0x11 := by decide +kernel

theorem test_publish_drop :
    let s := from_ .producer { s0 with fx := fxState true false true false .b1 }
    (after (exec (.publish .b1) s)).fx = s.fx ∧ (after (exec (.publish .b1) s)).port.outcome = some .dropped := by
  decide +kernel

theorem test_frameComplete_flags : csr (after (exec .frameComplete (from_ .producer s0))) 0 = some 0x02 := by
  decide +kernel

theorem test_acquire_marks :
    let t := after (exec .acquire (from_ .consumerThread { s0 with fx := fxState true false false false .b1 }))
    t.port.rsp = some 0x80000000 ∧ csr t 0 = some 0x15 := by decide +kernel

theorem test_acquire_twice :
    let t := after (exec .acquire (from_ .consumerThread { s0 with fx := fxState true false true false .b1 }))
    t.port.rsp = some 0 ∧ t.port.outcome = some .none ∧ csr t 0 = some 0x15 := by decide +kernel

theorem test_release_clears :
    let t := after (exec (.release .b0) (from_ .consumerThread { s0 with fx := fxState true false true false .b1 }))
    csr t 0 = some 0x11 := by decide +kernel

/-! Audio (examples of R251 to R255). -/

theorem test_mix_example : mix cfgA 10 20 30 40 50 = 6240 ∧ sampleFrame 6240 = 0x18601860 := by decide +kernel

theorem test_mix_clamps : mix cfgA 255 255 255 255 255 = 32767 ∧ sampleFrame 32767 = 0x7FFF7FFF := by decide +kernel

theorem test_audCap_empty :
    (after (exec .audCap (from_ .producer { s0 with wr := 5, rd := 5 }))).port.rsp = some 1023 := by decide +kernel

theorem test_audCap_full :
    (after (exec .audCap (from_ .producer { s0 with wr := 4, rd := 5 }))).port.rsp = some 0 := by decide +kernel

theorem test_audEnq_wraps :
    let s := present .producer [[10, 1, 1], [20, 1, 1], [30, 1, 1], [40, 1, 1], [50, 1, 1]]
      { s0 with cfg := { cfgA with audioCap := 8 }, wr := 6, rd := 1 }
    let t := after (exec (.audEnq 3) s)
    t.wr = 0 ∧ t.port.outcome = some .dropped ∧ Memory.read? t.ring 6 = some 0x18601860 ∧
      Memory.read? t.ring 7 = some 0x00F000F0 ∧ Memory.read? t.ring 0 = none := by decide +kernel

theorem test_audDeq_returns :
    let t := after (exec .audDeq (from_ .consumerThread { s0 with ring := [(3, 0x18601860)], rd := 3, wr := 4 }))
    t.port.rsp = some 0x18601860 ∧ t.rd = 4 ∧ t.last = 0x18601860 ∧ t.audTrace = [0x18601860] := by decide +kernel

theorem test_audDeq_repeats :
    let t := after (exec .audDeq (from_ .consumerThread { s0 with rd := 4, wr := 4, last := 0x18601860 }))
    t.port.rsp = some 0x18601860 ∧ t.rd = 4 ∧ t.port.outcome = some .underflow := by decide +kernel

/-- Vector T12: the second tick finds the ring empty. -/
theorem test_audIsr_repeats :
    let t := after (takeTurn .audIsr { s0 with audTick := true, rd := 4, wr := 4, last := 0x18601860 })
    t.audTick = false ∧ t.audTrace = [0x18601860] ∧ t.rd = 4 ∧ t.port.outcome = some .underflow := by decide +kernel

/-! The encoder (vectors T3, T4). -/

theorem test_setScale_pending :
    let t := after (exec (.setScale .eightToSeven) (from_ .consumerThread { s0 with v := 300 }))
    t.scalePending = .eightToSeven ∧ t.scaleActive = .oneToOne := by decide +kernel

theorem test_encA_row :
    let out := encA ((List.range 320).map (fun x => BitVec.ofNat 8 (x + 239)))
    out.take 2 = [0xEFEF, 0xF0F0] ∧ out.getD 319 0 = 0x2E2E ∧ (pack out).getD 8 0 = 0x0000FFFF := by decide +kernel

theorem test_encB_row :
    let src := (List.range 320).map (fun x => BitVec.ofNat 8 (7 * x + 3))
    [31, 32, 41, 287, 288].map ((encB cfgB .oneToOne src).getD · 0) = [0, 0x0303, 0x0202, 0x3C3C, 0] ∧
      [15, 16, 17, 18, 25, 27, 303, 304].map ((encB cfgB .eightToSeven src).getD · 0) =
        [0, 0x0303, 0x0303, 0x0A0A, 0x3B3B, 0x0202, 0x3C3C, 0] := by decide +kernel

/-! The tables and DMASPACE (vector T2). -/

theorem test_tables :
    tableWords cfgA .blank = [0x1C000010, 0x18000060, 0x1C000030, 0x1C000280, 0, 0, 0, 0] ∧
    tableWords cfgA .vsync = [0x14000010, 0x10000060, 0x14000030, 0x14000280, 0, 0, 0, 0] ∧
    tableWords cfgA .active = [0x1C000010, 0x18000060, 0x1C000030, 0, 0, 0, 0, 0x20000140] := by decide +kernel

theorem test_dmaRead :
    [0x0203, 0x0207, 0x0101].map (dmaRead s0) = [some 0, some 0x20000140, some 0x10000060] ∧
      [0x0008, 0x0108, 0x0208, 0x0FFF, 0x10A8, 0x14A8, 0xFFFF].map (fun a => (dmaRead s0 a).isNone) =
        [true, true, true, true, true, true, true] := by decide +kernel

/-! The serializer (examples of R206, R208, R209, R212, R213). -/

theorem test_nop_keeps_out : (after (exec .nop s0)).out = [] := by decide +kernel

theorem test_ctrl_run :
    (after (exec (.ctrl true true 16) s0)).out =
      List.replicate 16 { period := .ctrl true true, wire := { sym0 := 0x2AB, sym1 := 0x354, sym2 := 0x354 } } := by
  decide +kernel

theorem test_pixels_owed : (after (exec (.pixels 320) s0)).serRem = 320 := by decide +kernel

/-- Vector T9, Trace A: the logical records and, with the other lane assignment or order excluded, the wires. -/
theorem test_dataWord :
    let t := dataWord 0x01012C2C { s0 with serRem := 4 }
    t.serRem = 2 ∧ t.out.map (fun r => r.period) =
      [.video 0x20 0x60 0x00, .video 0x20 0x60 0x00, .video 0x00 0x00 0x40, .video 0x00 0x00 0x40] ∧
    t.out.map (fun r => r.wire) =
      [{ sym0 := 0x100, sym1 := 0x120, sym2 := 0x1E0 }, { sym0 := 0x3FF, sym1 := 0x3DF, sym2 := 0x31F },
        { sym0 := 0x1C0, sym1 := 0x100, sym2 := 0x100 }, { sym0 := 0x33F, sym1 := 0x3FF, sym2 := 0x3FF }] := by
  decide +kernel

theorem test_tmdsStage1 :
    ([0x00, 0xFF, 0x55, 0xAA, 0x10, 0xF0] : List Byte).map tmdsStage1 =
      [0x100, 0x0FF, 0x133, 0x0CC, 0x1F0, 0x0FA] := by decide +kernel

theorem test_tmdsStage2 :
    ([0x00, 0xFF, 0x01, 0x10, 0xAA] : List Byte).map (fun d => tmds8 .standard d 0) =
      [{ sym := 0x100, cnt := -8 }, { sym := 0x200, cnt := -8 }, { sym := 0x1FF, cnt := 8 }, { sym := 0x1F0, cnt := 0 },
        { sym := 0x233, cnt := 0 }] ∧
    [-8, -2, 4].map (tmds8 .standard 0xFF) =
      [{ sym := 0x0FF, cnt := -2 }, { sym := 0x0FF, cnt := 4 }, { sym := 0x200, cnt := -4 }] := by decide +kernel

/-! START and the channels (R162, R181 to R183, R186). -/

theorem test_start_posts :
    let t := after (exec .start (from_ .consumerThread s0))
    t.run = true ∧ t.v = 2 ∧ t.ch0 = { busyChannel with src := 0 } ∧ t.ch1 = { idleChannel with src := 0 } ∧
      t.lastDone = .pong ∧ t.port.outcome = some .ok := by decide +kernel

theorem test_start_twice : (after (exec .start (from_ .consumerThread running))).port.reqErr = true := by decide +kernel

theorem test_dmaXfer_pushes :
    let t := after (takeTurn (.dmaXfer .ping) running)
    t.fifo = [0x1C000010] ∧ t.ch0.rptr = 1 ∧ t.ch0.rem = 7 := by decide +kernel

theorem test_handler_posts :
    let t := after (takeTurn .handler completed)
    t.lastDone = .ping ∧ t.ch0.done = false ∧ t.ch0.src = 0 ∧ t.ch0.len = 8 ∧ t.v = 3 ∧ t.mDesc = false := by
  decide +kernel

theorem test_handler_late :
    (after (takeTurn .handler { completed with ch0 := { busyChannel with done := true } })).mDesc = true := by
  decide +kernel

/-- R255, R259 and R270: two dequeues in one advance, of a ring that holds one frame: Ok, and then Underflow repeats it. -/
theorem test_auxAudio_repeats :
    let t := after (takeTurn .handler
      { completed with cfg := { cfgA with audioSink := .aux, auxPerLine := 2 }, ring := [(0, 0x00400040)], wr := 1 })
    t.v = 3 ∧ t.rd = 1 ∧ t.audTrace = [0x00400040, 0x00400040] ∧ t.port.inner = [.ok, .underflow] ∧
      t.port.outcome = none := by decide +kernel

/-- R161 and vector T14: the first active line with a frame ready (FX_FLAGS 0x15, DISP_VALID and SCALE_ACTIVE set), and with
none; the last active line releases. -/
theorem test_frame_boundary :
    let first := { completed with v := 45, phase := .pix, scalePending := .eightToSeven }
    let shown := after (takeTurn .handler { first with fx := fxState true false false false .b1 })
    let none_ := after (takeTurn .handler first)
    let last := after (takeTurn .handler
      { first with v := 524, fx := fxState true false true false .b1, dispValid := true })
    csr shown 0 = some 0x15 ∧ csr shown 2 = some 0x69 ∧ shown.port.inner = [.ok] ∧
      csr none_ 0 = some 0x10 ∧ csr none_ 2 = some 0x61 ∧ none_.port.inner = [.none] ∧
      csr last 0 = some 0x11 ∧ last.v = 0 ∧ last.dispValid = true ∧ last.port.inner = [.ok] := by decide +kernel

/-- R159: an active line of a one-phase build is one item of 168 words, TBL_ACTIVE first. -/
theorem test_onePhase_item :
    let t := after (takeTurn .handler { completed with cfg := { cfgB with twoPhase := false, marginSample := 7 }, v := 45 })
    t.ch0.src = 0x1000 ∧ t.ch0.len = 168 ∧ t.v = 46 ∧ lineBufWord t 0x1000 = 0x1C000010 ∧
      lineBufWord t 0x1007 = 0x20000140 ∧ lineBufWord t 0x1008 = 0x00070007 ∧ lineBufWord t 0x10A7 = 0x00070007 ∧
      Memory.read? t.lineBuf 0x10A8 = none := by decide +kernel

/-! Fetching. -/

theorem test_placed_start :
    let t := after (step (State.reset.withFetchWord 32 0x70000000))
    t.run = true ∧ t.v = 2 := by decide +kernel

theorem test_placed_ctrl : (after (step (State.reset.withFetchWord 32 0x18000060))).out.length = 96 := by decide +kernel

/-! Witnesses: concrete states and operands that meet all the hypotheses of a statement, clause by clause. -/

def posted (ch : Slot) (s : State) : State :=
  match post ch s with
  | .ok t => t
  | .error _ => s0

def isPosted (ch : Slot) (s : State) : Bool :=
  match post ch s with
  | .ok _ => true
  | .error _ => false

theorem post_posted {ch : Slot} {s : State} (h : isPosted ch s = true) : post ch s = .ok (posted ch s) := by
  unfold isPosted at h
  unfold posted
  split <;> simp_all

/-- A step from a state with one turn offered. -/
theorem stepped {s : State} (h : isNext (step s) = true) : ∃ s', step s = .next s' := ⟨_, next_after h⟩

def lineEndTurn : Turn := .request .producer 0x02000000 [List.replicate 320 0x2C]

/-- Line 0 is open in the write target while the other buffer is rendering. -/
def rendering : State := { s0 with fx := fxState true false true false .b1, prodOpen := true }

theorem witness_DecodeOfEncodeIsIdentity :
    [Instr.lineBegin 0, .lineEnd 239, .ctrl false true 1, .pixels 4095, .nop, .start].all Instr.wellFormed = true := by
  decide

theorem witness_EncodeOfDecodeIsIdentity :
    decodeAt .req 0x010000EF = .ok (.lineBegin 239) ∧ decodeAt .cmd 0x1C000FFF = .ok (.ctrl true true 4095) := by decide

theorem witness_OpcodeRowsAreDisjoint :
    opTable[0] ∈ opTable ∧ opTable[0].interface = opTable[0].interface ∧ opTable[0].admits 0x010001FF = true := by decide

theorem witness_IllegalRequestOnlyPulsesReqErr :
    let s := fun w => offered s0 (.request .producer w [])
    buildLegal (s 0x05000000).cfg = true ∧ Context.producer ≠ .consumerInterrupt ∧
      ([0x05000000, 0x03000002, 0x00000000].all
        (fun w => opTable.all (fun r => r.interface == .cmd || !r.admits w))) = true ∧
      (0x010000F0#32).extractLsb' 24 8 = 0x01#8 ∧ 240 ≤ ((0x010000F0#32).extractLsb' 0 9).toNat ∧
      (0x020001FF#32).extractLsb' 24 8 = 0x02#8 ∧ 240 ≤ ((0x020001FF#32).extractLsb' 0 9).toNat := by decide +kernel

theorem witness_ReservedCommandSetsMCmd :
    MarksClear s0 ∧ s0.serRem = 0 ∧ ({ s0 with fifo := [0x30000000] } : State).fifo = 0x30000000 :: [] ∧
      3 ≤ ((0x30000000#32).extractLsb' 28 4).toNat ∧ (0x00000001#32).extractLsb' 0 28 ≠ 0 ∧
      (0x10000000#32).extractLsb' 28 4 = 1#4 ∧ (0x10000000#32).extractLsb' 0 12 = 0 ∧
      (0x10001010#32).extractLsb' 12 14 ≠ 0 ∧ (0x24000010#32).extractLsb' 28 4 = 2#4 ∧
      (0x24000010#32).extractLsb' 12 16 ≠ 0 := by decide +kernel

theorem witness_StepRunsDecodedRequest :
    buildLegal (offered s0 (.request .consumerThread 0x70000000 [])).cfg = true ∧
      (offered s0 (.request .consumerThread 0x70000000 [])).inbox = .request .consumerThread 0x70000000 [] :: [] ∧
      decodeReq 0x70000000 = .ok .start := by decide +kernel

theorem witness_StepRunsPoppedCommand :
    let s := offered { s0 with fifo := [0x18000060] } .serPop
    buildLegal s.cfg = true ∧ s.inbox = .serPop :: [] ∧ s.fifo = 0x18000060 :: [] ∧ s.serRem = 0 ∧
      decodeCmd 0x18000060 = .ok (.ctrl true false 96) := by decide +kernel

theorem witness_PlacedOperationIsRunNext :
    buildLegal s0.cfg = true ∧ (Instr.pixels 2).wellFormed = true ∧ Instr.pixels 2 ≠ .pixels 1 ∧
      (Instr.pixels 2).interface = .cmd ∧ (Instr.setScale .eightToSeven).wellFormed = true ∧
      Instr.setScale .eightToSeven ≠ .pixels 1 ∧ (Instr.setScale .eightToSeven).interface = .req := by decide +kernel

theorem witness_RequestsOutOfTheirPlaceAreRefused :
    refusal (exec (.lineBegin 0) (from_ .consumerThread s0)) = some (.wrongPort .consumerThread) ∧
      refusal (exec (.setScale .oneToOne) (from_ .consumerInterrupt s0)) = some (.wrongPort .consumerInterrupt) ∧
      refusal (exec .start (from_ .producer s0)) = some (.wrongPort .producer) ∧
      refusal (exec .acquire (from_ .consumerThread running)) = some .sequencerOwnsFrames ∧
      refusal (exec (.release .b1) (from_ .consumerThread running)) = some .sequencerOwnsFrames := by decide +kernel

theorem witness_HeldMutexMakesRequestWait :
    let s := offered (setLock .consumer s0) (.request .producer 0x04000000 [])
    let u := offered (setLock .producer s0) (.request .consumerThread 0x40000000 [])
    buildLegal s.cfg = true ∧ s.inbox = .request .producer 0x04000000 [] :: [] ∧
      decodeReq 0x04000000 = .ok .frameComplete ∧ s.fx.lock ≠ .free ∧
      buildLegal u.cfg = true ∧ decodeReq 0x40000000 = .ok .acquire ∧ u.fx.lock ≠ .free ∧ u.run = false := by
  decide +kernel

theorem witness_LineBeginOpensLine :
    (from_ .producer s0).port.ctx = .producer ∧ (from_ .producer s0).fx.lock = .free ∧ (239#9).toNat < 240 := by
  decide +kernel

theorem witness_LineEndStoresRow :
    let s := present .producer [List.replicate 320 0x2C] { s0 with prodOpen := true, prodLine := 239 }
    s.port.ctx = .producer ∧ s.fx.lock = .free ∧ (239#9).toNat < 240 ∧ s.prodOpen = true ∧
      s.prodLine = (239#9).setWidth 8 ∧ s.port.payload = [List.replicate 320 0x2C] ∧
      (List.replicate 320 (0x2C : Byte)).length = 320 ∧ s.fx.rendering s.fx.wt = false := by decide +kernel

theorem witness_RejectedRequestsChangeNothing :
    let s := from_ .producer s0
    let open_ := from_ .producer { s0 with prodOpen := true, prodLine := 16 }
    s.port.ctx = .producer ∧ 240 ≤ (240#9).toNat ∧ s.fx.lock = .free ∧ s.prodOpen = false ∧
      open_.fx.lock = .free ∧ open_.prodLine ≠ (17#9).setWidth 8 ∧
      (from_ .consumerThread running).port.ctx = .consumerThread ∧ (from_ .consumerThread running).run = true := by
  decide +kernel

theorem witness_AcceptedPublishHandsFrameOver :
    let s := from_ .producer s0
    s.port.ctx = .producer ∧ s.fx.lock = .free ∧ s.fx.rendering (otherBuf .b1) = false ∧ .b1 = s.fx.wt := by
  decide +kernel

theorem witness_PublishOfBusyBufferIsDropped :
    let s := from_ .producer rendering
    let hold := from_ .producer { rendering with cfg := { cfgA with publishBusyPolicy := .hold } }
    s.port.ctx = .producer ∧ s.fx.lock = .free ∧ s.fx.rendering (otherBuf .b1) = true ∧
      s.cfg.publishBusyPolicy = .drop ∧ hold.cfg.publishBusyPolicy = .hold ∧
      hold.fx.rendering (otherBuf .b1) = true := by decide +kernel

theorem witness_AcquireReturnsReadyBuffer :
    let s := from_ .consumerThread { s0 with fx := fxState true false false false .b1 }
    let odd := from_ .consumerThread { s0 with fx := fxState true false false false .b0 }
    s.port.ctx = .consumerThread ∧ s.run = false ∧ s.fx.lock = .free ∧ s.fx.ready .b0 = true ∧
      s.fx.rendering .b0 = false ∧ .b0 = otherBuf s.fx.wt ∧
      odd.fx.ready .b0 = true ∧ odd.fx.rendering .b0 = false ∧ odd.fx.ready (otherBuf odd.fx.wt) = false ∧
      s0.fx.ready .b0 = false ∧ s0.fx.ready .b1 = false := by decide +kernel

theorem witness_ReleaseClearsRendering :
    let s := from_ .consumerThread rendering
    s.port.ctx = .consumerThread ∧ s.run = false ∧ s.fx.lock = .free := by decide +kernel

theorem witness_AcquireFindsLatestPublish :
    let s := from_ .producer s0
    s.port.ctx = .producer ∧ s.fx.lock = .free ∧ s.fx.rendering (otherBuf .b0) = false ∧
      exec (.publish .b0) s = .next (after (exec (.publish .b0) s)) :=
  ⟨by decide +kernel, by decide +kernel, by decide +kernel, next_after (by decide +kernel)⟩

theorem witness_StepKeepsFrameExchangeInvariants :
    let s := offered rendering (.request .producer 0x04000000 [])
    (∃ s', step s = .next s') ∧ FxInv s.fx ∧ s.fx.lock = .free ∧ s.fx ∈ fxFive :=
  ⟨stepped (by decide +kernel), by decide +kernel⟩

theorem witness_RenderedBufferIsNeverWritten :
    let s := offered rendering lineEndTurn
    FxInv s.fx ∧ (∃ s', step s = .next s') ∧ nextTurn s ≠ some .reset ∧ s.fx.rendering .b0 = true ∧ s.race = [] :=
  ⟨by decide +kernel, stepped (by decide +kernel), by decide +kernel⟩

theorem witness_FramebufferChangesOnlyByLineEnd :
    let s := offered rendering lineEndTurn
    let u := offered rendering (.request .producer 0x01000000 [])
    nextTurn s ≠ some .reset ∧ (∃ s', step s = .next s') ∧ nextTurn u = some (.request .producer 0x01000000 []) ∧
      decodeReq 0x01000000 = .ok (.lineBegin 0) ∧ (∃ u', step u = .next u') :=
  ⟨by decide +kernel, stepped (by decide +kernel), by decide +kernel, by decide, stepped (by decide +kernel)⟩

theorem witness_SetScaleOnlySetsPending :
    (from_ .producer s0).port.ctx = .producer ∧ (from_ .consumerThread s0).port.ctx = .consumerThread := by
  decide +kernel

theorem witness_ScaleNeverChangesMidFrame :
    let s := offered { completed with v := 45, phase := .pix, scalePending := .eightToSeven } .handler
    let ready := { s with fx := fxState true false false false .b1 }
    let last := { s with v := 524, fx := fxState true false true false .b1, dispValid := true }
    (s.run = true ∧ nextTurn s ≠ some .reset ∧ step s = .next (after (step s)) ∧
      (after (step s)).scaleActive ≠ s.scaleActive) ∧
    (post .ping { s with phase := .cmd } = .ok (posted .ping { s with phase := .cmd }) ∧
      ¬ShowsLine { s with phase := .cmd }) ∧
    (post .ping ready = .ok (posted .ping ready) ∧ ShowsLine ready ∧ ready.v = tBpEnd ready.cfg ∧
      ready.v + 1 ≠ vTotal ready.cfg ∧ ready.fx.ready .b0 = true ∧ ready.fx.rendering .b0 = false ∧
      .b0 = otherBuf ready.fx.wt) ∧
    (post .ping s = .ok (posted .ping s) ∧ ShowsLine s ∧ s.fx.ready .b0 = false ∧ s.fx.ready .b1 = false) ∧
    (post .ping last = .ok (posted .ping last) ∧ ShowsLine last ∧ last.v ≠ tBpEnd last.cfg ∧
      last.v + 1 = vTotal last.cfg ∧ last.dispValid = true) ∧
    (post .ping { last with dispValid := false } = .ok (posted .ping { last with dispValid := false }) ∧
      ShowsLine { last with dispValid := false }) :=
  ⟨⟨by decide +kernel, by decide +kernel, next_after (by decide +kernel), by decide +kernel⟩,
    ⟨post_posted (by decide +kernel), by decide +kernel⟩, ⟨post_posted (by decide +kernel), by decide +kernel⟩,
    ⟨post_posted (by decide +kernel), by decide +kernel⟩, ⟨post_posted (by decide +kernel), by decide +kernel⟩,
    ⟨post_posted (by decide +kernel), by decide +kernel⟩⟩

theorem witness_AudCapAnswersFreeSlots :
    (from_ .producer s0).port.ctx = .producer ∧ 2 ≤ ({ cfgA with audioCap := 2 } : Config).audioCap := by
  decide +kernel

theorem witness_AudEnqFillsRing :
    let s := present .producer [[10], [20]] { s0 with cfg := { cfgA with audioCap := 2 }, wr := 1, rd := 0 }
    s.port.ctx = .producer ∧ 2 ≤ s.cfg.audioCap ∧ s.wr < s.cfg.audioCap ∧ s.rd < s.cfg.audioCap ∧
      s.port.payload[1]? = some [20] := by decide +kernel

theorem witness_AudDeqReturnsFrame :
    let s := from_ .consumerThread { s0 with wr := 1 }
    let taken := from_ .consumerThread { s0 with audOwner := some .timer }
    s.port.ctx = .consumerThread ∧ MayDequeue .request s ∧ s.rd ≠ s.wr ∧
      (from_ .consumerThread s0).rd = (from_ .consumerThread s0).wr ∧ MayDequeue .request (from_ .consumerThread s0) ∧
      taken.audOwner = some .timer ∧ AudioConsumer.timer ≠ .request := by decide +kernel

theorem witness_MixIsClampedAndFramed :
    audioLegal cfgA = true ∧ audioLegal { cfgA with sMin := 0, sMax := 0 } = true := by decide +kernel

theorem witness_HeldRingSlotsAreWritten :
    let s := offered { s0 with cfg := { cfgA with audioCap := 2 }, ring := [(1, 5)], wr := 0, rd := 1 }
      (.request .consumerThread 0x50000000 [])
    RangeInv s ∧ RingInv s ∧ ringHeld s = 1 ∧ (∃ s', step s = .next s') :=
  ⟨by decide +kernel, by decide +kernel, by decide +kernel, stepped (by decide +kernel)⟩

theorem witness_AudioInterruptYieldsToDma :
    let due := { s0 with audTick := true, wr := 1 }
    let stopped := { due with ch0 := { idleChannel with done := true } }
    let other := offered due .serPop
    ((∃ s', step other = .next s') ∧ nextTurn other = some .serPop) ∧
      s0.cfg.audioSink = .timer ∧ ({ cfgA with audioSink := .aux } : Config).audioSink = .aux ∧
      s0.audTick = false ∧ completed.run = true ∧ irqDma completed = true ∧
      due.cfg.audioSink = .timer ∧ due.audTick = true ∧ irqDma due = false ∧ MayDequeue .timer due ∧ due.rd ≠ due.wr ∧
      stopped.audTick = true ∧ stopped.run = false ∧ irqDma stopped = true ∧ MayDequeue .timer stopped ∧
      ({ due with wr := 0 } : State).rd = ({ due with wr := 0 } : State).wr :=
  ⟨⟨stepped (by decide +kernel), by decide +kernel⟩, by decide +kernel⟩

theorem witness_VariantADoublesBytes :
    cfgA.pixelVariant = .a ∧ (List.replicate 320 (0x2C : Byte)).length = 320 ∧ Config.default.pixelVariant = .a := by
  decide +kernel

theorem witness_VariantBPlacesLogicalLine : 0 < 320 ∧ 31 < 320 ∧ 32 < 320 ∧ 287 < 288 ∧ 319 < 320 := by decide

theorem witness_VariantBReadsOnlyLogicalLine :
    encoderLegal { cfgB with srcX0 := 64 } = true ∧
      (∀ i, i < 256 → (List.replicate 64 (1 : Byte) ++ List.replicate 256 7).getD (64 + i) 0 =
        (List.replicate 64 (2 : Byte) ++ List.replicate 256 7).getD (64 + i) 0) := by decide +kernel

theorem witness_LinePacksInto160Words : (List.replicate 320 (0x2C2C : PixelUnit)).length = 320 ∧ 159 < 160 := by
  decide +kernel

theorem witness_LineShowsDisplayedRow :
    let s := { s0 with v := 45, dispValid := true }
    let last := { s0 with v := 524 }
    buildLegal s.cfg = true ∧ 319 < 320 ∧ tBpEnd s.cfg ≤ s.v ∧ s.v < vTotal s.cfg ∧ s.race = [] ∧ s.dispValid = true ∧
      s.cfg.pixelVariant = .a ∧ tBpEnd last.cfg ≤ last.v ∧ last.v < vTotal last.cfg ∧ last.dispValid = false ∧
      buildLegal cfgB = true ∧ ({ s with cfg := cfgB } : State).cfg.pixelVariant = .b ∧
      ({ s with cfg := cfgB } : State).dispValid = true := by
  decide +kernel

theorem witness_NopOnlyPopsFifo :
    MarksClear s0 ∧ s0.serRem = 0 ∧ ({ s0 with fifo := [0, 7] } : State).fifo = 0 :: [7] := by decide +kernel

theorem witness_CtrlEmitsControlRun :
    (1#12) ≠ 0 ∧ (4095#12) ≠ 0 ∧ MarksClear s0 ∧ s0.cfg.lineCode = .standard := by decide +kernel

theorem witness_PixelsSetsUnitsOwed : (1#12) ≠ 0 ∧ (4095#12) ≠ 0 ∧ MarksClear s0 := by decide +kernel

theorem witness_DataWordEmitsOwedUnits :
    let s := { s0 with serRem := 1, fifo := [0x01012C2C] }
    MarksClear s ∧ s.serRem ≠ 0 ∧ s.fifo = 0x01012C2C :: [] ∧ ({ s with serRem := 2 } : State).serRem ≠ 1 := by
  decide +kernel

theorem witness_TmdsTracksDisparity : LaneBalanced (-8) ∧ LaneBalanced 0 ∧ LaneBalanced 8 := by decide

theorem witness_StepKeepsLanesBalanced :
    let s := offered { s0 with cnt := { lane0 := 8, lane1 := -8, lane2 := 0 }, serRem := 2, fifo := [0x01012C2C] } .serPop
    s.cfg.lineCode = .standard ∧ DisparityInv s ∧ (∃ s', step s = .next s') :=
  ⟨by decide +kernel, by decide +kernel, stepped (by decide +kernel)⟩

theorem witness_BlankingTableIsOneLine :
    let es := (tableWords s0.cfg .vsync).map (fun w => { running with fifo := [w, 7] })
    buildLegal s0.cfg = true ∧ MarksClear s0 ∧ s0.serRem = 0 ∧ TableId.vsync ≠ .active ∧
      HeadWords es (tableWords s0.cfg .vsync) ∧ (∀ e ∈ es, FifoInv e) := by decide +kernel

theorem witness_ActiveLineIsOneLine :
    let units : List PixelUnit := List.replicate 320 0x2C2C
    let es := (tableWords s0.cfg .active ++ pack units).map (fun w => { running with fifo := [w] })
    buildLegal s0.cfg = true ∧ MarksClear s0 ∧ s0.serRem = 0 ∧ units.length = 320 ∧
      HeadWords es (tableWords s0.cfg .active ++ pack units) ∧ (∀ e ∈ es, FifoInv e) := by decide +kernel

theorem witness_StartPostsTwoItemsAndTriggers :
    let s := from_ .consumerThread
      { s0 with cfg := { cfgA with vFrontPorch := 0, vBackPorch := 0, audioSink := .aux, auxPerLine := 1 } }
    buildLegal s.cfg = true ∧ s.port.ctx = .consumerThread ∧ s.run = false ∧ s.ch0.busy = false ∧ s.ch1.busy = false ∧
      2 ≤ tBpEnd s.cfg ∧ MayAdvance s ∧ s.cfg.audioSink = .aux ∧ s.wr < s.cfg.audioCap ∧ s.rd < s.cfg.audioCap ∧
      MayAdvance s0 ∧ s0.cfg.audioSink = .timer := by decide +kernel

theorem witness_PostAdvancesOnlyWholeLines :
    let last := { s0 with v := 524, phase := .pix }
    let aux := { s0 with cfg := { cfgA with audioSink := .aux, auxPerLine := 2, audioCap := 2 }, wr := 1 }
    (post .ping last = .ok (posted .ping last) ∧ last.cfg.audioSink = .timer) ∧
      (post .ping { s0 with v := 45 } = .ok (posted .ping { s0 with v := 45 }) ∧ tBpEnd s0.cfg ≤ 45 ∧
        s0.cfg.twoPhase = true ∧ s0.phase = .cmd) ∧
      (post .pong aux = .ok (posted .pong aux) ∧ aux.cfg.audioSink = .aux ∧ aux.wr < aux.cfg.audioCap ∧
        aux.rd < aux.cfg.audioCap) :=
  ⟨⟨post_posted (by decide +kernel), by decide +kernel⟩, ⟨post_posted (by decide +kernel), by decide +kernel⟩,
    ⟨post_posted (by decide +kernel), by decide +kernel⟩⟩

theorem witness_SyncTablePostedExactlyOnSyncLines :
    let one := { s0 with cfg := { cfgA with twoPhase := false }, v := 524 }
    post .pong { s0 with v := 10 } = .ok (posted .pong { s0 with v := 10 }) ∧
      post .pong { s0 with v := 12 } = .ok (posted .pong { s0 with v := 12 }) ∧
      post .pong { s0 with v := 45 } = .ok (posted .pong { s0 with v := 45 }) ∧
      post .ping { s0 with v := 45, phase := .pix } = .ok (posted .ping { s0 with v := 45, phase := .pix }) ∧
      post .pong one = .ok (posted .pong one) ∧
      (tFpEnd s0.cfg ≤ 10 ∧ 10 < tFpEnd s0.cfg + s0.cfg.vSyncWidth ∧ 12 < tBpEnd s0.cfg ∧ tBpEnd s0.cfg ≤ 45 ∧
        s0.cfg.twoPhase = true ∧ s0.phase = .cmd ∧ tBpEnd one.cfg ≤ one.v ∧ one.cfg.twoPhase = false) :=
  ⟨post_posted (by decide +kernel), post_posted (by decide +kernel), post_posted (by decide +kernel),
    post_posted (by decide +kernel), post_posted (by decide +kernel), by decide +kernel⟩

theorem witness_LineCounterHasPeriodVTotal : 524 < vTotal cfgA ∧ 0 < 1 ∧ 524 < vTotal cfgA := by decide +kernel

theorem witness_HandlerServesToggledSlot :
    completed.run = true ∧ irqDma completed = true ∧ completed.v < vTotal completed.cfg ∧ completed.fx.lock = .free ∧
      MayAdvance completed ∧ buildLegal completed.cfg = true ∧ completed.cfg.audioSink = .timer := by decide +kernel

theorem witness_PixelPhaseFillsLineBuffer :
    let s := { s0 with v := 524, phase := .pix }
    let one := { s0 with cfg := { cfgA with twoPhase := false }, v := 524 }
    (s.cfg.twoPhase = true ∧ s.phase = .pix ∧ tBpEnd s.cfg ≤ s.v ∧
      startOfFrame (markBusySlot .pong s) = .ok (markBusySlot .pong s) ∧ post .pong s = .ok (posted .pong s)) ∧
    (one.cfg.twoPhase = false ∧ 4 ≤ one.cfg.cmdListLen ∧ tBpEnd one.cfg ≤ one.v ∧
      startOfFrame (markBusySlot .ping one) = .ok (markBusySlot .ping one) ∧ post .ping one = .ok (posted .ping one)) :=
  ⟨⟨by decide +kernel, by decide +kernel, by decide +kernel, by rfl, post_posted (by decide +kernel)⟩,
    ⟨by decide +kernel, by decide +kernel, by decide +kernel, by rfl, post_posted (by decide +kernel)⟩⟩

theorem witness_DmaXferPushesOneWord :
    dmaXferEnabled .ping running = true ∧ dmaRead running (running.chan .ping).rptr = some 0x1C000010 ∧
      dmaXferEnabled .ping { running with ch0 := { busyChannel with rptr := 0x0008 } } = true ∧
      dmaRead running 0x0008 = none ∧ dmaXferEnabled .pong running = false ∧ buildLegal running.cfg = true ∧
      7 < running.cfg.cmdListLen ∧ (0x0207#16).toNat = tableBase .active + 7 ∧
      167 < running.cfg.cmdListLen + 160 ∧ (0x14A7#16).toNat = lineBufBase .pong + 167 ∧
      (∀ t ∈ [TableId.blank, .vsync, .active], ∀ k < 8, (0x14A8#16).toNat ≠ tableBase t + k) ∧
      (∀ ch ∈ [Slot.ping, .pong], ∀ k < 168, (0x14A8#16).toNat ≠ lineBufBase ch + k) := by decide +kernel

theorem witness_DmaCompleteChainsOtherChannel :
    let s := { running with ch0 := { busyChannel with rem := 0 } }
    dmaCompleteEnabled .ping s = true ∧ (s.chan (otherSlot .ping)).busy = false ∧
      descriptorLegal s.cfg (s.chan (otherSlot .ping)).src (s.chan (otherSlot .ping)).len = true := by decide +kernel

theorem witness_TransfersNeverLeaveTheirRegion :
    DmaInv (offered running (.dmaXfer .ping)) ∧ (∃ s', step (offered running (.dmaXfer .ping)) = .next s') :=
  ⟨by decide +kernel, stepped (by decide +kernel)⟩

theorem witness_RealTimeOrderKeepsChain :
    let s := offered { running with ch0 := { busyChannel with rem := 0 } } (.dmaComplete .ping)
    ChainInv s ∧ keepsRT s ∧ nextTurn s ≠ some .reset ∧ (∃ s', step s = .next s') :=
  ⟨by decide +kernel, fun _ _ _ => by decide +kernel, by decide +kernel, stepped (by decide +kernel)⟩

theorem witness_StepKeepsMemoriesCanonical :
    MemInv (offered rendering lineEndTurn) ∧ (∃ s', step (offered rendering lineEndTurn) = .next s') :=
  ⟨by decide +kernel, stepped (by decide +kernel)⟩

theorem witness_StepKeepsRegistersInRange :
    let s := offered { completed with v := 524, phase := .pix, fifo := List.replicate 8 0 } .handler
    (RangeInv s ∧ PhaseInv s ∧ FifoInv s) ∧ (∃ s', step s = .next s') :=
  ⟨by decide +kernel, stepped (by decide +kernel)⟩

theorem witness_MarksStickAndOutOnlyGrows :
    let s := offered { s0 with mDesc := true, mCmd := true, fifo := [0] } .serPop
    (∃ s', step s = .next s') ∧ nextTurn s ≠ some .reset ∧ s.mDesc = true ∧ s.mCmd = true ∧
      (∃ s', step (offered s0 .reset) = .next s') ∧ nextTurn (offered s0 .reset) = some .reset :=
  ⟨stepped (by decide +kernel), by decide +kernel, by decide +kernel, by decide +kernel, stepped (by decide +kernel),
    by decide +kernel⟩

theorem witness_ResetMeetsInvariants :
    buildLegal cfgA = true ∧ buildLegal Config.default = true ∧ buildLegal { cfgB with twoPhase := false } = true := by
  decide +kernel

end Sys2Proof.Tests
end

section
/-! What a step does with an offered turn, and what a request's turn does with a legal word. -/

namespace Sys2Proof.Machine

/-- The environment's first offer is carried out on the state whose step has begun and whose inbox has lost it. -/
theorem step_of_offered_turn (s : State) (turn : Turn) (rest : List Turn) (hlegal : buildLegal s.cfg = true)
    (hoffer : s.inbox = turn :: rest) : step s = takeTurn turn { beginStep s with inbox := rest } := by
  have hturn : nextTurn s = some turn := by simp [nextTurn, hoffer]
  simp [step, runTurn, hlegal, hturn, hoffer]

/-- A word that decodes is run with its requester and payload at the port (30_encoding.md R90). -/
theorem requestTurn_of_decoded (ctx : Context) (w : Word) (pl : List (List Byte)) (i : Instr) (s : State)
    (hdecode : decodeReq w = .ok i) :
    requestTurn ctx w pl s = settleRequest (.request ctx w pl) (exec i (present ctx pl s)) := by
  simp [requestTurn, hdecode]

/-- Settles O7: the offered turn is the request's, and the request's turn runs the decoded operation. -/
theorem stepRunsDecodedRequest : Obligations.StepRunsDecodedRequest := by
  intro s ctx w pl rest i hlegal hoffer hdecode
  calc step s
      = requestTurn ctx w pl { beginStep s with inbox := rest } := step_of_offered_turn s _ rest hlegal hoffer
    _ = settleRequest (.request ctx w pl) (exec i (present ctx pl { beginStep s with inbox := rest })) :=
        requestTurn_of_decoded ctx w pl i _ hdecode

end Sys2Proof.Machine
end

section
/-! The elementary updates every turn but SER's pop and the power-on reset is made of, and that each such turn is a run of
them: an invariant of a step is then one case per update. -/

namespace Sys2Proof.Machine

/-- One elementary update of the state, with the condition under which a turn carries it out. -/
inductive Update : State → State → Prop
  | port (s : State) (p : Port) : Update s { s with port := p }
  | offer (s : State) (turns : List Turn) : Update s { s with inbox := turns }
  | openLine (line : BitVec 9) (s : State) : line.toNat < 240 → Update s (openLine line s)
  | closeLine (line : BitVec 9) (s : State) : line.toNat < 240 → lineNotOpen line s = false → Update s (closeLine line s)
  | publish (c : BufId) (s : State) :
      s.fx.rendering (otherBuf c) = false → Update s { s with fx := publishFlags c s.fx }
  | setScale (mode : ScaleMode) (s : State) : Update s { s with scalePending := mode }
  | acquire (s : State) : Update s (markRendering (acquirePick s.fx) s)
  | release (b : BufId) (s : State) : Update s (clearRendering b s)
  | startFrame (s : State) :
      Update s (displayPick (acquirePick s.fx)
        (markRendering (acquirePick s.fx) { s with scaleActive := s.scalePending }))
  | enqueue (count : BitVec 16) (s : State) : Update s (enqueueFrames count s)
  | dequeue (who : AudioConsumer) (s : State) :
      MayDequeue who s → Update s (takeFrame { s with audOwner := some who })
  | tick (s : State) : Update s (audTick s)
  | serveTick (s : State) : Update s { s with audTick := false }
  | start (s : State) : s.run = false → Update s (startSequencer s)
  | acknowledge (s : State) : Update s (acknowledge s)
  | markBusy (ch : Slot) (s : State) : Update s (markBusySlot ch s)
  | describeTable (ch : Slot) (tbl : TableId) (s : State) : Update s (describeTable ch tbl s)
  | describeLine (ch : Slot) (words : List Word) (len : Nat) (s : State) : Update s (describeLine ch words len s)
  | endCommandPhase (s : State) : tBpEnd s.cfg ≤ s.v → s.cfg.twoPhase = true → Update s { s with phase := .pix }
  | endPixelPhase (s : State) : Update s { s with phase := .cmd }
  | endLine (s : State) : s.v < tBpEnd s.cfg ∨ s.cfg.twoPhase = false ∨ s.phase = .cmd →
      Update s { s with v := nextLine s.cfg s.v }
  | complete (ch : Slot) (s : State) : Update s (s.setChan ch { s.chan ch with busy := false, done := true })
  | load (ch : Slot) (s : State) : (s.chan ch).busy = false →
      descriptorLegal s.cfg (s.chan ch).src (s.chan ch).len = true →
      Update s (s.setChan ch (loadedChannel (s.chan ch)))
  | transfer (ch : Slot) (w : Word) (s : State) : s.fifo.length < s.cfg.fifoDepth →
      Update s ({ s with fifo := s.fifo ++ [w] }.setChan ch
        { s.chan ch with rptr := (s.chan ch).rptr + 1, rem := (s.chan ch).rem - 1 })

/-- Any number of updates, one after the other. -/
abbrev Updates : State → State → Prop := Relation.ReflTransGen Update

theorem Update.once {s t : State} (h : Update s t) : Updates s t := .single h

/-- What each update keeps, a run of updates keeps. -/
theorem Updates.keeps {P : State → Prop} (hP : ∀ s t, Update s t → P s → P t) {s t : State} (h : Updates s t)
    (hs : P s) : P t := by
  induction h with
  | refl => exact hs
  | tail _ hu ih => exact hP _ _ hu ih

/-! The port. -/

theorem updates_respond (o : OutcomeCode) (r : Option Word) (s : State) : Updates s (respond o r s) :=
  (Update.port s _).once

theorem updates_note (o : OutcomeCode) (s : State) : Updates s (note o s) := (Update.port s _).once

theorem updates_clearOutputs (s : State) : Updates s (clearOutputs s) := (Update.port s _).once

theorem updates_badRequest (s : State) : Updates s (badRequest s) := updates_respond _ _ s

theorem updates_present (ctx : Context) (pl : List (List Byte)) (s : State) : Updates s (present ctx pl s) :=
  (Update.port s _).once

/-- An update, then the answer to the requester. -/
theorem Update.answered {s t : State} (h : Update s t) (o : OutcomeCode) (r : Option Word) :
    Updates s (respond o r t) := h.once.trans (updates_respond o r t)

/-! The dequeues. -/

theorem dequeueTimes_updates (who : AudioConsumer) (n : Nat) (s t : State) (h : dequeueTimes who n s = .ok t) :
    Updates s t := by
  induction n generalizing s with
  | zero => cases h; exact .refl
  | succ n ih =>
    obtain ⟨howner, hrest⟩ := (dequeueTimes_succ_ok who n s t).1 h
    exact (Update.dequeue who s howner).once.trans ((updates_note _ _).trans (ih _ hrest))

theorem auxAudio_updates (s t : State) (h : auxAudio s = .ok t) : Updates s t := by
  unfold auxAudio at h
  split at h
  · exact dequeueTimes_updates _ _ _ _ h
  · cases h; exact .refl

/-! The frame boundary. -/

theorem frameStart_updates (s t : State) (h : frameStart s = .ok t) : Updates s t := by
  obtain ⟨hfree, rfl⟩ := (frameStart_ok s t).1 h
  rw [markRendering_underLock _ { s with scaleActive := s.scalePending } hfree]
  exact (Update.startFrame s).once.trans (updates_note _ _)

theorem frameEnd_updates (s t : State) (h : frameEnd s = .ok t) : Updates s t := by
  rcases (frameEnd_ok s t).1 h with ⟨_, rfl⟩ | ⟨_, hfree, rfl⟩
  · exact .refl
  · rw [clearRendering_underLock _ s hfree]
    exact (Update.release _ s).once.trans (updates_note _ _)

theorem startOfFrame_updates (s t : State) (h : startOfFrame s = .ok t) : Updates s t := by
  rcases (startOfFrame_ok s t).1 h with ⟨_, h⟩ | ⟨_, rfl⟩
  · exact frameStart_updates s t h
  · exact .refl

theorem endOfFrame_updates (s t : State) (h : endOfFrame s = .ok t) : Updates s t := by
  rcases (endOfFrame_ok s t).1 h with ⟨_, h⟩ | ⟨_, rfl⟩
  · exact frameEnd_updates s t h
  · exact .refl

/-- What the frame boundary writes: the FrameExchange bits and the race record, the displayed buffer, the active scaling mode
and, at the port, the outcomes noted; nothing else (41_scanline_sequencer.md R161). -/
def onlyFrameSwitched (s t : State) : Prop :=
  { t with
    fx := s.fx, race := s.race, scaleActive := s.scaleActive, dispValid := s.dispValid, dispBuf := s.dispBuf
    port := { t.port with inner := s.port.inner } } = s

theorem onlyFrameSwitched_refl (s : State) : onlyFrameSwitched s s := rfl

theorem frameStart_onlyFrameSwitched (s t : State) (h : frameStart s = .ok t) : onlyFrameSwitched s t := by
  obtain ⟨_, rfl⟩ := (frameStart_ok s t).1 h
  cases acquirePick s.fx <;> rfl

theorem frameEnd_onlyFrameSwitched (s t : State) (h : frameEnd s = .ok t) : onlyFrameSwitched s t := by
  rcases (frameEnd_ok s t).1 h with ⟨_, rfl⟩ | ⟨_, _, rfl⟩ <;> rfl

theorem startOfFrame_onlyFrameSwitched (s t : State) (h : startOfFrame s = .ok t) : onlyFrameSwitched s t := by
  rcases (startOfFrame_ok s t).1 h with ⟨_, h⟩ | ⟨_, rfl⟩
  · exact frameStart_onlyFrameSwitched s t h
  · exact onlyFrameSwitched_refl t

theorem endOfFrame_onlyFrameSwitched (s t : State) (h : endOfFrame s = .ok t) : onlyFrameSwitched s t := by
  rcases (endOfFrame_ok s t).1 h with ⟨_, h⟩ | ⟨_, rfl⟩
  · exact frameEnd_onlyFrameSwitched s t h
  · exact onlyFrameSwitched_refl t

/-- The build and the raster registers of two states are the same. -/
abbrev SameRaster (s t : State) : Prop := t.cfg = s.cfg ∧ t.v = s.v ∧ t.phase = s.phase

theorem onlyFrameSwitched_sameRaster {s t : State} (h : onlyFrameSwitched s t) : SameRaster s t := by
  unfold onlyFrameSwitched at h
  exact ⟨(congrArg State.cfg h :), (congrArg State.v h :), (congrArg State.phase h :)⟩

theorem onlyDequeued_sameRaster {s t : State} (h : onlyDequeued s t) : SameRaster s t := by
  unfold onlyDequeued at h
  exact ⟨(congrArg State.cfg h :), (congrArg State.v h :), (congrArg State.phase h :)⟩

/-! The end of a line. -/

theorem advance_updates (s t : State) (h : advance s = .ok t)
    (hline : s.v < tBpEnd s.cfg ∨ s.cfg.twoPhase = false ∨ s.phase = .cmd) : Updates s t := by
  obtain ⟨u, hu, rfl⟩ := (advance_ok s t).1 h
  obtain ⟨hcfg, hv, hphase⟩ := onlyDequeued_sameRaster (auxAudio_onlyDequeued s u hu)
  exact (auxAudio_updates s u hu).tail (.endLine u (by rwa [hv, hcfg, hphase]))

/-! `post`. -/

theorem postActive2_updates (ch : Slot) (s t : State) (hv : tBpEnd s.cfg ≤ s.v) (htwo : s.cfg.twoPhase = true)
    (h : postActive2 ch s = .ok t) : Updates s t := by
  rcases (postActive2_ok ch s t).1 h with ⟨_, rfl⟩ | ⟨_, a, b, ha, hb, ht⟩
  · exact (Update.describeTable ch .active s).once.tail (.endCommandPhase _ (by simpa using hv) (by simpa using htwo))
  · calc Updates s a := startOfFrame_updates s a ha
      Updates _ (Machine.describeLine ch (pack (lineUnits a)) wordsPerLine a) := (Update.describeLine ..).once
      Updates _ b := endOfFrame_updates _ _ hb
      Updates _ { b with phase := .cmd } := (Update.endPixelPhase b).once
      Updates _ t := advance_updates _ _ ht (.inr (.inr rfl))

theorem postActive1_updates (ch : Slot) (s t : State) (hone : s.cfg.twoPhase = false)
    (h : postActive1 ch s = .ok t) : Updates s t := by
  obtain ⟨a, b, ha, hb, ht⟩ := (postActive1_ok ch s t).1 h
  obtain ⟨hacfg, _, _⟩ := onlyFrameSwitched_sameRaster (startOfFrame_onlyFrameSwitched s a ha)
  obtain ⟨hbcfg, _, _⟩ := onlyFrameSwitched_sameRaster (endOfFrame_onlyFrameSwitched _ b hb)
  have hbone : b.cfg.twoPhase = false := by simpa [hbcfg, hacfg] using hone
  exact (startOfFrame_updates s a ha).trans ((Update.describeLine ..).once.trans
    ((endOfFrame_updates _ _ hb).trans (advance_updates b t ht (.inr (.inl hbone)))))

theorem post_updates (ch : Slot) (s t : State) (h : post ch s = .ok t) : Updates s t := by
  refine (Update.markBusy ch s).once.trans ?_
  rcases post_ok ch s t h with ⟨hv, tbl, _, _, h⟩ | ⟨hv, _, htwo, h⟩ | ⟨_, _, hone, h⟩
  · exact (Update.describeTable ch tbl _).once.trans (advance_updates _ t h (.inl (by simpa using hv)))
  · exact postActive2_updates ch _ t (by simpa using hv) (by simpa using htwo) h
  · exact postActive1_updates ch _ t (by simpa using hone) h

theorem dmaTrigger_updates (ch : Slot) (s t : State) (h : dmaTrigger ch s = .ok t) : Updates s t := by
  rcases (dmaTrigger_ok ch s t).1 h with ⟨_, rfl⟩ | ⟨hidle, hdesc, rfl⟩
  · exact .refl
  · exact (Update.load ch s hidle hdesc).once

/-! The requests. -/

theorem execLineBegin_updates (line : BitVec 9) (s t : State) (h : execLineBegin line s = .next t) : Updates s t := by
  obtain ⟨_, ⟨_, rfl⟩ | ⟨hline, _, rfl⟩ | ⟨_, rfl⟩⟩ := execLineBegin_next line s t h
  · exact updates_badRequest s
  · exact (Update.openLine line s hline).answered _ _
  · exact updates_clearOutputs s

theorem execLineEnd_updates (line : BitVec 9) (s t : State) (h : execLineEnd line s = .next t) : Updates s t := by
  obtain ⟨_, ⟨_, rfl⟩ | ⟨hline, hopen, _, rfl⟩ | ⟨_, rfl⟩⟩ := execLineEnd_next line s t h
  · exact updates_badRequest s
  · exact (Update.closeLine line s hline hopen).answered _ _
  · exact updates_clearOutputs s

theorem execPublish_updates (c : BufId) (s t : State) (h : execPublish c s = .next t) : Updates s t := by
  obtain ⟨_, ⟨_, _, _, rfl⟩ | ⟨_, hidle, rfl⟩ | ⟨_, rfl⟩⟩ := execPublish_next c s t h
  · exact updates_respond _ _ s
  · exact (Update.publish c s hidle).answered _ _
  · exact updates_clearOutputs s

/-- FRAME_COMPLETE is PUBLISH of the write target (44_frame_exchange.md R233). -/
theorem execFrameComplete_updates (s t : State) (h : execFrameComplete s = .next t) : Updates s t :=
  execPublish_updates s.fx.wt s t h

theorem execAcquire_updates (s t : State) (h : execAcquire s = .next t) : Updates s t := by
  obtain ⟨_, _, ⟨_, rfl⟩ | rfl⟩ := execAcquire_next s t h
  · exact (Update.acquire s).answered _ _
  · exact updates_clearOutputs s

theorem execRelease_updates (b : BufId) (s t : State) (h : execRelease b s = .next t) : Updates s t := by
  obtain ⟨_, _, ⟨_, rfl⟩ | rfl⟩ := execRelease_next b s t h
  · exact (Update.release b s).answered _ _
  · exact updates_clearOutputs s

theorem execAudCap_updates (s t : State) (h : execAudCap s = .next t) : Updates s t := by
  obtain ⟨_, h⟩ := (serve_next _ _ _ _).1 h
  cases h
  exact updates_respond _ _ s

theorem execAudEnq_updates (count : BitVec 16) (s t : State) (h : execAudEnq count s = .next t) : Updates s t := by
  obtain ⟨_, h⟩ := (serve_next _ _ _ _).1 h
  cases h
  exact (Update.enqueue count s).answered _ _

theorem execAudDeq_updates (s t : State) (h : execAudDeq s = .next t) : Updates s t := by
  obtain ⟨_, howner, rfl⟩ := execAudDeq_next s t h
  exact (Update.dequeue .request s howner).answered _ _

theorem execSetScale_updates (mode : ScaleMode) (s t : State) (h : execSetScale mode s = .next t) : Updates s t := by
  obtain ⟨_, h⟩ := (serve_next _ _ _ _).1 h
  cases h
  exact (Update.setScale mode s).answered _ _

theorem execStart_updates (s t : State) (h : execStart s = .next t) : Updates s t := by
  obtain ⟨_, ⟨_, rfl⟩ | ⟨hstopped, a, b, c, ha, hb, hc, rfl⟩ | ⟨_, rfl⟩⟩ := execStart_next s t h
  · exact updates_badRequest s
  · calc Updates s (startSequencer s) := (Update.start s hstopped).once
      Updates _ a := post_updates .ping _ a ha
      Updates _ b := post_updates .pong a b hb
      Updates _ c := dmaTrigger_updates .ping b c hc
      Updates _ (respond .ok none c) := updates_respond _ _ c
  · exact updates_clearOutputs s

theorem exec_request_updates (w : Word) (i : Instr) (s t : State) (hdecode : decodeReq w = .ok i)
    (h : exec i s = .next t) : Updates s t := by
  rcases decodeReq_ok w i hdecode with ⟨line, _, rfl | rfl⟩ | ⟨b, rfl⟩ | rfl | rfl | ⟨n, rfl⟩ | ⟨mode, rfl⟩ | rfl |
    ⟨b, rfl⟩ | rfl | rfl
  · exact execLineBegin_updates line s t h
  · exact execLineEnd_updates line s t h
  · exact execPublish_updates b s t h
  · exact execFrameComplete_updates s t h
  · exact execAudCap_updates s t h
  · exact execAudEnq_updates n s t h
  · exact execSetScale_updates mode s t h
  · exact execAcquire_updates s t h
  · exact execRelease_updates b s t h
  · exact execAudDeq_updates s t h
  · exact execStart_updates s t h

/-! The turns. -/

theorem requestTurn_updates (ctx : Context) (w : Word) (pl : List (List Byte)) (s t : State)
    (h : requestTurn ctx w pl s = .next t) : Updates s t := by
  refine (updates_present ctx pl s).trans ?_
  rcases requestTurn_next ctx w pl s t h with ⟨i, u, hdecode, hexec, rfl⟩ | ⟨_, _, rfl⟩
  · have hu := exec_request_updates w i _ u hdecode hexec
    split
    · exact hu
    · exact hu.tail (.offer u _)
  · exact updates_badRequest _

/-- A step taken where it is enabled is a run of updates, if what it does is. -/
theorem whenEnabled_updates (enabled : Bool) (s t : State) (a : Attempt State)
    (ha : ∀ u, enabled = true → a = .ok u → Updates s u) (h : whenEnabled enabled s a = .next t) : Updates s t := by
  rcases (whenEnabled_next _ _ _ _).1 h with ⟨henabled, h⟩ | ⟨_, rfl⟩
  · rcases (finish_next _ _ _).1 h with h | ⟨_, rfl⟩
    · exact ha t henabled h
    · exact updates_clearOutputs s
  · exact .refl

theorem dmaXfer_updates (ch : Slot) (s t : State) (henabled : dmaXferEnabled ch s = true)
    (h : dmaXfer ch s = .ok t) : Updates s t := by
  obtain ⟨w, _, rfl⟩ := (dmaXfer_ok ch s t).1 h
  have hroom : s.fifo.length < s.cfg.fifoDepth := by
    simp only [dmaXferEnabled, Bool.and_eq_true, decide_eq_true_eq] at henabled
    exact henabled.2
  exact (Update.transfer ch w s hroom).once

theorem dmaComplete_updates (ch : Slot) (s t : State) (h : dmaComplete ch s = .ok t) : Updates s t :=
  (Update.complete ch s).once.trans (dmaTrigger_updates _ _ t h)

theorem handler_updates (s t : State) (h : handler s = .ok t) : Updates s t :=
  (Update.acknowledge s).once.trans (post_updates _ _ t h)

theorem audIsr_updates (s t : State) (h : audIsr s = .ok t) : Updates s t := by
  obtain ⟨u, hu, ht⟩ := (bind_ok _ _ _).1 h
  obtain ⟨howner, rfl⟩ := (dequeue_ok _ _ _).1 hu
  cases ht
  exact (Update.serveTick s).once.trans ((Update.dequeue .timer _ howner).answered _ _)

/-- Every turn but SER's pop and the power-on reset is a run of updates. -/
theorem takeTurn_updates (turn : Turn) (s t : State) (hpop : turn ≠ .serPop) (hreset : turn ≠ .reset)
    (h : takeTurn turn s = .next t) : Updates s t := by
  cases turn with
  | request ctx w pl => exact requestTurn_updates ctx w pl s t h
  | dmaXfer ch => exact whenEnabled_updates _ s t _ (fun u he hu => dmaXfer_updates ch s u he hu) h
  | dmaComplete ch => exact whenEnabled_updates _ s t _ (fun u _ hu => dmaComplete_updates ch s u hu) h
  | handler => exact whenEnabled_updates _ s t _ (fun u _ hu => handler_updates s u hu) h
  | serPop => exact absurd rfl hpop
  | audTick => cases h; exact (Update.tick s).once
  | audIsr => exact whenEnabled_updates _ s t _ (fun u _ hu => audIsr_updates s u hu) h
  | reset => exact absurd rfl hreset

/-- What a pop does to SER and the pins, from the state `s` whose FIFO has lost the word (43_serializer_tmds.md R204). -/
inductive PopEffect : State → State → Prop
  | data (w : Word) (s : State) : PopEffect s (dataWord w s)
  | nop (s : State) : PopEffect s (extendOut [] s)
  | ctrl (vs hs : Bool) (n : BitVec 12) (s : State) : n ≠ 0 → PopEffect s (ctrlRun vs hs n.toNat s)
  | pixels (n : BitVec 12) (s : State) : n ≠ 0 → PopEffect s { extendOut [] s with serRem := n }
  | reserved (s : State) : PopEffect s (reservedCommand s)

theorem exec_command_effect (w : Word) (i : Instr) (s t : State) (hdecode : decodeCmd w = .ok i)
    (h : exec i s = .next t) : PopEffect s t := by
  rcases decodeCmd_ok w i hdecode with rfl | ⟨vs, hs, n, hn, rfl⟩ | ⟨n, hn, rfl⟩
  · cases h; exact .nop s
  · cases h; rw [if_neg hn]; exact .ctrl vs hs n s hn
  · cases h; rw [if_neg hn]; exact .pixels n s hn

theorem serPopTurn_effect (s t : State) (h : serPopTurn s = .next t) :
    (s.fifo = [] ∧ t = s) ∨ ∃ w rest, s.fifo = w :: rest ∧ PopEffect { s with fifo := rest } t := by
  rcases serPopTurn_next s t h with hempty | ⟨w, rest, hfifo, ⟨_, rfl⟩ | ⟨_, i, hdecode, hexec⟩ | ⟨_, _, rfl⟩⟩
  · exact .inl hempty
  · exact .inr ⟨w, rest, hfifo, .data w _⟩
  · exact .inr ⟨w, rest, hfifo, exec_command_effect w i _ t hdecode hexec⟩
  · exact .inr ⟨w, rest, hfifo, .reserved _⟩

/-- Everything a step can be: idle or a run of updates from the state as it stands when the turn is taken, a pop of SER,
or a reset. -/
theorem step_cases (s t : State) (h : step s = .next t) :
    (nextTurn s ≠ some .serPop ∧ nextTurn s ≠ some .reset ∧
      ∃ turns, Updates { beginStep s with inbox := turns } t) ∨
    (nextTurn s = some .serPop ∧ serPopTurn { beginStep s with inbox := s.inbox.tail } = .next t) ∨
    (nextTurn s = some .reset ∧ t = powerOn { beginStep s with inbox := s.inbox.tail }) := by
  obtain ⟨_, ⟨hidle, rfl⟩ | ⟨turn, hturn, ht⟩⟩ := (step_next s t).1 h
  · exact .inl ⟨by simp [hidle], by simp [hidle], s.inbox, .refl⟩
  · by_cases hpop : turn = .serPop
    · subst hpop; exact .inr (.inl ⟨hturn, ht⟩)
    · by_cases hreset : turn = .reset
      · subst hreset; cases ht; exact .inr (.inr ⟨hturn, rfl⟩)
      · exact .inl ⟨by simpa [hturn] using hpop, by simpa [hturn] using hreset, _,
          takeTurn_updates turn _ t hpop hreset ht⟩

end Sys2Proof.Machine
end

section
/-! The ranges of the registers, and what the other agents leave of SER and the marks (10_state.md R23 to R35). -/

namespace Sys2Proof.Machine

/-- The registers in range: V and the cursors, PHASE on blanking lines, the FIFO's length (10_state.md R23 to R33). -/
def InRange (s : State) : Prop := RangeInv s ∧ PhaseInv s ∧ FifoInv s

theorem nextLine_lt (c : Config) (v : Nat) (h : v < vTotal c) : nextLine c v < vTotal c := by
  unfold nextLine; split <;> omega

/-- A line below 240 keeps its value in the eight bits of PROD_LINE (10_state.md R23). -/
theorem lineField_lt (line : BitVec 9) (h : line.toNat < 240) : (lineField line).toNat < fbHeight := by
  simp only [lineField, BitVec.toNat_setWidth, fbHeight]; omega

/-- The registers the ranges speak of are the same in two states. -/
def SameRanged (s t : State) : Prop :=
  t.cfg = s.cfg ∧ t.v = s.v ∧ t.phase = s.phase ∧ t.prodLine = s.prodLine ∧ t.wr = s.wr ∧ t.rd = s.rd ∧ t.fifo = s.fifo

theorem inRange_of_sameRanged {s t : State} (h : SameRanged s t) (hs : InRange s) : InRange t := by
  obtain ⟨hcfg, hv, hphase, hline, hwr, hrd, hfifo⟩ := h
  simpa only [InRange, RangeInv, PhaseInv, FifoInv, hcfg, hv, hphase, hline, hwr, hrd, hfifo] using hs

/-- A dequeue moves RD within the ring. -/
theorem takeFrame_inRange (s : State) (hs : InRange s) : InRange (takeFrame s) := by
  by_cases hempty : s.rd = s.wr
  · rw [takeFrame_of_empty s hempty]; exact hs
  · obtain ⟨⟨hv, hline, hwr, hrd⟩, hphase, hfifo⟩ := hs
    rw [takeFrame_of_held s hempty]
    exact ⟨⟨hv, hline, hwr, Nat.mod_lt _ (Nat.zero_lt_of_lt hrd)⟩, hphase, hfifo⟩

/-- Each update keeps the registers in range; those that write one of them are argued one by one. -/
theorem update_inRange (s t : State) (h : Update s t) (hs : InRange s) : InRange t := by
  have ⟨⟨hv, hline, hwr, hrd⟩, ⟨hblank, hone⟩, hfifo⟩ := hs
  cases h with
  | openLine line _ hlegal => exact ⟨⟨hv, lineField_lt line hlegal, hwr, hrd⟩, ⟨hblank, hone⟩, hfifo⟩
  | enqueue count => exact ⟨⟨hv, hline, Nat.mod_lt _ (Nat.zero_lt_of_lt hwr), hrd⟩, ⟨hblank, hone⟩, hfifo⟩
  | dequeue who => exact takeFrame_inRange { s with audOwner := some who } hs
  | start => exact ⟨⟨Nat.zero_lt_of_lt hv, hline, hwr, hrd⟩, ⟨fun _ => rfl, fun _ => rfl⟩, hfifo⟩
  | endCommandPhase _ hactive htwo =>
    exact ⟨⟨hv, hline, hwr, hrd⟩, ⟨fun hlow => absurd hlow (Nat.not_lt.2 hactive), fun h1 => by simp [htwo] at h1⟩, hfifo⟩
  | endPixelPhase => exact ⟨⟨hv, hline, hwr, hrd⟩, ⟨fun _ => rfl, fun _ => rfl⟩, hfifo⟩
  | endLine _ hend =>
    have hphase : s.phase = .cmd := hend.elim hblank (fun h => h.elim hone id)
    exact ⟨⟨nextLine_lt _ _ hv, hline, hwr, hrd⟩, ⟨fun _ => hphase, fun _ => hphase⟩, hfifo⟩
  | transfer ch w _ hroom =>
    cases ch <;> exact ⟨⟨hv, hline, hwr, hrd⟩, ⟨hblank, hone⟩, by simpa using hroom⟩
  | _ => exact inRange_of_sameRanged (by simp [SameRanged]) hs

theorem popEffect_sameRanged {s t : State} (h : PopEffect s t) : SameRanged s t := by
  cases h <;> simp [SameRanged]

theorem serPopTurn_inRange (s t : State) (h : serPopTurn s = .next t) (hs : InRange s) : InRange t := by
  rcases serPopTurn_effect s t h with ⟨_, rfl⟩ | ⟨w, rest, hfifo, heffect⟩
  · exact hs
  · obtain ⟨hrange, hphase, hlen⟩ := hs
    have hrest : rest.length ≤ s.cfg.fifoDepth := by
      simp only [FifoInv, hfifo, List.length_cons] at hlen; omega
    exact inRange_of_sameRanged (popEffect_sameRanged heffect) ⟨hrange, hphase, hrest⟩

theorem powerOn_inRange (s : State) (hs : InRange s) : InRange (powerOn s) := by
  obtain ⟨⟨hv, _, hwr, _⟩, _, _⟩ := hs
  have hraster : 0 < vTotal s.cfg := Nat.zero_lt_of_lt hv
  have hring : 0 < s.cfg.audioCap := Nat.zero_lt_of_lt hwr
  exact ⟨⟨hraster, (by decide : (0#8).toNat < fbHeight), hring, hring⟩, ⟨fun _ => rfl, fun _ => rfl⟩, Nat.zero_le _⟩

theorem beginStep_inRange (s : State) (turns : List Turn) (hs : InRange s) :
    InRange { beginStep s with inbox := turns } := hs

/-- Settles O57: idle, an update, a pop and a reset each keep the registers in range. -/
theorem stepKeepsRegistersInRange : Obligations.StepKeepsRegistersInRange := by
  intro s t hs hstep
  rcases step_cases s t hstep with ⟨_, _, turns, hupdates⟩ | ⟨_, hpop⟩ | ⟨_, rfl⟩
  · exact hupdates.keeps update_inRange (beginStep_inRange s turns hs)
  · exact serPopTurn_inRange _ t hpop (beginStep_inRange s _ hs)
  · exact powerOn_inRange _ (beginStep_inRange s _ hs)

/-! SER, the marks and the build. -/

/-- The build, OUT, SER_REM and CNT are the same and a set mark is still set: what every agent but SER keeps of SER
(10_state.md R35, 43_serializer_tmds.md R203, R204). -/
def KeepsSerializer (s t : State) : Prop :=
  t.cfg = s.cfg ∧ t.out = s.out ∧ t.serRem = s.serRem ∧ t.cnt = s.cnt ∧
    (s.mDesc = true → t.mDesc = true) ∧ (s.mCmd = true → t.mCmd = true)

theorem keepsSerializer_trans {s t u : State} (h : KeepsSerializer s t) (k : KeepsSerializer t u) :
    KeepsSerializer s u := by
  obtain ⟨hcfg, hout, hrem, hcnt, hdesc, hcmd⟩ := h
  obtain ⟨kcfg, kout, krem, kcnt, kdesc, kcmd⟩ := k
  exact ⟨kcfg.trans hcfg, kout.trans hout, krem.trans hrem, kcnt.trans hcnt, kdesc ∘ hdesc, kcmd ∘ hcmd⟩

/-- The only mark an update writes is M_DESC, which `markBusySlot` sets and never clears. -/
theorem update_keepsSerializer (s t : State) (h : Update s t) : KeepsSerializer s t := by
  cases h with
  | markBusy ch => exact ⟨rfl, rfl, rfl, rfl, fun h => by simp [markBusySlot, h], id⟩
  | _ => simp [KeepsSerializer]

theorem updates_keepsSerializer {s t : State} (h : Updates s t) : KeepsSerializer s t :=
  h.keeps (P := KeepsSerializer s) (fun _ _ hu hk => keepsSerializer_trans hk (update_keepsSerializer _ _ hu))
    ⟨rfl, rfl, rfl, rfl, id, id⟩

/-- A pop leaves the build and M_DESC, never clears M_CMD, and extends OUT at its end. -/
theorem popEffect_marks {s t : State} (h : PopEffect s t) :
    t.cfg = s.cfg ∧ t.mDesc = s.mDesc ∧ (s.mCmd = true → t.mCmd = true) ∧ ∃ more, t.out = s.out ++ more := by
  cases h <;> exact ⟨rfl, rfl, fun hset => by simp [hset], _, rfl⟩

theorem serPopTurn_marks (s t : State) (h : serPopTurn s = .next t) :
    t.cfg = s.cfg ∧ t.mDesc = s.mDesc ∧ (s.mCmd = true → t.mCmd = true) ∧ ∃ more, t.out = s.out ++ more := by
  rcases serPopTurn_effect s t h with ⟨_, rfl⟩ | ⟨w, rest, _, heffect⟩
  · exact ⟨rfl, rfl, id, [], (List.append_nil _).symm⟩
  · exact popEffect_marks (s := { s with fifo := rest }) heffect

/-- Settles O58: an update keeps all of SER, a pop extends OUT, a reset clears the marks and OUT. -/
theorem marksStickAndOutOnlyGrows : Obligations.MarksStickAndOutOnlyGrows := by
  intro s t hstep
  rcases step_cases s t hstep with ⟨hpop, hreset, turns, hupdates⟩ | ⟨hpop, ht⟩ | ⟨hreset, rfl⟩
  · obtain ⟨hcfg, hout, hrem, hcnt, hdesc, hcmd⟩ := updates_keepsSerializer hupdates
    exact ⟨hcfg, fun _ => ⟨hdesc, hcmd, ⟨[], by simpa using hout, fun _ => rfl⟩, fun _ => ⟨hrem, hcnt⟩⟩,
      fun h => absurd h hreset⟩
  · obtain ⟨hcfg, hdesc, hcmd, more, hout⟩ := serPopTurn_marks _ t ht
    exact ⟨hcfg, fun _ => ⟨fun h => hdesc.trans h, hcmd, ⟨more, hout, fun h => absurd hpop h⟩, fun h => absurd hpop h⟩,
      fun h => by simp [hpop] at h⟩
  · exact ⟨rfl, fun h => absurd hreset h, fun _ => ⟨rfl, rfl, rfl⟩⟩

end Sys2Proof.Machine
end

section
/-! The reset state (10_state.md R38). -/

namespace Sys2Proof.Machine

/-- The reset table holds of a build's reset state whatever the environment's turns, the step counter and the reset's number
are (10_state.md R38; log 28). -/
theorem resetTable_resetWith (c : Config) (turns : List Turn) (fresh epoch : Nat) :
    ResetTable { State.resetWith c with inbox := turns, fresh := fresh, epoch := epoch } := by
  refine ⟨rfl, rfl, rfl, rfl, rfl, rfl, rfl, rfl, rfl, rfl, rfl, ?_, rfl, rfl, rfl, rfl, rfl, rfl, rfl, rfl, rfl, rfl, rfl,
    rfl, ?_⟩
  · intro ch; cases ch <;> rfl
  · intro a; exact ⟨rfl, rfl, rfl⟩

/-- Settles O59: each of the three states is a build's reset state with its own turns, step counter and reset number. -/
theorem resetStateMatchesTable : Obligations.ResetStateMatchesTable := by
  refine ⟨resetTable_resetWith Config.default [] 0 0, rfl, fun c => ⟨resetTable_resetWith c [] 0 0, rfl⟩, fun s => ?_⟩
  exact ⟨powerOn s, rfl, resetTable_resetWith s.cfg s.inbox s.fresh (s.epoch + 1), rfl⟩

/-- A legal raster has a line, for its sync region has one (00_scope.md R7 (b)). -/
theorem vTotal_pos_of_legal (c : Config) (h : buildLegal c = true) : 0 < vTotal c := by
  simp only [buildLegal, rasterLegal, Bool.and_eq_true, decide_eq_true_eq] at h
  have hsync : 1 ≤ c.vSyncWidth := by tauto
  unfold vTotal tBpEnd
  omega

/-- A legal ring has a slot (45_audio.md R250). -/
theorem audioCap_pos_of_legal (c : Config) (h : buildLegal c = true) : 0 < c.audioCap := by
  simp only [buildLegal, audioLegal, Bool.and_eq_true, decide_eq_true_eq] at h
  have hcap : 2 ≤ c.audioCap := by tauto
  omega

/-- The ring is empty after reset. -/
theorem ringHeld_resetWith (c : Config) : ringHeld (State.resetWith c) = 0 := by
  simp [ringHeld, State.resetWith]

/-- Settles O60: the reset values are constants, and a legal build leaves room for them. -/
theorem resetMeetsInvariants : Obligations.ResetMeetsInvariants := by
  intro c hlegal
  have hraster : 0 < vTotal c := vTotal_pos_of_legal c hlegal
  have hcap : 0 < c.audioCap := audioCap_pos_of_legal c hlegal
  have hidle : (State.resetWith c).fx = fxState false false false false .b1 := rfl
  have hrange : RangeInv (State.resetWith c) := ⟨hraster, (by decide : (0#8).toNat < fbHeight), hcap, hcap⟩
  have hring : RingInv (State.resetWith c) := fun k hk => by simp [ringHeld_resetWith] at hk
  have hdma : DmaInv (State.resetWith c) := ⟨nofun, nofun, nofun⟩
  have hbalanced : LaneBalanced 0 := by decide
  rw [hidle]
  exact ⟨by decide, by decide, ⟨rfl, rfl, rfl⟩, hrange, ⟨fun _ => rfl, fun _ => rfl⟩, Nat.zero_le _,
    ⟨hbalanced, hbalanced, hbalanced⟩, .inl ⟨rfl, rfl, rfl, rfl, rfl⟩, hdma, hring, ⟨rfl, rfl⟩, rfl⟩

end Sys2Proof.Machine
end

section
/-! What `post` does to the line counter, PHASE, the audio side and the outcomes at the port
(41_scanline_sequencer.md R156 to R161, 45_audio.md R255, R259). -/

namespace Sys2Proof.Machine

/-! Dequeues in a row. -/

/-- The frames held, by whether the held slots wrap around the end of the ring (45_audio.md R250). -/
theorem ringHeld_eq (s : State) (hwr : s.wr < s.cfg.audioCap) (hrd : s.rd < s.cfg.audioCap) :
    ringHeld s = if s.rd ≤ s.wr then s.wr - s.rd else s.wr + s.cfg.audioCap - s.rd := by
  unfold ringHeld
  split
  · rw [Int.emod_eq_of_lt (by omega) (by omega)]; omega
  · rw [← Int.add_emod_right, Int.emod_eq_of_lt (by omega) (by omega)]; omega

theorem ringHeld_of_empty (s : State) (h : s.rd = s.wr) : ringHeld s = 0 := by simp [ringHeld, h]

/-- RD's next slot, with its wrap. -/
theorem nextSlot_eq (rd cap : Nat) (h : rd < cap) : (rd + 1) % cap = if rd + 1 = cap then 0 else rd + 1 := by
  split
  · rename_i hlast; rw [hlast, Nat.mod_self]
  · exact Nat.mod_eq_of_lt (by omega)

theorem ringHeld_takeFrame (s : State) (hwr : s.wr < s.cfg.audioCap) (hrd : s.rd < s.cfg.audioCap) (hne : s.rd ≠ s.wr) :
    ringHeld s = ringHeld (takeFrame s) + 1 := by
  have hnext : (takeFrame s).rd = (s.rd + 1) % s.cfg.audioCap := by rw [takeFrame_of_held s hne]
  have hlt : (takeFrame s).rd < (takeFrame s).cfg.audioCap := by
    rw [hnext, takeFrame_cfg]; exact Nat.mod_lt _ (Nat.zero_lt_of_lt hrd)
  rw [ringHeld_eq s hwr hrd, ringHeld_eq (takeFrame s) (by simpa using hwr) hlt]
  rw [nextSlot_eq _ _ hrd] at hnext
  simp only [takeFrame_wr, takeFrame_cfg, hnext]
  split_ifs <;> omega

/-- The state after one dequeue of the AUX path inside a larger step. -/
def afterAux (s : State) : State := note (dequeueOutcome s) (takeFrame { s with audOwner := some .auxPath })

theorem afterAux_of_empty (s : State) (h : s.rd = s.wr) :
    afterAux s = note .underflow { s with audOwner := some .auxPath, audTrace := s.audTrace ++ [s.last] } := by
  simp [afterAux, dequeueOutcome, takeFrame, h]

theorem afterAux_of_held (s : State) (h : s.rd ≠ s.wr) :
    afterAux s = note .ok { s with
      audOwner := some .auxPath, rd := (s.rd + 1) % s.cfg.audioCap, last := ringFrame s s.rd
      audTrace := s.audTrace ++ [ringFrame s s.rd] } := by
  simp [afterAux, dequeueOutcome, takeFrame, h, ringFrame]

theorem afterAux_wr (s : State) : (afterAux s).wr = s.wr := by simp [afterAux]

theorem afterAux_cfg (s : State) : (afterAux s).cfg = s.cfg := by simp [afterAux]

theorem afterAux_rd_lt (s : State) (h : s.rd < s.cfg.audioCap) : (afterAux s).rd < (afterAux s).cfg.audioCap := by
  by_cases hempty : s.rd = s.wr
  · rw [afterAux_of_empty s hempty]; exact h
  · rw [afterAux_of_held s hempty]; exact Nat.mod_lt _ (Nat.zero_lt_of_lt h)

/-- The audio side after `n` dequeues of the AUX path and the outcomes they note (45_audio.md R255, R259; log 7). -/
def AuxRun (n : Nat) (s t : State) : Prop :=
  AuxDequeued n s t ∧ t.port = { s.port with inner := s.port.inner ++ auxOutcomes n s }

theorem auxRun_zero (s : State) (hrd : s.rd < s.cfg.audioCap) : AuxRun 0 s s := by
  simp [AuxRun, AuxDequeued, auxServed, auxFrames, auxOutcomes, Nat.mod_eq_of_lt hrd]

theorem auxServed_of_empty (n : Nat) (s : State) (h : s.rd = s.wr) : auxServed n s = 0 := by
  simp [auxServed, ringHeld_of_empty s h]

/-- A dequeue of an empty ring gives LAST again, and so does every one after it. -/
theorem auxRun_succ_of_empty (n : Nat) (s t : State) (h : s.rd = s.wr) (hrest : AuxRun n (afterAux s) t) :
    AuxRun (n + 1) s t := by
  have hserved := auxServed_of_empty (n + 1) s h
  rw [afterAux_of_empty s h] at hrest
  have hrestServed := auxServed_of_empty n
    (note .underflow { s with audOwner := some .auxPath, audTrace := s.audTrace ++ [s.last] }) h
  obtain ⟨⟨hrd, hlast, htrace, howner⟩, hport⟩ := hrest
  simp only [auxFrames, auxOutcomes, hrestServed] at hrd hlast htrace hport
  refine ⟨⟨?_, ?_, ?_, ?_⟩, ?_⟩
  · simpa [hserved] using hrd
  · simpa [auxFrames, hserved] using hlast
  · simpa [hlast, auxFrames, hserved, List.replicate_succ] using htrace
  · simpa using howner
  · simpa [auxOutcomes, hserved, List.replicate_succ] using hport

section Held
variable (s : State) (n : Nat) (hwr : s.wr < s.cfg.audioCap) (hrd : s.rd < s.cfg.audioCap) (hne : s.rd ≠ s.wr)
include hwr hrd hne

theorem auxServed_succ_of_held : auxServed (n + 1) s = auxServed n (afterAux s) + 1 := by
  have hheld : ringHeld s = ringHeld (afterAux s) + 1 :=
    ringHeld_takeFrame { s with audOwner := some .auxPath } hwr hrd hne
  simp only [auxServed, hheld]
  omega

theorem auxFrames_succ_of_held : auxFrames (n + 1) s = ringFrame s s.rd :: auxFrames n (afterAux s) := by
  have hslot : ∀ k, ((s.rd + 1) % s.cfg.audioCap + k) % s.cfg.audioCap = (s.rd + (k + 1)) % s.cfg.audioCap := by
    intro k; rw [Nat.mod_add_mod]; congr 1; omega
  rw [auxFrames, auxServed_succ_of_held s n hwr hrd hne, List.range_succ_eq_map]
  simp [auxFrames, afterAux_of_held s hne, ringFrame, hslot, Nat.mod_eq_of_lt hrd]

theorem auxOutcomes_succ_of_held : auxOutcomes (n + 1) s = .ok :: auxOutcomes n (afterAux s) := by
  simp [auxOutcomes, auxServed_succ_of_held s n hwr hrd hne, List.replicate_succ]

/-- A dequeue of a ring that holds frames takes the first, and the others take the rest. -/
theorem auxRun_succ_of_held (t : State) (hrest : AuxRun n (afterAux s) t) : AuxRun (n + 1) s t := by
  have hserved := auxServed_succ_of_held s n hwr hrd hne
  have hframes := auxFrames_succ_of_held s n hwr hrd hne
  have houtcomes := auxOutcomes_succ_of_held s n hwr hrd hne
  have hstep := afterAux_of_held s hne
  have hrd1 : (afterAux s).rd = (s.rd + 1) % s.cfg.audioCap := by rw [hstep]; rfl
  have hlast1 : (afterAux s).last = ringFrame s s.rd := by rw [hstep]; rfl
  have htrace1 : (afterAux s).audTrace = s.audTrace ++ [ringFrame s s.rd] := by rw [hstep]; rfl
  have hport1 : (afterAux s).port = { s.port with inner := s.port.inner ++ [.ok] } := by rw [hstep]; rfl
  have howner1 : (afterAux s).audOwner = some .auxPath := by rw [hstep]; rfl
  obtain ⟨⟨htrd, hlast, htrace, howner⟩, hport⟩ := hrest
  refine ⟨⟨?_, ?_, ?_, ?_⟩, ?_⟩
  · rw [htrd, hrd1, hserved, afterAux_cfg, Nat.mod_add_mod]; congr 1; omega
  · rw [hlast, hframes, List.getLastD_cons, hlast1]
  · simp [htrace, hframes, hserved, htrace1]
  · simpa [howner1] using howner
  · simp [hport, hport1, houtcomes]

end Held

/-- Any number of dequeues of the AUX path with the cursors in range. -/
theorem dequeueTimes_auxRun (n : Nat) (s t : State) (hwr : s.wr < s.cfg.audioCap) (hrd : s.rd < s.cfg.audioCap)
    (h : dequeueTimes .auxPath n s = .ok t) : AuxRun n s t := by
  induction n generalizing s with
  | zero => cases h; exact auxRun_zero _ hrd
  | succ n ih =>
    obtain ⟨_, hrest⟩ := (dequeueTimes_succ_ok .auxPath n s t).1 h
    have hrun : AuxRun n (afterAux s) t :=
      ih (afterAux s) (by rwa [afterAux_wr, afterAux_cfg]) (afterAux_rd_lt s hrd) hrest
    by_cases hempty : s.rd = s.wr
    · exact auxRun_succ_of_empty n s t hempty hrun
    · exact auxRun_succ_of_held s n hwr hrd hempty t hrun

/-! The end of a line. -/

/-- The state the dequeues read and write is the same: the build, the ring with its cursors and the audio side. -/
def SameAudio (s t : State) : Prop :=
  t.cfg = s.cfg ∧ t.epoch = s.epoch ∧ t.ring = s.ring ∧ t.wr = s.wr ∧ SameAudioOut s t

theorem sameAudio_trans {s t u : State} (h : SameAudio s t) (k : SameAudio t u) : SameAudio s u := by
  simp_all [SameAudio, SameAudioOut]

theorem onlyFrameSwitched_sameAudio {s t : State} (h : onlyFrameSwitched s t) : SameAudio s t := by
  unfold onlyFrameSwitched at h
  exact ⟨(congrArg State.cfg h :), (congrArg State.epoch h :), (congrArg State.ring h :), (congrArg State.wr h :),
    (congrArg State.rd h :), (congrArg State.last h :), (congrArg State.audTrace h :), (congrArg State.audOwner h :)⟩

/-- What dequeues do depends only on the audio side they start from. -/
theorem auxDequeued_of_sameAudio {n : Nat} {s u t : State} (hsame : SameAudio s u) (h : AuxDequeued n u t) :
    AuxDequeued n s t := by
  obtain ⟨hcfg, hepoch, hring, hwr, hrd, hlast, htrace, howner⟩ := hsame
  simpa only [AuxDequeued, auxFrames, auxServed, ringHeld, ringFrame, hcfg, hepoch, hring, hwr, hrd, hlast, htrace,
    howner] using h

theorem auxOutcomes_of_sameAudio {s u : State} (n : Nat) (hsame : SameAudio s u) :
    auxOutcomes n u = auxOutcomes n s := by
  obtain ⟨hcfg, _, _, hwr, hrd, _⟩ := hsame
  simp only [auxOutcomes, auxServed, ringHeld, hcfg, hwr, hrd]

/-- From `s` to `t` the audio side has advanced one line, after operations that ended with the outcomes `before`
(45_audio.md R259; log 7). -/
def AudioAdvanced (before : List OutcomeCode) (s t : State) : Prop :=
  (s.cfg.audioSink = .timer →
    SameAudioOut s t ∧ t.port = { s.port with inner := s.port.inner ++ before }) ∧
  (s.cfg.audioSink = .aux → s.wr < s.cfg.audioCap → s.rd < s.cfg.audioCap →
    AuxDequeued s.cfg.auxPerLine s t ∧
    t.port = { s.port with inner := s.port.inner ++ before ++ auxOutcomes s.cfg.auxPerLine s })

theorem advance_audioAdvanced {before : List OutcomeCode} {s u t : State} (hsame : SameAudio s u)
    (hport : u.port = { s.port with inner := s.port.inner ++ before }) (h : advance u = .ok t) :
    AudioAdvanced before s t := by
  obtain ⟨x, hx, rfl⟩ := (advance_ok u t).1 h
  have ⟨hcfg, _, _, hwr, hout⟩ := hsame
  refine ⟨fun htimer => ?_, fun haux hwrlt hrdlt => ?_⟩
  · rw [auxAudio_timer u (hcfg ▸ htimer)] at hx
    cases hx
    exact ⟨hout, hport⟩
  · have hx : dequeueTimes .auxPath s.cfg.auxPerLine u = .ok x := by simpa [auxAudio, hcfg, haux] using hx
    obtain ⟨hdeq, hxport⟩ :=
      dequeueTimes_auxRun _ u x (by rwa [hwr, hcfg]) (by rwa [hout.1, hcfg]) hx
    refine ⟨auxDequeued_of_sameAudio hsame hdeq, hxport.trans ?_⟩
    simp [hport, auxOutcomes_of_sameAudio _ hsame]

theorem advance_raster {s t : State} (h : advance s = .ok t) : t.v = nextLine s.cfg s.v ∧ t.phase = s.phase := by
  obtain ⟨u, hu, rfl⟩ := (advance_ok s t).1 h
  obtain ⟨hcfg, hv, hphase⟩ := onlyDequeued_sameRaster (auxAudio_onlyDequeued s u hu)
  exact ⟨by rw [hcfg, hv], hphase⟩

/-! The frame boundary. -/

theorem startOfFrame_port (s t : State) (h : startOfFrame s = .ok t) :
    t.port = { s.port with
      inner := s.port.inner ++ if s.v = tBpEnd s.cfg then [acquireOutcome (acquirePick s.fx)] else [] } := by
  rcases (startOfFrame_ok s t).1 h with ⟨hfirst, h⟩ | ⟨hfirst, rfl⟩
  · obtain ⟨_, rfl⟩ := (frameStart_ok s t).1 h
    simp [hfirst]
  · simp [hfirst]

/-- After `frame_start` VOUT displays a buffer if it did before or if one was acquired (41_scanline_sequencer.md R161). -/
theorem startOfFrame_dispValid (s t : State) (h : startOfFrame s = .ok t) :
    t.dispValid = true ↔ s.dispValid = true ∨ s.v = tBpEnd s.cfg ∧ acquirePick s.fx ≠ none := by
  rcases (startOfFrame_ok s t).1 h with ⟨hfirst, h⟩ | ⟨hfirst, rfl⟩
  · obtain ⟨_, rfl⟩ := (frameStart_ok s t).1 h
    cases acquirePick s.fx <;> simp [hfirst]
  · simp [hfirst]

theorem endOfFrame_port (s t : State) (h : endOfFrame s = .ok t) :
    t.port = { s.port with
      inner := s.port.inner ++ if s.v + 1 = vTotal s.cfg ∧ s.dispValid = true then [.ok] else [] } := by
  rcases (endOfFrame_ok s t).1 h with ⟨hlast, h⟩ | ⟨hlast, rfl⟩
  · rcases (frameEnd_ok s t).1 h with ⟨hshown, rfl⟩ | ⟨hshown, _, rfl⟩ <;> simp [hlast, hshown]
  · simp [hlast]

/-- What posting the work item of a displayed line does before the line's end: the raster registers and the audio side stay,
and the boundary's outcomes are noted (41_scanline_sequencer.md R158, R159). -/
theorem lineItem_boundary (ch : Slot) (words : List Word) (len : Nat) (s a b : State) (hshows : ShowsLine s)
    (ha : startOfFrame (markBusySlot ch s) = .ok a) (hb : endOfFrame (describeLine ch words len a) = .ok b) :
    SameRaster s b ∧ SameAudio s b ∧ b.port = { s.port with inner := s.port.inner ++ boundaryOutcomes s } := by
  have hsa := startOfFrame_onlyFrameSwitched _ a ha
  have hab := endOfFrame_onlyFrameSwitched _ b hb
  obtain ⟨hacfg, hav, haphase⟩ := onlyFrameSwitched_sameRaster hsa
  obtain ⟨hbcfg, hbv, hbphase⟩ := onlyFrameSwitched_sameRaster hab
  have hmark : SameAudio s (markBusySlot ch s) := by simp [SameAudio, SameAudioOut]
  have hdescribe : SameAudio a (describeLine ch words len a) := by simp [SameAudio, SameAudioOut]
  refine ⟨by simp [SameRaster, *], ?_, ?_⟩
  · exact sameAudio_trans hmark (sameAudio_trans (onlyFrameSwitched_sameAudio hsa)
      (sameAudio_trans hdescribe (onlyFrameSwitched_sameAudio hab)))
  · have hshown : a.dispValid = true ↔ s.dispValid = true ∨ s.v = tBpEnd s.cfg ∧ acquirePick s.fx ≠ none :=
      startOfFrame_dispValid (markBusySlot ch s) a ha
    have haport : a.port = { s.port with
        inner := s.port.inner ++ if s.v = tBpEnd s.cfg then [acquireOutcome (acquirePick s.fx)] else [] } :=
      startOfFrame_port (markBusySlot ch s) a ha
    rw [endOfFrame_port _ b hb, describeLine_port, haport, boundaryOutcomes, if_pos hshows]
    simp [hshown, hav, hacfg]

/-! `post`. -/

/-- A whole line has been posted: V has moved on, PHASE is `phase`, and the audio side has advanced by one line after the frame
boundary's operations. -/
def LinePosted (phase : Phase) (s t : State) : Prop :=
  t.v = nextLine s.cfg s.v ∧ t.phase = phase ∧ AudioAdvanced (boundaryOutcomes s) s t

theorem advance_linePosted {s u t : State} (hcfg : u.cfg = s.cfg) (hv : u.v = s.v) (hsame : SameAudio s u)
    (hport : u.port = { s.port with inner := s.port.inner ++ boundaryOutcomes s }) (h : advance u = .ok t) :
    LinePosted u.phase s t := by
  obtain ⟨htv, htphase⟩ := advance_raster h
  exact ⟨by rw [htv, hcfg, hv], htphase, advance_audioAdvanced hsame hport h⟩

theorem boundaryOutcomes_blank (s : State) (h : s.v < tBpEnd s.cfg) : boundaryOutcomes s = [] :=
  if_neg (fun hshows => absurd hshows.1 (Nat.not_le.2 h))

theorem post_blank (ch : Slot) (s t : State) (hblank : s.v < tBpEnd s.cfg) (h : post ch s = .ok t) :
    LinePosted s.phase s t := by
  rcases post_ok ch s t h with ⟨_, tbl, _, _, h⟩ | ⟨hv, _⟩ | ⟨hv, _⟩
  · have hposted := advance_linePosted (s := s) (by simp) (by simp) (by simp [SameAudio, SameAudioOut])
      (by simp [boundaryOutcomes_blank s hblank]) h
    simpa using hposted
  · omega
  · omega

theorem post_commandPhase (ch : Slot) (s t : State) (hactive : tBpEnd s.cfg ≤ s.v) (htwo : s.cfg.twoPhase = true)
    (hcmd : s.phase = .cmd) (h : post ch s = .ok t) :
    t.v = s.v ∧ t.phase = .pix ∧ SameAudioOut s t ∧ t.port = s.port := by
  rcases post_ok ch s t h with ⟨hv, _⟩ | ⟨_, _, _, h⟩ | ⟨_, _, hone, _⟩
  · omega
  · rcases (postActive2_ok ch _ t).1 h with ⟨_, rfl⟩ | ⟨hpix, _⟩
    · simp [SameAudioOut]
    · simp [hcmd] at hpix
  · simp [htwo] at hone

theorem post_pixelPhase (ch : Slot) (s t : State) (hactive : tBpEnd s.cfg ≤ s.v) (htwo : s.cfg.twoPhase = true)
    (hpix : s.phase = .pix) (h : post ch s = .ok t) : LinePosted .cmd s t := by
  rcases post_ok ch s t h with ⟨hv, _⟩ | ⟨_, hv, _, h⟩ | ⟨_, _, hone, _⟩
  · omega
  · rcases (postActive2_ok ch _ t).1 h with ⟨hcmd, _⟩ | ⟨_, a, b, ha, hb, ht⟩
    · simp [hpix] at hcmd
    · obtain ⟨⟨hcfg, hbv, _⟩, hsame, hport⟩ :=
        lineItem_boundary ch _ _ s a b ⟨hactive, hv, fun _ => hpix⟩ ha hb
      exact advance_linePosted (u := { b with phase := .cmd }) hcfg hbv hsame hport ht
  · simp [htwo] at hone

theorem post_wholeLine (ch : Slot) (s t : State) (hactive : tBpEnd s.cfg ≤ s.v) (hone : s.cfg.twoPhase = false)
    (h : post ch s = .ok t) : LinePosted s.phase s t := by
  rcases post_ok ch s t h with ⟨hv, _⟩ | ⟨_, _, htwo, _⟩ | ⟨_, hv, _, h⟩
  · omega
  · simp [hone] at htwo
  · obtain ⟨a, b, ha, hb, ht⟩ := (postActive1_ok ch _ t).1 h
    obtain ⟨⟨hcfg, hbv, hphase⟩, hsame, hport⟩ :=
      lineItem_boundary ch _ _ s a b ⟨hactive, hv, fun htwo => by simp [hone] at htwo⟩ ha hb
    exact hphase ▸ advance_linePosted hcfg hbv hsame hport ht

/-- Every `post` but that of a command phase posts a whole line, and leaves PHASE 0 after a pixel phase. -/
theorem post_linePosted (ch : Slot) (s t : State)
    (hwhole : ¬(tBpEnd s.cfg ≤ s.v ∧ s.cfg.twoPhase = true ∧ s.phase = .cmd)) (h : post ch s = .ok t) :
    LinePosted (if tBpEnd s.cfg ≤ s.v ∧ s.cfg.twoPhase = true then .cmd else s.phase) s t := by
  rcases Nat.lt_or_ge s.v (tBpEnd s.cfg) with hblank | hactive
  · rw [if_neg (fun hcase => absurd hcase.1 (Nat.not_le.2 hblank))]
    exact post_blank ch s t hblank h
  · cases htwo : s.cfg.twoPhase with
    | false =>
      rw [if_neg (by simp)]
      exact post_wholeLine ch s t hactive htwo h
    | true =>
      have hpix : s.phase = .pix := by
        cases hphase : s.phase with
        | cmd => exact absurd ⟨hactive, htwo, hphase⟩ hwhole
        | pix => rfl
      rw [if_pos ⟨hactive, rfl⟩]
      exact post_pixelPhase ch s t hactive htwo hpix h

/-- Settles O47: of the work items of `post` only the command phase of an active line ends no line. -/
theorem postAdvancesOnlyWholeLines : Obligations.PostAdvancesOnlyWholeLines := by
  intro s t ch h
  split
  · rename_i hcommand
    obtain ⟨hactive, htwo, hcmd⟩ := hcommand
    exact post_commandPhase ch s t hactive htwo hcmd h
  · rename_i hwhole
    exact post_linePosted ch s t hwhole h

end Sys2Proof.Machine
end

section
/-! The memories stay canonical (20_memory.md R60; log 12). -/

namespace Sys2Proof.Machine

/-- The three memories are the same in two states. -/
def SameMemories (s t : State) : Prop := t.fb = s.fb ∧ t.lineBuf = s.lineBuf ∧ t.ring = s.ring

theorem memInv_of_sameMemories {s t : State} (h : SameMemories s t) (hs : MemInv s) : MemInv t := by
  obtain ⟨hfb, hline, hring⟩ := h
  simpa only [MemInv, hfb, hline, hring] using hs

/-- Three updates write a memory: LINE_END a row, AUD_ENQ the ring, `post` a line buffer. -/
theorem update_memInv (s t : State) (h : Update s t) (hs : MemInv s) : MemInv t := by
  have ⟨hfb, hline, hring⟩ := hs
  cases h with
  | closeLine line =>
    exact ⟨closeLine_fb line s ▸ Memory.wf_writeList _ s.fb _ hfb, by simpa using hline, by simpa using hring⟩
  | enqueue count => exact ⟨by simpa using hfb, by simpa using hline, wf_enqueueFrames s count hring⟩
  | describeLine ch words len =>
    exact ⟨by simpa using hfb, by simpa using wf_fillLineBuf s ch words hline, by simpa using hring⟩
  | _ => exact memInv_of_sameMemories (by simp [SameMemories]) hs

theorem popEffect_sameMemories {s t : State} (h : PopEffect s t) : SameMemories s t := by
  cases h <;> simp [SameMemories]

theorem serPopTurn_memInv (s t : State) (h : serPopTurn s = .next t) (hs : MemInv s) : MemInv t := by
  rcases serPopTurn_effect s t h with ⟨_, rfl⟩ | ⟨w, rest, _, heffect⟩
  · exact hs
  · exact memInv_of_sameMemories (s := { s with fifo := rest }) (popEffect_sameMemories heffect) hs

/-- Settles O56: idle, an update and a pop keep the canonical form, and a reset leaves memories that list nothing. -/
theorem stepKeepsMemoriesCanonical : Obligations.StepKeepsMemoriesCanonical := by
  intro s t hs hstep
  rcases step_cases s t hstep with ⟨_, _, turns, hupdates⟩ | ⟨_, hpop⟩ | ⟨_, rfl⟩
  · exact hupdates.keeps update_memInv hs
  · exact serPopTurn_memInv _ t hpop hs
  · exact wf_resetWith s.cfg

end Sys2Proof.Machine
end

section
/-! A request that meets a held mutex (20_memory.md R74; log 15). -/

namespace Sys2Proof.Machine

/-- The port an operation of FrameExchange is a request at, with the sequencer stopped for those of the consumer
(30_encoding.md R91, 44_frame_exchange.md R235). -/
def MayUseExchange (i : Instr) (ctx : Context) (running : Bool) : Prop :=
  (ctx = .producer ∧
      ((∃ line, i = .lineBegin line ∨ i = .lineEnd line) ∨ (∃ buf, i = .publish buf) ∨ i = .frameComplete)) ∨
    (ctx = .consumerThread ∧ running = false ∧ (i = .acquire ∨ ∃ buf, i = .release buf))

theorem serve_wait (p : Context → Bool) (s : State) (a : Attempt State) (hport : p s.port.ctx = true)
    (hwait : a = .error .wait) : serve p s a = .next (clearOutputs s) := by
  rw [serve_allowed p s a hport, hwait]; rfl

theorem bind_wait {α β : Type} (a : Attempt α) (f : α → Attempt β) (h : a = .error .wait) :
    (a >>= f) = .error .wait := by rw [h]; rfl

theorem whileStopped_of_stopped (s : State) (a : Attempt State) (h : s.run = false) : whileStopped s a = a := by
  simp [whileStopped, h]

theorem acquireFrame_held (s : State) (h : s.fx.lock ≠ .free) : acquireFrame s = .error .wait :=
  bind_wait _ _ (underMutex_held .consumer s _ h)

theorem releaseFrame_held (b : BufId) (s : State) (h : s.fx.lock ≠ .free) : releaseFrame b s = .error .wait :=
  underMutex_held .consumer s _ h

/-- Each of the six operations asks for the mutex before anything else, and waits where it is held. -/
theorem exec_waits (w : Word) (i : Instr) (s : State) (hdecode : decodeReq w = .ok i) (hheld : s.fx.lock ≠ .free)
    (hmay : MayUseExchange i s.port.ctx s.run) : exec i s = .next (clearOutputs s) := by
  have hmutex : ∀ act, underMutex .producer s act = .error .wait := fun act => underMutex_held _ s act hheld
  rcases hmay with ⟨hctx, ⟨line, hi⟩ | ⟨buf, rfl⟩ | rfl⟩ | ⟨hctx, hstopped, rfl | ⟨buf, rfl⟩⟩
  · have hline : lineLegal line = true := by
      rw [lineLegal_iff]
      rcases hi with rfl | rfl
      all_goals simpa [fbHeight] using decodeReq_ok w _ hdecode
    rcases hi with rfl | rfl
    · exact serve_wait _ s _ (by simp [producerPort, hctx]) (by rw [if_pos hline, hmutex])
    · exact serve_wait _ s _ (by simp [producerPort, hctx]) (by rw [if_pos hline, hmutex])
  · exact serve_wait _ s _ (by simp [producerPort, hctx]) (hmutex _)
  · exact serve_wait _ s _ (by simp [producerPort, hctx]) (hmutex _)
  · refine serve_wait _ s _ (by simp [consumerPort, hctx]) ?_
    rw [whileStopped_of_stopped s _ hstopped]
    exact bind_wait _ _ (acquireFrame_held s hheld)
  · refine serve_wait _ s _ (by simp [consumerPort, hctx]) ?_
    rw [whileStopped_of_stopped s _ hstopped]
    exact bind_wait _ _ (releaseFrame_held buf s hheld)

/-- Settles O11: the operation waits, so it ends with no outcome, and a request with no outcome is offered again. -/
theorem heldMutexMakesRequestWait : Obligations.HeldMutexMakesRequestWait := by
  intro s ctx w pl rest i hlegal hoffer hdecode hheld hmay
  have hwait := exec_waits w i (present ctx pl { beginStep s with inbox := rest }) hdecode hheld hmay
  calc step s
      = settleRequest (.request ctx w pl) (exec i (present ctx pl { beginStep s with inbox := rest })) :=
        stepRunsDecodedRequest s ctx w pl rest i hlegal hoffer hdecode
    _ = settleRequest (.request ctx w pl) (.next (clearOutputs (present ctx pl { beginStep s with inbox := rest }))) := by
        rw [hwait]

end Sys2Proof.Machine
end

section
/-! Why the transfers stay inside their regions (20_memory.md R62, R66): what each step leaves of the two channels. -/

namespace Sys2Proof.Machine

/-! The regions of a legal build. -/

theorem tablesLegal_of_legal (c : Config) (h : buildLegal c = true) :
    4 ≤ c.cmdListLen ∧ c.cmdListLen ≤ 256 ∧ c.cmdListLen + 160 ≤ 1024 := by
  simp only [buildLegal, tablesLegal, Bool.and_eq_true, decide_eq_true_eq] at h
  obtain ⟨⟨⟨_, ⟨⟨_, hmin⟩, hmax⟩, hline⟩, _⟩, _⟩ := h
  exact ⟨hmin, hmax, hline⟩

/-- No region reaches the end of DMASPACE (20_memory.md R66). -/
theorem region_end_lt (c : Config) (r : Region) (h : buildLegal c = true) :
    regionBase r + regionSize c r < 65536 := by
  obtain ⟨_, hlist, hline⟩ := tablesLegal_of_legal c h
  cases r with
  | table t => cases t <;> simp [regionBase, regionSize, tableBase] <;> omega
  | lineBuf ch => cases ch <;> simp [regionBase, regionSize, lineBufBase, lbWords, wordsPerLine] <;> omega

theorem mem_allRegions (r : Region) : r ∈ allRegions := by
  cases r with
  | table t => cases t <;> decide
  | lineBuf ch => cases ch <;> decide

theorem descriptorLegal_iff (c : Config) (src len : BitVec 16) :
    descriptorLegal c src len = true ↔ len ≠ 0 ∧ ∃ r, regionBase r = src.toNat ∧ len.toNat ≤ regionSize c r := by
  simp [descriptorLegal, mem_allRegions]

/-- A descriptor of the first `len` words of a region is legal. -/
theorem descriptorLegal_region (c : Config) (r : Region) (len : Nat) (hlegal : buildLegal c = true) (hpos : 1 ≤ len)
    (hfits : len ≤ regionSize c r) :
    descriptorLegal c (BitVec.ofNat 16 (regionBase r)) (BitVec.ofNat 16 len) = true := by
  have hend := region_end_lt c r hlegal
  have hbase : (BitVec.ofNat 16 (regionBase r)).toNat = regionBase r := by
    rw [BitVec.toNat_ofNat]; exact Nat.mod_eq_of_lt (by omega)
  have hlen : (BitVec.ofNat 16 len).toNat = len := by
    rw [BitVec.toNat_ofNat]; exact Nat.mod_eq_of_lt (by omega)
  refine (descriptorLegal_iff c _ _).2 ⟨fun hzero => ?_, r, hbase.symm, hlen.trans_le hfits⟩
  have hempty : 0 = len := by simpa [hzero] using hlen
  omega

theorem tableWords_length (c : Config) (t : TableId) (h : 4 ≤ c.cmdListLen) :
    (tableWords c t).length = c.cmdListLen := by
  cases t <;> simp [tableWords, tableCommands, tablePadding] <;> omega

/-- Every address of a region has a word (20_memory.md R66). -/
theorem dmaRead_of_region (s : State) (a : BitVec 16) (r : Region) (hlegal : buildLegal s.cfg = true)
    (hbase : regionBase r ≤ a.toNat) (hend : a.toNat < regionBase r + regionSize s.cfg r) :
    ∃ w, dmaRead s a = some w := by
  obtain ⟨hlist, _, _⟩ := tablesLegal_of_legal s.cfg hlegal
  cases hat : regionAt s.cfg a.toNat with
  | none =>
    have hout := List.find?_eq_none.1 hat r (mem_allRegions r)
    simp [hbase, hend] at hout
  | some q =>
    have hin := List.find?_some hat
    simp only [Bool.and_eq_true, decide_eq_true_eq] at hin
    cases q with
    | table t =>
      have hindex : a.toNat - tableBase t < (tableWords s.cfg t).length := by
        rw [tableWords_length s.cfg t hlist]
        simp only [regionBase, regionSize] at hin
        omega
      exact ⟨_, by simp only [dmaRead, hat]; exact List.getElem?_eq_getElem hindex⟩
    | lineBuf ch => exact ⟨_, by simp only [dmaRead, hat]; rfl⟩

/-! The invariant, channel by channel. -/

/-- The descriptor of channel `ch` is one the model accepts. -/
def DescriptorOk (s : State) (ch : Slot) : Prop := descriptorLegal s.cfg (s.chan ch).src (s.chan ch).len = true

/-- If channel `ch` is busy, VOUT runs and the transfer lies inside one region. -/
def TransferOk (s : State) (ch : Slot) : Prop := (s.chan ch).busy = true → s.run = true ∧ TransferInRegion s (s.chan ch)

theorem dmaInv_iff (s : State) :
    DmaInv s ↔ (s.run = true → ∀ ch, DescriptorOk s ch) ∧ ∀ ch, TransferOk s ch := by
  constructor
  · rintro ⟨hdesc, hping, hpong⟩
    exact ⟨fun hrun ch => by cases ch <;> [exact (hdesc hrun).1; exact (hdesc hrun).2],
      fun ch => by cases ch <;> [exact hping; exact hpong]⟩
  · rintro ⟨hdesc, htransfer⟩
    exact ⟨fun hrun => ⟨hdesc hrun .ping, hdesc hrun .pong⟩, htransfer .ping, htransfer .pong⟩

/-- The build, RUN and the two channels are the same in two states. -/
def SameTransfers (s t : State) : Prop := t.cfg = s.cfg ∧ t.run = s.run ∧ t.ch0 = s.ch0 ∧ t.ch1 = s.ch1

theorem dmaInv_of_sameTransfers {s t : State} (h : SameTransfers s t) (hs : DmaInv s) : DmaInv t := by
  obtain ⟨hcfg, hrun, hping, hpong⟩ := h
  simpa only [DmaInv, TransferInRegion, hcfg, hrun, hping, hpong] using hs

theorem sameTransfers_trans {s t u : State} (h : SameTransfers s t) (k : SameTransfers t u) : SameTransfers s u := by
  obtain ⟨hcfg, hrun, hping, hpong⟩ := h
  obtain ⟨kcfg, krun, kping, kpong⟩ := k
  exact ⟨kcfg.trans hcfg, krun.trans hrun, kping.trans hping, kpong.trans hpong⟩

theorem sameTransfers_chan {s t : State} (h : SameTransfers s t) (ch : Slot) : t.chan ch = s.chan ch := by
  obtain ⟨_, _, hping, hpong⟩ := h
  cases ch <;> [exact hping; exact hpong]

theorem onlyDequeued_sameTransfers {s t : State} (h : onlyDequeued s t) : SameTransfers s t := by
  unfold onlyDequeued at h
  exact ⟨(congrArg State.cfg h :), (congrArg State.run h :), (congrArg State.ch0 h :), (congrArg State.ch1 h :)⟩

theorem onlyFrameSwitched_sameTransfers {s t : State} (h : onlyFrameSwitched s t) : SameTransfers s t := by
  unfold onlyFrameSwitched at h
  exact ⟨(congrArg State.cfg h :), (congrArg State.run h :), (congrArg State.ch0 h :), (congrArg State.ch1 h :)⟩

theorem advance_sameTransfers {s t : State} (h : advance s = .ok t) : SameTransfers s t := by
  obtain ⟨u, hu, rfl⟩ := (advance_ok s t).1 h
  have hdequeued : SameTransfers s u := onlyDequeued_sameTransfers (auxAudio_onlyDequeued s u hu)
  exact hdequeued

/-! What `post` writes of the channels. -/

/-- From `s` to `t` the build, RUN and the channels stay, but that slot `ch` holds a legal descriptor of a new work item
(42_dma_scheduler.md R184): the transfer of a busy channel goes on as it was. -/
def Described (ch : Slot) (s t : State) : Prop :=
  t.cfg = s.cfg ∧ t.run = s.run ∧ t.chan (otherSlot ch) = s.chan (otherSlot ch) ∧
    ∃ src len, descriptorLegal s.cfg src len = true ∧ t.chan ch = { s.chan ch with src := src, len := len }

theorem described_of_sameTransfers {ch : Slot} {s a b t : State} (hbefore : SameTransfers s a) (h : Described ch a b)
    (hafter : SameTransfers b t) : Described ch s t := by
  obtain ⟨hcfg, hrun, hother, src, len, hlegal, hchan⟩ := h
  refine ⟨hafter.1.trans (hcfg.trans hbefore.1), hafter.2.1.trans (hrun.trans hbefore.2.1), ?_, src, len, ?_, ?_⟩
  · rw [sameTransfers_chan hafter, hother, sameTransfers_chan hbefore]
  · rwa [← hbefore.1]
  · rw [sameTransfers_chan hafter, hchan, sameTransfers_chan hbefore]

theorem describeTable_described (ch : Slot) (tbl : TableId) (s : State) (hlegal : buildLegal s.cfg = true) :
    Described ch s (describeTable ch tbl s) := by
  obtain ⟨hlist, _, _⟩ := tablesLegal_of_legal s.cfg hlegal
  refine ⟨by simp, by simp, by simp, _, _, ?_, describeTable_chan_same ch tbl s⟩
  exact descriptorLegal_region s.cfg (.table tbl) s.cfg.cmdListLen hlegal (by omega) le_rfl

theorem describeLine_described (ch : Slot) (words : List Word) (len : Nat) (s : State)
    (hlegal : buildLegal s.cfg = true) (hpos : 1 ≤ len) (hfits : len ≤ lbWords s.cfg) :
    Described ch s (describeLine ch words len s) := by
  refine ⟨by simp, by simp, by simp, _, _, ?_, describeLine_chan_same ch words len s⟩
  exact descriptorLegal_region s.cfg (.lineBuf ch) len hlegal hpos hfits

theorem postActive2_described (ch : Slot) (s t : State) (hlegal : buildLegal s.cfg = true)
    (h : postActive2 ch s = .ok t) : Described ch s t := by
  rcases (postActive2_ok ch s t).1 h with ⟨_, rfl⟩ | ⟨_, a, b, ha, hb, ht⟩
  · exact describeTable_described ch .active s hlegal
  · have hstart := onlyFrameSwitched_sameTransfers (startOfFrame_onlyFrameSwitched s a ha)
    have hend := onlyFrameSwitched_sameTransfers (endOfFrame_onlyFrameSwitched _ b hb)
    have hline : SameTransfers b t := (advance_sameTransfers ht :)
    refine described_of_sameTransfers hstart ?_ (sameTransfers_trans hend hline)
    exact describeLine_described ch _ wordsPerLine a (hstart.1 ▸ hlegal) (by decide) (Nat.le_add_left _ _)

theorem postActive1_described (ch : Slot) (s t : State) (hlegal : buildLegal s.cfg = true)
    (h : postActive1 ch s = .ok t) : Described ch s t := by
  obtain ⟨a, b, ha, hb, ht⟩ := (postActive1_ok ch s t).1 h
  have hstart := onlyFrameSwitched_sameTransfers (startOfFrame_onlyFrameSwitched s a ha)
  have hend := onlyFrameSwitched_sameTransfers (endOfFrame_onlyFrameSwitched _ b hb)
  refine described_of_sameTransfers hstart ?_ (sameTransfers_trans hend (advance_sameTransfers ht))
  exact describeLine_described ch _ _ a (hstart.1 ▸ hlegal) (Nat.le_add_left _ _) le_rfl

theorem post_described (ch : Slot) (s t : State) (hlegal : buildLegal s.cfg = true) (h : post ch s = .ok t) :
    Described ch s t := by
  have hmark : SameTransfers s (markBusySlot ch s) := by simp [SameTransfers]
  have hmlegal : buildLegal (markBusySlot ch s).cfg = true := by simpa using hlegal
  rcases post_ok ch s t h with ⟨_, tbl, _, _, h⟩ | ⟨_, _, _, h⟩ | ⟨_, _, _, h⟩
  · exact described_of_sameTransfers hmark (describeTable_described ch tbl _ hmlegal) (advance_sameTransfers h)
  · exact described_of_sameTransfers hmark (postActive2_described ch _ t hmlegal h) ⟨rfl, rfl, rfl, rfl⟩
  · exact described_of_sameTransfers hmark (postActive1_described ch _ t hmlegal h) ⟨rfl, rfl, rfl, rfl⟩

theorem described_descriptorOk {ch : Slot} {s t : State} (h : Described ch s t) : DescriptorOk t ch := by
  obtain ⟨hcfg, _, _, src, len, hlegal, hchan⟩ := h
  rwa [DescriptorOk, hchan, hcfg]

/-- A property of every channel is one of a slot and of the other slot. -/
theorem forall_slot_iff (P : Slot → Prop) (ch : Slot) : (∀ x, P x) ↔ P ch ∧ P (otherSlot ch) := by
  cases ch
  · exact ⟨fun h => ⟨h _, h _⟩, fun ⟨h, k⟩ x => by cases x <;> assumption⟩
  · exact ⟨fun h => ⟨h _, h _⟩, fun ⟨h, k⟩ x => by cases x <;> assumption⟩

/-- A new descriptor leaves a transfer that is running alone. -/
theorem described_transferOk {ch : Slot} {s t : State} (h : Described ch s t) (hs : ∀ x, TransferOk s x) :
    ∀ x, TransferOk t x := by
  obtain ⟨hcfg, hrun, hother, src, len, _, hchan⟩ := h
  rw [forall_slot_iff _ ch] at hs ⊢
  simpa only [TransferOk, TransferInRegion, hcfg, hrun, hother, hchan] using hs

theorem described_dmaInv {ch : Slot} {s t : State} (h : Described ch s t) (hs : DmaInv s) : DmaInv t := by
  rw [dmaInv_iff] at hs ⊢
  obtain ⟨hdesc, htransfer⟩ := hs
  refine ⟨fun hrun => (forall_slot_iff _ ch).2 ⟨described_descriptorOk h, ?_⟩, described_transferOk h htransfer⟩
  obtain ⟨hcfg, hrunEq, hother, _⟩ := h
  have hbefore : DescriptorOk s (otherSlot ch) := hdesc (hrunEq ▸ hrun) _
  rwa [DescriptorOk, hother, hcfg]

/-! The steps of the channels. -/

/-- Writing the registers of one channel keeps the invariant, if the descriptor stays and the transfer is inside a region. -/
theorem setChan_dmaInv (ch : Slot) (c : Channel) (s : State) (hs : DmaInv s) (hsrc : c.src = (s.chan ch).src)
    (hlen : c.len = (s.chan ch).len) (hbusy : c.busy = true → s.run = true ∧ TransferInRegion s c) :
    DmaInv (s.setChan ch c) := by
  rw [dmaInv_iff] at hs ⊢
  simp only [forall_slot_iff _ ch] at hs ⊢
  simpa [DescriptorOk, TransferOk, TransferInRegion, hsrc, hlen] using ⟨hs.1, hbusy, hs.2.2⟩

/-- A channel that is loaded with a legal descriptor starts inside one region (42_dma_scheduler.md R181). -/
theorem loadedChannel_inRegion (s : State) (c : Channel) (h : descriptorLegal s.cfg c.src c.len = true) :
    TransferInRegion s (loadedChannel c) := by
  obtain ⟨_, r, hbase, hsize⟩ := (descriptorLegal_iff _ _ _).1 h
  refine ⟨r, mem_allRegions r, ?_, ?_⟩
  · exact hbase.le
  · simp only [loadedChannel]; omega

theorem dmaTrigger_dmaInv (ch : Slot) (s t : State) (hs : DmaInv s) (hrun : s.run = true)
    (h : dmaTrigger ch s = .ok t) : DmaInv t := by
  rcases (dmaTrigger_ok ch s t).1 h with ⟨_, rfl⟩ | ⟨_, hdesc, rfl⟩
  · exact hs
  · exact setChan_dmaInv ch _ s hs rfl rfl (fun _ => ⟨hrun, loadedChannel_inRegion s _ hdesc⟩)

theorem dmaInv_busy {s : State} {ch : Slot} (hs : DmaInv s) (h : (s.chan ch).busy = true) :
    s.run = true ∧ TransferInRegion s (s.chan ch) := ((dmaInv_iff s).1 hs).2 ch h

/-- The word after the one just read is in the same region, or the transfer is at its end (42_dma_scheduler.md R182). -/
theorem transferInRegion_next (s : State) (c : Channel) (hlegal : buildLegal s.cfg = true) (hrem : c.rem ≠ 0)
    (h : TransferInRegion s c) : TransferInRegion s { c with rptr := c.rptr + 1, rem := c.rem - 1 } := by
  obtain ⟨r, hr, hbase, hend⟩ := h
  have hbound := region_end_lt s.cfg r hlegal
  have hpos : 0 < c.rem.toNat := Nat.pos_of_ne_zero (fun hzero => hrem (BitVec.eq_of_toNat_eq hzero))
  have hptr : (c.rptr + 1).toNat = c.rptr.toNat + 1 := by
    rw [BitVec.toNat_add]; exact Nat.mod_eq_of_lt (by simp; omega)
  have hleft : (c.rem - 1).toNat = c.rem.toNat - 1 := by bv_omega
  refine ⟨r, hr, ?_, ?_⟩
  · simp only [hptr]; omega
  · simp only [hptr, hleft]; omega

theorem dmaXferEnabled_iff (ch : Slot) (s : State) :
    dmaXferEnabled ch s = true ↔
      (s.chan ch).busy = true ∧ (s.chan ch).rem ≠ 0 ∧ s.fifo.length < s.cfg.fifoDepth := by
  simp [dmaXferEnabled, and_assoc]

theorem dmaCompleteEnabled_iff (ch : Slot) (s : State) :
    dmaCompleteEnabled ch s = true ↔ (s.chan ch).busy = true ∧ (s.chan ch).rem = 0 := by
  simp [dmaCompleteEnabled]

theorem dmaXfer_dmaInv (ch : Slot) (s t : State) (hs : DmaInv s) (hlegal : buildLegal s.cfg = true)
    (henabled : dmaXferEnabled ch s = true) (h : dmaXfer ch s = .ok t) : DmaInv t := by
  obtain ⟨w, _, rfl⟩ := (dmaXfer_ok ch s t).1 h
  obtain ⟨hbusy, hrem, _⟩ := (dmaXferEnabled_iff ch s).1 henabled
  obtain ⟨hrun, hinside⟩ := dmaInv_busy hs hbusy
  have hpush : DmaInv { s with fifo := s.fifo ++ [w] } := hs
  have hchan : State.chan { s with fifo := s.fifo ++ [w] } ch = s.chan ch := by cases ch <;> rfl
  exact setChan_dmaInv ch _ _ hpush (by rw [hchan]) (by rw [hchan])
    (fun _ => ⟨hrun, transferInRegion_next s _ hlegal hrem hinside⟩)

/-- A completion leaves its channel idle, with the descriptor it had (42_dma_scheduler.md R183). -/
theorem completed_dmaInv (ch : Slot) (s : State) (hs : DmaInv s) :
    DmaInv (s.setChan ch { s.chan ch with busy := false, done := true }) :=
  setChan_dmaInv ch _ s hs rfl rfl (fun hbusy => by simp at hbusy)

theorem dmaComplete_dmaInv (ch : Slot) (s t : State) (hs : DmaInv s) (henabled : dmaCompleteEnabled ch s = true)
    (h : dmaComplete ch s = .ok t) : DmaInv t := by
  obtain ⟨hbusy, _⟩ := (dmaCompleteEnabled_iff ch s).1 henabled
  obtain ⟨hrun, _⟩ := dmaInv_busy hs hbusy
  exact dmaTrigger_dmaInv _ _ t (completed_dmaInv ch s hs) (by simpa using hrun) h

/-- The acknowledgement clears a completion flag and moves the toggle (42_dma_scheduler.md R186). -/
theorem acknowledge_dmaInv (s : State) (hs : DmaInv s) : DmaInv (acknowledge s) := by
  have htoggle : DmaInv { s with lastDone := otherSlot s.lastDone } := hs
  have hchan : ∀ ch, State.chan { s with lastDone := otherSlot s.lastDone } ch = s.chan ch :=
    fun ch => by cases ch <;> rfl
  exact setChan_dmaInv _ _ _ htoggle (by rw [hchan]) (by rw [hchan]) (fun hbusy => dmaInv_busy hs hbusy)

theorem handler_dmaInv (s t : State) (hs : DmaInv s) (hlegal : buildLegal s.cfg = true) (h : handler s = .ok t) :
    DmaInv t :=
  described_dmaInv (post_described _ _ t (by simpa using hlegal) h) (acknowledge_dmaInv s hs)

/-- START writes both descriptors before it triggers the first (41_scanline_sequencer.md R162): then VOUT runs, both are
legal and no channel is busy. -/
theorem startPosted_dmaInv (s a b : State) (hs : DmaInv s) (hlegal : buildLegal s.cfg = true) (hstopped : s.run = false)
    (ha : post .ping (startSequencer s) = .ok a) (hb : post .pong a = .ok b) : DmaInv b ∧ b.run = true := by
  have hping : Described .ping (startSequencer s) a := post_described _ _ a (by simpa using hlegal) ha
  have hpong : Described .pong a b := post_described _ _ b (by rw [hping.1]; simpa using hlegal) hb
  have hidle : ∀ ch, TransferOk (startSequencer s) ch := by
    intro ch hbusy
    have hrun := (dmaInv_busy hs (ch := ch) (by simpa using hbusy)).1
    simp [hstopped] at hrun
  have hfirst : DescriptorOk b .ping := by
    have h := described_descriptorOk hping
    rwa [DescriptorOk, hpong.1, show b.chan .ping = a.chan .ping from hpong.2.2.1]
  refine ⟨(dmaInv_iff b).2 ⟨fun _ => (forall_slot_iff _ .ping).2 ⟨hfirst, described_descriptorOk hpong⟩,
    described_transferOk hpong (described_transferOk hping hidle)⟩, ?_⟩
  rw [hpong.2.1, hping.2.1]
  simp

theorem execStart_dmaInv (s t : State) (hs : DmaInv s) (hlegal : buildLegal s.cfg = true) (h : execStart s = .next t) :
    DmaInv t := by
  obtain ⟨_, ⟨_, rfl⟩ | ⟨hstopped, a, b, c, ha, hb, hc, rfl⟩ | ⟨_, rfl⟩⟩ := execStart_next s t h
  · exact hs
  · obtain ⟨hinv, hrun⟩ := startPosted_dmaInv s a b hs hlegal hstopped ha hb
    exact dmaTrigger_dmaInv .ping b c hinv hrun hc
  · exact hs

/-! The other requests and turns. -/

theorem execPublish_sameTransfers (c : BufId) (s t : State) (h : execPublish c s = .next t) : SameTransfers s t := by
  obtain ⟨_, ⟨_, _, _, rfl⟩ | ⟨_, _, rfl⟩ | ⟨_, rfl⟩⟩ := execPublish_next c s t h <;> simp [SameTransfers]

/-- No request but START writes RUN or a channel. -/
theorem exec_request_sameTransfers (w : Word) (i : Instr) (s t : State) (hdecode : decodeReq w = .ok i)
    (hstart : i ≠ .start) (h : exec i s = .next t) : SameTransfers s t := by
  rcases decodeReq_ok w i hdecode with ⟨line, _, rfl | rfl⟩ | ⟨b, rfl⟩ | rfl | rfl | ⟨n, rfl⟩ | ⟨mode, rfl⟩ | rfl |
    ⟨b, rfl⟩ | rfl | rfl
  · obtain ⟨_, ⟨_, rfl⟩ | ⟨_, _, rfl⟩ | ⟨_, rfl⟩⟩ := execLineBegin_next line s t h <;> simp [SameTransfers, badRequest]
  · obtain ⟨_, ⟨_, rfl⟩ | ⟨_, _, _, rfl⟩ | ⟨_, rfl⟩⟩ := execLineEnd_next line s t h <;> simp [SameTransfers, badRequest]
  · exact execPublish_sameTransfers b s t h
  · exact execPublish_sameTransfers s.fx.wt s t h
  · obtain ⟨_, h⟩ := (serve_next _ _ _ _).1 h
    cases h; simp [SameTransfers]
  · obtain ⟨_, h⟩ := (serve_next _ _ _ _).1 h
    cases h; simp [SameTransfers]
  · obtain ⟨_, h⟩ := (serve_next _ _ _ _).1 h
    cases h; simp [SameTransfers]
  · obtain ⟨_, _, ⟨_, rfl⟩ | rfl⟩ := execAcquire_next s t h <;> simp [SameTransfers]
  · obtain ⟨_, _, ⟨_, rfl⟩ | rfl⟩ := execRelease_next b s t h <;> simp [SameTransfers]
  · obtain ⟨_, _, rfl⟩ := execAudDeq_next s t h
    simp [SameTransfers]
  · exact absurd rfl hstart

theorem exec_request_dmaInv (w : Word) (i : Instr) (s t : State) (hs : DmaInv s) (hlegal : buildLegal s.cfg = true)
    (hdecode : decodeReq w = .ok i) (h : exec i s = .next t) : DmaInv t := by
  by_cases hstart : i = .start
  · subst hstart; exact execStart_dmaInv s t hs hlegal h
  · exact dmaInv_of_sameTransfers (exec_request_sameTransfers w i s t hdecode hstart h) hs

theorem requestTurn_dmaInv (ctx : Context) (w : Word) (pl : List (List Byte)) (s t : State) (hs : DmaInv s)
    (hlegal : buildLegal s.cfg = true) (h : requestTurn ctx w pl s = .next t) : DmaInv t := by
  rcases requestTurn_next ctx w pl s t h with ⟨i, u, hdecode, hexec, rfl⟩ | ⟨_, _, rfl⟩
  · have hu : DmaInv u := exec_request_dmaInv w i (present ctx pl s) u hs hlegal hdecode hexec
    split <;> exact hu
  · exact hs

theorem popEffect_sameTransfers {s t : State} (h : PopEffect s t) : SameTransfers s t := by
  cases h <;> simp [SameTransfers]

theorem serPopTurn_dmaInv (s t : State) (hs : DmaInv s) (h : serPopTurn s = .next t) : DmaInv t := by
  rcases serPopTurn_effect s t h with ⟨_, rfl⟩ | ⟨w, rest, _, heffect⟩
  · exact hs
  · exact dmaInv_of_sameTransfers (s := { s with fifo := rest }) (popEffect_sameTransfers heffect) hs

theorem audIsr_sameTransfers (s t : State) (h : audIsr s = .ok t) : SameTransfers s t := by
  obtain ⟨u, hu, ht⟩ := (bind_ok _ _ _).1 h
  obtain ⟨_, rfl⟩ := (dequeue_ok _ _ _).1 hu
  cases ht
  simp [SameTransfers]

/-- A step taken where it is enabled keeps the invariant, if what it does keeps it: a step that waits or passes does. -/
theorem whenEnabled_dmaInv (enabled : Bool) (s t : State) (a : Attempt State) (hs : DmaInv s)
    (ha : ∀ u, enabled = true → a = .ok u → DmaInv u) (h : whenEnabled enabled s a = .next t) : DmaInv t := by
  rcases (whenEnabled_next _ _ _ _).1 h with ⟨henabled, h⟩ | ⟨_, rfl⟩
  · rcases (finish_next _ _ _).1 h with h | ⟨_, rfl⟩
    · exact ha t henabled h
    · exact hs
  · exact hs

theorem takeTurn_dmaInv (turn : Turn) (s t : State) (hs : DmaInv s) (hlegal : buildLegal s.cfg = true)
    (h : takeTurn turn s = .next t) : DmaInv t := by
  cases turn with
  | request ctx w pl => exact requestTurn_dmaInv ctx w pl s t hs hlegal h
  | dmaXfer ch => exact whenEnabled_dmaInv _ s t _ hs (fun u he hu => dmaXfer_dmaInv ch s u hs hlegal he hu) h
  | dmaComplete ch => exact whenEnabled_dmaInv _ s t _ hs (fun u he hu => dmaComplete_dmaInv ch s u hs he hu) h
  | handler => exact whenEnabled_dmaInv _ s t _ hs (fun u _ hu => handler_dmaInv s u hs hlegal hu) h
  | serPop => exact serPopTurn_dmaInv s t hs h
  | audTick => cases h; exact dmaInv_of_sameTransfers (by simp [SameTransfers]) hs
  | audIsr =>
    exact whenEnabled_dmaInv _ s t _ hs (fun u _ hu => dmaInv_of_sameTransfers (audIsr_sameTransfers s u hu) hs) h
  | reset => cases h; exact ⟨nofun, nofun, nofun⟩

theorem step_dmaInv (s t : State) (hs : DmaInv s) (h : step s = .next t) : DmaInv t := by
  obtain ⟨hlegal, ⟨_, rfl⟩ | ⟨turn, _, ht⟩⟩ := (step_next s t).1 h
  · exact hs
  · exact takeTurn_dmaInv turn { beginStep s with inbox := s.inbox.tail } t hs hlegal ht

end Sys2Proof.Machine
end

section
/-! That no step stops in a transfer: the fault of a reserved address comes from `dma_xfer` alone, the refusal of a bad
descriptor from the trigger of a channel alone, and under the invariant neither of them raises it. -/

namespace Sys2Proof.Machine

/-- The stops of the transfer channels: a reserved address and a bad descriptor (20_memory.md R62, R66, 93 U8; log 23). -/
def Halt.ofTransfer : Halt → Bool
  | .fault _ => true
  | .refuse (.badDescriptor _ _ _) => true
  | _ => false

/-- If the attempt is not carried out, it is for another reason than a transfer. -/
def TransferSafe {α : Type} (a : Attempt α) : Prop := ∀ h, a = .error h → h.ofTransfer = false

/-- The step stops in no fault and in no bad descriptor. -/
def NoTransferStop (o : Host.Outcome State Fault Refusal) : Prop :=
  (∀ f, o ≠ .fault f) ∧ ∀ ch src len, o ≠ .refused (.badDescriptor ch src len)

/-! Attempts. -/

theorem safe_ok {α : Type} (x : α) : TransferSafe (.ok x : Attempt α) := nofun

theorem safe_error {α : Type} {h : Halt} (hh : h.ofTransfer = false) : TransferSafe (.error h : Attempt α) := by
  rintro _ ⟨⟩; exact hh

theorem safe_bind {α β : Type} {a : Attempt α} {f : α → Attempt β} (ha : TransferSafe a)
    (hf : ∀ x, a = .ok x → TransferSafe (f x)) : TransferSafe (a >>= f) := by
  cases a with
  | ok x => exact hf x rfl
  | error h => exact safe_error (ha h rfl)

theorem safe_underMutex (who : LockOwner) (s : State) (act : State → Attempt State)
    (hact : ∀ u, TransferSafe (act u)) : TransferSafe (underMutex who s act) := by
  unfold underMutex
  split
  · split
    · exact safe_ok _
    · rename_i h he; exact safe_error (hact _ h he)
  · exact safe_error rfl

theorem safe_whileStopped (s : State) (a : Attempt State) (ha : TransferSafe a) : TransferSafe (whileStopped s a) := by
  unfold whileStopped
  split
  · exact safe_error rfl
  · exact ha

theorem safe_publishAct (c : BufId) (s : State) : TransferSafe (publishAct c s) := by
  unfold publishAct
  split
  · split
    · exact safe_ok _
    · exact safe_error rfl
  · exact safe_ok _

theorem safe_acquireFrame (s : State) : TransferSafe (acquireFrame s) :=
  safe_bind (safe_underMutex _ _ _ (fun _ => safe_ok _)) (fun _ _ => safe_ok _)

theorem safe_releaseFrame (b : BufId) (s : State) : TransferSafe (releaseFrame b s) :=
  safe_underMutex _ _ _ (fun _ => safe_ok _)

theorem safe_claimRing (who : AudioConsumer) (s : State) : TransferSafe (claimRing who s) := by
  unfold claimRing
  split
  · exact safe_ok _
  · split
    · exact safe_ok _
    · exact safe_error rfl

theorem safe_dequeue (who : AudioConsumer) (s : State) : TransferSafe (dequeue who s) :=
  safe_bind (safe_claimRing who s) (fun _ _ => safe_ok _)

theorem safe_dequeueTimes (who : AudioConsumer) (n : Nat) (s : State) : TransferSafe (dequeueTimes who n s) := by
  induction n generalizing s with
  | zero => exact safe_ok s
  | succ n ih => exact safe_bind (safe_dequeue who s) (fun _ _ => ih _)

theorem safe_advance (s : State) : TransferSafe (advance s) := by
  refine safe_bind ?_ (fun _ _ => safe_ok _)
  unfold auxAudio
  split
  · exact safe_dequeueTimes _ _ s
  · exact safe_ok s

/-! `post`. -/

theorem safe_startOfFrame (s : State) : TransferSafe (startOfFrame s) := by
  unfold startOfFrame
  split
  · exact safe_bind (safe_acquireFrame _) (fun _ _ => safe_ok _)
  · exact safe_ok s

theorem safe_endOfFrame (s : State) : TransferSafe (endOfFrame s) := by
  unfold endOfFrame frameEnd
  split
  · split
    · exact safe_bind (safe_releaseFrame _ s) (fun _ _ => safe_ok _)
    · exact safe_ok s
  · exact safe_ok s

theorem safe_postActive2 (ch : Slot) (s : State) : TransferSafe (postActive2 ch s) := by
  unfold postActive2
  split
  · exact safe_ok _
  · exact safe_bind (safe_startOfFrame s) (fun _ _ => safe_bind (safe_endOfFrame _) (fun _ _ => safe_advance _))

theorem safe_postActive1 (ch : Slot) (s : State) : TransferSafe (postActive1 ch s) :=
  safe_bind (safe_startOfFrame s) (fun _ _ => safe_bind (safe_endOfFrame _) (fun _ _ => safe_advance _))

/-- `post` stops only for a held mutex, past the raster, or at a ring that another consumer has claimed. -/
theorem safe_post (ch : Slot) (s : State) : TransferSafe (post ch s) := by
  unfold post postItem
  split
  · exact safe_advance _
  · exact safe_advance _
  · exact safe_advance _
  · split
    · exact safe_postActive2 ch _
    · exact safe_postActive1 ch _
  · exact safe_error rfl

/-! The channels. -/

/-- A trigger under the invariant meets a legal descriptor (42_dma_scheduler.md R181). -/
theorem safe_dmaTrigger (ch : Slot) (s : State) (hs : DmaInv s) (hrun : s.run = true) : TransferSafe (dmaTrigger ch s) := by
  have hdesc : DescriptorOk s ch := ((dmaInv_iff s).1 hs).1 hrun ch
  unfold DescriptorOk at hdesc
  unfold dmaTrigger
  simp only [hdesc, if_true]
  split <;> exact safe_ok _

theorem safe_dmaComplete (ch : Slot) (s : State) (hs : DmaInv s) (henabled : dmaCompleteEnabled ch s = true) :
    TransferSafe (dmaComplete ch s) := by
  obtain ⟨hbusy, _⟩ := (dmaCompleteEnabled_iff ch s).1 henabled
  obtain ⟨hrun, _⟩ := dmaInv_busy hs hbusy
  exact safe_dmaTrigger _ _ (completed_dmaInv ch s hs) (by simpa using hrun)

/-- A transfer with words left reads inside its region, where every address has a word (20_memory.md R66). -/
theorem safe_dmaXfer (ch : Slot) (s : State) (hs : DmaInv s) (hlegal : buildLegal s.cfg = true)
    (henabled : dmaXferEnabled ch s = true) : TransferSafe (dmaXfer ch s) := by
  obtain ⟨hbusy, hrem, _⟩ := (dmaXferEnabled_iff ch s).1 henabled
  obtain ⟨_, r, _, hbase, hend⟩ := dmaInv_busy hs hbusy
  have hleft : 0 < (s.chan ch).rem.toNat := Nat.pos_of_ne_zero (fun hzero => hrem (BitVec.eq_of_toNat_eq hzero))
  obtain ⟨w, hw⟩ := dmaRead_of_region s (s.chan ch).rptr r hlegal hbase (by omega)
  rw [(dmaXfer_ok ch s _).2 ⟨w, hw, rfl⟩]
  exact safe_ok _

/-! Outcomes. -/

theorem noStop_next (s : State) : NoTransferStop (.next s) := ⟨nofun, nofun⟩

theorem noStop_finish (s : State) (a : Attempt State) (ha : TransferSafe a) : NoTransferStop (finish s a) := by
  refine ⟨fun f hf => ?_, fun ch src len hr => ?_⟩
  · exact absurd (ha _ ((finish_fault s a f).1 hf)) (by simp [Halt.ofTransfer])
  · exact absurd (ha _ ((finish_refused s a _).1 hr)) (by simp [Halt.ofTransfer])

theorem noStop_serve (p : Context → Bool) (s : State) (a : Attempt State) (ha : TransferSafe a) :
    NoTransferStop (serve p s a) := by
  unfold serve
  split
  · exact noStop_finish s a ha
  · exact ⟨nofun, nofun⟩

theorem noStop_whenEnabled (enabled : Bool) (s : State) (a : Attempt State) (ha : enabled = true → TransferSafe a) :
    NoTransferStop (whenEnabled enabled s a) := by
  unfold whenEnabled
  split
  · rename_i henabled; exact noStop_finish s a (ha henabled)
  · exact noStop_next s

theorem noStop_settleRequest (turn : Turn) (o : Host.Outcome State Fault Refusal) (ho : NoTransferStop o) :
    NoTransferStop (settleRequest turn o) := by
  cases o with
  | next t => exact noStop_next _
  | fault f => exact ho
  | refused r => exact ho

/-- START triggers a channel whose descriptor it has just written (41_scanline_sequencer.md R162). -/
theorem noStop_execStart (s : State) (hs : DmaInv s) (hlegal : buildLegal s.cfg = true) :
    NoTransferStop (execStart s) := by
  refine noStop_serve _ s _ ?_
  split
  · exact safe_ok _
  · rename_i hrun
    refine safe_bind (safe_post _ _) (fun a ha => safe_bind (safe_post _ _) (fun b hb => ?_))
    obtain ⟨hinv, hrunning⟩ := startPosted_dmaInv s a b hs hlegal (by simpa using hrun) ha hb
    exact safe_bind (safe_dmaTrigger .ping b hinv hrunning) (fun _ _ => safe_ok _)

theorem noStop_exec_request (w : Word) (i : Instr) (s : State) (hs : DmaInv s) (hlegal : buildLegal s.cfg = true)
    (hdecode : decodeReq w = .ok i) : NoTransferStop (exec i s) := by
  rcases decodeReq_ok w i hdecode with ⟨line, _, rfl | rfl⟩ | ⟨b, rfl⟩ | rfl | rfl | ⟨n, rfl⟩ | ⟨mode, rfl⟩ | rfl |
    ⟨b, rfl⟩ | rfl | rfl
  · refine noStop_serve _ s _ ?_
    split
    · exact safe_underMutex _ s _ (fun _ => safe_ok _)
    · exact safe_ok _
  · refine noStop_serve _ s _ ?_
    split
    · exact safe_underMutex _ s _ (fun _ => safe_ok _)
    · exact safe_ok _
  · exact noStop_serve _ s _ (safe_underMutex _ s _ (safe_publishAct b))
  · exact noStop_serve _ s _ (safe_underMutex _ s _ (fun u => safe_publishAct u.fx.wt u))
  · exact noStop_serve _ s _ (safe_ok _)
  · exact noStop_serve _ s _ (safe_ok _)
  · exact noStop_serve _ s _ (safe_ok _)
  · exact noStop_serve _ s _ (safe_whileStopped s _ (safe_bind (safe_acquireFrame s) (fun _ _ => safe_ok _)))
  · exact noStop_serve _ s _ (safe_whileStopped s _ (safe_bind (safe_releaseFrame b s) (fun _ _ => safe_ok _)))
  · exact noStop_serve _ s _ (safe_bind (safe_dequeue _ s) (fun _ _ => safe_ok _))
  · exact noStop_execStart s hs hlegal

theorem noStop_requestTurn (ctx : Context) (w : Word) (pl : List (List Byte)) (s : State) (hs : DmaInv s)
    (hlegal : buildLegal s.cfg = true) : NoTransferStop (requestTurn ctx w pl s) := by
  unfold requestTurn
  split
  · rename_i i hdecode
    exact noStop_settleRequest _ _ (noStop_exec_request w i (present ctx pl s) hs hlegal hdecode)
  · unfold illegalWord
    split
    · exact ⟨nofun, nofun⟩
    · exact noStop_next _

theorem noStop_takeTurn (turn : Turn) (s : State) (hs : DmaInv s) (hlegal : buildLegal s.cfg = true) :
    NoTransferStop (takeTurn turn s) := by
  cases turn with
  | request ctx w pl => exact noStop_requestTurn ctx w pl s hs hlegal
  | dmaXfer ch => exact noStop_whenEnabled _ s _ (safe_dmaXfer ch s hs hlegal)
  | dmaComplete ch => exact noStop_whenEnabled _ s _ (safe_dmaComplete ch s hs)
  | handler => exact noStop_whenEnabled _ s _ (fun _ => safe_post _ _)
  | serPop =>
    obtain ⟨t, ht⟩ : ∃ t, takeTurn .serPop s = .next t := serPopTurn_completes s
    exact ht ▸ noStop_next t
  | audTick => exact noStop_next _
  | audIsr => exact noStop_whenEnabled _ s _ (fun _ => safe_bind (safe_dequeue _ _) (fun _ _ => safe_ok _))
  | reset => exact noStop_next _

theorem noStop_step (s : State) (hs : DmaInv s) : NoTransferStop (step s) := by
  unfold step
  split
  · rename_i hlegal
    unfold runTurn
    split
    · exact noStop_takeTurn _ { beginStep s with inbox := s.inbox.tail } hs hlegal
    · exact noStop_next _
  · exact ⟨nofun, nofun⟩

/-- Settles O54: transfers inside their regions read words that exist, and only `post` writes the descriptors the triggers
meet, so no step stops and every step keeps it so. -/
theorem transfersNeverLeaveTheirRegion : Obligations.TransfersNeverLeaveTheirRegion := by
  intro s hs
  obtain ⟨hfault, hdescriptor⟩ := noStop_step s hs
  exact ⟨hfault, hdescriptor, fun t => step_dmaInv s t hs⟩

end Sys2Proof.Machine
end

section
/-! The fields of a word, and that each decoder accepts exactly the encodings of its interface's well-formed operations
(30_encoding.md R91 to R96, R100, R110 to R114). -/

namespace Sys2Proof

/-! Fields of a word. -/

/-- A word is made of two halves exactly when they are its high and its low field. -/
theorem eq_append_iff {m n : Nat} (x : BitVec (m + n)) (hi : BitVec m) (lo : BitVec n) :
    x = hi ++ lo ↔ x.extractLsb' n m = hi ∧ x.extractLsb' 0 n = lo := by
  constructor
  · rintro rfl
    exact ⟨BitVec.extractLsb'_append_eq_left, BitVec.extractLsb'_append_eq_right⟩
  · rintro ⟨rfl, rfl⟩
    rw [BitVec.extractLsb'_append_extractLsb'_eq_extractLsb' (Nat.zero_add n).symm, BitVec.extractLsb'_eq_self]

/-- A field of a field is a field of the whole. -/
theorem extractLsb'_of_field {w : Nat} (x : BitVec w) (start len start' len' : Nat) (hin : start + len ≤ len') :
    (x.extractLsb' start' len').extractLsb' start len = x.extractLsb' (start' + start) len := by
  ext k hk
  have hk' : start + k < len' := by omega
  simp [hk', Nat.add_assoc]

/-- A field of one bit is that bit. -/
theorem extractLsb'_eq_ofBool_iff {w : Nat} (x : BitVec w) (k : Nat) (b : Bool) :
    x.extractLsb' k 1 = BitVec.ofBool b ↔ x.getLsbD k = b := by
  constructor
  · intro h
    simpa using congrArg (fun y => y.getLsbD 0) h
  · rintro rfl
    ext j hj
    obtain rfl : j = 0 := by omega
    simp

/-- A request word is its OP field and its operand field (R91). -/
theorem reqWord_eq_iff (op : BitVec 8) (operand : BitVec 24) (w : Word) :
    reqWord op operand = w ↔ w.extractLsb' 24 8 = op ∧ w.extractLsb' 0 24 = operand :=
  eq_comm.trans (eq_append_iff w op operand)

@[simp] theorem op_reqWord (op : BitVec 8) (operand : BitVec 24) : (reqWord op operand).extractLsb' 24 8 = op :=
  BitVec.extractLsb'_append_eq_left

@[simp] theorem operand_reqWord (op : BitVec 8) (operand : BitVec 24) :
    (reqWord op operand).extractLsb' 0 24 = operand :=
  BitVec.extractLsb'_append_eq_right

/-- An operand that is zero above a field of `n` bits is that field with zeros before it. -/
theorem zeros_append_eq_operand_iff (m n : Nat) (y : BitVec n) (w : Word) (hwidth : m + n = 24) :
    w.extractLsb' 0 (m + n) = 0#m ++ y ↔ w.extractLsb' n m = 0 ∧ w.extractLsb' 0 n = y := by
  have hhigh : (w.extractLsb' 0 (m + n)).extractLsb' n m = w.extractLsb' n m :=
    BitVec.extractLsb'_extractLsb'_of_le (by omega)
  have hlow : (w.extractLsb' 0 (m + n)).extractLsb' 0 n = w.extractLsb' 0 n :=
    BitVec.extractLsb'_extractLsb'_of_le (by omega)
  rw [eq_append_iff, hhigh, hlow]
  rfl

/-! The operand formats. -/

@[simp] theorem bufOfBit_toBit (b : BufId) : bufOfBit b.toBit = b := by cases b <;> rfl

@[simp] theorem toBit_bufOfBit (x : Bool) : (bufOfBit x).toBit = x := by cases x <;> rfl

@[simp] theorem modeOfBit_toBit (m : ScaleMode) : modeOfBit m.toBit = m := by cases m <;> rfl

@[simp] theorem toBit_modeOfBit (x : Bool) : (modeOfBit x).toBit = x := by cases x <;> rfl

/-- The operand of format B and M: one bit (R93, R96). -/
theorem bitOperand_iff (b : Bool) (w : Word) :
    w.extractLsb' 0 24 = 0#23 ++ BitVec.ofBool b ↔ w.extractLsb' 1 23 = 0 ∧ w.getLsbD 0 = b := by
  rw [← extractLsb'_eq_ofBool_iff]
  exact zeros_append_eq_operand_iff 23 1 _ w rfl

/-- The operand of format L (R94). -/
theorem lineOperand_iff (line : BitVec 9) (w : Word) :
    w.extractLsb' 0 24 = 0#15 ++ line ↔ w.extractLsb' 9 15 = 0 ∧ w.extractLsb' 0 9 = line :=
  zeros_append_eq_operand_iff 15 9 line w rfl

/-- The operand of format C (R95). -/
theorem countOperand_iff (count : BitVec 16) (w : Word) :
    w.extractLsb' 0 24 = 0#8 ++ count ↔ w.extractLsb' 16 8 = 0 ∧ w.extractLsb' 0 16 = count :=
  zeros_append_eq_operand_iff 8 16 count w rfl

/-- A check before decoding: an operation comes out only where the check holds. -/
theorem checked_ok_iff (p : Prop) [Decidable p] (e : Illegal) (a : Except Illegal Instr) (j : Instr) :
    (if p then a else .error e) = .ok j ↔ p ∧ a = .ok j := by
  split <;> simp_all

theorem decodeN_ok_iff (i j : Instr) (w : Word) : decodeN i w = .ok j ↔ w.extractLsb' 0 24 = 0 ∧ j = i := by
  rw [decodeN, checked_ok_iff, Except.ok.injEq, eq_comm (a := i)]

theorem decodeB_ok_iff (k : BufId → Instr) (j : Instr) (w : Word) :
    decodeB k w = .ok j ↔ ∃ b : BufId, w.extractLsb' 0 24 = 0#23 ++ BitVec.ofBool b.toBit ∧ j = k b := by
  simp only [decodeB, checked_ok_iff, bitOperand_iff]
  constructor
  · rintro ⟨hzero, ⟨⟩⟩
    exact ⟨_, ⟨hzero, (toBit_bufOfBit _).symm⟩, rfl⟩
  · rintro ⟨b, ⟨hzero, hbit⟩, rfl⟩
    exact ⟨hzero, by rw [hbit, bufOfBit_toBit]⟩

theorem decodeM_ok_iff (k : ScaleMode → Instr) (j : Instr) (w : Word) :
    decodeM k w = .ok j ↔ ∃ m : ScaleMode, w.extractLsb' 0 24 = 0#23 ++ BitVec.ofBool m.toBit ∧ j = k m := by
  simp only [decodeM, checked_ok_iff, bitOperand_iff]
  constructor
  · rintro ⟨hzero, ⟨⟩⟩
    exact ⟨_, ⟨hzero, (toBit_modeOfBit _).symm⟩, rfl⟩
  · rintro ⟨m, ⟨hzero, hbit⟩, rfl⟩
    exact ⟨hzero, by rw [hbit, modeOfBit_toBit]⟩

theorem decodeL_ok_iff (k : BitVec 9 → Instr) (j : Instr) (w : Word) :
    decodeL k w = .ok j ↔
      ∃ line : BitVec 9, line.toNat < fbHeight ∧ w.extractLsb' 0 24 = 0#15 ++ line ∧ j = k line := by
  simp only [decodeL, checked_ok_iff, lineOperand_iff]
  constructor
  · rintro ⟨hzero, hline, ⟨⟩⟩
    exact ⟨_, hline, ⟨hzero, rfl⟩, rfl⟩
  · rintro ⟨line, hline, ⟨hzero, rfl⟩, rfl⟩
    exact ⟨hzero, hline, rfl⟩

theorem decodeC_ok_iff (k : BitVec 16 → Instr) (j : Instr) (w : Word) :
    decodeC k w = .ok j ↔ ∃ count : BitVec 16, w.extractLsb' 0 24 = 0#8 ++ count ∧ j = k count := by
  simp only [decodeC, checked_ok_iff, countOperand_iff]
  constructor
  · rintro ⟨hzero, ⟨⟩⟩
    exact ⟨_, ⟨hzero, rfl⟩, rfl⟩
  · rintro ⟨count, ⟨hzero, rfl⟩, rfl⟩
    exact ⟨hzero, rfl⟩

/-! The decoder of requests. -/

/-- What the request decoder reads of a word is a well-formed request, and the word is its encoding (R91, R99, R100). -/
theorem encode_of_decodeReq (w : Word) (i : Instr) (h : decodeReq w = .ok i) :
    encode i = w ∧ i.interface = .req ∧ i.wellFormed = true := by
  have hword : ∀ (op : Nat) (operand : BitVec 24), (w.extractLsb' 24 8).toNat = op → w.extractLsb' 0 24 = operand →
      reqWord (BitVec.ofNat 8 op) operand = w := fun op operand hop hoperand =>
    (reqWord_eq_iff _ operand w).2 ⟨by rw [← hop, BitVec.ofNat_toNat, BitVec.setWidth_eq], hoperand⟩
  unfold decodeReq at h
  split at h
  case h_1 hop =>
    obtain ⟨line, hline, hoperand, rfl⟩ := (decodeL_ok_iff ..).1 h
    exact ⟨hword _ _ hop hoperand, rfl, decide_eq_true hline⟩
  case h_2 hop =>
    obtain ⟨line, hline, hoperand, rfl⟩ := (decodeL_ok_iff ..).1 h
    exact ⟨hword _ _ hop hoperand, rfl, decide_eq_true hline⟩
  case h_3 hop =>
    obtain ⟨buf, hoperand, rfl⟩ := (decodeB_ok_iff ..).1 h
    exact ⟨hword _ _ hop hoperand, rfl, rfl⟩
  case h_6 hop =>
    obtain ⟨count, hoperand, rfl⟩ := (decodeC_ok_iff ..).1 h
    exact ⟨hword _ _ hop hoperand, rfl, rfl⟩
  case h_7 hop =>
    obtain ⟨mode, hoperand, rfl⟩ := (decodeM_ok_iff ..).1 h
    exact ⟨hword _ _ hop hoperand, rfl, rfl⟩
  case h_9 hop =>
    obtain ⟨buf, hoperand, rfl⟩ := (decodeB_ok_iff ..).1 h
    exact ⟨hword _ _ hop hoperand, rfl, rfl⟩
  case h_12 => cases h
  all_goals
    rename_i hop
    obtain ⟨hoperand, rfl⟩ := (decodeN_ok_iff ..).1 h
    exact ⟨hword _ _ hop hoperand, rfl, rfl⟩

/-- The request decoder reads the encoding of a well-formed request as that request. -/
theorem decodeReq_encode (i : Instr) (hreq : i.interface = .req) (hwf : i.wellFormed = true) :
    decodeReq (encode i) = .ok i := by
  cases i with
  | lineBegin line =>
    rw [decodeReq, encode, op_reqWord]
    exact (decodeL_ok_iff ..).2 ⟨line, of_decide_eq_true hwf, operand_reqWord .., rfl⟩
  | lineEnd line =>
    rw [decodeReq, encode, op_reqWord]
    exact (decodeL_ok_iff ..).2 ⟨line, of_decide_eq_true hwf, operand_reqWord .., rfl⟩
  | publish buf =>
    rw [decodeReq, encode, op_reqWord]
    exact (decodeB_ok_iff ..).2 ⟨buf, operand_reqWord .., rfl⟩
  | release buf =>
    rw [decodeReq, encode, op_reqWord]
    exact (decodeB_ok_iff ..).2 ⟨buf, operand_reqWord .., rfl⟩
  | audEnq count =>
    rw [decodeReq, encode, op_reqWord]
    exact (decodeC_ok_iff ..).2 ⟨count, operand_reqWord .., rfl⟩
  | setScale mode =>
    rw [decodeReq, encode, op_reqWord]
    exact (decodeM_ok_iff ..).2 ⟨mode, operand_reqWord .., rfl⟩
  | nop | ctrl | pixels => cases hreq
  | frameComplete | audCap | acquire | audDeq | start => decide

/-! The decoder of serializer commands. -/

theorem nop_word_iff (w : Word) : encode .nop = w ↔ w.extractLsb' 28 4 = 0#4 ∧ w.extractLsb' 0 28 = 0 :=
  eq_comm.trans (eq_append_iff w 0#4 0#28)

theorem ctrl_word_iff (vs hs : Bool) (n : BitVec 12) (w : Word) :
    encode (.ctrl vs hs n) = w ↔
      w.extractLsb' 28 4 = 1#4 ∧ w.getLsbD 27 = vs ∧ w.getLsbD 26 = hs ∧ w.extractLsb' 12 14 = 0 ∧
        w.extractLsb' 0 12 = n := by
  have hcount := eq_append_iff w (1#4 ++ BitVec.ofBool vs ++ BitVec.ofBool hs ++ 0#14) n
  have hzeros := eq_append_iff (w.extractLsb' 12 20) (1#4 ++ BitVec.ofBool vs ++ BitVec.ofBool hs) 0#14
  have hhsync := eq_append_iff (w.extractLsb' 26 6) (1#4 ++ BitVec.ofBool vs) (BitVec.ofBool hs)
  have hvsync := eq_append_iff (w.extractLsb' 27 5) 1#4 (BitVec.ofBool vs)
  rw [extractLsb'_of_field _ _ _ _ _ (by decide), extractLsb'_of_field _ _ _ _ _ (by decide)] at hzeros hhsync hvsync
  rw [extractLsb'_eq_ofBool_iff] at hhsync hvsync
  simp only [Nat.reduceAdd] at hcount hzeros hhsync hvsync
  rw [eq_comm, encode, hcount, hzeros, hhsync, hvsync]
  simp only [and_assoc]
  rfl

theorem pixels_word_iff (n : BitVec 12) (w : Word) :
    encode (.pixels n) = w ↔
      w.extractLsb' 28 4 = 2#4 ∧ w.extractLsb' 12 16 = 0 ∧ w.extractLsb' 0 12 = n := by
  have hcount := eq_append_iff w (2#4 ++ 0#16) n
  have hzeros := eq_append_iff (w.extractLsb' 12 20) 2#4 0#16
  rw [extractLsb'_of_field _ _ _ _ _ (by decide), extractLsb'_of_field _ _ _ _ _ (by decide)] at hzeros
  simp only [Nat.reduceAdd] at hcount hzeros
  rw [eq_comm, encode, hcount, hzeros, and_assoc]
  rfl

/-- What the command decoder reads of a word is a well-formed command, and the word is its encoding (R110 to R114). -/
theorem encode_of_decodeCmd (w : Word) (i : Instr) (h : decodeCmd w = .ok i) :
    encode i = w ∧ i.interface = .cmd ∧ i.wellFormed = true := by
  unfold decodeCmd at h
  split at h
  case h_1 hkind =>
    obtain ⟨hzero, ⟨⟩⟩ := (checked_ok_iff ..).1 h
    exact ⟨(nop_word_iff w).2 ⟨BitVec.eq_of_toNat_eq hkind, hzero⟩, rfl, rfl⟩
  case h_2 hkind =>
    obtain ⟨hzero, h⟩ := (checked_ok_iff ..).1 h
    split at h
    · cases h
    · rename_i hcount
      cases h
      exact ⟨(ctrl_word_iff _ _ _ w).2 ⟨BitVec.eq_of_toNat_eq hkind, rfl, rfl, hzero, rfl⟩, rfl, bne_iff_ne.2 hcount⟩
  case h_3 hkind =>
    obtain ⟨hzero, h⟩ := (checked_ok_iff ..).1 h
    split at h
    · cases h
    · rename_i hcount
      cases h
      exact ⟨(pixels_word_iff _ w).2 ⟨BitVec.eq_of_toNat_eq hkind, hzero, rfl⟩, rfl, bne_iff_ne.2 hcount⟩
  case h_4 => cases h

/-- The command decoder reads the encoding of a well-formed command as that command. -/
theorem decodeCmd_encode (i : Instr) (hcmd : i.interface = .cmd) (hwf : i.wellFormed = true) :
    decodeCmd (encode i) = .ok i := by
  cases i with
  | nop => rfl
  | ctrl vs hs n =>
    obtain ⟨hkind, hvs, hhs, hzero, hcount⟩ := (ctrl_word_iff vs hs n _).1 rfl
    have hn : n ≠ 0 := bne_iff_ne.1 hwf
    rw [decodeCmd, hkind, hvs, hhs, hzero, hcount]
    exact (if_pos rfl).trans (if_neg hn)
  | pixels n =>
    obtain ⟨hkind, hzero, hcount⟩ := (pixels_word_iff n _).1 rfl
    have hn : n ≠ 0 := bne_iff_ne.1 hwf
    rw [decodeCmd, hkind, hzero, hcount]
    exact (if_pos rfl).trans (if_neg hn)
  | _ => cases hcmd

/-! Both interfaces. -/

/-- Settles O1: each decoder reads the fields its operations are encoded in. -/
theorem decodeOfEncodeIsIdentity : Obligations.DecodeOfEncodeIsIdentity := by
  intro i hwf
  cases hinterface : i.interface with
  | req => exact decodeReq_encode i hinterface hwf
  | cmd => exact decodeCmd_encode i hinterface hwf

/-- Settles O2: an accepted word is the encoding of what was read, since its other bits are checked to be zero. -/
theorem encodeOfDecodeIsIdentity : Obligations.EncodeOfDecodeIsIdentity := by
  intro interface w i h
  cases interface with
  | req => exact encode_of_decodeReq w i h
  | cmd => exact encode_of_decodeCmd w i h

/-! The opcode table. -/

/-- Two rows whose common fixed bits differ somewhere, unless they belong to different interfaces (R99). -/
def OpRow.Differs (r1 r2 : OpRow) : Prop :=
  r1.interface = r2.interface → r1.value &&& r2.mask ≠ r2.value &&& r1.mask

/-- Rows that admit one word agree on their common fixed bits. -/
theorem not_differs_of_admits (w : Word) (r1 r2 : OpRow) (hinterface : r1.interface = r2.interface)
    (h1 : r1.admits w = true) (h2 : r2.admits w = true) : ¬ r1.Differs r2 := by
  intro hdiffers
  refine hdiffers hinterface ?_
  calc r1.value &&& r2.mask
      = w &&& r1.mask &&& r2.mask := by rw [beq_iff_eq.1 h1]
    _ = w &&& r2.mask &&& r1.mask := by ac_rfl
    _ = r2.value &&& r1.mask := by rw [beq_iff_eq.1 h2]

theorem opTable_pairwise_differs : opTable.Pairwise OpRow.Differs := by
  unfold OpRow.Differs
  decide

/-- Settles O3: any two rows of the table differ in a fixed bit they share. -/
theorem opcodeRowsAreDisjoint : Obligations.OpcodeRowsAreDisjoint := by
  intro w r1 r2 hmem1 hmem2 hinterface h1 h2
  by_contra hne
  have hsymm : Std.Symm OpRow.Differs := ⟨fun _ _ h hsame => (h hsame.symm).symm⟩
  exact not_differs_of_admits w r1 r2 hinterface h1 h2 (opTable_pairwise_differs.forall hmem1 hmem2 hne)

end Sys2Proof
end

section
/-! Words that are no operation, and requests out of their place (30_encoding.md R91, R100, R101, R114). -/

namespace Sys2Proof.Machine

/-! Illegal request words. -/

/-- The illegal request words of R100: no request row of the opcode table admits the word, or its line is out of range. -/
def IllegalRequest (w : Word) : Prop :=
  (∀ r ∈ opTable, r.interface = .req → r.admits w = false) ∨
    ((w.extractLsb' 24 8 = 0x01#8 ∨ w.extractLsb' 24 8 = 0x02#8) ∧ 240 ≤ (w.extractLsb' 0 9).toNat)

theorem encodedInTable (i : Instr) : Laws.EncodedInTable.Statement i := by
  cases i with
  | lineBegin line => exact Laws.EncodedInTable.lineBegin line
  | lineEnd line => exact Laws.EncodedInTable.lineEnd line
  | publish buf => exact Laws.EncodedInTable.publish buf
  | frameComplete => exact Laws.EncodedInTable.frameComplete
  | audCap => exact Laws.EncodedInTable.audCap
  | audEnq count => exact Laws.EncodedInTable.audEnq count
  | setScale mode => exact Laws.EncodedInTable.setScale mode
  | acquire => exact Laws.EncodedInTable.acquire
  | release buf => exact Laws.EncodedInTable.release buf
  | audDeq => exact Laws.EncodedInTable.audDeq
  | start => exact Laws.EncodedInTable.start
  | nop => exact Laws.EncodedInTable.nop
  | ctrl vs hs n => exact Laws.EncodedInTable.ctrl vs hs n
  | pixels n => exact Laws.EncodedInTable.pixels n

/-- A request word that decodes has the fixed bits of a request row, being the encoding of what it decodes to (R99). -/
theorem decodeReq_admitted (w : Word) (i : Instr) (h : decodeReq w = .ok i) :
    ∃ r ∈ opTable, r.interface = .req ∧ r.admits w = true := by
  obtain ⟨rfl, hreq, hwf⟩ := encode_of_decodeReq w i h
  obtain ⟨r, hmem, _, hinterface, hadmits⟩ := encodedInTable i hwf
  exact ⟨r, hmem, hinterface.trans hreq, hadmits⟩

/-- A format-L word that decodes has its line field below 240 (R94, R100). -/
theorem decodeL_line_lt (k : BitVec 9 → Instr) (w : Word) (i : Instr) (h : decodeL k w = .ok i) :
    (w.extractLsb' 0 9).toNat < fbHeight := by
  obtain ⟨line, hline, hoperand, _⟩ := (decodeL_ok_iff k i w).1 h
  obtain ⟨_, rfl⟩ := (lineOperand_iff line w).1 hoperand
  exact hline

/-- LINE_BEGIN and LINE_END words that decode have their line field below 240. -/
theorem decodeReq_line_lt (w : Word) (i : Instr) (h : decodeReq w = .ok i)
    (hop : w.extractLsb' 24 8 = 0x01#8 ∨ w.extractLsb' 24 8 = 0x02#8) : (w.extractLsb' 0 9).toNat < fbHeight := by
  rcases hop with hop | hop
  all_goals
    rw [decodeReq, hop] at h
    exact decodeL_line_lt _ w i h

theorem decodeReq_illegal (w : Word) (hillegal : IllegalRequest w) : ∃ e, decodeReq w = .error e := by
  cases hdecode : decodeReq w with
  | error e => exact ⟨e, rfl⟩
  | ok i =>
    exfalso
    rcases hillegal with hnone | ⟨hop, hline⟩
    · obtain ⟨r, hmem, hreq, hadmits⟩ := decodeReq_admitted w i hdecode
      exact absurd hadmits (Bool.eq_false_iff.1 (hnone r hmem hreq))
    · exact absurd (decodeReq_line_lt w i hdecode hop) (Nat.not_lt.2 hline)

/-- A word that does not decode is BadRequest from either thread level (R100, 60_exceptions.md R271, R282). -/
theorem requestTurn_of_illegal (ctx : Context) (w : Word) (pl : List (List Byte)) (s : State) (e : Illegal)
    (hdecode : decodeReq w = .error e) (hctx : ctx ≠ .consumerInterrupt) :
    requestTurn ctx w pl s = .next (badRequest (present ctx pl s)) := by
  simp [requestTurn, hdecode, illegalWord, hctx]

/-- Settles O5: the word does not decode, and its turn ends in BadRequest. -/
theorem illegalRequestOnlyPulsesReqErr : Obligations.IllegalRequestOnlyPulsesReqErr := by
  intro s ctx w pl rest hlegal hoffer hctx hillegal
  obtain ⟨e, hdecode⟩ := decodeReq_illegal w hillegal
  calc step s
      = requestTurn ctx w pl { beginStep s with inbox := rest } := step_of_offered_turn s _ rest hlegal hoffer
    _ = .next (badRequest (present ctx pl { beginStep s with inbox := rest })) :=
        requestTurn_of_illegal ctx w pl _ e hdecode hctx

/-! Reserved command words. -/

/-- The reserved encodings of R114. -/
def ReservedEncoding (w : Word) : Prop :=
  3 ≤ (w.extractLsb' 28 4).toNat ∨
    (w.extractLsb' 28 4 = 0#4 ∧ w.extractLsb' 0 28 ≠ 0) ∨
    ((w.extractLsb' 28 4 = 1#4 ∨ w.extractLsb' 28 4 = 2#4) ∧ w.extractLsb' 0 12 = 0) ∨
    (w.extractLsb' 28 4 = 1#4 ∧ w.extractLsb' 12 14 ≠ 0) ∨
    (w.extractLsb' 28 4 = 2#4 ∧ w.extractLsb' 12 16 ≠ 0)

/-- A command word that decodes is of a kind below 3, with its must-be-zero bits zero and its count not zero (R110 to
R114). -/
theorem decodeCmd_fields (w : Word) (i : Instr) (h : decodeCmd w = .ok i) :
    (w.extractLsb' 28 4 = 0#4 ∧ w.extractLsb' 0 28 = 0) ∨
      (w.extractLsb' 28 4 = 1#4 ∧ w.extractLsb' 12 14 = 0 ∧ w.extractLsb' 0 12 ≠ 0) ∨
      (w.extractLsb' 28 4 = 2#4 ∧ w.extractLsb' 12 16 = 0 ∧ w.extractLsb' 0 12 ≠ 0) := by
  obtain ⟨hword, _, _⟩ := encode_of_decodeCmd w i h
  rcases decodeCmd_ok w i h with rfl | ⟨vs, hs, n, hn, rfl⟩ | ⟨n, hn, rfl⟩
  · exact .inl ((nop_word_iff w).1 hword)
  · obtain ⟨hkind, _, _, hzero, rfl⟩ := (ctrl_word_iff vs hs n w).1 hword
    exact .inr (.inl ⟨hkind, hzero, hn⟩)
  · obtain ⟨hkind, hzero, rfl⟩ := (pixels_word_iff n w).1 hword
    exact .inr (.inr ⟨hkind, hzero, hn⟩)

theorem decodeCmd_reserved (w : Word) (hreserved : ReservedEncoding w) : ∃ e, decodeCmd w = .error e := by
  cases hdecode : decodeCmd w with
  | error e => exact ⟨e, rfl⟩
  | ok i =>
    exfalso
    unfold ReservedEncoding at hreserved
    rcases decodeCmd_fields w i hdecode with ⟨hkind, hzero⟩ | ⟨hkind, hzero, hn⟩ | ⟨hkind, hzero, hn⟩
    · simp [hkind, hzero] at hreserved
    · exact hn (by simpa [hkind, hzero] using hreserved)
    · exact hn (by simpa [hkind, hzero] using hreserved)

theorem extendOut_of_marksClear (recs : List OutRecord) (s : State) (h : MarksClear s) :
    extendOut recs s = { s with out := s.out ++ recs } := by
  obtain ⟨hdesc, hcmd⟩ := h
  simp [extendOut, marked, hdesc, hcmd]

/-- With no mark set a reserved word changes M_CMD alone (43_serializer_tmds.md R207). -/
theorem reservedCommand_of_marksClear (s : State) (h : MarksClear s) : reservedCommand s = { s with mCmd := true } := by
  rw [reservedCommand, extendOut_of_marksClear [] s h, List.append_nil]

/-- In command mode a word that does not decode is reserved (43_serializer_tmds.md R204, R207). -/
theorem serPopTurn_of_reserved (s : State) (w : Word) (rest : List Word) (e : Illegal) (hfifo : s.fifo = w :: rest)
    (hmode : s.serRem = 0) (hdecode : decodeCmd w = .error e) :
    serPopTurn s = .next (reservedCommand { s with fifo := rest }) := by
  simp [serPopTurn, runPopped, hfifo, hmode, hdecode]

/-- Settles O6: the word does not decode, so it is popped and only M_CMD is set. -/
theorem reservedCommandSetsMCmd : Obligations.ReservedCommandSetsMCmd := by
  intro s w rest hclear hmode hfifo hreserved
  obtain ⟨e, hdecode⟩ := decodeCmd_reserved w hreserved
  rw [serPopTurn_of_reserved s w rest e hfifo hmode hdecode, reservedCommand_of_marksClear { s with fifo := rest } hclear]

/-! Requests out of their place. -/

/-- The contexts that OP's high nibble allows (R91, R101): the producer's port, the configuration port, the consumer's and
the system port; no operation has another nibble. -/
def portOfNibble (nibble : BitVec 4) : Context → Bool :=
  if nibble = 0#4 ∨ nibble = 1#4 then producerPort
  else if nibble = 2#4 then configPort
  else if nibble = 4#4 ∨ nibble = 5#4 ∨ nibble = 7#4 then consumerPort
  else fun _ => false

/-- The contexts by nibble, one after the other (R91). -/
theorem allowed_of_portOfNibble (nibble : BitVec 4) (ctx : Context) (h : portOfNibble nibble ctx = true) :
    ((nibble = 0#4 ∨ nibble = 1#4) ∧ ctx = .producer) ∨ (nibble = 2#4 ∧ ctx ≠ .consumerInterrupt) ∨
      ((nibble = 4#4 ∨ nibble = 5#4 ∨ nibble = 7#4) ∧ ctx = .consumerThread) := by
  unfold portOfNibble at h
  split at h
  next hnibble => exact .inl ⟨hnibble, beq_iff_eq.1 h⟩
  next =>
    split at h
    next hnibble => exact .inr (.inl ⟨hnibble, by rintro rfl; cases h⟩)
    next =>
      split at h
      next hnibble => exact .inr (.inr ⟨hnibble, beq_iff_eq.1 h⟩)
      next => cases h

/-- The high nibble of a request word is that of its OP. -/
theorem nibble_reqWord (op : BitVec 8) (operand : BitVec 24) :
    (reqWord op operand).extractLsb' 28 4 = op.extractLsb' 4 4 :=
  BitVec.extractLsb'_append_eq_of_le (by decide)

/-- Every request is served at the port its OP's high nibble names (R91). -/
theorem exec_serves (i : Instr) (s : State) (hreq : i.interface = .req) :
    ∃ body, exec i s = serve (portOfNibble ((encode i).extractLsb' 28 4)) s body := by
  cases i with
  | nop | ctrl | pixels => cases hreq
  | _ => rw [encode, nibble_reqWord]; exact ⟨_, rfl⟩

theorem serve_wrongPort (p : Context → Bool) (s : State) (a : Attempt State) (h : p s.port.ctx ≠ true) :
    serve p s a = .refused (.wrongPort s.port.ctx) := if_neg h

/-- ACQUIRE and RELEASE from the consumer's thread level while RUN = 1 (44_frame_exchange.md R235). -/
theorem serve_whileRunning (s : State) (a : Attempt State) (hctx : s.port.ctx = .consumerThread) (hrun : s.run = true) :
    serve consumerPort s (whileStopped s a) = .refused .sequencerOwnsFrames := by
  rw [serve_allowed consumerPort s _ (by simp [consumerPort, hctx]), whileStopped, if_pos hrun]
  rfl

/-- Settles O10: the port is the one OP names, and a running sequencer owns the frames. -/
theorem requestsOutOfTheirPlaceAreRefused : Obligations.RequestsOutOfTheirPlaceAreRefused := by
  intro s i hreq
  constructor
  · intro hport
    obtain ⟨body, hserve⟩ := exec_serves i s hreq
    rw [hserve]
    exact serve_wrongPort _ s body (fun h => hport (allowed_of_portOfNibble _ _ h))
  · intro hi hctx hrun
    rcases hi with rfl | ⟨buf, rfl⟩
    · exact serve_whileRunning s _ hctx hrun
    · exact serve_whileRunning s _ hctx hrun

end Sys2Proof.Machine
end

section
/-! SET_SCALE, the two encoders of a row, and the packing of a line (40_pixel_encoder.md). -/

namespace Sys2Proof.Machine

/-! SET_SCALE. -/

/-- Settles O24: both thread levels may use the configuration port. -/
theorem setScaleOnlySetsPending : Obligations.SetScaleOnlySetsPending := by
  intro s mode hctx
  have hport : configPort s.port.ctx = true := by
    rcases hctx with h | h
    · rw [h]; rfl
    · rw [h]; rfl
  exact serve_allowed configPort s _ hport

/-! Variant A. -/

theorem encA_length (src : List Byte) : (encA src).length = src.length := List.length_map _

theorem encA_getD (src : List Byte) (x : Nat) (h : x < src.length) :
    (encA src).getD x 0 = src.getD x 0 ++ src.getD x 0 := by
  have hunits : x < (encA src).length := by rwa [encA_length]
  rw [List.getD_eq_getElem _ _ hunits, List.getD_eq_getElem _ _ h]
  exact List.getElem_map _

/-- Variant A sees neither the palette nor the scaling mode (R132). -/
theorem encodeRow_variantA (c : Config) (mode : ScaleMode) (src : List Byte) (h : c.pixelVariant = .a) :
    encodeRow c mode src = encA src := by simp [encodeRow, h]

/-- Settles O32: under variant A the row's units are those of `ENC_A`. -/
theorem variantADoublesBytes : Obligations.VariantADoublesBytes := by
  intro c mode src hvariant hlength
  rw [encodeRow_variantA c mode src hvariant]
  refine ⟨(encA_length src).trans hlength, fun x hx => ?_, fun c' mode' => encodeRow_variantA c' mode' src⟩
  have hunit := encA_getD src x (hlength ▸ hx)
  exact ⟨hunit, fun hbyte => by rw [hunit, hbyte]; rfl⟩

/-! Variant B. -/

theorem toNat_and_mask6 (x : Byte) : (x &&& 0x3F#8).toNat = x.toNat % 64 := by
  rw [BitVec.toNat_and]
  exact Nat.and_two_pow_sub_one_eq_mod x.toNat 6

theorem col_eq (c : Config) (src : List Byte) (i : Nat) :
    col c src i = (c.palette.getD ((src.getD (c.srcX0 + i) 0).toNat % 64) 0).setWidth 16 := by
  rw [col, toNat_and_mask6]

/-- Unit `o` of `ENC_B` (R134, R135). -/
def unitB (c : Config) (mode : ScaleMode) (src : List Byte) (o : Nat) : PixelUnit :=
  match mode with
  | .oneToOne => unitOneToOne c src o
  | .eightToSeven => unitEightToSeven c src o

theorem encB_eq_map (c : Config) (mode : ScaleMode) (src : List Byte) :
    encB c mode src = (List.range 320).map (unitB c mode src) := by cases mode <;> rfl

theorem encB_length (c : Config) (mode : ScaleMode) (src : List Byte) : (encB c mode src).length = 320 := by
  simp [encB_eq_map]

theorem encB_getD (c : Config) (mode : ScaleMode) (src : List Byte) (o : Nat) (h : o < 320) :
    (encB c mode src).getD o 0 = unitB c mode src o := by
  rw [List.getD_eq_getElem _ _ (by rwa [encB_length])]
  simp [encB_eq_map]

/-- One period of the default schedule: nine outputs over eight sources (R136). -/
theorem defaultOffsets_getD (r : Nat) (h : r < 9) :
    Config.default.scaleMap.offsets.getD r 0 = 8 * r / 9 := by
  revert r; decide

/-- The default SCALE_MAP at every output, past the line too (R136). -/
theorem scaleMap_default (o : Nat) : scaleMap Config.default.scaleMap o = 8 * o / 9 := by
  have hoffset := defaultOffsets_getD (o % 9) (Nat.mod_lt o (by decide))
  calc scaleMap Config.default.scaleMap o
      = o / 9 * 8 + Config.default.scaleMap.offsets.getD (o % 9) 0 := rfl
    _ = 8 * o / 9 := by omega

/-- Settles O33: each unit is the encoder's own, its colour through the masked index. -/
theorem variantBPlacesLogicalLine : Obligations.VariantBPlacesLogicalLine := by
  intro c src o ho
  rw [encB_getD c .oneToOne src o ho, encB_getD c .eightToSeven src o ho]
  refine ⟨?_, ?_, fun _ => scaleMap_default o⟩
  · rw [← col_eq]; rfl
  · rw [← col_eq]; rfl

/-! The columns variant B reads. -/

/-- A legal SCALE_MAP rises to at most 255 over the 288 outputs (00_scope.md R7 (h)). -/
theorem scaleMap_le_of_legal (m : ScaleSchedule) (h : scaleMapLegal m = true) (o : Nat) (ho : o ≤ 287) :
    scaleMap m o ≤ 255 := by
  simp only [scaleMapLegal, Bool.and_eq_true, List.all_eq_true, List.mem_range, decide_eq_true_eq] at h
  obtain ⟨⟨_, hrises⟩, hlast⟩ := h
  induction ho using Nat.decreasingInduction with
  | self => exact hlast
  | of_succ k hk ih => exact (hrises k hk).trans ih

theorem scaleMapLegal_of_encoderLegal (c : Config) (h : encoderLegal c = true) : scaleMapLegal c.scaleMap = true := by
  simp only [encoderLegal, Bool.and_eq_true] at h
  exact h.2

/-- A unit of variant B is a margin or a colour of one of the 256 logical pixels. -/
theorem unitB_congr (c : Config) (mode : ScaleMode) (src src' : List Byte) (o : Nat) (hlegal : encoderLegal c = true)
    (hline : ∀ i, i < 256 → col c src i = col c src' i) : unitB c mode src o = unitB c mode src' o := by
  cases mode with
  | oneToOne =>
    simp only [unitB, unitOneToOne]
    split
    · exact hline _ (by omega)
    · rfl
  | eightToSeven =>
    simp only [unitB, unitEightToSeven]
    split
    · have hsource := scaleMap_le_of_legal c.scaleMap (scaleMapLegal_of_encoderLegal c hlegal) (o - 16) (by omega)
      exact hline _ (by omega)
    · rfl

/-- Settles O34: the colours of the logical line depend on its 256 columns alone, and the units on those colours. -/
theorem variantBReadsOnlyLogicalLine : Obligations.VariantBReadsOnlyLogicalLine := by
  intro c mode src src' hlegal hagree
  have hline : ∀ i, i < 256 → col c src i = col c src' i := fun i hi => by rw [col, col, hagree i hi]
  rw [encB_eq_map, encB_eq_map]
  exact List.map_congr_left fun o _ => unitB_congr c mode src src' o hlegal hline

/-! Packing. -/

theorem pack_length : ∀ units : List PixelUnit, (pack units).length = units.length / 2
  | [] => rfl
  | [_] => by simp [pack]
  | _ :: _ :: rest => by
    have hrest := pack_length rest
    simp only [pack, List.length_cons, hrest]
    omega

/-- Word `j` holds units `2j` and `2j + 1`, the earlier in the low half (R137). -/
theorem pack_getD : ∀ (units : List PixelUnit) (j : Nat), j < units.length / 2 →
    (pack units).getD j 0 = units.getD (2 * j + 1) 0 ++ units.getD (2 * j) 0
  | [], _, h => by simp at h
  | [_], _, h => by simp at h
  | _ :: _ :: _, 0, _ => rfl
  | _ :: _ :: rest, j + 1, h => pack_getD rest j (by simp only [List.length_cons] at h; omega)

/-! A line. -/

theorem readRow_length (s : State) (b : BufId) (y : Nat) : (readRow s b y).length = 320 := by
  simp [readRow, rowKeys, fbWidth]

theorem encodeRow_length (c : Config) (mode : ScaleMode) (src : List Byte) (h : src.length = 320) :
    (encodeRow c mode src).length = 320 := by
  unfold encodeRow
  split
  · exact (encA_length src).trans h
  · exact encB_length c mode src

theorem blankLine_length (c : Config) : (blankLine c).length = 320 := by
  unfold blankLine
  split
  · exact List.length_replicate
  · exact List.length_replicate

/-- A line is the encoded row of the displayed buffer or a blank line (41_scanline_sequencer.md R155). -/
theorem lineUnits_length (s : State) : (lineUnits s).length = 320 := by
  unfold lineUnits
  split
  · exact encodeRow_length _ _ _ (readRow_length s _ _)
  · exact blankLine_length s.cfg

/-- Settles O35: packing halves the count and keeps the order, and both kinds of line have 320 units. -/
theorem linePacksInto160Words : Obligations.LinePacksInto160Words := by
  refine ⟨fun units hlength => ⟨?_, fun j hj => ?_⟩, lineUnits_length⟩
  · rw [pack_length, hlength]
  · exact pack_getD units j (by omega)

end Sys2Proof.Machine
end

section
/-! The frame boundary: what `post` leaves of the frame side, and which steps switch it
(41_scanline_sequencer.md R158, R159, R161, 40_pixel_encoder.md R141). -/

namespace Sys2Proof.Machine

/-! The buffer ACQUIRE returns. -/

theorem eq_or_eq_otherBuf (b c : BufId) : c = b ∨ c = otherBuf b := by cases b <;> cases c <;> decide

/-- A buffer that is ready and not rendering is the one returned, unless the preferred one is so too
(44_frame_exchange.md R234). -/
theorem acquirePick_of_ready (f : FrameExchange) (b : BufId) (hready : f.ready b = true)
    (hidle : f.rendering b = false)
    (hfirst : b = otherBuf f.wt ∨ ¬(f.ready (otherBuf f.wt) = true ∧ f.rendering (otherBuf f.wt) = false)) :
    acquirePick f = some b := by
  rcases eq_or_eq_otherBuf f.wt b with rfl | rfl
  · have hother := hfirst.resolve_left (otherBuf_ne f.wt).symm
    rw [acquirePick, if_neg (by simpa using hother), if_pos (by simp [hready, hidle])]
  · rw [acquirePick, if_pos (by simp [hready, hidle])]

/-! The frame side of the state. -/

/-- The registers the frame boundary reads and writes: the FrameExchange bits and the race record, the two scaling modes and
the displayed buffer (R161). -/
def SameFrame (s t : State) : Prop :=
  t.fx = s.fx ∧ t.race = s.race ∧ t.scalePending = s.scalePending ∧ t.scaleActive = s.scaleActive ∧
    t.dispValid = s.dispValid ∧ t.dispBuf = s.dispBuf

theorem sameFrame_refl (s : State) : SameFrame s s := ⟨rfl, rfl, rfl, rfl, rfl, rfl⟩

theorem sameFrame_trans {s t u : State} (h : SameFrame s t) (k : SameFrame t u) : SameFrame s u := by
  obtain ⟨hfx, hrace, hpending, hactive, hvalid, hbuf⟩ := h
  obtain ⟨kfx, krace, kpending, kactive, kvalid, kbuf⟩ := k
  exact ⟨kfx.trans hfx, krace.trans hrace, kpending.trans hpending, kactive.trans hactive, kvalid.trans hvalid,
    kbuf.trans hbuf⟩

theorem onlyDequeued_sameFrame {s t : State} (h : onlyDequeued s t) : SameFrame s t := by
  unfold onlyDequeued at h
  exact ⟨(congrArg State.fx h :), (congrArg State.race h :), (congrArg State.scalePending h :),
    (congrArg State.scaleActive h :), (congrArg State.dispValid h :), (congrArg State.dispBuf h :)⟩

theorem advance_sameFrame {s t : State} (h : advance s = .ok t) : SameFrame s t := by
  obtain ⟨u, hu, rfl⟩ := (advance_ok s t).1 h
  exact onlyDequeued_sameFrame (t := u) (auxAudio_onlyDequeued s u hu)

/-! What the boundary does. -/

/-- `frame_start` of a taken step, but for the outcome it notes (R161). -/
def frameStarted (s : State) : State :=
  displayPick (acquirePick s.fx) (markRendering (acquirePick s.fx) { s with scaleActive := s.scalePending })

/-- `frame_end` of a taken step, but for the outcome it notes (R161). -/
def frameEnded (s : State) : State := if s.dispValid then clearRendering s.dispBuf s else s

/-- `frame_start`, where the line is the first active one (R158, R159). -/
def frameOpened (s : State) : State := if s.v = tBpEnd s.cfg then frameStarted s else s

/-- `frame_end`, where the line is the last active one (R158, R159). -/
def frameClosed (s : State) : State := if s.v + 1 = vTotal s.cfg then frameEnded s else s

theorem frameOpened_congr {s t : State} (hraster : SameRaster s t) (h : SameFrame s t) :
    SameFrame (frameOpened s) (frameOpened t) := by
  obtain ⟨hcfg, hv, _⟩ := hraster
  obtain ⟨hfx, hrace, hpending, hactive, hvalid, hbuf⟩ := h
  unfold frameOpened frameStarted
  rw [hv, hcfg, hfx, hpending]
  split
  · cases acquirePick s.fx <;> simp [SameFrame, *]
  · exact ⟨hfx, hrace, hpending, hactive, hvalid, hbuf⟩

theorem frameClosed_congr {s t : State} (hraster : SameRaster s t) (h : SameFrame s t) :
    SameFrame (frameClosed s) (frameClosed t) := by
  obtain ⟨hcfg, hv, _⟩ := hraster
  have ⟨hfx, hrace, hpending, hactive, hvalid, hbuf⟩ := h
  unfold frameClosed frameEnded
  rw [hv, hcfg, hvalid, hbuf]
  split
  · split
    · simp [SameFrame, *]
    · exact h
  · exact h

theorem startOfFrame_sameFrame (s t : State) (h : startOfFrame s = .ok t) : SameFrame (frameOpened s) t := by
  unfold frameOpened
  rcases (startOfFrame_ok s t).1 h with ⟨hfirst, h⟩ | ⟨hfirst, rfl⟩
  · obtain ⟨hfree, rfl⟩ := (frameStart_ok s t).1 h
    rw [if_pos hfirst, markRendering_underLock _ { s with scaleActive := s.scalePending } hfree]
    exact sameFrame_refl _
  · rw [if_neg hfirst]
    exact sameFrame_refl _

theorem endOfFrame_sameFrame (s t : State) (h : endOfFrame s = .ok t) : SameFrame (frameClosed s) t := by
  unfold frameClosed frameEnded
  rcases (endOfFrame_ok s t).1 h with ⟨hlast, h⟩ | ⟨hlast, rfl⟩
  · rw [if_pos hlast]
    rcases (frameEnd_ok s t).1 h with ⟨hshown, rfl⟩ | ⟨hshown, hfree, rfl⟩
    · rw [if_neg (by simp [hshown])]
      exact sameFrame_refl _
    · rw [if_pos hshown, clearRendering_underLock _ s hfree]
      exact sameFrame_refl _
  · rw [if_neg hlast]
    exact sameFrame_refl _

/-- The frame side after the work item of `post`: on an item that shows a line, opened on the first line and closed on the
last (R156, R161). -/
def frameSwitched (s : State) : State := if ShowsLine s then frameClosed (frameOpened s) else s

theorem frameOpened_raster (s : State) : SameRaster s (frameOpened s) := by
  unfold frameOpened frameStarted
  split <;> simp [SameRaster]

theorem lineItem_sameFrame (ch : Slot) (words : List Word) (len : Nat) (s a b : State)
    (ha : startOfFrame (markBusySlot ch s) = .ok a) (hb : endOfFrame (describeLine ch words len a) = .ok b) :
    SameFrame (frameClosed (frameOpened s)) b := by
  have hopened : SameFrame (frameOpened s) (describeLine ch words len a) :=
    sameFrame_trans (frameOpened_congr (by simp [SameRaster]) (by simp [SameFrame]))
      (sameFrame_trans (startOfFrame_sameFrame _ a ha) (by simp [SameFrame]))
  have hraster : SameRaster (frameOpened s) (describeLine ch words len a) := by
    obtain ⟨hcfg, hv, hphase⟩ := frameOpened_raster s
    obtain ⟨hacfg, hav, haphase⟩ := onlyFrameSwitched_sameRaster (startOfFrame_onlyFrameSwitched _ a ha)
    simp [SameRaster, *]
  exact sameFrame_trans (frameClosed_congr hraster hopened) (endOfFrame_sameFrame _ b hb)

/-- All that `post` does to the frame side (R156 to R161). -/
theorem post_sameFrame (ch : Slot) (s t : State) (h : post ch s = .ok t) : SameFrame (frameSwitched s) t := by
  unfold frameSwitched
  rcases post_ok ch s t h with ⟨hv, tbl, _, _, h⟩ | ⟨hlow, hhigh, htwo, h⟩ | ⟨hlow, hhigh, hone, h⟩
  · rw [if_neg fun hshows => Nat.not_le.2 hv hshows.1]
    exact sameFrame_trans (by simp [SameFrame]) (advance_sameFrame h)
  · rcases (postActive2_ok ch _ t).1 h with ⟨hcmd, rfl⟩ | ⟨hpix, a, b, ha, hb, ht⟩
    · rw [if_neg fun hshows => by simp [hshows.2.2 htwo] at hcmd]
      simp [SameFrame]
    · rw [if_pos ⟨hlow, hhigh, fun _ => by simpa using hpix⟩]
      exact sameFrame_trans (lineItem_sameFrame ch _ _ s a b ha hb) (advance_sameFrame (s := { b with phase := .cmd }) ht)
  · obtain ⟨a, b, ha, hb, ht⟩ := (postActive1_ok ch _ t).1 h
    rw [if_pos ⟨hlow, hhigh, fun htwo => by simp [hone] at htwo⟩]
    exact sameFrame_trans (lineItem_sameFrame ch _ _ s a b ha hb) (advance_sameFrame ht)

/-! The work items, by whether they show the first line, the last or neither. -/

theorem frameSwitched_of_interior (s : State)
    (h : ¬(ShowsLine s ∧ (s.v = tBpEnd s.cfg ∨ s.v + 1 = vTotal s.cfg))) : frameSwitched s = s := by
  unfold frameSwitched
  split
  · rename_i hshows
    obtain ⟨hfirst, hlast⟩ := not_or.1 fun hedge => h ⟨hshows, hedge⟩
    rw [frameOpened, if_neg hfirst, frameClosed, if_neg hlast]
  · rfl

theorem frameSwitched_of_first (s : State) (hshows : ShowsLine s) (hfirst : s.v = tBpEnd s.cfg)
    (hlast : s.v + 1 ≠ vTotal s.cfg) : frameSwitched s = frameStarted s := by
  rw [frameSwitched, if_pos hshows, frameOpened, if_pos hfirst, frameClosed, if_neg (by simpa [frameStarted] using hlast)]

theorem frameSwitched_of_last (s : State) (hshows : ShowsLine s) (hfirst : s.v ≠ tBpEnd s.cfg)
    (hlast : s.v + 1 = vTotal s.cfg) : frameSwitched s = frameEnded s := by
  rw [frameSwitched, if_pos hshows, frameOpened, if_neg hfirst, frameClosed, if_pos hlast]

/-- `frame_start` where ACQUIRE returns buffer `b`, or none (R161). -/
theorem frameStarted_of_pick (s : State) (b : BufId) (h : acquirePick s.fx = some b) :
    frameStarted s =
      { s with scaleActive := s.scalePending, fx := s.fx.setRendering b true, dispValid := true, dispBuf := b } := by
  rw [frameStarted, h]
  rfl

theorem frameStarted_of_none (s : State) (h : acquirePick s.fx = none) :
    frameStarted s = { s with scaleActive := s.scalePending } := by
  rw [frameStarted, h]
  rfl

/-! What VOUT displays. -/

/-- The active scaling mode and the displayed buffer are the same in two states. -/
def SameDisplay (s t : State) : Prop :=
  t.scaleActive = s.scaleActive ∧ t.dispValid = s.dispValid ∧ t.dispBuf = s.dispBuf

theorem frameClosed_sameDisplay (s : State) : SameDisplay s (frameClosed s) := by
  unfold frameClosed frameEnded
  split_ifs <;> simp [SameDisplay]

/-- A `post` that changes what VOUT displays is that of the first active line, which takes over SCALE_PENDING (R161). -/
theorem post_display (ch : Slot) (s t : State) (h : post ch s = .ok t) :
    SameDisplay s t ∨ (s.v = tBpEnd s.cfg ∧ t.scaleActive = s.scalePending) := by
  obtain ⟨_, _, _, hactive, hvalid, hbuf⟩ := post_sameFrame ch s t h
  simp only [SameDisplay, hactive, hvalid, hbuf]
  unfold frameSwitched
  split
  · obtain ⟨hclosed, hclosedValid, hclosedBuf⟩ := frameClosed_sameDisplay (frameOpened s)
    rw [hclosed, hclosedValid, hclosedBuf]
    unfold frameOpened
    split
    · rename_i hfirst
      exact .inr ⟨hfirst, by simp [frameStarted]⟩
    · exact .inl ⟨rfl, rfl, rfl⟩
  · exact .inl ⟨rfl, rfl, rfl⟩

theorem handler_display (s t : State) (h : handler s = .ok t) :
    SameDisplay s t ∨ (s.v = tBpEnd s.cfg ∧ t.scaleActive = s.scalePending) := by
  simpa [SameDisplay] using post_display _ _ t h

/-! The other turns of a running VOUT. -/

theorem execPublish_sameDisplay (c : BufId) (s t : State) (h : execPublish c s = .next t) : SameDisplay s t := by
  obtain ⟨_, ⟨_, _, _, rfl⟩ | ⟨_, _, rfl⟩ | ⟨_, rfl⟩⟩ := execPublish_next c s t h <;> simp [SameDisplay]

/-- No request changes what a running VOUT displays: START is then rejected (41_scanline_sequencer.md R162). -/
theorem exec_request_sameDisplay (w : Word) (i : Instr) (s t : State) (hdecode : decodeReq w = .ok i)
    (hrun : s.run = true) (h : exec i s = .next t) : SameDisplay s t := by
  rcases decodeReq_ok w i hdecode with ⟨line, _, rfl | rfl⟩ | ⟨b, rfl⟩ | rfl | rfl | ⟨n, rfl⟩ | ⟨mode, rfl⟩ | rfl |
    ⟨b, rfl⟩ | rfl | rfl
  · obtain ⟨_, ⟨_, rfl⟩ | ⟨_, _, rfl⟩ | ⟨_, rfl⟩⟩ := execLineBegin_next line s t h <;> simp [SameDisplay, badRequest]
  · obtain ⟨_, ⟨_, rfl⟩ | ⟨_, _, _, rfl⟩ | ⟨_, rfl⟩⟩ := execLineEnd_next line s t h <;> simp [SameDisplay, badRequest]
  · exact execPublish_sameDisplay b s t h
  · exact execPublish_sameDisplay s.fx.wt s t h
  · obtain ⟨_, h⟩ := (serve_next _ _ _ _).1 h
    cases h; simp [SameDisplay]
  · obtain ⟨_, h⟩ := (serve_next _ _ _ _).1 h
    cases h; simp [SameDisplay]
  · obtain ⟨_, h⟩ := (serve_next _ _ _ _).1 h
    cases h; simp [SameDisplay]
  · obtain ⟨_, hstopped, _⟩ := execAcquire_next s t h
    simp [hrun] at hstopped
  · obtain ⟨_, hstopped, _⟩ := execRelease_next b s t h
    simp [hrun] at hstopped
  · obtain ⟨_, _, rfl⟩ := execAudDeq_next s t h
    simp [SameDisplay]
  · obtain ⟨_, ⟨_, rfl⟩ | ⟨hstopped, _⟩ | ⟨_, rfl⟩⟩ := execStart_next s t h
    · simp [SameDisplay, badRequest]
    · simp [hrun] at hstopped
    · simp [SameDisplay]

theorem requestTurn_sameDisplay (ctx : Context) (w : Word) (pl : List (List Byte)) (s t : State) (hrun : s.run = true)
    (h : requestTurn ctx w pl s = .next t) : SameDisplay s t := by
  rcases requestTurn_next ctx w pl s t h with ⟨i, u, hdecode, hexec, rfl⟩ | ⟨_, _, rfl⟩
  · have hu : SameDisplay s u := exec_request_sameDisplay w i (present ctx pl s) u hdecode hrun hexec
    split <;> exact hu
  · simp [SameDisplay, badRequest]

theorem serPopTurn_sameDisplay (s t : State) (h : serPopTurn s = .next t) : SameDisplay s t := by
  rcases serPopTurn_effect s t h with ⟨_, rfl⟩ | ⟨w, rest, _, heffect⟩
  · exact ⟨rfl, rfl, rfl⟩
  · cases heffect <;> simp [SameDisplay]

theorem dmaXfer_sameDisplay (ch : Slot) (s t : State) (h : dmaXfer ch s = .ok t) : SameDisplay s t := by
  obtain ⟨w, _, rfl⟩ := (dmaXfer_ok ch s t).1 h
  simp [SameDisplay]

theorem dmaComplete_sameDisplay (ch : Slot) (s t : State) (h : dmaComplete ch s = .ok t) : SameDisplay s t := by
  rcases (dmaComplete_ok ch s t).1 h with ⟨_, rfl⟩ | ⟨_, _, rfl⟩ <;> simp [SameDisplay]

theorem audIsr_sameDisplay (s t : State) (h : audIsr s = .ok t) : SameDisplay s t := by
  obtain ⟨u, hu, ht⟩ := (bind_ok _ _ _).1 h
  obtain ⟨_, rfl⟩ := (dequeue_ok _ _ _).1 hu
  cases ht
  simp [SameDisplay]

/-- A step taken where it is enabled changes the display only as what it does changes it. -/
theorem whenEnabled_display (enabled : Bool) (s t : State) (a : Attempt State) (h : whenEnabled enabled s a = .next t) :
    SameDisplay s t ∨ a = .ok t := by
  rcases (whenEnabled_next _ _ _ _).1 h with ⟨_, h⟩ | ⟨_, rfl⟩
  · rcases (finish_next _ _ _).1 h with h | ⟨_, rfl⟩
    · exact .inr h
    · exact .inl ⟨rfl, rfl, rfl⟩
  · exact .inl ⟨rfl, rfl, rfl⟩

/-- While VOUT runs, a turn that changes what it displays is a reset or the HANDLER's at the first active line
(40_pixel_encoder.md R141). -/
theorem takeTurn_display (turn : Turn) (s t : State) (hrun : s.run = true) (hreset : turn ≠ .reset)
    (h : takeTurn turn s = .next t) :
    SameDisplay s t ∨ (turn = .handler ∧ s.v = tBpEnd s.cfg ∧ t.scaleActive = s.scalePending) := by
  cases turn with
  | request ctx w pl => exact .inl (requestTurn_sameDisplay ctx w pl s t hrun h)
  | dmaXfer ch => exact .inl ((whenEnabled_display _ s t _ h).elim id (dmaXfer_sameDisplay ch s t))
  | dmaComplete ch => exact .inl ((whenEnabled_display _ s t _ h).elim id (dmaComplete_sameDisplay ch s t))
  | handler =>
    rcases whenEnabled_display _ s t _ h with hsame | h
    · exact .inl hsame
    · exact (handler_display s t h).imp_right fun hfirst => ⟨rfl, hfirst⟩
  | serPop => exact .inl (serPopTurn_sameDisplay s t h)
  | audTick => cases h; exact .inl (by simp [SameDisplay])
  | audIsr => exact .inl ((whenEnabled_display _ s t _ h).elim id (audIsr_sameDisplay s t))
  | reset => exact absurd rfl hreset

theorem step_display (s t : State) (hrun : s.run = true) (hreset : nextTurn s ≠ some .reset) (h : step s = .next t) :
    SameDisplay s t ∨ (nextTurn s = some .handler ∧ s.v = tBpEnd s.cfg ∧ t.scaleActive = s.scalePending) := by
  obtain ⟨_, ⟨_, rfl⟩ | ⟨turn, hturn, ht⟩⟩ := (step_next s t).1 h
  · exact .inl ⟨rfl, rfl, rfl⟩
  · rw [hturn] at hreset ⊢
    have hturnReset : turn ≠ .reset := fun h => hreset (congrArg some h)
    rcases takeTurn_display turn { beginStep s with inbox := s.inbox.tail } t hrun hturnReset ht with
      hsame | ⟨rfl, hfirst, hlatched⟩
    · exact .inl hsame
    · exact .inr ⟨rfl, hfirst, hlatched⟩

/-- Settles O25: only the HANDLER's `post` of the first active line switches the display, and `frameSwitched` is all that a
`post` does to the frame side. -/
theorem scaleNeverChangesMidFrame : Obligations.ScaleNeverChangesMidFrame := by
  refine ⟨fun s t hrun hreset hstep hchanged => ?_, fun s t ch h => ?_⟩
  · refine (step_display s t hrun hreset hstep).resolve_left fun ⟨hactive, hvalid, hbuf⟩ => ?_
    rcases hchanged with hne | hne | hne
    · exact hne hactive
    · exact hne hvalid
    · exact hne hbuf
  · obtain ⟨hfx, hrace, _, hactive, hvalid, hbuf⟩ := post_sameFrame ch s t h
    rw [hfx, hrace, hactive, hvalid, hbuf]
    refine ⟨fun hinterior => ?_, fun hshows hfirst hlast => ?_, fun hshows hfirst hlast => ?_⟩
    · rw [frameSwitched_of_interior s hinterior]
      exact ⟨rfl, rfl, rfl, rfl, rfl⟩
    · rw [frameSwitched_of_first s hshows hfirst hlast]
      refine ⟨by simp [frameStarted], by simp [frameStarted], fun b hready hidle hpreferred => ?_, fun hnone => ?_⟩
      · rw [frameStarted_of_pick s b (acquirePick_of_ready s.fx b hready hidle hpreferred)]
        exact ⟨rfl, rfl, rfl⟩
      · rw [frameStarted_of_none s ((acquirePick_none s.fx).2 hnone)]
        exact ⟨rfl, rfl, rfl⟩
    · rw [frameSwitched_of_last s hshows hfirst hlast]
      cases hshown : s.dispValid with
      | true => simp [frameEnded, hshown]
      | false => simp [frameEnded, hshown]

end Sys2Proof.Machine
end

section
/-! The line counter (10_state.md R24, 41_scanline_sequencer.md R163). -/

namespace Sys2Proof.Machine

theorem nextLine_eq_mod (c : Config) (v : Nat) (h : v < vTotal c) : nextLine c v = (v + 1) % vTotal c := by
  unfold nextLine
  split
  · rename_i hlast; rw [hlast, Nat.mod_self]
  · rename_i hinner; exact (Nat.mod_eq_of_lt (by omega)).symm

/-- The line counter counts modulo V_TOTAL. -/
theorem nextLine_iterate (c : Config) (v k : Nat) (h : v < vTotal c) : (nextLine c)^[k] v = (v + k) % vTotal c := by
  induction k with
  | zero => exact (Nat.mod_eq_of_lt h).symm
  | succ k ih =>
    rw [Function.iterate_succ_apply', ih, nextLine_eq_mod c _ (Nat.mod_lt _ (Nat.zero_lt_of_lt h)), Nat.mod_add_mod,
      Nat.add_assoc]

/-- Settles O49: modulo V_TOTAL an advance by V_TOTAL is none, and a shorter one reaches another residue. -/
theorem lineCounterHasPeriodVTotal : Obligations.LineCounterHasPeriodVTotal := by
  intro c v hv
  refine ⟨rfl, ?_, fun k hpos hk hback => ?_⟩
  · rw [nextLine_iterate c v _ hv, Nat.add_mod_right, Nat.mod_eq_of_lt hv]
  · rw [nextLine_iterate c v k hv] at hback
    rcases Nat.lt_or_ge (v + k) (vTotal c) with hinside | hwrapped
    · rw [Nat.mod_eq_of_lt hinside] at hback
      omega
    · rw [Nat.mod_eq_sub_mod hwrapped, Nat.mod_eq_of_lt (by omega)] at hback
      omega

end Sys2Proof.Machine
end

section
/-! What an active line shows (41_scanline_sequencer.md R153, R155). -/

namespace Sys2Proof.Machine

/-- The vertical raster numbers of a legal build (00_scope.md R7 (a), (b)). -/
theorem verticalRaster_of_legal (c : Config) (h : buildLegal c = true) :
    c.vActive = 240 * (c.vActive / 240) ∧ 1 ≤ c.vActive / 240 ∧ 1 ≤ c.vSyncWidth := by
  simp only [buildLegal, rasterLegal, Bool.and_eq_true, decide_eq_true_eq, and_assoc] at h
  obtain ⟨hrepeat, hmultiple, _, _, _, hsync, _⟩ := h
  exact ⟨(Nat.mul_div_cancel' (Nat.dvd_of_mod_eq_zero hmultiple)).symm, hrepeat, hsync⟩

/-- Every active line shows a row of the framebuffer: LINE_REPEAT lines a row, FB_HEIGHT rows. -/
theorem rowOf_lt_of_active (c : Config) (v : Nat) (hlegal : buildLegal c = true) (hactive : tBpEnd c ≤ v)
    (hv : v < vTotal c) : rowOf c v < 240 := by
  obtain ⟨hlines, hrepeat, _⟩ := verticalRaster_of_legal c hlegal
  have hline : v - tBpEnd c < c.vActive := by unfold vTotal at hv; omega
  exact (Nat.div_lt_iff_lt_mul hrepeat).2 (hlines ▸ hline)

/-- With no racing write recorded `post` reads the stored byte (20_memory.md R72). -/
theorem fbRead_of_no_race (s : State) (a : Nat) (h : s.race = []) : fbRead s a = fbByte s a := by
  simp [fbRead, racedBytes, h]

theorem readRow_of_no_race (s : State) (b : BufId) (y : Nat) (h : s.race = []) :
    readRow s b y = (List.range 320).map (fun i => fbByte s (fbAddr b y i)) := by
  simp [readRow, rowKeys, fbRead_of_no_race s _ h, fbWidth]

theorem blankLine_getD (c : Config) (x : Nat) (h : x < 320) :
    (blankLine c).getD x 0 = if c.pixelVariant = .a then 0 else c.marginSample := by
  have hreplicate (u : PixelUnit) : (List.replicate fbWidth u).getD x 0 = u := by
    rw [List.getD_eq_getElem _ _ (List.length_replicate.symm ▸ h), List.getElem_replicate]
  unfold blankLine
  split <;> rename_i hvariant <;> rw [hreplicate, hvariant] <;> rfl

theorem lineUnits_of_displayed (s : State) (hshown : s.dispValid = true) (hrace : s.race = []) :
    lineUnits s = encodeRow s.cfg s.scaleActive
      ((List.range 320).map (fun i => fbByte s (fbAddr s.dispBuf (rowOf s.cfg s.v) i))) := by
  rw [lineUnits, if_pos hshown, readRow_of_no_race s _ _ hrace]

/-- Settles O36: the row is inside the framebuffer, and the line is its encoding by the build's encoder or the blank line. -/
theorem lineShowsDisplayedRow : Obligations.LineShowsDisplayedRow := by
  intro s x hlegal hx hactive hv hrace
  refine ⟨rowOf_lt_of_active s.cfg s.v hlegal hactive hv, fun hshown hvariant => ?_, fun hshown hvariant => ?_,
    fun hblank => ?_⟩
  · rw [lineUnits_of_displayed s hshown hrace, encodeRow_variantA _ _ _ hvariant, encA_getD _ x (by simpa using hx)]
    simp [hx, rowOf, lineRepeat, fbHeight]
  · rw [lineUnits_of_displayed s hshown hrace]
    simp [encodeRow, hvariant, rowOf, lineRepeat, fbHeight]
  · rw [← blankLine_getD s.cfg x hx]
    simp [lineUnits, hblank]

end Sys2Proof.Machine
end

section
/-! The work item `post` leaves in its slot: the descriptor, and the words written to the slot's line buffer
(41_scanline_sequencer.md R157 to R159). -/

namespace Sys2Proof.Machine

/-! What a work item writes. -/

/-- The two channels and the line buffers are the same in two states. -/
def SameSlots (s t : State) : Prop := (∀ ch, t.chan ch = s.chan ch) ∧ t.lineBuf = s.lineBuf ∧ t.epoch = s.epoch

theorem sameSlots_trans {s t u : State} (h : SameSlots s t) (k : SameSlots t u) : SameSlots s u := by
  obtain ⟨hchan, hbuf, hepoch⟩ := h
  obtain ⟨kchan, kbuf, kepoch⟩ := k
  exact ⟨fun ch => (kchan ch).trans (hchan ch), kbuf.trans hbuf, kepoch.trans hepoch⟩

theorem onlyDequeued_sameSlots {s t : State} (h : onlyDequeued s t) : SameSlots s t := by
  have hchan := sameTransfers_chan (onlyDequeued_sameTransfers h)
  unfold onlyDequeued at h
  exact ⟨hchan, (congrArg State.lineBuf h :), (congrArg State.epoch h :)⟩

theorem onlyFrameSwitched_sameSlots {s t : State} (h : onlyFrameSwitched s t) : SameSlots s t := by
  have hchan := sameTransfers_chan (onlyFrameSwitched_sameTransfers h)
  unfold onlyFrameSwitched at h
  exact ⟨hchan, (congrArg State.lineBuf h :), (congrArg State.epoch h :)⟩

theorem advance_sameSlots {s t : State} (h : advance s = .ok t) : SameSlots s t := by
  obtain ⟨u, hu, rfl⟩ := (advance_ok s t).1 h
  have hdequeued : SameSlots s u := onlyDequeued_sameSlots (auxAudio_onlyDequeued s u hu)
  exact hdequeued

theorem markBusySlot_sameSlots (ch : Slot) (s : State) : SameSlots s (markBusySlot ch s) := by simp [SameSlots]

/-- From `s` to `t` slot `ch` is described by `src` and `len`, `words` are written to its line buffer from the first word on,
and the other slot and all other line-buffer words stay. -/
def ItemPosted (ch : Slot) (src len : BitVec 16) (words : List Word) (s t : State) : Prop :=
  t.chan ch = { s.chan ch with src := src, len := len } ∧
  t.chan (otherSlot ch) = s.chan (otherSlot ch) ∧
  t.lineBuf = Memory.writeList s.lineBuf (lineBufBase ch) words ∧ t.epoch = s.epoch

section ItemPosted
variable {ch : Slot} {src len : BitVec 16} {words : List Word} {s t : State}

theorem itemPosted_of_sameSlots {a b : State} (hbefore : SameSlots s a) (h : ItemPosted ch src len words a b)
    (hafter : SameSlots b t) : ItemPosted ch src len words s t := by
  obtain ⟨hchan, hbuf, hepoch⟩ := hbefore
  obtain ⟨kchan, kbuf, kepoch⟩ := hafter
  simpa only [ItemPosted, kchan, kbuf, kepoch, hchan, hbuf, hepoch] using h

theorem itemPosted_descriptor (h : ItemPosted ch src len words s t) : (t.chan ch).src = src ∧ (t.chan ch).len = len := by
  obtain ⟨hchan, _⟩ := h
  rw [hchan]
  exact ⟨rfl, rfl⟩

/-- A work item leaves its slot's cursors and status bits, and the other slot (42_dma_scheduler.md R184). -/
theorem itemPosted_frame (h : ItemPosted ch src len words s t) :
    t.chan ch = { s.chan ch with src := (t.chan ch).src, len := (t.chan ch).len } ∧
      t.chan (otherSlot ch) = s.chan (otherSlot ch) := by
  obtain ⟨hsrc, hlen⟩ := itemPosted_descriptor h
  obtain ⟨hchan, hother, _⟩ := h
  rw [hsrc, hlen]
  exact ⟨hchan, hother⟩

theorem itemPosted_word (h : ItemPosted ch src len words s t) (j : Nat) (hj : j < words.length) :
    lineBufWord t (lineBufBase ch + j) = words.getD j 0 := by
  obtain ⟨_, _, hbuf, _⟩ := h
  rw [lineBufWord, hbuf, Memory.read?_writeList_inside words _ _ j hj, List.getElem?_eq_getElem hj,
    List.getD_eq_getElem _ _ hj, Option.getD_some]

theorem itemPosted_word_outside (h : ItemPosted ch src len words s t) (a : Nat)
    (ha : a < lineBufBase ch ∨ lineBufBase ch + words.length ≤ a) : lineBufWord t a = lineBufWord s a := by
  obtain ⟨_, _, hbuf, hepoch⟩ := h
  rw [lineBufWord, hbuf, Memory.read?_writeList_outside words _ _ a ha, hepoch, lineBufWord]

end ItemPosted

theorem describeTable_itemPosted (ch : Slot) (tbl : TableId) (s : State) :
    ItemPosted ch (BitVec.ofNat 16 (tableBase tbl)) (BitVec.ofNat 16 s.cfg.cmdListLen) [] s (describeTable ch tbl s) :=
  ⟨describeTable_chan_same ch tbl s, describeTable_chan_other ch tbl s, describeTable_lineBuf ch tbl s,
    describeTable_epoch ch tbl s⟩

theorem describeLine_itemPosted (ch : Slot) (words : List Word) (len : Nat) (s : State) :
    ItemPosted ch (BitVec.ofNat 16 (lineBufBase ch)) (BitVec.ofNat 16 len) words s (describeLine ch words len s) :=
  ⟨describeLine_chan_same ch words len s, describeLine_chan_other ch words len s, by simp, by simp⟩

/-! A blanking line. -/

/-- The table of a blanking line: TBL_VSYNC in the SYNC region (41_scanline_sequencer.md R151, R157). -/
def blankTable (c : Config) (v : Nat) : TableId :=
  if c.vFrontPorch ≤ v ∧ v < c.vFrontPorch + c.vSyncWidth then .vsync else .blank

theorem blankTable_base (c : Config) (v : Nat) :
    BitVec.ofNat 16 (tableBase (blankTable c v)) =
      if c.vFrontPorch ≤ v ∧ v < c.vFrontPorch + c.vSyncWidth then 0x0100#16 else 0x0000#16 := by
  unfold blankTable; split <;> rfl

theorem post_of_blank (ch : Slot) (s : State) (h : s.v < tBpEnd s.cfg) :
    post ch s = advance (describeTable ch (blankTable s.cfg s.v) (markBusySlot ch s)) := by
  unfold tBpEnd at h
  rcases Nat.lt_or_ge s.v s.cfg.vFrontPorch with hfront | hsync
  · simp [post, postItem, region, tFpEnd, postBlank, blankTable, hfront, Nat.not_le.2 hfront]
  · rcases Nat.lt_or_ge s.v (s.cfg.vFrontPorch + s.cfg.vSyncWidth) with hend | hback
    · simp [post, postItem, region, tFpEnd, tSyncEnd, postBlank, blankTable, hsync, hend, Nat.not_lt.2 hsync]
    · simp [post, postItem, region, tFpEnd, tSyncEnd, tBpEnd, postBlank, blankTable, h, Nat.not_lt.2 hsync,
        Nat.not_lt.2 hback]

theorem post_blank_itemPosted (ch : Slot) (s t : State) (hblank : s.v < tBpEnd s.cfg) (h : post ch s = .ok t) :
    ItemPosted ch (BitVec.ofNat 16 (tableBase (blankTable s.cfg s.v))) (BitVec.ofNat 16 s.cfg.cmdListLen) [] s t := by
  rw [post_of_blank ch s hblank] at h
  have hitem := describeTable_itemPosted ch (blankTable s.cfg s.v) (markBusySlot ch s)
  exact itemPosted_of_sameSlots (markBusySlot_sameSlots ch s) hitem (advance_sameSlots h)

/-! An active line. -/

theorem post_commandPhase_itemPosted (ch : Slot) (s t : State) (hactive : tBpEnd s.cfg ≤ s.v)
    (htwo : s.cfg.twoPhase = true) (hcmd : s.phase = .cmd) (h : post ch s = .ok t) :
    ItemPosted ch 0x0200 (BitVec.ofNat 16 s.cfg.cmdListLen) [] s t := by
  rcases post_ok ch s t h with ⟨hv, _⟩ | ⟨_, _, _, h⟩ | ⟨_, _, hone, _⟩
  · omega
  · rcases (postActive2_ok ch _ t).1 h with ⟨_, rfl⟩ | ⟨hpix, _⟩
    · have hitem := describeTable_itemPosted ch .active (markBusySlot ch s)
      exact itemPosted_of_sameSlots (markBusySlot_sameSlots ch s) hitem ⟨fun ch' => by cases ch' <;> rfl, rfl, rfl⟩
    · simp [hcmd] at hpix
  · simp [htwo] at hone

/-- The frame boundary and the end of the line leave the work item that stands between them. -/
theorem lineItem_itemPosted (ch : Slot) (words : List Word) (len : Nat) {s u b t : State}
    (hu : startOfFrame (markBusySlot ch s) = .ok u) (hb : endOfFrame (describeLine ch words len u) = .ok b)
    (hend : SameSlots b t) :
    ItemPosted ch (BitVec.ofNat 16 (lineBufBase ch)) (BitVec.ofNat 16 len) words s t := by
  have hstart := onlyFrameSwitched_sameSlots (startOfFrame_onlyFrameSwitched _ u hu)
  have hclose := onlyFrameSwitched_sameSlots (endOfFrame_onlyFrameSwitched _ b hb)
  exact itemPosted_of_sameSlots (sameSlots_trans (markBusySlot_sameSlots ch s) hstart)
    (describeLine_itemPosted ch words len u) (sameSlots_trans hclose hend)

/-- The pixel phase: the packed line alone, as it is after the `frame_start` of a first active line (R158). -/
theorem post_pixelPhase_itemPosted (ch : Slot) (s t : State) (hactive : tBpEnd s.cfg ≤ s.v)
    (htwo : s.cfg.twoPhase = true) (hpix : s.phase = .pix) (h : post ch s = .ok t) :
    ∃ u, startOfFrame (markBusySlot ch s) = .ok u ∧
      ItemPosted ch (BitVec.ofNat 16 (lineBufBase ch)) 160 (pack (lineUnits u)) s t := by
  rcases post_ok ch s t h with ⟨hv, _⟩ | ⟨_, _, _, h⟩ | ⟨_, _, hone, _⟩
  · omega
  · rcases (postActive2_ok ch _ t).1 h with ⟨hcmd, _⟩ | ⟨_, u, b, hu, hb, ht⟩
    · simp [hpix] at hcmd
    · have hline : SameSlots b t := (advance_sameSlots ht :)
      exact ⟨u, hu, lineItem_itemPosted ch _ _ hu hb hline⟩
  · simp [htwo] at hone

/-- An active line that is one work item: TBL_ACTIVE, then the packed line (R159). -/
theorem post_wholeLine_itemPosted (ch : Slot) (s t : State) (hactive : tBpEnd s.cfg ≤ s.v)
    (hone : s.cfg.twoPhase = false) (h : post ch s = .ok t) :
    ∃ u, startOfFrame (markBusySlot ch s) = .ok u ∧
      ItemPosted ch (BitVec.ofNat 16 (lineBufBase ch)) (BitVec.ofNat 16 (s.cfg.cmdListLen + 160))
        (tableWords s.cfg .active ++ pack (lineUnits u)) s t := by
  rcases post_ok ch s t h with ⟨hv, _⟩ | ⟨_, _, htwo, _⟩ | ⟨_, _, _, h⟩
  · omega
  · simp [hone] at htwo
  · obtain ⟨u, b, hu, hb, ht⟩ := (postActive1_ok ch _ t).1 h
    obtain ⟨hcfg, _, _⟩ := onlyFrameSwitched_sameRaster (startOfFrame_onlyFrameSwitched _ u hu)
    have hitem := lineItem_itemPosted ch _ _ hu hb (advance_sameSlots ht)
    rw [hcfg] at hitem
    exact ⟨u, hu, hitem⟩

/-- Every `post` leaves one work item, and that of an active line does not name TBL_VSYNC. -/
theorem post_itemPosted (ch : Slot) (s t : State) (h : post ch s = .ok t) :
    ∃ src len words, ItemPosted ch src len words s t ∧ (tBpEnd s.cfg ≤ s.v → src ≠ 0x0100) := by
  have hbuf : BitVec.ofNat 16 (lineBufBase ch) ≠ 0x0100 := by cases ch <;> decide
  rcases Nat.lt_or_ge s.v (tBpEnd s.cfg) with hblank | hactive
  · exact ⟨_, _, _, post_blank_itemPosted ch s t hblank h, fun hactive => absurd hblank (Nat.not_lt.2 hactive)⟩
  · cases htwo : s.cfg.twoPhase with
    | false =>
      obtain ⟨u, _, hitem⟩ := post_wholeLine_itemPosted ch s t hactive htwo h
      exact ⟨_, _, _, hitem, fun _ => hbuf⟩
    | true =>
      cases hphase : s.phase with
      | cmd => exact ⟨_, _, _, post_commandPhase_itemPosted ch s t hactive htwo hphase h, fun _ => by decide⟩
      | pix =>
        obtain ⟨u, _, hitem⟩ := post_pixelPhase_itemPosted ch s t hactive htwo hphase h
        exact ⟨_, _, _, hitem, fun _ => hbuf⟩

/-! The descriptor. -/

theorem lineBufBase_word (ch : Slot) :
    BitVec.ofNat 16 (lineBufBase ch) = if ch = .ping then 0x1000#16 else 0x1400#16 := by cases ch <;> rfl

/-- Settles O48: the descriptor is that of the region's and the phase's work item, and no item names TBL_VSYNC but that of a
SYNC line. -/
theorem syncTablePostedExactlyOnSyncLines : Obligations.SyncTablePostedExactlyOnSyncLines := by
  intro s t ch h
  obtain ⟨_, _, _, hitem, hactiveSrc⟩ := post_itemPosted ch s t h
  have hblank : s.v < tBpEnd s.cfg →
      (t.chan ch).src =
        (if s.cfg.vFrontPorch ≤ s.v ∧ s.v < s.cfg.vFrontPorch + s.cfg.vSyncWidth then 0x0100 else 0x0000) ∧
      (t.chan ch).len = BitVec.ofNat 16 s.cfg.cmdListLen :=
    fun hv => blankTable_base s.cfg s.v ▸ itemPosted_descriptor (post_blank_itemPosted ch s t hv h)
  refine ⟨?_, hblank, fun hactive htwo hcmd => ?_, fun hactive htwo hpix => ?_, fun hactive hone => ?_,
    itemPosted_frame hitem⟩
  · rcases Nat.lt_or_ge s.v (tBpEnd s.cfg) with hv | hactive
    · rw [(hblank hv).1]
      split <;> simp_all
    · rw [(itemPosted_descriptor hitem).1]
      refine iff_of_false (hactiveSrc hactive) fun hsync => ?_
      unfold tBpEnd at hactive
      omega
  · exact itemPosted_descriptor (post_commandPhase_itemPosted ch s t hactive htwo hcmd h)
  · obtain ⟨u, _, hline⟩ := post_pixelPhase_itemPosted ch s t hactive htwo hpix h
    exact lineBufBase_word ch ▸ itemPosted_descriptor hline
  · obtain ⟨u, _, hline⟩ := post_wholeLine_itemPosted ch s t hactive hone h
    exact lineBufBase_word ch ▸ itemPosted_descriptor hline

/-! The line buffer. -/

theorem packedLine_length (s : State) : (pack (lineUnits s)).length = 160 := by rw [pack_length, lineUnits_length]

/-- Word `j` of a packed line (40_pixel_encoder.md R137). -/
theorem packedLine_getD (s : State) (j : Nat) (h : j < 160) :
    (pack (lineUnits s)).getD j 0 = (lineUnits s).getD (2 * j + 1) 0 ++ (lineUnits s).getD (2 * j) 0 :=
  pack_getD _ j (by rwa [lineUnits_length])

/-- Settles O51: the item's words are the packed line, after TBL_ACTIVE where the line is one item, and they are all that is
written to the line buffers. -/
theorem pixelPhaseFillsLineBuffer : Obligations.PixelPhaseFillsLineBuffer := by
  intro s t u ch hactive hu h
  refine ⟨fun htwo hpix => ?_, fun hone hlist => ?_⟩
  · obtain ⟨u', hu', hitem⟩ := post_pixelPhase_itemPosted ch s t hactive htwo hpix h
    obtain rfl := (ok_eq_iff u u').1 (hu ▸ hu')
    obtain ⟨hsrc, hlen⟩ := itemPosted_descriptor hitem
    refine ⟨hsrc, hlen, fun j hj => ?_, fun a ha => ?_⟩
    · rw [itemPosted_word hitem j (by rwa [packedLine_length]), packedLine_getD _ j hj]
    · exact itemPosted_word_outside hitem a (by rwa [packedLine_length])
  · obtain ⟨u', hu', hitem⟩ := post_wholeLine_itemPosted ch s t hactive hone h
    obtain rfl := (ok_eq_iff u u').1 (hu ▸ hu')
    obtain ⟨hsrc, hlen⟩ := itemPosted_descriptor hitem
    have htable := tableWords_length s.cfg .active hlist
    have hwords : (tableWords s.cfg .active ++ pack (lineUnits u')).length = s.cfg.cmdListLen + 160 := by
      rw [List.length_append, htable, packedLine_length]
    refine ⟨hsrc, hlen, fun j hj => ?_, fun j hj => ?_, fun a ha => ?_⟩
    · rw [itemPosted_word hitem j (by omega), List.getD_append _ _ _ _ (by omega)]
    · rw [Nat.add_assoc, itemPosted_word hitem _ (by omega), List.getD_append_right _ _ _ _ (by omega), htable,
        Nat.add_sub_cancel_left, packedLine_getD _ j hj]
    · exact itemPosted_word_outside hitem a (by omega)

end Sys2Proof.Machine
end

section
/-! START: two blanking lines posted one after the other, and the first slot triggered (41_scanline_sequencer.md R162). -/

namespace Sys2Proof.Machine

/-! Dequeues of one line and then of another (45_audio.md R259). -/

/-- What dequeues leave of the ring: its frames, the producer's cursor and the build. -/
def SameRing (s t : State) : Prop := t.cfg = s.cfg ∧ t.epoch = s.epoch ∧ t.ring = s.ring ∧ t.wr = s.wr

section TwoLines
variable {s a : State} {m : Nat} (n : Nat) (hwr : s.wr < s.cfg.audioCap) (hrd : s.rd < s.cfg.audioCap)
  (hring : SameRing s a) (hfirst : AuxDequeued m s a)
include hwr hrd hring hfirst

/-- The ring holds what the first dequeues have left. -/
theorem ringHeld_after : ringHeld a = ringHeld s - auxServed m s := by
  obtain ⟨hcfg, _, _, hwrEq⟩ := hring
  obtain ⟨hard, _⟩ := hfirst
  have hserved : auxServed m s ≤ ringHeld s := Nat.min_le_right _ _
  have hcap : a.rd < s.cfg.audioCap := hard ▸ Nat.mod_lt _ (Nat.zero_lt_of_lt hrd)
  have hwrap : a.rd = if s.rd + auxServed m s < s.cfg.audioCap then s.rd + auxServed m s
      else s.rd + auxServed m s - s.cfg.audioCap := by
    rw [ringHeld_eq s hwr hrd] at hserved
    rw [hard]
    split
    · rename_i hlow; exact Nat.mod_eq_of_lt hlow
    · rw [Nat.mod_eq_sub_mod (by omega), Nat.mod_eq_of_lt (by split at hserved <;> omega)]
  rw [ringHeld_eq s hwr hrd] at hserved ⊢
  rw [ringHeld_eq a (by rwa [hwrEq, hcfg]) (by rwa [hcfg]), hwrEq, hcfg, hwrap]
  split_ifs at hserved ⊢ <;> omega

theorem auxServed_add : auxServed (m + n) s = auxServed m s + auxServed n a := by
  have hheld := ringHeld_after hwr hrd hring hfirst
  unfold auxServed at hheld ⊢
  omega

/-- The dequeues that find the ring empty add up too. -/
theorem auxMissed_add :
    m + n - auxServed (m + n) s = (m - auxServed m s) + (n - auxServed n a) := by
  have hserved := auxServed_add n hwr hrd hring hfirst
  have hm : auxServed m s ≤ m := Nat.min_le_left _ _
  have hn : auxServed n a ≤ n := Nat.min_le_left _ _
  omega

/-- Unless the first dequeues all find a frame, the ring is empty after them. -/
theorem auxMissed_or_served : m - auxServed m s = 0 ∨ auxServed n a = 0 := by
  have hheld := ringHeld_after hwr hrd hring hfirst
  unfold auxServed at hheld ⊢
  omega

theorem auxFrames_add : auxFrames (m + n) s = auxFrames m s ++ auxFrames n a := by
  have hserved := auxServed_add n hwr hrd hring hfirst
  obtain ⟨hcfg, hepoch, hcells, _⟩ := hring
  obtain ⟨hard, _⟩ := hfirst
  have hframe : ∀ k, ringFrame a ((a.rd + k) % a.cfg.audioCap) =
      ringFrame s ((s.rd + (auxServed m s + k)) % s.cfg.audioCap) := by
    intro k
    rw [ringFrame, ringFrame, hcells, hepoch, hcfg, hard, Nat.mod_add_mod, Nat.add_assoc]
  simp only [auxFrames, hserved, List.range_add, List.map_append, List.map_map]
  exact congrArg _ (List.map_congr_left fun k _ => (hframe k).symm)

theorem auxOutcomes_add : auxOutcomes (m + n) s = auxOutcomes m s ++ auxOutcomes n a := by
  have hserved := auxServed_add n hwr hrd hring hfirst
  have hmissed := auxMissed_add n hwr hrd hring hfirst
  rw [auxOutcomes, hmissed, hserved]
  simp only [auxOutcomes, List.replicate_add, List.append_assoc]
  rcases auxMissed_or_served n hwr hrd hring hfirst with hall | hnone
  · simp only [hall, List.replicate_zero, List.nil_append]
  · simp only [hnone, List.replicate_zero, List.nil_append]

/-- The dequeues of two lines are those of one line and then of the other. -/
theorem auxDequeued_add {t : State} (hsecond : AuxDequeued n a t) : AuxDequeued (m + n) s t := by
  have hserved := auxServed_add n hwr hrd hring hfirst
  have hframes := auxFrames_add n hwr hrd hring hfirst
  have hmissed := auxMissed_add n hwr hrd hring hfirst
  have hends := auxMissed_or_served n hwr hrd hring hfirst
  obtain ⟨hcfg, _⟩ := hring
  obtain ⟨hard, halast, hatrace, haowner⟩ := hfirst
  obtain ⟨htrd, htlast, httrace, htowner⟩ := hsecond
  refine ⟨?_, ?_, ?_, ?_⟩
  · rw [htrd, hard, hcfg, Nat.mod_add_mod, hserved, Nat.add_assoc]
  · simp [htlast, halast, hframes, List.getLastD_eq_getLast?, List.getLast?_append]
  · simp only [httrace, hatrace, hframes, hmissed, List.replicate_add, List.append_assoc]
    rcases hends with hall | hnone
    · simp only [hall, List.replicate_zero, List.nil_append]
    · have hempty : auxFrames n a = [] := by simp [auxFrames, hnone]
      have hlast : t.last = a.last := by simpa [hempty] using htlast
      simp only [hempty, hlast, List.nil_append]
  · rw [htowner, haowner]
    by_cases hm : m = 0 <;> by_cases hn : n = 0 <;> simp [hm, hn]

end TwoLines

/-- The consumer that has dequeued may go on. -/
theorem dequeueTimes_mayDequeue (who : AudioConsumer) (n : Nat) (s t : State) (hs : MayDequeue who s)
    (h : dequeueTimes who n s = .ok t) : MayDequeue who t := by
  induction n generalizing s with
  | zero => cases h; exact hs
  | succ n ih =>
    obtain ⟨_, hrest⟩ := (dequeueTimes_succ_ok who n s t).1 h
    exact ih _ (.inr (by simp)) hrest

theorem advance_completes (s : State) (h : MayAdvance s) : ∃ t, advance s = .ok t := by
  obtain ⟨u, hu⟩ := auxAudio_completes s h
  exact ⟨_, (advance_ok s _).2 ⟨u, hu, rfl⟩⟩

theorem advance_mayAdvance (s t : State) (hs : MayAdvance s) (h : advance s = .ok t) : MayAdvance t := by
  obtain ⟨u, hu, rfl⟩ := (advance_ok s t).1 h
  have hcfg : u.cfg = s.cfg := (onlyDequeued_sameRaster (auxAudio_onlyDequeued s u hu)).1
  rcases hs with htimer | hnone | hmay
  · exact .inl (hcfg ▸ htimer)
  · exact .inr (.inl (hcfg ▸ hnone))
  · unfold auxAudio at hu
    split at hu
    · exact .inr (.inr (dequeueTimes_mayDequeue _ _ s u hmay hu))
    · rename_i htimer; exact .inl (hcfg ▸ htimer)

/-! The `post` of a blanking line. -/

theorem markBusySlot_of_idle (ch : Slot) (s : State) (h : (s.chan ch).busy = false) : markBusySlot ch s = s := by
  simp [markBusySlot, h]

/-- The registers a blanking line's `post` writes: V, the descriptors, the audio side's and, at the port, the outcomes noted;
nothing else (41_scanline_sequencer.md R157). -/
def onlyBlankPosted (s t : State) : Prop :=
  { t with
    v := s.v, ch0 := s.ch0, ch1 := s.ch1, rd := s.rd, last := s.last, audTrace := s.audTrace, audOwner := s.audOwner
    port := { t.port with inner := s.port.inner } } = s

theorem onlyBlankPosted_trans {s t u : State} (h : onlyBlankPosted s t) (k : onlyBlankPosted t u) : onlyBlankPosted s u :=
  (congrArg (fun x : State =>
    ({ x with
      v := s.v, ch0 := s.ch0, ch1 := s.ch1, rd := s.rd, last := s.last, audTrace := s.audTrace, audOwner := s.audOwner
      port := { x.port with inner := s.port.inner } } : State)) k).trans h

theorem onlyDequeued_onlyBlankPosted {s t : State} (h : onlyDequeued s t) : onlyBlankPosted s t :=
  congrArg (fun x : State => ({ x with v := s.v, ch0 := s.ch0, ch1 := s.ch1 } : State)) h

theorem onlyBlankPosted_sameRing {s t : State} (h : onlyBlankPosted s t) : SameRing s t := by
  unfold onlyBlankPosted at h
  exact ⟨(congrArg State.cfg h :), (congrArg State.epoch h :), (congrArg State.ring h :), (congrArg State.wr h :)⟩

theorem post_blank_only (ch : Slot) (s t : State) (hblank : s.v < tBpEnd s.cfg) (hidle : (s.chan ch).busy = false)
    (h : post ch s = .ok t) : onlyBlankPosted s t := by
  rw [post_of_blank ch s hblank, markBusySlot_of_idle ch s hidle] at h
  obtain ⟨u, hu, rfl⟩ := (advance_ok _ t).1 h
  have hdescribed : onlyBlankPosted s (describeTable ch (blankTable s.cfg s.v) s) := by cases ch <;> rfl
  have hdequeued : onlyBlankPosted s u :=
    onlyBlankPosted_trans hdescribed (onlyDequeued_onlyBlankPosted (auxAudio_onlyDequeued _ u hu))
  exact hdequeued

/-- No blanking line is the last of the raster. -/
theorem nextLine_of_blank (c : Config) (v : Nat) (hlegal : buildLegal c = true) (h : v < tBpEnd c) :
    nextLine c v = v + 1 := by
  obtain ⟨hlines, hrepeat, _⟩ := verticalRaster_of_legal c hlegal
  exact if_neg (by unfold vTotal; omega)

/-- What the `post` of a blanking line into an idle slot leaves: the item of the line, V on the next line and one line's
dequeues. -/
structure BlankPosted (ch : Slot) (s t : State) : Prop where
  only : onlyBlankPosted s t
  item : ItemPosted ch (BitVec.ofNat 16 (tableBase (blankTable s.cfg s.v))) (BitVec.ofNat 16 s.cfg.cmdListLen) [] s t
  v : t.v = s.v + 1
  audio : AudioAdvanced [] s t

theorem post_blank_completes (ch : Slot) (s : State) (hlegal : buildLegal s.cfg = true) (hblank : s.v < tBpEnd s.cfg)
    (hidle : (s.chan ch).busy = false) (hmay : MayAdvance s) :
    ∃ t, post ch s = .ok t ∧ BlankPosted ch s t ∧ MayAdvance t := by
  have hdescribed : MayAdvance (describeTable ch (blankTable s.cfg s.v) (markBusySlot ch s)) := by
    simpa [MayAdvance, MayDequeue] using hmay
  obtain ⟨t, ht⟩ := advance_completes _ hdescribed
  have hpost : post ch s = .ok t := (post_of_blank ch s hblank).trans ht
  obtain ⟨hv, _, haudio⟩ := post_blank ch s t hblank hpost
  rw [boundaryOutcomes_blank s hblank] at haudio
  exact ⟨t, hpost, ⟨post_blank_only ch s t hblank hidle hpost, post_blank_itemPosted ch s t hblank hpost,
    hv.trans (nextLine_of_blank s.cfg s.v hlegal hblank), haudio⟩, advance_mayAdvance _ t hdescribed ht⟩

/-- The audio side after two blanking lines, and the outcomes of their dequeues (45_audio.md R259; log 7). -/
theorem blankPosted_twice_audio {ch ch' : Slot} {s a b : State} (hfirst : BlankPosted ch s a)
    (hsecond : BlankPosted ch' a b) :
    (s.cfg.audioSink = .timer → SameAudioOut s b ∧ b.port.inner = s.port.inner) ∧
    (s.cfg.audioSink = .aux → s.wr < s.cfg.audioCap → s.rd < s.cfg.audioCap →
      AuxDequeued (2 * s.cfg.auxPerLine) s b ∧
      b.port.inner = s.port.inner ++ auxOutcomes (2 * s.cfg.auxPerLine) s) := by
  have hring := onlyBlankPosted_sameRing hfirst.only
  obtain ⟨htimer1, haux1⟩ := hfirst.audio
  obtain ⟨htimer2, haux2⟩ := hsecond.audio
  rw [hring.1] at htimer2 haux2
  refine ⟨fun htimer => ?_, fun haux hwr hrd => ?_⟩
  · obtain ⟨⟨hrd, hlast, htrace, howner⟩, hport⟩ := htimer1 htimer
    obtain ⟨⟨krd, klast, ktrace, kowner⟩, kport⟩ := htimer2 htimer
    exact ⟨⟨krd.trans hrd, klast.trans hlast, ktrace.trans htrace, kowner.trans howner⟩, by simp [kport, hport]⟩
  · obtain ⟨hdeq, hport⟩ := haux1 haux hwr hrd
    have hard : a.rd < s.cfg.audioCap := hdeq.1 ▸ Nat.mod_lt _ (Nat.zero_lt_of_lt hrd)
    obtain ⟨kdeq, kport⟩ := haux2 haux (by rwa [hring.2.2.2]) hard
    rw [Nat.two_mul]
    exact ⟨auxDequeued_add _ hwr hrd hring hdeq kdeq, by
      simp [kport, hport, auxOutcomes_add _ hwr hrd hring hdeq]⟩

/-! The two `post`s of START. -/

theorem execStart_of_posts {s a b c : State} (hctx : s.port.ctx = .consumerThread) (hstopped : s.run = false)
    (ha : post .ping (startSequencer s) = .ok a) (hb : post .pong a = .ok b) (hc : dmaTrigger .ping b = .ok c) :
    exec .start s = .next (respond .ok none c) := by
  have hport : consumerPort s.port.ctx = true := by rw [hctx]; rfl
  refine (serve_allowed _ _ _ hport).trans ((finish_next _ _ _).2 (.inl ?_))
  rw [hstopped]
  exact (bind_ok _ _ _).2 ⟨a, ha, (bind_ok _ _ _).2 ⟨b, hb, (bind_ok _ _ _).2 ⟨c, hc, rfl⟩⟩⟩

/-- The slots after the items of lines 0 and 1: a table of CMD_LIST_LEN words each, TBL_VSYNC where the SYNC region has begun
(41_scanline_sequencer.md R157, R162). -/
theorem startPosted_slots {s a b : State} (hsync : 1 ≤ s.cfg.vSyncWidth) (hping : BlankPosted .ping (startSequencer s) a)
    (hpong : BlankPosted .pong a b) :
    b.ch0 = { s.ch0 with
      src := if s.cfg.vFrontPorch = 0 then 0x0100 else 0x0000
      len := BitVec.ofNat 16 s.cfg.cmdListLen } ∧
    b.ch1 = { s.ch1 with
      src := if s.cfg.vFrontPorch ≤ 1 ∧ 1 < s.cfg.vFrontPorch + s.cfg.vSyncWidth then 0x0100 else 0x0000
      len := BitVec.ofNat 16 s.cfg.cmdListLen } := by
  have hcfg : a.cfg = s.cfg := (onlyBlankPosted_sameRing hping.only).1
  have hline0 := blankTable_base s.cfg 0
  rw [if_congr (show _ ↔ s.cfg.vFrontPorch = 0 by omega) rfl rfl] at hline0
  obtain ⟨hfirst, hfirstOther, _⟩ := hping.item
  obtain ⟨hsecond, hsecondOther, _⟩ := hpong.item
  rw [hcfg, hping.v, blankTable_base] at hsecond
  constructor
  · exact hsecondOther.trans (hfirst.trans (hline0 ▸ rfl))
  · exact hsecond.trans (by rw [show a.chan .pong = s.ch1 from hfirstOther]; rfl)

/-- What START answers: both slots posted, slot 0 loaded. -/
theorem execStart_completes (s : State) (hlegal : buildLegal s.cfg = true) (hctx : s.port.ctx = .consumerThread)
    (hstopped : s.run = false) (hping : s.ch0.busy = false) (hpong : s.ch1.busy = false) (hblank : 2 ≤ tBpEnd s.cfg)
    (hmay : MayAdvance s) :
    ∃ a b, BlankPosted .ping (startSequencer s) a ∧ BlankPosted .pong a b ∧
      exec .start s = .next (respond .ok none (b.setChan .ping (loadedChannel b.ch0))) := by
  obtain ⟨a, ha, hfirst, hamay⟩ :=
    post_blank_completes .ping (startSequencer s) hlegal (Nat.zero_lt_of_lt hblank) hping hmay
  have hcfg : a.cfg = s.cfg := (onlyBlankPosted_sameRing hfirst.only).1
  have haidle : (a.chan .pong).busy = false := by
    rw [show a.chan .pong = s.ch1 from hfirst.item.2.1]; exact hpong
  have hav : a.v < tBpEnd a.cfg := by rw [hfirst.v, hcfg]; exact hblank
  obtain ⟨b, hb, hsecond, _⟩ := post_blank_completes .pong a (by rwa [hcfg]) hav haidle hamay
  have hbcfg : b.cfg = s.cfg := (onlyBlankPosted_sameRing hsecond.only).1.trans hcfg
  have hbping : b.ch0 = a.ch0 := hsecond.item.2.1
  have hbidle : b.ch0.busy = false := by
    rw [hbping, show a.ch0 = _ from hfirst.item.1]; exact hping
  have hdescriptor : descriptorLegal b.cfg b.ch0.src b.ch0.len = true := by
    obtain ⟨hlist, _⟩ := tablesLegal_of_legal s.cfg hlegal
    rw [hbcfg, hbping, show a.ch0 = _ from hfirst.item.1]
    exact descriptorLegal_region s.cfg (.table _) s.cfg.cmdListLen hlegal (by omega) le_rfl
  exact ⟨a, b, hfirst, hsecond, execStart_of_posts hctx hstopped ha hb
    ((dmaTrigger_ok .ping b _).2 (.inr ⟨hbidle, hdescriptor, rfl⟩))⟩

/-- Settles O46: the two `post`s are those of two blanking lines into idle slots, and the trigger loads slot 0. -/
theorem startPostsTwoItemsAndTriggers : Obligations.StartPostsTwoItemsAndTriggers := by
  intro s hlegal hctx hstopped hping hpong hblank hmay
  obtain ⟨a, b, hfirst, hsecond, hstart⟩ := execStart_completes s hlegal hctx hstopped hping hpong hblank hmay
  have honly : onlyBlankPosted (startSequencer s) b := onlyBlankPosted_trans hfirst.only hsecond.only
  obtain ⟨hch0, hch1⟩ := startPosted_slots (verticalRaster_of_legal s.cfg hlegal).2.2 hfirst hsecond
  obtain ⟨htimer, haux⟩ := blankPosted_twice_audio hfirst hsecond
  have hsame : SameAudio s (startSequencer s) := ⟨rfl, rfl, rfl, rfl, rfl, rfl, rfl, rfl⟩
  refine ⟨_, hstart, (congrArg State.run honly :), ?_, (congrArg State.phase honly :), (congrArg State.lastDone honly :),
    ?_, hch1, ?_, ?_, htimer, fun hsink hwr hrd => ?_⟩
  · exact hsecond.v.trans (congrArg (· + 1) hfirst.v)
  · exact (congrArg loadedChannel hch0 :)
  · exact (congrArg (fun x : State => ({ x.port with
      rsp := none, reqErr := false, outcome := some .ok, inner := b.port.inner } : Port)) honly :)
  · exact (congrArg (fun x : State => ({ x with
      run := s.run, v := s.v, phase := s.phase, lastDone := s.lastDone, port := s.port } : State)) honly :)
  · obtain ⟨hdeq, hinner⟩ := haux hsink hwr hrd
    exact ⟨auxDequeued_of_sameAudio hsame hdeq, hinner.trans (congrArg _ (auxOutcomes_of_sameAudio _ hsame))⟩

end Sys2Proof.Machine
end

section
/-! Control commands popped one after the other, and the blanking tables (41_scanline_sequencer.md R160,
43_serializer_tmds.md R204 to R206). -/

namespace Sys2Proof.Machine

/-! One command. -/

/-- NOP, or CTRL with a legal count: the commands of a blanking table. -/
def isControl : Instr → Bool
  | .nop => true
  | .ctrl _ _ n => n != 0
  | _ => false

/-- The pixel periods a control command emits (43_serializer_tmds.md R205, R206). -/
def controlPeriods : Instr → List PixelPeriod
  | .ctrl vs hs n => List.replicate n.toNat (.ctrl vs hs)
  | _ => []

theorem decodeCmd_of_control (i : Instr) (h : isControl i = true) : decodeCmd (encode i) = .ok i := by
  cases i with
  | nop => exact decodeCmd_encode .nop rfl rfl
  | ctrl vs hs n => exact decodeCmd_encode (.ctrl vs hs n) rfl h
  | _ => cases h

theorem wireRecords_periods (code : LineCode) (cnt : Disparity) (ps : List PixelPeriod) :
    (wireRecords code cnt ps).map (fun r => r.period) = ps := by
  induction ps generalizing cnt with
  | nil => rfl
  | cons p ps ih =>
    have hperiod : (wirePeriod code cnt p).1.period = p := by cases p <;> rfl
    rw [wireRecords, List.map_cons, hperiod, ih]

/-- A control command with no mark set: its periods are emitted, and nothing changes but OUT and the disparity. -/
theorem exec_control (i : Instr) (s : State) (hi : isControl i = true) (hclear : MarksClear s) :
    ∃ recs cnt, exec i s = .next { s with out := s.out ++ recs, cnt := cnt } ∧
      recs.map (fun r => r.period) = controlPeriods i := by
  cases i with
  | nop => exact ⟨[], s.cnt, congrArg Host.Outcome.next (extendOut_of_marksClear [] s hclear), rfl⟩
  | ctrl vs hs n =>
    have hn : n ≠ 0 := bne_iff_ne.1 hi
    refine ⟨wireRecords s.cfg.lineCode s.cnt (List.replicate n.toNat (.ctrl vs hs)), { lane0 := 0, lane1 := 0, lane2 := 0 },
      ?_, wireRecords_periods _ _ _⟩
    simp only [exec, execCtrl, if_neg hn, ctrlRun, emitPeriods, extendOut_of_marksClear _ s hclear]
  | _ => cases hi

/-! One pop. -/

/-- SER has popped the head word of `e`, with its own registers those of `s` before, and has emitted `ps` in command mode: the
marks and the build are those of `s`, and all but SER's registers is as in `e` without the word. -/
structure ControlPopped (ps : List PixelPeriod) (s e u : State) : Prop where
  periods : u.out.map (fun r => r.period) = s.out.map (fun r => r.period) ++ ps
  command : u.serRem = 0
  clear : MarksClear u
  cfg : u.cfg = s.cfg
  rest : u = { withSerializerOf u e with fifo := e.fifo.tail }

theorem serPopTurn_of_command (s : State) (w : Word) (i : Instr) (hhead : s.fifo.head? = some w) (hmode : s.serRem = 0)
    (hdecode : decodeCmd w = .ok i) : serPopTurn s = exec i { s with fifo := s.fifo.tail } := by
  obtain ⟨rest, hfifo⟩ := List.head?_eq_some_iff.1 hhead
  simp [serPopTurn, runPopped, hfifo, hmode, hdecode]

theorem serPopTurn_of_control (i : Instr) (s e : State) (hi : isControl i = true) (hclear : MarksClear s)
    (hmode : s.serRem = 0) (hhead : e.fifo.head? = some (encode i)) :
    ∃ u, serPopTurn (withSerializerOf s e) = .next u ∧ ControlPopped (controlPeriods i) s e u := by
  obtain ⟨recs, cnt, hexec, hperiods⟩ :=
    exec_control i { withSerializerOf s e with fifo := e.fifo.tail } hi hclear
  have hpop := serPopTurn_of_command (withSerializerOf s e) _ i hhead hmode (decodeCmd_of_control i hi)
  exact ⟨_, hpop.trans hexec,
    ⟨by rw [← hperiods, ← List.map_append]; rfl, hmode, hclear, rfl, rfl⟩⟩

/-! A list of commands. -/

/-- Control commands popped one by one emit their periods in order and leave SER in command mode, with no mark set; the last
pop leaves the rest of VOUT as it finds it. -/
theorem popEach_controls (is : List Instr) (es : List State) (s : State) (his : ∀ i ∈ is, isControl i = true)
    (hclear : MarksClear s) (hmode : s.serRem = 0) (hheads : HeadWords es (is.map encode)) :
    ∃ u, popEach es s = .next u ∧
      u.out.map (fun r => r.period) = s.out.map (fun r => r.period) ++ is.flatMap controlPeriods ∧
      u.serRem = 0 ∧ MarksClear u ∧ u.cfg = s.cfg ∧
      (∀ e, es.getLast? = some e → u = { withSerializerOf u e with fifo := e.fifo.tail }) := by
  induction is generalizing es s with
  | nil =>
    obtain rfl : es = [] := by simpa [HeadWords] using hheads
    exact ⟨s, rfl, by simp, hmode, hclear, rfl, by simp⟩
  | cons i is ih =>
    cases es with
    | nil => simp [HeadWords] at hheads
    | cons e es =>
      simp only [HeadWords, List.map_cons, List.cons.injEq] at hheads
      obtain ⟨hhead, hheads⟩ := hheads
      obtain ⟨t, ht, hpopped⟩ := serPopTurn_of_control i s e (his i (by simp)) hclear hmode hhead
      obtain ⟨u, hu, hout, hmodeU, hclearU, hcfgU, hlast⟩ :=
        ih es t (fun j hj => his j (by simp [hj])) hpopped.clear hpopped.command hheads
      refine ⟨u, by rw [popEach, ht]; exact hu, ?_, hmodeU, hclearU, hcfgU.trans hpopped.cfg, fun x hx => ?_⟩
      · rw [hout, hpopped.periods, List.append_assoc, List.flatMap_cons]
      · cases es with
        | nil =>
          cases hu
          cases hx
          exact hpopped.rest
        | cons e' es => exact hlast x (by simpa using hx)

/-! The blanking tables. -/

/-- The horizontal counts of a legal build fit a command's count (00_scope.md R7 (c)). -/
theorem counts_of_legal (c : Config) (h : buildLegal c = true) (n : Nat)
    (hn : n ∈ [c.hFrontPorch, c.hSyncWidth, c.hBackPorch, c.hActive]) : (BitVec.ofNat 12 n).toNat = n ∧ 1 ≤ n := by
  simp only [buildLegal, rasterLegal, Bool.and_eq_true, and_assoc] at h
  obtain ⟨_, _, _, _, _, _, hfront, hsync, hback, hactive, _⟩ := h
  have hcount : countLegal n = true := by
    simp only [List.mem_cons, List.not_mem_nil, or_false] at hn
    rcases hn with rfl | rfl | rfl | rfl <;> assumption
  have hrange : 1 ≤ n ∧ n ≤ 4095 := by simpa [countLegal] using hcount
  exact ⟨by rw [BitVec.toNat_ofNat, Nat.mod_eq_of_lt (by omega)], hrange.1⟩

/-- The commands of both blanking tables (41_scanline_sequencer.md R160). -/
theorem tableCommands_of_blanking (c : Config) (t : TableId) (h : t ≠ .active) :
    tableCommands c t =
      [ .ctrl (tableVs c t) (!c.hsyncLevel) (BitVec.ofNat 12 c.hFrontPorch),
        .ctrl (tableVs c t) c.hsyncLevel (BitVec.ofNat 12 c.hSyncWidth),
        .ctrl (tableVs c t) (!c.hsyncLevel) (BitVec.ofNat 12 c.hBackPorch),
        .ctrl (tableVs c t) (!c.hsyncLevel) (BitVec.ofNat 12 c.hActive) ] ++ tablePadding c := by
  cases t with
  | active => exact absurd rfl h
  | _ => rfl

theorem tablePadding_periods (c : Config) : (tablePadding c).flatMap controlPeriods = [] := by
  simp [tablePadding, controlPeriods]

theorem tableCommands_control (c : Config) (t : TableId) (hlegal : buildLegal c = true) (h : t ≠ .active) :
    ∀ i ∈ tableCommands c t, isControl i = true := by
  have hcount : ∀ vs hs n, n ∈ [c.hFrontPorch, c.hSyncWidth, c.hBackPorch, c.hActive] →
      isControl (.ctrl vs hs (BitVec.ofNat 12 n)) = true := by
    intro vs hs n hn
    obtain ⟨hvalue, hpos⟩ := counts_of_legal c hlegal n hn
    refine bne_iff_ne.2 fun hzero => ?_
    rw [hzero] at hvalue
    simp at hvalue
    omega
  intro i hi
  rw [tableCommands_of_blanking c t h] at hi
  simp only [tablePadding, List.mem_append, List.mem_cons, List.not_mem_nil, or_false, List.mem_replicate] at hi
  rcases hi with (rfl | rfl | rfl | rfl) | ⟨_, rfl⟩
  · exact hcount _ _ _ (by simp)
  · exact hcount _ _ _ (by simp)
  · exact hcount _ _ _ (by simp)
  · exact hcount _ _ _ (by simp)
  · rfl

/-- A blanking table is one line of control periods: the front porch, the sync pulse, then the back porch and the active part
at the same levels (41_scanline_sequencer.md R152, R160). -/
theorem tableCommands_periods (c : Config) (t : TableId) (hlegal : buildLegal c = true) (h : t ≠ .active) :
    (tableCommands c t).flatMap controlPeriods =
      List.replicate c.hFrontPorch (.ctrl (tableVs c t) (!c.hsyncLevel)) ++
        List.replicate c.hSyncWidth (.ctrl (tableVs c t) c.hsyncLevel) ++
        List.replicate (c.hBackPorch + c.hActive) (.ctrl (tableVs c t) (!c.hsyncLevel)) := by
  have hcount := fun n hn => (counts_of_legal c hlegal n hn).1
  rw [tableCommands_of_blanking c t h, List.flatMap_append, tablePadding_periods]
  simp only [List.flatMap_cons, List.flatMap_nil, controlPeriods, hcount c.hFrontPorch (by simp),
    hcount c.hSyncWidth (by simp), hcount c.hBackPorch (by simp), hcount c.hActive (by simp), List.replicate_add,
    List.append_nil, List.append_assoc]

theorem tableVs_of_blanking (c : Config) (t : TableId) (h : t ≠ .active) :
    tableVs c t = if t = .vsync then c.vsyncLevel else !c.vsyncLevel := by
  cases t with
  | active => exact absurd rfl h
  | _ => rfl

/-- Settles O44: the table's words are the encodings of control commands, whose periods are one raster line. -/
theorem blankingTableIsOneLine : Obligations.BlankingTableIsOneLine := by
  intro s es t hlegal hclear hmode htable hheads
  obtain ⟨u, hu, hout, hmodeU, hclearU, hcfgU, hlast⟩ :=
    popEach_controls _ es s (tableCommands_control s.cfg t hlegal htable) hclear hmode hheads
  rw [tableCommands_periods s.cfg t hlegal htable, tableVs_of_blanking s.cfg t htable] at hout
  refine ⟨u, hu, ?_, ?_, hmodeU, hclearU, hcfgU, hlast⟩
  · rw [hout, List.append_assoc, List.append_assoc, List.append_assoc]
  · have hlength := congrArg List.length hout
    simp only [List.length_map, List.length_append, List.length_replicate] at hlength
    rw [hlength, hTotal]
    omega

end Sys2Proof.Machine
end

section
/-! The turns of the transfer channels, and which word stands at each address of DMASPACE
(42_dma_scheduler.md R181 to R183, 20_memory.md R66). -/

namespace Sys2Proof.Machine

/-- An enabled step that is carried out (00_scope.md R9). -/
theorem whenEnabled_of_ok {e : Bool} {s t : State} {a : Attempt State} (henabled : e = true) (ha : a = .ok t) :
    whenEnabled e s a = .next t :=
  (whenEnabled_next e s t a).2 (.inl ⟨henabled, (finish_next s t a).2 (.inl ha)⟩)

/-! `dma_complete`. -/

/-- Settles O53: the trigger meets an idle channel with a legal descriptor and loads it. -/
theorem dmaCompleteChainsOtherChannel : Obligations.DmaCompleteChainsOtherChannel := by
  intro s ch henabled hidle hdesc
  have hturn : takeTurn (.dmaComplete ch) s = .next _ :=
    whenEnabled_of_ok henabled ((dmaComplete_ok ch s _).2 (.inr ⟨hidle, hdesc, rfl⟩))
  refine ⟨_, hturn, ?_, ?_, ?_⟩
  · rw [chan_setChan_otherSlot, chan_setChan_same]
  · rw [chan_setChan_same, loadedChannel]
  · cases ch <;> rfl

/-! `dma_xfer`. -/

theorem dmaXfer_reserved (ch : Slot) (s : State) (h : dmaRead s (s.chan ch).rptr = none) :
    dmaXfer ch s = .error (.fault (.reservedDmaAddress (s.chan ch).rptr)) := by
  simp [dmaXfer, h]

theorem takeTurn_dmaXfer_word (ch : Slot) (s : State) (w : Word) (henabled : dmaXferEnabled ch s = true)
    (hw : dmaRead s (s.chan ch).rptr = some w) :
    ∃ t, takeTurn (.dmaXfer ch) s = .next t ∧ t.fifo = s.fifo ++ [w] ∧
      t.chan ch = { s.chan ch with rptr := (s.chan ch).rptr + 1, rem := (s.chan ch).rem - 1 } ∧
      t.chan (otherSlot ch) = s.chan (otherSlot ch) ∧
      { t with fifo := s.fifo, ch0 := s.ch0, ch1 := s.ch1 } = s := by
  refine ⟨_, whenEnabled_of_ok henabled ((dmaXfer_ok ch s _).2 ⟨w, hw, rfl⟩), ?_⟩
  cases ch <;> exact ⟨rfl, rfl, rfl, rfl⟩

theorem takeTurn_dmaXfer_reserved (ch : Slot) (s : State) (henabled : dmaXferEnabled ch s = true)
    (hnone : dmaRead s (s.chan ch).rptr = none) :
    takeTurn (.dmaXfer ch) s = .fault (.reservedDmaAddress (s.chan ch).rptr) := by
  rw [takeTurn, henabled, whenEnabled, if_pos rfl]
  exact (finish_fault s _ _).2 (dmaXfer_reserved ch s hnone)

theorem takeTurn_dmaXfer_disabled (ch : Slot) (s : State) (h : dmaXferEnabled ch s = false) :
    takeTurn (.dmaXfer ch) s = .next s :=
  (whenEnabled_next _ s s _).2 (.inr ⟨h, rfl⟩)

/-! The region map. -/

/-- In a legal build each region ends before the next one starts. -/
theorem allRegions_ordered (c : Config) (h : buildLegal c = true) :
    allRegions.Pairwise (fun r q => regionBase r + regionSize c r ≤ regionBase q) := by
  obtain ⟨_, hlist, hline⟩ := tablesLegal_of_legal c h
  simp only [allRegions, List.pairwise_cons, List.mem_cons, List.not_mem_nil, or_false, forall_eq_or_imp, forall_eq,
    IsEmpty.forall_iff, implies_true, List.Pairwise.nil, and_true, regionBase, regionSize, tableBase, lineBufBase, lbWords,
    wordsPerLine]
  omega

/-- Two regions of which one ends before the other starts. -/
def RegionsApart (c : Config) (r q : Region) : Prop :=
  regionBase r + regionSize c r ≤ regionBase q ∨ regionBase q + regionSize c q ≤ regionBase r

/-- An address lies in at most one region of a legal build. -/
theorem region_unique (c : Config) (r q : Region) (a : Nat) (hlegal : buildLegal c = true)
    (hr : regionBase r ≤ a ∧ a < regionBase r + regionSize c r)
    (hq : regionBase q ≤ a ∧ a < regionBase q + regionSize c q) : r = q := by
  by_contra hne
  have hapart : allRegions.Pairwise (RegionsApart c) := (allRegions_ordered c hlegal).imp .inl
  have hsymm : Std.Symm (RegionsApart c) := ⟨fun _ _ => Or.symm⟩
  have horder := hapart.forall (mem_allRegions r) (mem_allRegions q) hne
  unfold RegionsApart at horder
  omega

theorem regionAt_eq (c : Config) (r : Region) (a : Nat) (hlegal : buildLegal c = true)
    (hr : regionBase r ≤ a ∧ a < regionBase r + regionSize c r) : regionAt c a = some r := by
  cases hat : regionAt c a with
  | none => simpa [hr] using List.find?_eq_none.1 hat r (mem_allRegions r)
  | some q => rw [region_unique c r q a hlegal hr (by simpa using List.find?_some hat)]

/-- Word `k` of a region is found there. -/
theorem regionAt_offset (c : Config) (r : Region) (a k : Nat) (hlegal : buildLegal c = true) (hk : k < regionSize c r)
    (ha : a = regionBase r + k) : regionAt c a = some r :=
  regionAt_eq c r a hlegal ⟨by omega, by omega⟩

theorem dmaRead_table (s : State) (a : BitVec 16) (t : TableId) (k : Nat) (hlegal : buildLegal s.cfg = true)
    (hk : k < s.cfg.cmdListLen) (ha : a.toNat = tableBase t + k) : dmaRead s a = (tableWords s.cfg t)[k]? := by
  have hat : regionAt s.cfg a.toNat = some (.table t) :=
    regionAt_offset s.cfg (.table t) _ k hlegal hk ha
  simp only [dmaRead, hat]
  rw [ha, Nat.add_sub_cancel_left]

theorem dmaRead_lineBuf (s : State) (a : BitVec 16) (ch : Slot) (k : Nat) (hlegal : buildLegal s.cfg = true)
    (hk : k < s.cfg.cmdListLen + 160) (ha : a.toNat = lineBufBase ch + k) :
    dmaRead s a = some (lineBufWord s a.toNat) := by
  have hat : regionAt s.cfg a.toNat = some (.lineBuf ch) :=
    regionAt_offset s.cfg (.lineBuf ch) _ k hlegal hk ha
  simp only [dmaRead, hat]

theorem dmaRead_reserved (s : State) (a : BitVec 16)
    (h : ∀ r k, k < regionSize s.cfg r → a.toNat ≠ regionBase r + k) : dmaRead s a = none := by
  have hat : regionAt s.cfg a.toNat = none := by
    refine List.find?_eq_none.2 fun r _ hin => ?_
    simp only [Bool.and_eq_true, decide_eq_true_eq] at hin
    exact h r (a.toNat - regionBase r) (by omega) (by omega)
  simp only [dmaRead, hat]

/-- Settles O52: the turn is the attempt `dma_xfer` where it is enabled, and the regions of a legal build do not overlap. -/
theorem dmaXferPushesOneWord : Obligations.DmaXferPushesOneWord := by
  refine ⟨fun s ch => ⟨takeTurn_dmaXfer_word ch s, takeTurn_dmaXfer_reserved ch s, takeTurn_dmaXfer_disabled ch s, ?_⟩,
    ⟨rfl, rfl, rfl, rfl, rfl⟩, fun s a hlegal => ⟨fun t k hk ha => ?_, fun ch k hk ha => ?_, fun htable hline => ?_⟩⟩
  · rw [dmaXferEnabled_iff, ← BitVec.toNat_ne_iff_ne, Nat.pos_iff_ne_zero]
    exact Iff.rfl
  · have hlength := tableWords_length s.cfg t (tablesLegal_of_legal s.cfg hlegal).1
    exact ⟨dmaRead_table s a t k hlegal hk ha, by rw [List.getElem?_eq_getElem (by omega), Option.isSome_some]⟩
  · exact dmaRead_lineBuf s a ch k hlegal hk ha
  · exact dmaRead_reserved s a fun r => by cases r <;> [exact htable _; exact hline _]

end Sys2Proof.Machine
end

section
/-! The HANDLER step: the acknowledge, then a `post` that completes and leaves all but the toggled slot, the raster, the frame
boundary and the audio side (42_dma_scheduler.md R185, R186, 41_scanline_sequencer.md R156). -/

namespace Sys2Proof.Machine

/-! What `post` writes. -/

/-- The registers `post` writes once its slot is marked: V and PHASE, the channels and the line buffers, what the frame
boundary and the dequeues write and, at the port, the outcomes noted; nothing else (41_scanline_sequencer.md R156 to R161). -/
def onlyPosted (s t : State) : Prop :=
  { t with
    v := s.v, phase := s.phase, ch0 := s.ch0, ch1 := s.ch1, lineBuf := s.lineBuf
    fx := s.fx, race := s.race, scaleActive := s.scaleActive, dispValid := s.dispValid, dispBuf := s.dispBuf
    rd := s.rd, last := s.last, audTrace := s.audTrace, audOwner := s.audOwner
    port := { t.port with inner := s.port.inner } } = s

theorem onlyPosted_trans {s t u : State} (h : onlyPosted s t) (k : onlyPosted t u) : onlyPosted s u :=
  (congrArg (fun x : State =>
    ({ x with
      v := s.v, phase := s.phase, ch0 := s.ch0, ch1 := s.ch1, lineBuf := s.lineBuf
      fx := s.fx, race := s.race, scaleActive := s.scaleActive, dispValid := s.dispValid, dispBuf := s.dispBuf
      rd := s.rd, last := s.last, audTrace := s.audTrace, audOwner := s.audOwner
      port := { x.port with inner := s.port.inner } } : State)) k).trans h

theorem onlyBlankPosted_onlyPosted {s t : State} (h : onlyBlankPosted s t) : onlyPosted s t :=
  congrArg (fun x : State =>
    ({ x with
      phase := s.phase, lineBuf := s.lineBuf, fx := s.fx, race := s.race, scaleActive := s.scaleActive
      dispValid := s.dispValid, dispBuf := s.dispBuf } : State)) h

theorem onlyFrameSwitched_onlyPosted {s t : State} (h : onlyFrameSwitched s t) : onlyPosted s t :=
  congrArg (fun x : State =>
    ({ x with
      v := s.v, phase := s.phase, ch0 := s.ch0, ch1 := s.ch1, lineBuf := s.lineBuf
      rd := s.rd, last := s.last, audTrace := s.audTrace, audOwner := s.audOwner } : State)) h

theorem describeTable_onlyPosted (ch : Slot) (tbl : TableId) (s : State) : onlyPosted s (describeTable ch tbl s) := by
  cases ch <;> rfl

theorem describeLine_onlyPosted (ch : Slot) (words : List Word) (len : Nat) (s : State) :
    onlyPosted s (describeLine ch words len s) := by cases ch <;> rfl

theorem advance_onlyPosted {s t : State} (h : advance s = .ok t) : onlyPosted s t := by
  obtain ⟨u, hu, rfl⟩ := (advance_ok s t).1 h
  exact (onlyBlankPosted_onlyPosted (onlyDequeued_onlyBlankPosted (auxAudio_onlyDequeued s u hu)) :)

theorem lineItem_onlyPosted (ch : Slot) (words : List Word) (len : Nat) {s a b : State} (ha : startOfFrame s = .ok a)
    (hb : endOfFrame (describeLine ch words len a) = .ok b) : onlyPosted s b :=
  onlyPosted_trans (onlyFrameSwitched_onlyPosted (startOfFrame_onlyFrameSwitched s a ha))
    (onlyPosted_trans (describeLine_onlyPosted ch words len a)
      (onlyFrameSwitched_onlyPosted (endOfFrame_onlyFrameSwitched _ b hb)))

theorem post_onlyPosted (ch : Slot) (s t : State) (h : post ch s = .ok t) : onlyPosted (markBusySlot ch s) t := by
  rcases post_ok ch s t h with ⟨_, tbl, _, _, h⟩ | ⟨_, _, _, h⟩ | ⟨_, _, _, h⟩
  · exact onlyPosted_trans (describeTable_onlyPosted ch tbl _) (advance_onlyPosted h)
  · rcases (postActive2_ok ch _ t).1 h with ⟨_, rfl⟩ | ⟨_, a, b, ha, hb, ht⟩
    · exact (describeTable_onlyPosted ch .active (markBusySlot ch s) :)
    · exact onlyPosted_trans (t := { b with phase := .cmd }) (lineItem_onlyPosted ch _ _ ha hb :) (advance_onlyPosted ht)
  · obtain ⟨a, b, ha, hb, ht⟩ := (postActive1_ok ch _ t).1 h
    exact onlyPosted_trans (lineItem_onlyPosted ch _ _ ha hb) (advance_onlyPosted ht)

/-- What `post` leaves: the marks, the FIFO, SER and its OUT, the framebuffers, the ring's contents and WR, the producer's
registers and SCALE_PENDING, RUN and the toggle, the build, and of the port all but the outcomes noted. -/
theorem onlyPosted_registers {s t : State} (h : onlyPosted s t) :
    t.lastDone = s.lastDone ∧ t.mDesc = s.mDesc ∧ t.mCmd = s.mCmd ∧ t.fifo = s.fifo ∧ t.out = s.out ∧
      t.serRem = s.serRem ∧ t.cnt = s.cnt ∧ t.fb = s.fb ∧ t.ring = s.ring ∧ t.wr = s.wr ∧ t.audTick = s.audTick ∧
      t.run = s.run ∧ t.prodOpen = s.prodOpen ∧ t.prodLine = s.prodLine ∧ t.scalePending = s.scalePending ∧
      t.cfg = s.cfg ∧ t.port = { s.port with inner := t.port.inner } ∧
      t.inbox = s.inbox ∧ t.fresh = s.fresh ∧ t.epoch = s.epoch := by
  unfold onlyPosted at h
  rw [← h]
  exact ⟨rfl, rfl, rfl, rfl, rfl, rfl, rfl, rfl, rfl, rfl, rfl, rfl, rfl, rfl, rfl, rfl, rfl, rfl, rfl, rfl⟩

/-! The FrameExchange bits. -/

/-- The bits the producer's operations write, READY and WT, and the mutex are the same in two states. -/
def SameExchange (s t : State) : Prop :=
  t.fx.ready0 = s.fx.ready0 ∧ t.fx.ready1 = s.fx.ready1 ∧ t.fx.wt = s.fx.wt ∧ t.fx.lock = s.fx.lock

theorem sameExchange_trans {s t u : State} (h : SameExchange s t) (k : SameExchange t u) : SameExchange s u := by
  obtain ⟨hready0, hready1, hwt, hlock⟩ := h
  obtain ⟨kready0, kready1, kwt, klock⟩ := k
  exact ⟨kready0.trans hready0, kready1.trans hready1, kwt.trans hwt, klock.trans hlock⟩

theorem sameExchange_of_sameFrame {s t u : State} (h : SameExchange s t) (k : SameFrame t u) : SameExchange s u := by
  obtain ⟨hfx, _⟩ := k
  unfold SameExchange
  rwa [hfx]

/-- The frame boundary's ACQUIRE writes RENDERING alone (44_frame_exchange.md R234). -/
theorem frameOpened_sameExchange (s : State) : SameExchange s (frameOpened s) := by
  unfold frameOpened frameStarted
  split
  · cases acquirePick s.fx <;> simp [SameExchange]
  · exact ⟨rfl, rfl, rfl, rfl⟩

/-- The frame boundary's RELEASE writes RENDERING alone (44_frame_exchange.md R236). -/
theorem frameClosed_sameExchange (s : State) : SameExchange s (frameClosed s) := by
  unfold frameClosed frameEnded
  split_ifs <;> simp [SameExchange]

theorem post_sameExchange (ch : Slot) (s t : State) (h : post ch s = .ok t) : SameExchange s t := by
  refine sameExchange_of_sameFrame ?_ (post_sameFrame ch s t h)
  unfold frameSwitched
  split
  · exact sameExchange_trans (frameOpened_sameExchange s) (frameClosed_sameExchange _)
  · exact ⟨rfl, rfl, rfl, rfl⟩

/-! `post` completes. -/

theorem startOfFrame_completes (s : State) (hfree : s.fx.lock = .free) :
    ∃ t, startOfFrame s = .ok t ∧ t.fx.lock = .free := by
  obtain ⟨t, ht⟩ : ∃ t, startOfFrame s = .ok t := by
    by_cases hfirst : s.v = tBpEnd s.cfg
    · exact ⟨_, (startOfFrame_ok s _).2 (.inl ⟨hfirst, (frameStart_ok s _).2 ⟨hfree, rfl⟩⟩)⟩
    · exact ⟨s, (startOfFrame_ok s s).2 (.inr ⟨hfirst, rfl⟩)⟩
  obtain ⟨_, _, _, hlock⟩ := sameExchange_of_sameFrame (frameOpened_sameExchange s) (startOfFrame_sameFrame s t ht)
  exact ⟨t, ht, hlock.trans hfree⟩

theorem endOfFrame_completes (s : State) (hfree : s.fx.lock = .free) : ∃ t, endOfFrame s = .ok t := by
  by_cases hlast : s.v + 1 = vTotal s.cfg
  · cases hshown : s.dispValid with
    | false => exact ⟨s, (endOfFrame_ok s s).2 (.inl ⟨hlast, (frameEnd_ok s s).2 (.inl ⟨hshown, rfl⟩)⟩)⟩
    | true => exact ⟨_, (endOfFrame_ok s _).2 (.inl ⟨hlast, (frameEnd_ok s _).2 (.inr ⟨hshown, hfree, rfl⟩)⟩)⟩
  · exact ⟨s, (endOfFrame_ok s s).2 (.inr ⟨hlast, rfl⟩)⟩

theorem mayAdvance_of_sameAudio {s t : State} (hsame : SameAudio s t) (h : MayAdvance s) : MayAdvance t := by
  obtain ⟨hcfg, _, _, _, _, _, _, howner⟩ := hsame
  simpa only [MayAdvance, MayDequeue, hcfg, howner] using h

/-- The work item of a line that is shown, whatever its words, and the end of the line. -/
theorem lineItem_completes (ch : Slot) (words : State → List Word) (len : State → Nat) (s : State) (hshows : ShowsLine s)
    (hfree : s.fx.lock = .free) (hmay : MayAdvance s) :
    ∃ a b, startOfFrame (markBusySlot ch s) = .ok a ∧ endOfFrame (describeLine ch (words a) (len a) a) = .ok b ∧
      MayAdvance b := by
  obtain ⟨a, ha, hafree⟩ := startOfFrame_completes (markBusySlot ch s) (by simpa using hfree)
  obtain ⟨b, hb⟩ := endOfFrame_completes (describeLine ch (words a) (len a) a) (by simpa using hafree)
  obtain ⟨_, hsame, _⟩ := lineItem_boundary ch _ _ s a b hshows ha hb
  exact ⟨a, b, ha, hb, mayAdvance_of_sameAudio hsame hmay⟩

theorem post_of_active (ch : Slot) (s : State) (hlow : tBpEnd s.cfg ≤ s.v) (hhigh : s.v < vTotal s.cfg) :
    post ch s =
      if s.cfg.twoPhase then postActive2 ch (markBusySlot ch s) else postActive1 ch (markBusySlot ch s) := by
  rw [post, postItem, markBusySlot_cfg, markBusySlot_v, (region_active s.cfg s.v).2 ⟨hlow, hhigh⟩]

/-- Inside the raster, with the mutex free and the ring's consumer not in the way, `post` completes. -/
theorem post_completes (ch : Slot) (s : State) (hraster : s.v < vTotal s.cfg) (hfree : s.fx.lock = .free)
    (hmay : MayAdvance s) : ∃ t, post ch s = .ok t := by
  rcases Nat.lt_or_ge s.v (tBpEnd s.cfg) with hblank | hactive
  · rw [post_of_blank ch s hblank]
    exact advance_completes _ (by simpa [MayAdvance, MayDequeue] using hmay)
  · rw [post_of_active ch s hactive hraster]
    cases htwo : s.cfg.twoPhase with
    | false =>
      obtain ⟨a, b, ha, hb, hbmay⟩ := lineItem_completes ch (fun a => tableWords a.cfg .active ++ pack (lineUnits a))
        (fun a => a.cfg.cmdListLen + wordsPerLine) s ⟨hactive, hraster, fun h => by simp [htwo] at h⟩ hfree hmay
      obtain ⟨t, ht⟩ := advance_completes b hbmay
      exact ⟨t, (postActive1_ok ch _ t).2 ⟨a, b, ha, hb, ht⟩⟩
    | true =>
      cases hphase : s.phase with
      | cmd => exact ⟨_, (postActive2_ok ch _ _).2 (.inl ⟨hphase, rfl⟩)⟩
      | pix =>
        obtain ⟨a, b, ha, hb, hbmay⟩ := lineItem_completes ch (fun a => pack (lineUnits a)) (fun _ => wordsPerLine) s
          ⟨hactive, hraster, fun _ => hphase⟩ hfree hmay
        obtain ⟨t, ht⟩ := advance_completes { b with phase := .cmd } hbmay
        exact ⟨t, (postActive2_ok ch _ t).2 (.inr ⟨hphase, a, b, ha, hb, ht⟩)⟩

/-! The other slot's line buffer. -/

/-- In a legal build the words of a work item fit a line buffer (10_state.md R31). -/
theorem post_itemPosted_fits (ch : Slot) (s t : State) (hlegal : buildLegal s.cfg = true) (h : post ch s = .ok t) :
    ∃ src len words, ItemPosted ch src len words s t ∧ words.length ≤ 1024 := by
  obtain ⟨hlist, _, hline⟩ := tablesLegal_of_legal s.cfg hlegal
  rcases Nat.lt_or_ge s.v (tBpEnd s.cfg) with hblank | hactive
  · exact ⟨_, _, _, post_blank_itemPosted ch s t hblank h, Nat.zero_le _⟩
  · cases htwo : s.cfg.twoPhase with
    | false =>
      obtain ⟨u, _, hitem⟩ := post_wholeLine_itemPosted ch s t hactive htwo h
      exact ⟨_, _, _, hitem, by rwa [List.length_append, tableWords_length _ _ hlist, packedLine_length]⟩
    | true =>
      cases hphase : s.phase with
      | cmd => exact ⟨_, _, _, post_commandPhase_itemPosted ch s t hactive htwo hphase h, Nat.zero_le _⟩
      | pix =>
        obtain ⟨u, _, hitem⟩ := post_pixelPhase_itemPosted ch s t hactive htwo hphase h
        exact ⟨_, _, _, hitem, by rw [packedLine_length]; decide⟩

/-- The two line buffers do not overlap (20_memory.md R66). -/
theorem lineBufBase_apart (ch : Slot) (k n : Nat) (hk : k < 1024) (hn : n ≤ 1024) :
    lineBufBase (otherSlot ch) + k < lineBufBase ch ∨ lineBufBase ch + n ≤ lineBufBase (otherSlot ch) + k := by
  cases ch <;> simp only [otherSlot, lineBufBase] <;> omega

theorem post_otherLineBuf (ch : Slot) (s t : State) (hlegal : buildLegal s.cfg = true) (h : post ch s = .ok t) (k : Nat)
    (hk : k < 1024) :
    lineBufWord t (lineBufBase (otherSlot ch) + k) = lineBufWord s (lineBufBase (otherSlot ch) + k) := by
  obtain ⟨_, _, words, hitem, hfits⟩ := post_itemPosted_fits ch s t hlegal h
  exact itemPosted_word_outside hitem _ (lineBufBase_apart ch k words.length hk hfits)

/-! The audio side. -/

theorem post_sameAudioOut_of_timer (ch : Slot) (s t : State) (htimer : s.cfg.audioSink = .timer)
    (h : post ch s = .ok t) : SameAudioOut s t := by
  have hpost := postAdvancesOnlyWholeLines s t ch h
  split at hpost
  · obtain ⟨_, _, hsame, _⟩ := hpost
    exact hsame
  · obtain ⟨_, _, htimerCase, _⟩ := hpost
    exact (htimerCase htimer).1

/-! HANDLER. -/

theorem takeTurn_handler_of_post {s t : State} (hrun : s.run = true) (hirq : irqDma s = true)
    (h : post (otherSlot s.lastDone) (acknowledge s) = .ok t) : takeTurn .handler s = .next t :=
  whenEnabled_of_ok (by rw [irqDmaDeliverable, hrun, hirq, Bool.and_self]) h

/-- The slots after the acknowledge and a work item in the slot it names: that one's DONE is clear and its cursors stay, the
other one is as before (42_dma_scheduler.md R184, R186). -/
theorem handlerPosted_slots {s t : State} (h : post (otherSlot s.lastDone) (acknowledge s) = .ok t) :
    t.chan (otherSlot s.lastDone) = { s.chan (otherSlot s.lastDone) with
        done := false, src := (t.chan (otherSlot s.lastDone)).src, len := (t.chan (otherSlot s.lastDone)).len } ∧
      t.chan s.lastDone = s.chan s.lastDone := by
  obtain ⟨_, _, _, hitem, _⟩ := post_itemPosted _ _ t h
  obtain ⟨hslot, hother⟩ := itemPosted_frame hitem
  rw [otherSlot_otherSlot, acknowledge_chan_other] at hother
  rw [acknowledge_chan_named] at hslot
  exact ⟨hslot, hother⟩

/-- What a HANDLER step leaves of all registers but the slots', the raster's, the frame boundary's and the audio side's: the
toggle names the other slot, and M_DESC is set where that slot is busy (42_dma_scheduler.md R185, R186). -/
theorem handlerPosted_registers {s t : State} (h : post (otherSlot s.lastDone) (acknowledge s) = .ok t) :
    t.lastDone = otherSlot s.lastDone ∧ t.mDesc = (s.mDesc || (s.chan (otherSlot s.lastDone)).busy) ∧
      t.mCmd = s.mCmd ∧ t.fifo = s.fifo ∧ t.out = s.out ∧ t.serRem = s.serRem ∧ t.cnt = s.cnt ∧ t.fb = s.fb ∧
      t.ring = s.ring ∧ t.wr = s.wr ∧ t.audTick = s.audTick ∧ t.run = s.run ∧ t.prodOpen = s.prodOpen ∧
      t.prodLine = s.prodLine ∧ t.scalePending = s.scalePending ∧ t.cfg = s.cfg ∧
      t.port = { s.port with inner := t.port.inner } ∧ t.inbox = s.inbox ∧ t.fresh = s.fresh ∧ t.epoch = s.epoch := by
  simpa [acknowledge_chan_named] using onlyPosted_registers (post_onlyPosted _ _ t h)

theorem acknowledge_lineBufWord (s : State) (a : Nat) : lineBufWord (acknowledge s) a = lineBufWord s a := by
  simp [lineBufWord]

theorem handlerPosted_otherLineBuf {s t : State} (hlegal : buildLegal s.cfg = true)
    (h : post (otherSlot s.lastDone) (acknowledge s) = .ok t) (k : Nat) (hk : k < 1024) :
    lineBufWord t (lineBufBase s.lastDone + k) = lineBufWord s (lineBufBase s.lastDone + k) := by
  have hwords := post_otherLineBuf _ _ t (by simpa using hlegal) h k hk
  rwa [otherSlot_otherSlot, acknowledge_lineBufWord] at hwords

/-- Settles O50: the `post` of the acknowledged state completes, writes one slot, and leaves every register it does not name. -/
theorem handlerServesToggledSlot : Obligations.HandlerServesToggledSlot := by
  intro s hrun hirq hraster hfree hmay
  obtain ⟨t, ht⟩ := post_completes (otherSlot s.lastDone) (acknowledge s) (by simpa using hraster) (by simpa using hfree)
    (by simpa [MayAdvance, MayDequeue] using hmay)
  obtain ⟨hslot, hother⟩ := handlerPosted_slots ht
  obtain ⟨hready0, hready1, hwt, hlock⟩ := post_sameExchange _ _ t ht
  rw [acknowledge_fx] at hready0 hready1 hwt hlock
  obtain ⟨hlast, hdesc, hcmd, hfifo, hout, hrem, hcnt, hfb, hring, hwr, htick, hrunning, hopen, hline, hscale, hleft⟩ :=
    handlerPosted_registers ht
  refine ⟨t, takeTurn_handler_of_post hrun hirq ht, ht, hlast, by rw [hslot], by rw [hslot], by rw [hslot],
    by rw [hslot], hother, fun hlegal => handlerPosted_otherLineBuf hlegal ht, hdesc, hcmd, hfifo, hout, hrem, hcnt, hfb,
    hring, hwr, htick, hrunning, hopen, hline, hscale, hready0, hready1, hwt, hlock.trans hfree, ?_⟩
  obtain ⟨hcfg, hport, hinbox, hfresh, hepoch⟩ := hleft
  refine ⟨hcfg, hport, hinbox, hfresh, hepoch, fun htimer => ?_⟩
  simpa [SameAudioOut] using post_sameAudioOut_of_timer _ _ t (by simpa using htimer) ht

end Sys2Proof.Machine
end

section
/-! The default line code: a byte is read back from its symbol, whose transitions and disparity are bounded
(43_serializer_tmds.md R212 to R215). -/

namespace Sys2Proof.Machine

/-! Counting ones. -/

theorem popcount_eq_countP {w : Nat} (x : BitVec w) :
    popcount x = (List.range w).countP (fun i => x.getLsbD i) := List.countP_eq_length_filter.symm

theorem popcount_ofBool (b : Bool) : popcount (BitVec.ofBool b) = b.toNat := by cases b <;> rfl

theorem popcount_append {m n : Nat} (x : BitVec m) (y : BitVec n) :
    popcount (x ++ y) = popcount x + popcount y := by
  have hrange : List.range (m + n) = List.range n ++ (List.range m).map (n + ·) := by
    rw [Nat.add_comm, List.range_add]
  simp only [popcount_eq_countP]
  rw [hrange, List.countP_append, List.countP_map, Nat.add_comm]
  congr 1
  · exact List.countP_congr fun i _ => by simp [BitVec.getLsbD_append]
  · exact List.countP_congr fun i hi => by rw [BitVec.getLsbD_append, if_pos (List.mem_range.1 hi)]

theorem popcount_add_popcount_not {w : Nat} (x : BitVec w) : popcount x + popcount (~~~x) = w := by
  have hnot : popcount (~~~x) = (List.range w).countP (fun i => ¬ x.getLsbD i) := by
    rw [popcount_eq_countP]
    exact List.countP_congr fun i hi => by simp [List.mem_range.1 hi]
  rw [hnot, popcount_eq_countP, ← List.length_eq_countP_add_countP, List.length_range]

/-! The bits of a symbol. -/

@[simp] theorem symbolOf_bit9 (b9 b8 : Bool) (low : Byte) : (symbolOf b9 b8 low).getLsbD 9 = b9 := by
  refine BitVec.getLsbD_append.trans (BitVec.getLsbD_append.trans ?_)
  cases b9 <;> rfl

@[simp] theorem symbolOf_bit8 (b9 b8 : Bool) (low : Byte) : (symbolOf b9 b8 low).getLsbD 8 = b8 := by
  refine BitVec.getLsbD_append.trans (BitVec.getLsbD_append.trans ?_)
  cases b8 <;> rfl

@[simp] theorem symbolOf_low (b9 b8 : Bool) (low : Byte) : (symbolOf b9 b8 low).extractLsb' 0 8 = low :=
  BitVec.extractLsb'_append_eq_right

theorem symbolOf_lowBit (b9 b8 : Bool) (low : Byte) (i : Nat) (hi : i < 8) :
    (symbolOf b9 b8 low).getLsbD i = low.getLsbD i :=
  BitVec.getLsbD_append.trans (if_pos hi)

theorem popcount_symbolOf (b9 b8 : Bool) (low : Byte) :
    popcount (symbolOf b9 b8 low) = b9.toNat + b8.toNat + popcount low := by
  rw [symbolOf, popcount_append, popcount_append, popcount_ofBool, popcount_ofBool]

/-! Stage 1. -/

@[simp] theorem tmdsStage1_mode (d : Byte) : (tmdsStage1 d).getLsbD 8 = !usesXnor d := by
  refine BitVec.getLsbD_append.trans ?_
  cases usesXnor d <;> rfl

@[simp] theorem tmdsStage1_low (d : Byte) : (tmdsStage1 d).extractLsb' 0 8 = chainByte (usesXnor d) d :=
  BitVec.extractLsb'_append_eq_right

theorem getLsbD_ofRange (n : Nat) (f : Nat → Bool) (i : Nat) (hi : i < n) :
    (BitVec.ofBoolListLE ((List.range n).map f)).getLsbD i = f i := by
  rw [BitVec.getLsbD_ofBoolListLE]
  simp [hi]

theorem chainByte_bit (xnor : Bool) (d : Byte) (i : Nat) (hi : i < 8) :
    (chainByte xnor d).getLsbD i = chainBit xnor d i := getLsbD_ofRange 8 _ i hi

/-- A step of the chain changes level where the byte's bit differs from the chain's kind. -/
theorem chainBit_changes (xnor : Bool) (d : Byte) (i : Nat) :
    (chainBit xnor d i != chainBit xnor d (i + 1)) = (d.getLsbD (i + 1) != xnor) := by
  rw [chainBit]
  cases xnor <;> cases chainBit _ d i <;> cases d.getLsbD (i + 1) <;> rfl

/-! Stage 2. -/

/-- The byte sent for `q_m`, inverted or not (R213). -/
def sentByte (inverted : Bool) (qm : BitVec 9) : Byte :=
  if inverted then ~~~(qm.extractLsb' 0 8) else qm.extractLsb' 0 8

/-- The symbol sent for `q_m`: bit 9 says whether the byte is inverted (R213). -/
def sentSymbol (inverted : Bool) (qm : BitVec 9) : Symbol :=
  symbolOf inverted (qm.getLsbD 8) (sentByte inverted qm)

/-- The symbol sent for `q_m`, with the disparity moved by its ones minus its zeros. -/
def sentCoded (inverted : Bool) (qm : BitVec 9) (cnt : Int) : Coded :=
  { sym := sentSymbol inverted qm
    cnt := cnt + popcount (sentSymbol inverted qm) - (10 - popcount (sentSymbol inverted qm) : Int) }

theorem popcount_sentByte (inverted : Bool) (qm : BitVec 9) :
    (popcount (sentByte inverted qm) : Int) =
      if inverted then 8 - (popcount (qm.extractLsb' 0 8) : Int) else popcount (qm.extractLsb' 0 8) := by
  have hnot := popcount_add_popcount_not (qm.extractLsb' 0 8)
  cases inverted with
  | false => rfl
  | true =>
    simp only [sentByte, if_true]
    omega

/-- A symbol with its byte inverted or not is coded as sent when its disparity counts bits 9 and 8 and the byte. -/
theorem coded_eq_sentCoded {inverted mode : Bool} {qm : BitVec 9} {cnt x : Int} {byte : Byte}
    (hmode : qm.getLsbD 8 = mode) (hbyte : byte = sentByte inverted qm)
    (hx : x = cnt + 2 * ((inverted.toNat : Int) + mode.toNat + popcount (sentByte inverted qm)) - 10) :
    ({ sym := symbolOf inverted mode byte, cnt := x } : Coded) = sentCoded inverted qm cnt := by
  subst hmode hbyte hx
  have hones : popcount (sentSymbol inverted qm) =
      inverted.toNat + (qm.getLsbD 8).toNat + popcount (sentByte inverted qm) := popcount_symbolOf _ _ _
  rw [sentCoded, hones, sentSymbol]
  congr 1
  push_cast
  ring

/-- Stage 2 only chooses whether to invert the byte. With no disparity, or as many ones as zeros, bit 9 is the inverse of bit
8; else the byte is sent with the fewer ones where ones prevailed, and with the more where zeros did (R213). -/
theorem tmdsStage2_cases (qm : BitVec 9) (cnt : Int) : ∃ inverted, tmdsStage2 qm cnt = sentCoded inverted qm cnt ∧
    ((inverted = !qm.getLsbD 8) ∧ (cnt = 0 ∨ popcount (sentByte inverted qm) = 4) ∨
      0 < cnt ∧ popcount (sentByte inverted qm) < 4 ∨ cnt < 0 ∧ 4 < popcount (sentByte inverted qm)) := by
  have hkept := popcount_sentByte false qm
  have hinverted := popcount_sentByte true qm
  simp only [if_true, if_false, Bool.false_eq_true] at hkept hinverted
  dsimp only [tmdsStage2]
  split
  next hrest =>
    cases hmode : qm.getLsbD 8 with
    | false =>
      refine ⟨true, coded_eq_sentCoded hmode rfl ?_, .inl ⟨rfl, by omega⟩⟩
      simp only [Bool.not_false, Bool.toNat_true, Bool.toNat_false, Bool.false_eq_true, if_false]
      omega
    | true =>
      refine ⟨false, coded_eq_sentCoded hmode rfl ?_, .inl ⟨rfl, by omega⟩⟩
      simp only [Bool.not_true, Bool.toNat_true, Bool.toNat_false, if_true]
      omega
  next hrest =>
    split
    next hinvert =>
      refine ⟨true, coded_eq_sentCoded rfl rfl ?_, .inr (by omega)⟩
      rw [Bool.toNat_true]
      omega
    next hkeep =>
      refine ⟨false, coded_eq_sentCoded rfl rfl ?_, .inr (by omega)⟩
      rw [Bool.toNat_false]
      omega

theorem tmds8_sends (d : Byte) (cnt : Int) :
    ∃ inverted, (tmds8 .standard d cnt).sym = sentSymbol inverted (tmdsStage1 d) := by
  obtain ⟨inverted, hsent, _⟩ := tmdsStage2_cases (tmdsStage1 d) cnt
  exact ⟨inverted, congrArg Coded.sym hsent⟩

/-! Reading back. -/

/-- Each bit is the change of level the chain made of it (R215). -/
theorem decodedBit_sent (inverted : Bool) (d : Byte) (i : Nat) (hi : i < 8) :
    decodedBit (sentSymbol inverted (tmdsStage1 d)) i = d.getLsbD i := by
  have hbyte : (if inverted then ~~~(sentByte inverted (tmdsStage1 d)) else sentByte inverted (tmdsStage1 d)) =
      chainByte (usesXnor d) d := by
    cases inverted <;> simp [sentByte]
  unfold decodedBit sentSymbol
  simp only [symbolOf_bit9, symbolOf_bit8, symbolOf_low, tmdsStage1_mode, hbyte]
  cases i with
  | zero => exact chainByte_bit _ _ 0 hi
  | succ k =>
    simp only [chainByte_bit _ _ _ hi, chainByte_bit _ _ k (by omega), chainBit]
    cases usesXnor d <;> cases chainBit _ d k <;> cases d.getLsbD (k + 1) <;> rfl

theorem tmdsDecode_sent (inverted : Bool) (d : Byte) : tmdsDecode (sentSymbol inverted (tmdsStage1 d)) = d := by
  refine BitVec.eq_of_getLsbD_eq fun i hi => ?_
  exact (getLsbD_ofRange 8 _ i hi).trans (decodedBit_sent inverted d i hi)

/-! Transitions. -/

/-- The ones of a byte above its bit 0. -/
theorem popcount_byte (d : Byte) :
    popcount d = (d.getLsbD 0).toNat + (List.range 7).countP (fun i => d.getLsbD (i + 1)) := by
  rw [popcount_eq_countP, List.range_succ_eq_map, List.countP_cons, List.countP_map, Nat.add_comm]
  congr 1
  cases d.getLsbD 0 <;> rfl

/-- The chain's kind is chosen so that its byte has at most three changes of level (R212). -/
theorem chain_changes_le (d : Byte) :
    (List.range 7).countP (fun i => chainBit (usesXnor d) d i != chainBit (usesXnor d) d (i + 1)) ≤ 3 := by
  simp only [chainBit_changes]
  have hones := popcount_byte d
  have hzeros := List.length_eq_countP_add_countP (fun i => d.getLsbD (i + 1)) (l := List.range 7)
  rw [List.length_range] at hzeros
  cases hxnor : usesXnor d with
  | false =>
    simp only [usesXnor, Bool.or_eq_false_iff, decide_eq_false_iff_not, Bool.and_eq_false_iff, beq_eq_false_iff_ne,
      Bool.not_eq_false'] at hxnor
    simp only [Bool.bne_false]
    obtain ⟨hle, hne | hbit⟩ := hxnor
    · omega
    · rw [hbit, Bool.toNat_true] at hones; omega
  | true =>
    simp only [usesXnor, Bool.or_eq_true, decide_eq_true_eq, Bool.and_eq_true, beq_iff_eq, Bool.not_eq_true'] at hxnor
    have hnot : (List.range 7).countP (fun i => d.getLsbD (i + 1) != true) =
        (List.range 7).countP (fun i => ¬ d.getLsbD (i + 1)) := List.countP_congr fun i _ => by simp
    rw [hnot]
    have hbit := Bool.toNat_le (d.getLsbD 0)
    rcases hxnor with hlt | ⟨heq, hbit⟩
    · omega
    · rw [hbit, Bool.toNat_false] at hones; omega

/-- Inverting a byte keeps its changes of level. -/
theorem sentSymbol_changes (inverted : Bool) (d : Byte) (i : Nat) (hi : i < 7) :
    ((sentSymbol inverted (tmdsStage1 d)).getLsbD i != (sentSymbol inverted (tmdsStage1 d)).getLsbD (i + 1)) =
      (chainBit (usesXnor d) d i != chainBit (usesXnor d) d (i + 1)) := by
  have hbit : ∀ j, j < 8 →
      (sentSymbol inverted (tmdsStage1 d)).getLsbD j = (inverted ^^ chainBit (usesXnor d) d j) := by
    intro j hj
    rw [sentSymbol, symbolOf_lowBit _ _ _ j hj, sentByte, tmdsStage1_low, ← chainByte_bit _ _ j hj]
    cases inverted with
    | false => exact (Bool.false_xor _).symm
    | true => rw [if_pos rfl, BitVec.getLsbD_not, decide_eq_true hj, Bool.true_and, Bool.true_xor]
  rw [hbit i (by omega), hbit (i + 1) (by omega)]
  cases inverted <;> cases chainBit _ d i <;> cases chainBit _ d (i + 1) <;> rfl

/-- The byte has at most three transitions, and bits 8 and 9 add at most one each. -/
theorem transitions_sent_le (inverted : Bool) (d : Byte) :
    transitions (sentSymbol inverted (tmdsStage1 d)) ≤ 5 := by
  have hbyte : (List.range 7).countP (fun i => (sentSymbol inverted (tmdsStage1 d)).getLsbD i !=
      (sentSymbol inverted (tmdsStage1 d)).getLsbD (i + 1)) ≤ 3 :=
    (List.countP_congr fun i hi => by rw [sentSymbol_changes inverted d i (List.mem_range.1 hi)]).trans_le
      (chain_changes_le d)
  rw [transitions, ← List.countP_eq_length_filter, List.range_add (n := 7) (m := 2), List.countP_append]
  have htop := List.countP_le_length (p := fun i => (sentSymbol inverted (tmdsStage1 d)).getLsbD i !=
    (sentSymbol inverted (tmdsStage1 d)).getLsbD (i + 1)) (l := (List.range 2).map (7 + ·))
  rw [List.length_map, List.length_range] at htop
  omega

/-- Settles O41: a video symbol carries the chain of its byte, inverted or not; the four control symbols are constants. -/
theorem tmdsDecodesBack : Obligations.TmdsDecodesBack := by
  refine ⟨fun d cnt => ?_, by decide, rfl, rfl, rfl, rfl⟩
  obtain ⟨inverted, hsent⟩ := tmds8_sends d cnt
  rw [hsent]
  exact ⟨tmdsDecode_sent inverted d, transitions_sent_le inverted d⟩

/-! Disparity. -/

/-- CNT moves by the ones minus the zeros of the symbol, whichever form of the byte is sent (R213). -/
theorem tmdsStage2_cnt (qm : BitVec 9) (cnt : Int) :
    (tmdsStage2 qm cnt).cnt =
      cnt + popcount (tmdsStage2 qm cnt).sym - (10 - popcount (tmdsStage2 qm cnt).sym : Int) := by
  obtain ⟨inverted, hsent, _⟩ := tmdsStage2_cases qm cnt
  rw [hsent]
  rfl

/-- A disparity that is not zero moves towards zero, and by ten at most (R213). -/
theorem tmdsStage2_balanced (qm : BitVec 9) (cnt : Int) (h : LaneBalanced cnt) :
    LaneBalanced (tmdsStage2 qm cnt).cnt := by
  obtain ⟨hlow, hhigh, heven⟩ := h
  obtain ⟨inverted, hsent, hchoice⟩ := tmdsStage2_cases qm cnt
  have hones : popcount (sentSymbol inverted qm) =
      inverted.toNat + (qm.getLsbD 8).toNat + popcount (sentByte inverted qm) := popcount_symbolOf _ _ _
  have hbyte := popcount_add_popcount_not (sentByte inverted qm)
  have hbit9 := Bool.toNat_le inverted
  have hbit8 := Bool.toNat_le (qm.getLsbD 8)
  have hcnt : (sentCoded inverted qm cnt).cnt =
      cnt + popcount (sentSymbol inverted qm) - (10 - popcount (sentSymbol inverted qm) : Int) := rfl
  rw [hsent, LaneBalanced, hcnt]
  rcases hchoice with ⟨hinverted, hrest⟩ | hfewer | hmore
  · have hone : inverted.toNat + (qm.getLsbD 8).toNat = 1 := by
      rw [hinverted]; cases qm.getLsbD 8 <;> rfl
    omega
  · omega
  · omega

/-- Settles O42: stage 2 of the code on the `q_m` of the byte. -/
theorem tmdsTracksDisparity : Obligations.TmdsTracksDisparity := fun d cnt =>
  ⟨tmdsStage2_cnt (tmdsStage1 d) cnt, tmdsStage2_balanced (tmdsStage1 d) cnt⟩

end Sys2Proof.Machine
end

section
/-! The pops of the serializer: what each command and each data word leaves (43_serializer_tmds.md R204 to R210), and that
under the default line code every step keeps the lanes balanced (R213). -/

namespace Sys2Proof.Machine

/-! The lanes stay balanced. -/

/-- All three lanes' disparities are balanced: `DisparityInv` of a state is this of its CNT. -/
abbrev LanesBalanced (cnt : Disparity) : Prop :=
  LaneBalanced cnt.lane0 ∧ LaneBalanced cnt.lane1 ∧ LaneBalanced cnt.lane2

theorem disparityInv_iff (s : State) : DisparityInv s ↔ LanesBalanced s.cnt := Iff.rfl

/-- One pixel period keeps the lanes balanced: a video period codes a byte on each, a control period leaves them. -/
theorem wirePeriod_balanced (cnt : Disparity) (p : PixelPeriod) (h : LanesBalanced cnt) :
    LanesBalanced (wirePeriod .standard cnt p).2 := by
  cases p with
  | ctrl vs hs => exact h
  | video r g b =>
    obtain ⟨h0, h1, h2⟩ := h
    exact ⟨tmdsStage2_balanced (tmdsStage1 b) _ h0, tmdsStage2_balanced (tmdsStage1 g) _ h1,
      tmdsStage2_balanced (tmdsStage1 r) _ h2⟩

theorem wireDisparity_balanced (ps : List PixelPeriod) (cnt : Disparity) (h : LanesBalanced cnt) :
    LanesBalanced (wireDisparity .standard cnt ps) := by
  induction ps generalizing cnt with
  | nil => exact h
  | cons p ps ih => exact ih _ (wirePeriod_balanced cnt p h)

theorem lanesBalanced_cleared : LanesBalanced { lane0 := 0, lane1 := 0, lane2 := 0 } := by decide

/-- A pop codes the periods of a data word, clears the disparity after a control run, or leaves it. -/
theorem popEffect_balanced {s t : State} (hcode : s.cfg.lineCode = .standard) (h : PopEffect s t)
    (hs : DisparityInv s) : DisparityInv t := by
  cases h with
  | data w =>
    have hcnt : (dataWord w s).cnt =
        wireDisparity .standard s.cnt ((owedUnits s.serRem w).flatMap (unitPeriods s.cfg)) := by rw [← hcode]; rfl
    rw [disparityInv_iff, hcnt]
    exact wireDisparity_balanced _ _ hs
  | nop => exact hs
  | ctrl => exact lanesBalanced_cleared
  | pixels => exact hs
  | reserved => exact hs

theorem serPopTurn_balanced (s t : State) (hcode : s.cfg.lineCode = .standard) (h : serPopTurn s = .next t)
    (hs : DisparityInv s) : DisparityInv t := by
  rcases serPopTurn_effect s t h with ⟨_, rfl⟩ | ⟨w, rest, _, heffect⟩
  · exact hs
  · exact popEffect_balanced (s := { s with fifo := rest }) hcode heffect hs

/-- Settles O43: the other agents leave CNT, a pop keeps it balanced, and a reset clears it. -/
theorem stepKeepsLanesBalanced : Obligations.StepKeepsLanesBalanced := by
  intro s t hcode hs hstep
  rcases step_cases s t hstep with ⟨_, _, turns, hupdates⟩ | ⟨_, hpop⟩ | ⟨_, rfl⟩
  · obtain ⟨_, _, _, hcnt, _, _⟩ := updates_keepsSerializer hupdates
    rw [disparityInv_iff, hcnt]
    exact hs
  · exact serPopTurn_balanced { beginStep s with inbox := s.inbox.tail } t hcode hpop hs
  · exact lanesBalanced_cleared

/-! Commands. -/

theorem extendOut_nil_of_marksClear (s : State) (h : MarksClear s) : extendOut [] s = s := by
  rw [extendOut_of_marksClear [] s h, List.append_nil]

/-- Settles O37: NOP extends OUT by nothing, unless a mark is set. -/
theorem nopOnlyPopsFifo : Obligations.NopOnlyPopsFifo := by
  have hnop : ∀ s : State, MarksClear s → exec .nop s = .next s := fun s hclear =>
    congrArg Host.Outcome.next (extendOut_nil_of_marksClear s hclear)
  intro s
  refine ⟨hnop s, fun hclear hmode rest hfifo => ?_, ⟨extendOut [] s, _, rfl, rfl, rfl⟩⟩
  have hpop := serPopTurn_of_command s 0 .nop (by rw [hfifo]; rfl) hmode (decodeCmd_encode .nop rfl rfl)
  rw [hpop, hfifo]
  exact hnop _ hclear

/-- The records of control periods are all the same, for they leave the disparity. -/
theorem wireRecords_replicate_ctrl (code : LineCode) (cnt : Disparity) (vs hs : Bool) (n : Nat) :
    wireRecords code cnt (List.replicate n (.ctrl vs hs)) =
      List.replicate n (wirePeriod code cnt (.ctrl vs hs)).1 := by
  induction n with
  | zero => rfl
  | succ n ih => rw [List.replicate_succ, List.replicate_succ, ← ih]; rfl

theorem standardCtrlSym_eq (vs hs : Bool) :
    standardCtrlSym vs hs = if vs then (if hs then 0x2AB else 0x154) else (if hs then 0x0AB else 0x354) := by
  cases vs <;> cases hs <;> rfl

/-- Settles O38: the control run's records are one record repeated. -/
theorem ctrlEmitsControlRun : Obligations.CtrlEmitsControlRun := by
  intro s vs hs n hn
  have hout : MarksClear s → (ctrlRun vs hs n.toNat s).out =
      s.out ++ List.replicate n.toNat (wirePeriod s.cfg.lineCode s.cnt (.ctrl vs hs)).1 := by
    intro hclear
    rw [← wireRecords_replicate_ctrl, ctrlRun, emitPeriods, extendOut_of_marksClear _ s hclear]
  refine ⟨ctrlRun vs hs n.toNat s, congrArg Host.Outcome.next (if_neg hn), hout, fun hclear hcode => ?_, rfl, rfl⟩
  rw [hout hclear, hcode, ← standardCtrlSym_eq]
  rfl

/-- Settles O39: PIXELS writes SER_REM, and OUT only once a mark is set. -/
theorem pixelsSetsUnitsOwed : Obligations.PixelsSetsUnitsOwed := by
  intro s n hn
  have hexec : exec (.pixels n) s = .next { extendOut [] s with serRem := n } :=
    congrArg Host.Outcome.next (if_neg hn)
  refine ⟨fun hclear => ?_, _, hexec, rfl⟩
  rw [hexec, extendOut_nil_of_marksClear s hclear]

/-! Fetching a command. -/

/-- Settles O8: the offered turn is SER's, and SER pops the word. -/
theorem stepRunsPoppedCommand : Obligations.StepRunsPoppedCommand := by
  intro s w ws rest i hlegal hoffer hfifo hmode hdecode
  have hhead : s.fifo.head? = some w := by rw [hfifo]; rfl
  calc step s
      = serPopTurn { beginStep s with inbox := rest } := step_of_offered_turn s _ rest hlegal hoffer
    _ = exec i { beginStep s with inbox := rest, fifo := s.fifo.tail } :=
        serPopTurn_of_command { beginStep s with inbox := rest } w i hhead hmode hdecode
    _ = exec i { s with inbox := rest, fresh := s.fresh + 1, port := Port.idle, fifo := ws } := by rw [hfifo]; rfl

/-- The low twelve bits of a word whose operand field is known. -/
theorem count_of_operand (w : Word) (operand : BitVec 24) (h : w.extractLsb' 0 24 = operand) :
    w.extractLsb' 0 12 = operand.extractLsb' 0 12 := by
  rw [← h, extractLsb'_of_field _ _ _ _ _ (by decide)]

/-- A CTRL word's OP is no request's, or AUD_CAP's, whose operand field is zero, where the count is not. -/
theorem decodeReq_ctrl (vs hs : Bool) (n : BitVec 12) (hn : n ≠ 0) (i : Instr) :
    decodeReq (encode (.ctrl vs hs n)) ≠ .ok i := by
  obtain ⟨_, _, _, _, hcount⟩ := (ctrl_word_iff vs hs n _).1 rfl
  have hop : (encode (.ctrl vs hs n)).extractLsb' 24 8 =
      (1#4 ++ BitVec.ofBool vs ++ BitVec.ofBool hs ++ 0#14).extractLsb' 12 8 :=
    BitVec.extractLsb'_append_eq_of_le (by decide)
  rw [decodeReq, hop]
  cases vs <;> cases hs
  case false.false =>
    intro h
    have hzero := count_of_operand _ 0 ((decodeN_ok_iff .audCap i _).1 h).1
    exact hn (hcount.symm.trans hzero)
  all_goals nofun

/-- A PIXELS word's OP is SET_SCALE's, whose operand field is 0 or 1. -/
theorem decodeReq_pixels (n : BitVec 12) (hn : n ≠ 0) (hone : n ≠ 1) (i : Instr) :
    decodeReq (encode (.pixels n)) ≠ .ok i := by
  obtain ⟨_, _, hcount⟩ := (pixels_word_iff n _).1 rfl
  have hop : (encode (.pixels n)).extractLsb' 24 8 = (2#4 ++ 0#16).extractLsb' 12 8 :=
    BitVec.extractLsb'_append_eq_of_le (by decide)
  rw [decodeReq, hop]
  intro h
  obtain ⟨mode, hoperand, _⟩ := (decodeM_ok_iff .setScale i _).1 h
  have hfield := hcount.symm.trans (count_of_operand _ _ hoperand)
  cases mode with
  | oneToOne => exact hn hfield
  | eightToSeven => exact hone hfield

/-- PIXELS 1 is the one command whose word is a legal request (log 24). -/
theorem decodeReq_command (i : Instr) (hcmd : i.interface = .cmd) (hwf : i.wellFormed = true) (hne : i ≠ .pixels 1) :
    ∃ e, decodeReq (encode i) = .error e := by
  have hnot : ∀ j, decodeReq (encode i) ≠ .ok j := by
    cases i with
    | nop => nofun
    | ctrl vs hs n => exact decodeReq_ctrl vs hs n (bne_iff_ne.1 hwf)
    | pixels n => exact decodeReq_pixels n (bne_iff_ne.1 hwf) (fun h => hne (congrArg Instr.pixels h))
    | _ => cases hcmd
  cases hdecode : decodeReq (encode i) with
  | ok j => exact absurd hdecode (hnot j)
  | error e => exact ⟨e, rfl⟩

theorem withFetchWord_encode (s : State) (w : Word) : s.withFetchWord 32 w.toNat = placeWord s w := by
  rw [State.withFetchWord, Nat.mod_eq_of_lt w.isLt, BitVec.ofNat_toNat, BitVec.setWidth_eq]

/-- Settles O9: a request is placed as the next offered turn, a command at the FIFO's head with SER's turn next. -/
theorem placedOperationIsRunNext : Obligations.PlacedOperationIsRunNext := by
  intro s i hlegal hwf hne
  rw [withFetchWord_encode]
  constructor
  · intro hreq
    have hdecode := decodeReq_encode i hreq hwf
    have hplace : placeWord s (encode i) = { s with inbox := .request (issuerOf i) (encode i) [] :: s.inbox } := by
      simp only [placeWord, hdecode]
    rw [hplace]
    exact stepRunsDecodedRequest { s with inbox := .request (issuerOf i) (encode i) [] :: s.inbox } _ _ _ s.inbox i hlegal
      rfl hdecode
  · intro hcmd
    have hdecode := decodeCmd_encode i hcmd hwf
    obtain ⟨e, hnot⟩ := decodeReq_command i hcmd hwf hne
    have hplace : placeWord s (encode i) =
        { s with fifo := encode i :: s.fifo.tail, serRem := 0, inbox := .serPop :: s.inbox } := by
      simp only [placeWord, hnot, hdecode]
    rw [hplace]
    exact stepRunsPoppedCommand _ (encode i) s.fifo.tail s.inbox i hlegal rfl rfl rfl hdecode

end Sys2Proof.Machine
end

section
/-! Data words popped one after the other, and the active table with its packed line (41_scanline_sequencer.md R160,
43_serializer_tmds.md R204, R208, R209). -/

namespace Sys2Proof.Machine

/-! One data word. -/

theorem serPopTurn_of_data (s : State) (w : Word) (hhead : s.fifo.head? = some w) (howed : s.serRem ≠ 0) :
    serPopTurn s = .next (dataWord w { s with fifo := s.fifo.tail }) := by
  obtain ⟨rest, hfifo⟩ := List.head?_eq_some_iff.1 hhead
  unfold serPopTurn
  rw [hfifo]
  exact if_pos (bne_iff_ne.2 howed)

/-- The pixel periods a data word emits while `owed` units are owed (R208). -/
def dataPeriods (c : Config) (owed : BitVec 12) (w : Word) : List PixelPeriod :=
  (owedUnits owed w).flatMap (unitPeriods c)

/-- With no mark set a data word emits the owed units' periods and changes nothing but OUT, the disparity and SER_REM. -/
theorem dataWord_of_marksClear (w : Word) (s : State) (h : MarksClear s) :
    dataWord w s =
      { s with
        out := s.out ++ wireRecords s.cfg.lineCode s.cnt (dataPeriods s.cfg s.serRem w)
        cnt := wireDisparity s.cfg.lineCode s.cnt (dataPeriods s.cfg s.serRem w)
        serRem := s.serRem - BitVec.ofNat 12 (owedUnits s.serRem w).length } := by
  simp only [dataWord, emitPeriods, extendOut_of_marksClear _ s h, dataPeriods]

/-- An odd last unit is the low half alone (R208). -/
theorem owedUnits_one (w : Word) : owedUnits 1 w = [lowUnit w] := rfl

theorem owedUnits_two (owed : BitVec 12) (w : Word) (h : 2 ≤ owed.toNat) :
    owedUnits owed w = [lowUnit w, highUnit w] := List.take_of_length_le h

theorem two_le_of_owed (owed : BitVec 12) (hzero : owed ≠ 0) (hone : owed ≠ 1) : 2 ≤ owed.toNat := by
  bv_omega

theorem dataPeriods_eq (c : Config) (owed : BitVec 12) (w : Word) (h : owed ≠ 0) :
    dataPeriods c owed w =
      unitPeriods c (lowUnit w) ++ if owed = 1 then [] else unitPeriods c (highUnit w) := by
  by_cases hone : owed = 1
  · subst hone
    rw [dataPeriods, owedUnits_one, if_pos rfl, List.flatMap_singleton, List.append_nil]
  · rw [dataPeriods, owedUnits_two owed w (two_le_of_owed owed h hone), if_neg hone, List.flatMap_cons,
      List.flatMap_singleton]

theorem serRem_after_data (owed : BitVec 12) (w : Word) (h : owed ≠ 0) :
    (owed - BitVec.ofNat 12 (owedUnits owed w).length).toNat = owed.toNat - 2 := by
  by_cases hone : owed = 1
  · subst hone
    rw [owedUnits_one, List.length_singleton]
    decide
  · have htwo := two_le_of_owed owed h hone
    rw [owedUnits_two owed w htwo]
    exact BitVec.toNat_sub_of_le (show 2#12 ≤ owed from htwo)

/-! The channels of a unit. -/

/-- A field at the top of a byte, with zeros below. -/
theorem field_append_zeros {w : Nat} (x : BitVec w) (start n m : Nat) :
    x.extractLsb' start n ++ 0#m = BitVec.ofNat (n + m) (x.toNat / 2 ^ start % 2 ^ n * 2 ^ m) := by
  refine BitVec.eq_of_toNat_eq ?_
  rw [BitVec.toNat_append, BitVec.toNat_ofNat, BitVec.extractLsb'_toNat, Nat.shiftRight_eq_div_pow]
  have hlt : x.toNat / 2 ^ start % 2 ^ n < 2 ^ n := Nat.mod_lt _ (Nat.two_pow_pos n)
  have hfit : x.toNat / 2 ^ start % 2 ^ n * 2 ^ m < 2 ^ (n + m) := by
    rw [pow_add]
    exact Nat.mul_lt_mul_of_pos_right hlt (Nat.two_pow_pos m)
  simp [Nat.mod_eq_of_lt hfit, Nat.shiftLeft_eq]

theorem expand_a (u : PixelUnit) (p x : Nat) (hx : x = if p = 0 then u.toNat % 256 else u.toNat / 256) :
    expand .a u p = .video
      (BitVec.ofNat 8 (x / 32 * 32)) (BitVec.ofNat 8 (x / 4 % 8 * 32)) (BitVec.ofNat 8 (x % 4 * 64)) := by
  have hbyte : (if p = 0 then u.extractLsb' 0 8 else u.extractLsb' 8 8).toNat = x := by
    rw [hx]
    split
    · simp
    · have hlt := u.isLt
      simp only [BitVec.extractLsb'_toNat, Nat.shiftRight_eq_div_pow]
      omega
  have hlt : x < 256 := hbyte ▸ BitVec.isLt _
  have hred : x / 32 % 8 = x / 32 := Nat.mod_eq_of_lt (by omega)
  simp only [expand, field_append_zeros, hbyte]
  norm_num [hred]

theorem expand_b (u : PixelUnit) (p : Nat) :
    expand .b u p = .video
      (BitVec.ofNat 8 (u.toNat / 1024 % 32 * 8)) (BitVec.ofNat 8 (u.toNat / 32 % 32 * 8))
      (BitVec.ofNat 8 (u.toNat % 32 * 8)) := by
  simp only [expand, field_append_zeros]
  norm_num

/-- Settles O40: the pop is a data word's, the channels are fields of the unit, and each record leaves its disparities to the
next. -/
theorem dataWordEmitsOwedUnits : Obligations.DataWordEmitsOwedUnits := by
  refine ⟨fun s w rest hclear howed hfifo => ?_, fun u p => ⟨expand_a u p, expand_b u p⟩,
    fun code cnt r g b ps => ⟨rfl, rfl, rfl, rfl⟩⟩
  have hpop := serPopTurn_of_data s w (by rw [hfifo]; rfl) howed
  rw [dataWord_of_marksClear w { s with fifo := s.fifo.tail } hclear] at hpop
  refine ⟨_, dataPeriods s.cfg s.serRem w, hpop, dataPeriods_eq s.cfg s.serRem w howed, by rw [hfifo]; rfl, ?_, rfl, rfl,
    serRem_after_data s.serRem w howed, rfl⟩
  rw [List.map_append, wireRecords_periods]

/-! Pops in a row. -/

/-- SER has popped once in each state of `es`, from its own registers in `s` on, and has emitted `ps`; `owed` units are owed
then, the marks are clear, and the last pop has left all but SER's registers as it found it. -/
structure PoppedEach (ps : List PixelPeriod) (owed : BitVec 12) (es : List State) (s u : State) : Prop where
  pops : popEach es s = .next u
  periods : u.out.map (fun r => r.period) = s.out.map (fun r => r.period) ++ ps
  owed : u.serRem = owed
  clear : MarksClear u
  cfg : u.cfg = s.cfg
  rest : ∀ e, es.getLast? = some e → u = { withSerializerOf u e with fifo := e.fifo.tail }

theorem popEach_append (es es' : List State) (s t : State) (h : popEach es s = .next t) :
    popEach (es ++ es') s = popEach es' t := by
  induction es generalizing s with
  | nil => cases h; rfl
  | cons e es ih =>
    rw [popEach] at h
    rw [List.cons_append, popEach]
    cases hpop : serPopTurn (withSerializerOf s e) with
    | next v =>
      rw [hpop] at h
      exact ih v h
    | _ => rw [hpop] at h; cases h

theorem PoppedEach.append {ps ps' : List PixelPeriod} {owed owed' : BitVec 12} {es es' : List State} {s t u : State}
    (h : PoppedEach ps owed es s t) (h' : PoppedEach ps' owed' es' t u) :
    PoppedEach (ps ++ ps') owed' (es ++ es') s u where
  pops := (popEach_append es es' s t h.pops).trans h'.pops
  periods := by rw [h'.periods, h.periods, List.append_assoc]
  owed := h'.owed
  clear := h'.clear
  cfg := h'.cfg.trans h.cfg
  rest := by
    cases es' with
    | nil =>
      cases h'.pops
      rw [List.append_nil]
      exact h.rest
    | cons e es' =>
      rw [List.getLast?_append_of_ne_nil _ (List.cons_ne_nil e es')]
      exact h'.rest

/-- One pop that changes only SER's registers and takes the word. -/
theorem poppedEach_one {ps : List PixelPeriod} {owed : BitVec 12} {e s u : State}
    (hpop : serPopTurn (withSerializerOf s e) = .next u)
    (hperiods : u.out.map (fun r => r.period) = s.out.map (fun r => r.period) ++ ps) (howed : u.serRem = owed)
    (hclear : MarksClear u) (hcfg : u.cfg = s.cfg) (hrest : u = { withSerializerOf u e with fifo := e.fifo.tail }) :
    PoppedEach ps owed [e] s u where
  pops := by rw [popEach, hpop]; rfl
  periods := hperiods
  owed := howed
  clear := hclear
  cfg := hcfg
  rest := by rintro _ ⟨⟩; exact hrest

theorem poppedEach_controls (is : List Instr) (es : List State) (s : State) (his : ∀ i ∈ is, isControl i = true)
    (hclear : MarksClear s) (hmode : s.serRem = 0) (hheads : HeadWords es (is.map encode)) :
    ∃ u, PoppedEach (is.flatMap controlPeriods) 0 es s u := by
  obtain ⟨u, hpops, hperiods, howed, hclearU, hcfg, hrest⟩ := popEach_controls is es s his hclear hmode hheads
  exact ⟨u, hpops, hperiods, howed, hclearU, hcfg, hrest⟩

theorem poppedEach_pixels (n : BitVec 12) (e s : State) (hn : n ≠ 0) (hclear : MarksClear s) (hmode : s.serRem = 0)
    (hhead : e.fifo.head? = some (encode (.pixels n))) : ∃ u, PoppedEach [] n [e] s u := by
  have hpop := serPopTurn_of_command (withSerializerOf s e) _ (.pixels n) hhead hmode
    (decodeCmd_encode _ rfl (bne_iff_ne.2 hn))
  obtain ⟨hexec, _⟩ := pixelsSetsUnitsOwed { withSerializerOf s e with fifo := e.fifo.tail } n hn
  exact ⟨_, poppedEach_one (hpop.trans (hexec hclear)) (List.append_nil _).symm rfl hclear rfl rfl⟩

theorem poppedEach_data (w : Word) (e s : State) (hclear : MarksClear s) (howed : 2 ≤ s.serRem.toNat)
    (hhead : e.fifo.head? = some w) :
    ∃ u, PoppedEach (unitPeriods s.cfg (lowUnit w) ++ unitPeriods s.cfg (highUnit w)) (s.serRem - 2) [e] s u := by
  have hzero : s.serRem ≠ 0 := by bv_omega
  have hunits := owedUnits_two s.serRem w howed
  have hpop := serPopTurn_of_data (withSerializerOf s e) w hhead hzero
  have hdata := dataWord_of_marksClear w { withSerializerOf s e with fifo := e.fifo.tail } hclear
  refine ⟨_, poppedEach_one (hpop.trans (congrArg Host.Outcome.next hdata)) ?_ ?_ hclear rfl rfl⟩
  · rw [List.map_append, wireRecords_periods]
    simp [withSerializerOf, dataPeriods, hunits]
  · simp [withSerializerOf, hunits]

/-! A packed line. -/

theorem lowUnit_append (odd even : PixelUnit) : lowUnit (odd ++ even) = even := BitVec.extractLsb'_append_eq_right

theorem highUnit_append (odd even : PixelUnit) : highUnit (odd ++ even) = odd := BitVec.extractLsb'_append_eq_left

/-- The words of an even number of units, popped while that many units are owed, emit every unit's periods in order and end
in command mode (R208). -/
theorem poppedEach_pack : ∀ (units : List PixelUnit) (es : List State) (s : State), units.length % 2 = 0 →
    units.length < 4096 → MarksClear s → s.serRem = BitVec.ofNat 12 units.length → HeadWords es (pack units) →
    ∃ u, PoppedEach (units.flatMap (unitPeriods s.cfg)) 0 es s u
  | [], es, s, _, _, hclear, howed, hheads => by
    obtain rfl : es = [] := by simpa [HeadWords, pack] using hheads
    exact ⟨s, rfl, (List.append_nil _).symm, howed, hclear, rfl, by simp⟩
  | [_], _, _, heven, _, _, _, _ => by simp at heven
  | even :: odd :: rest, [], s, _, _, _, _, hheads => by simp [HeadWords, pack] at hheads
  | even :: odd :: rest, e :: es, s, heven, hfits, hclear, howed, hheads => by
    simp only [List.length_cons] at heven hfits howed
    simp only [HeadWords, pack, List.map_cons, List.cons.injEq] at hheads
    obtain ⟨hhead, hheads⟩ := hheads
    have htwo : 2 ≤ s.serRem.toNat := by rw [howed, BitVec.toNat_ofNat]; omega
    obtain ⟨t, ht⟩ := poppedEach_data _ e s hclear htwo hhead
    have howedT : t.serRem = BitVec.ofNat 12 rest.length := by
      rw [ht.owed, howed]
      bv_omega
    obtain ⟨u, hu⟩ := poppedEach_pack rest es t (by omega) (by omega) ht.clear howedT hheads
    rw [lowUnit_append, highUnit_append] at ht
    rw [ht.cfg] at hu
    refine ⟨u, ?_⟩
    rw [List.flatMap_cons, List.flatMap_cons, ← List.append_assoc]
    exact ht.append hu

/-! The active table. -/

/-- The commands of the active table before its PIXELS (41_scanline_sequencer.md R160). -/
def activePorches (c : Config) : List Instr :=
  [ .ctrl (!c.vsyncLevel) (!c.hsyncLevel) (BitVec.ofNat 12 c.hFrontPorch),
    .ctrl (!c.vsyncLevel) c.hsyncLevel (BitVec.ofNat 12 c.hSyncWidth),
    .ctrl (!c.vsyncLevel) (!c.hsyncLevel) (BitVec.ofNat 12 c.hBackPorch) ] ++ tablePadding c

theorem tableWords_active (c : Config) :
    tableWords c .active = (activePorches c).map encode ++ [encode (.pixels 320)] := by
  simp only [tableWords, tableCommands, activePorches, tableVs, fbWidth, List.map_append, List.map_cons, List.map_nil]
  rfl

/-- They are all among the commands of the blanking table. -/
theorem activePorches_control (c : Config) (hlegal : buildLegal c = true) :
    ∀ i ∈ activePorches c, isControl i = true := by
  intro i hi
  refine tableCommands_control c .blank hlegal nofun i ?_
  rw [tableCommands_of_blanking c .blank nofun]
  simp only [activePorches, List.mem_append, List.mem_cons, List.not_mem_nil, or_false] at hi
  simp only [tableVs, List.mem_append, List.mem_cons, List.not_mem_nil, or_false]
  tauto

theorem activePorches_periods (c : Config) (hlegal : buildLegal c = true) :
    (activePorches c).flatMap controlPeriods =
      List.replicate c.hFrontPorch (.ctrl (!c.vsyncLevel) (!c.hsyncLevel)) ++
        List.replicate c.hSyncWidth (.ctrl (!c.vsyncLevel) c.hsyncLevel) ++
        List.replicate c.hBackPorch (.ctrl (!c.vsyncLevel) (!c.hsyncLevel)) := by
  have hcount := fun n hn => (counts_of_legal c hlegal n hn).1
  rw [activePorches, List.flatMap_append, tablePadding_periods]
  simp only [List.flatMap_cons, List.flatMap_nil, controlPeriods, hcount c.hFrontPorch (by simp),
    hcount c.hSyncWidth (by simp), hcount c.hBackPorch (by simp), List.append_nil, List.append_assoc]

/-- PIXEL_REPEAT periods for each of 320 units fill the active part of a line (00_scope.md R6, R7 (a)). -/
theorem hActive_of_legal (c : Config) (hlegal : buildLegal c = true) : c.hActive = 320 * pixelRepeat c := by
  simp only [buildLegal, rasterLegal, Bool.and_eq_true, decide_eq_true_eq, and_assoc] at hlegal
  obtain ⟨_, _, _, hdivides, _⟩ := hlegal
  unfold fbWidth at hdivides
  unfold pixelRepeat fbWidth
  omega

theorem units_periods_length (c : Config) (units : List PixelUnit) :
    (units.flatMap (unitPeriods c)).length = units.length * pixelRepeat c := by
  simp [unitPeriods, List.length_flatMap]

/-- The states that hand over one list of words and then another. -/
theorem headWords_append (es : List State) (ws ws' : List Word) (h : HeadWords es (ws ++ ws')) :
    ∃ es1 es2, es = es1 ++ es2 ∧ HeadWords es1 ws ∧ HeadWords es2 ws' := by
  rw [HeadWords, List.map_append] at h
  exact List.map_eq_append_iff.1 h

theorem headWords_singleton (es : List State) (w : Word) (h : HeadWords es [w]) :
    ∃ e, es = [e] ∧ e.fifo.head? = some w := by
  obtain ⟨e, rfl, he⟩ := List.map_eq_singleton_iff.1 h
  exact ⟨e, rfl, he⟩

/-- Settles O45: the porches' control runs, PIXELS 320, then 160 data words that carry the 320 units owed. -/
theorem activeLineIsOneLine : Obligations.ActiveLineIsOneLine := by
  intro s es units hlegal hclear hmode hlength hheads
  rw [tableWords_active] at hheads
  obtain ⟨es12, es3, rfl, hheads, hdata⟩ := headWords_append _ _ _ hheads
  obtain ⟨es1, es2, rfl, hporches, hpixels⟩ := headWords_append _ _ _ hheads
  obtain ⟨e, rfl, hhead⟩ := headWords_singleton _ _ hpixels
  obtain ⟨a, ha⟩ := poppedEach_controls _ es1 s (activePorches_control s.cfg hlegal) hclear hmode hporches
  obtain ⟨b, hb⟩ := poppedEach_pixels 320 e a (by decide) ha.clear ha.owed hhead
  obtain ⟨u, hu⟩ := poppedEach_pack units es3 b (by omega) (by omega) hb.clear (by rw [hb.owed, hlength]; rfl) hdata
  rw [hb.cfg, ha.cfg] at hu
  have hline := (ha.append hb).append hu
  have hout := hline.periods
  rw [activePorches_periods s.cfg hlegal, List.append_nil] at hout
  refine ⟨u, hline.pops, ?_, ?_, hline.owed, hline.clear, hline.cfg, hline.rest⟩
  · rw [hout, List.append_assoc, List.append_assoc, List.append_assoc, List.append_assoc, List.append_assoc]
    rfl
  · have hcount := congrArg List.length hout
    simp only [List.length_map, List.length_append, List.length_replicate, units_periods_length, hlength] at hcount
    rw [hcount, hTotal, hActive_of_legal s.cfg hlegal]

end Sys2Proof.Machine
end

section
/-! The operations of FrameExchange where the mutex is free (44_frame_exchange.md R230 to R236, R241). -/

namespace Sys2Proof.Machine

/-! A request under a free mutex. -/

theorem producerPort_of_producer {s : State} (h : s.port.ctx = .producer) : producerPort s.port.ctx = true := by
  rw [h]; rfl

theorem consumerPort_of_thread {s : State} (h : s.port.ctx = .consumerThread) : consumerPort s.port.ctx = true := by
  rw [h]; rfl

/-- A request that its port allows and that answers at once. -/
theorem serve_of_ok {p : Context → Bool} {s t : State} {a : Attempt State} (hport : p s.port.ctx = true)
    (ha : a = .ok t) : serve p s a = .next t := by
  rw [serve_allowed p s _ hport, ha]; rfl

/-- Under the free mutex: what the operation does between taking and freeing it. -/
theorem serve_underMutex_of_ok {p : Context → Bool} {who : LockOwner} {s u : State} {act : State → Attempt State}
    (hport : p s.port.ctx = true) (hfree : s.fx.lock = .free) (hact : act (setLock who s) = .ok u) :
    serve p s (underMutex who s act) = .next (setLock .free u) :=
  serve_of_ok hport ((underMutex_ok who s _ act).2 ⟨hfree, u, hact, rfl⟩)

/-- The same for an operation that always answers. -/
theorem serve_underMutex_of_free {p : Context → Bool} {s : State} (who : LockOwner) (act : State → State)
    (hport : p s.port.ctx = true) (hfree : s.fx.lock = .free) :
    serve p s (underMutex who s (fun t => .ok (act t))) = .next (setLock .free (act (setLock who s))) :=
  serve_underMutex_of_ok hport hfree rfl

/-! LINE_BEGIN and LINE_END. -/

theorem execLineBegin_opens (s : State) (line : BitVec 9) (hctx : s.port.ctx = .producer) (hfree : s.fx.lock = .free)
    (hline : line.toNat < 240) : execLineBegin line s = .next (respond .ok none (openLine line s)) := by
  rw [execLineBegin, if_pos ((lineLegal_iff line).2 hline),
    serve_underMutex_of_free .producer _ (producerPort_of_producer hctx) hfree]
  exact congrArg (fun x => Host.Outcome.next (respond .ok none (openLine line x))) (setLock_free_of_free s hfree)

/-- Settles O12: what LINE_BEGIN writes is `openLine` and the answer. -/
theorem lineBeginOpensLine : Obligations.LineBeginOpensLine := execLineBegin_opens

theorem lineNotOpen_iff (line : BitVec 9) (s : State) :
    lineNotOpen line s = true ↔ s.prodOpen = false ∨ s.prodLine ≠ lineField line := by
  simp [lineNotOpen]

theorem lineNotOpen_setLock (line : BitVec 9) (who : LockOwner) (s : State) :
    lineNotOpen line (setLock who s) = lineNotOpen line s := rfl

theorem execLineEnd_closes (s : State) (line : BitVec 9) (hctx : s.port.ctx = .producer) (hfree : s.fx.lock = .free)
    (hline : line.toNat < 240) (hopen : lineNotOpen line s = false) :
    execLineEnd line s = .next (respond .ok none (closeLine line s)) := by
  rw [execLineEnd, if_pos ((lineLegal_iff line).2 hline),
    serve_underMutex_of_free .producer _ (producerPort_of_producer hctx) hfree, lineNotOpen_setLock,
    if_neg (Bool.eq_false_iff.1 hopen), setLock_respond, closeLine_underLock line s hfree]

/-- The payload's byte for each column of the row (30_encoding.md R97). -/
theorem linePayload_getElem? (s : State) (x : Nat) (hx : x < 320) : (linePayload s)[x]? = some (payloadByte s 0 x) := by
  simp [linePayload, fbWidth, hx]

theorem fbByte_respond (o : OutcomeCode) (r : Option Word) (s : State) (a : Nat) :
    fbByte (respond o r s) a = fbByte s a := rfl

/-- LINE_END's row holds the payload (44_frame_exchange.md R231). -/
theorem fbByte_closeLine_row (line : BitVec 9) (s : State) (x : Nat) (hx : x < 320) :
    fbByte (closeLine line s) (fbAddr s.fx.wt line.toNat x) = payloadByte s 0 x := by
  have hread : (closeLine line s).fb.read? (fbAddr s.fx.wt line.toNat x) = some (payloadByte s 0 x) := by
    rw [closeLine_fb, fbAddr_row _ _ x, Memory.read?_writeList_inside _ _ _ _ (by simpa [linePayload, fbWidth] using hx),
      linePayload_getElem? s x hx]
  rw [fbByte, hread]
  rfl

/-- LINE_END writes no byte outside its row (44_frame_exchange.md R231). -/
theorem fbByte_closeLine_outside (line : BitVec 9) (s : State) (a : Nat)
    (ha : ∀ x, x < 320 → a ≠ fbAddr s.fx.wt line.toNat x) : fbByte (closeLine line s) a = fbByte s a := by
  have hrow : a < fbAddr s.fx.wt line.toNat 0 ∨ fbAddr s.fx.wt line.toNat 0 + (linePayload s).length ≤ a := by
    by_contra! hinside
    obtain ⟨hlow, hhigh⟩ := hinside
    simp only [linePayload, List.length_map, List.length_range, fbWidth] at hhigh
    refine ha (a - fbAddr s.fx.wt line.toNat 0) (by omega) ?_
    rw [fbAddr_row]
    omega
  rw [fbByte, closeLine_fb, Memory.read?_writeList_outside _ _ _ _ hrow, closeLine_epoch, fbByte]

/-- A delivered byte of the first payload row (30_encoding.md R97). -/
theorem payloadByte_of_delivered {s : State} {data : List Byte} (h : s.port.payload = [data]) (x : Nat)
    (hx : x < data.length) : payloadByte s 0 x = data.getD x 0 := by
  simp [payloadByte, h, List.getD_eq_getElem?_getD, hx]

theorem raceOfRow_of_idle (s : State) (b : BufId) (y : Nat) (h : s.fx.rendering b = false) : raceOfRow s b y = [] := by
  simp [raceOfRow, h]

/-- Settles O13: what LINE_END of the open line writes is `closeLine` and the answer. -/
theorem lineEndStoresRow : Obligations.LineEndStoresRow := by
  intro s line hctx hfree hline hopen hopenLine
  have hexec := execLineEnd_closes s line hctx hfree hline (by simp [lineNotOpen, hopen, hopenLine, lineField])
  refine ⟨_, hexec, fun x hx => ?_, fun data hdata hlength x hx => ?_, fun a ha => ?_, fun hidle => ?_, ?_, ?_, ?_⟩
  · rw [fbByte_respond, fbByte_closeLine_row line s x hx]
  · rw [fbByte_respond, fbByte_closeLine_row line s x hx, payloadByte_of_delivered hdata x (by omega)]
  · rw [fbByte_respond, fbByte_closeLine_outside line s a ha]
  · rw [respond_race, closeLine_race, raceOfRow_of_idle s _ _ hidle, List.append_nil]
  · rw [respond_prodOpen, closeLine_prodOpen]
  · simp [respond]
  · simp [respond, closeLine, writeRow]

/-! Rejected requests. -/

/-- A line of 240 and more is no legal operand (44_frame_exchange.md R230, R231; log 25). -/
theorem lineLegal_of_past {line : BitVec 9} (h : 240 ≤ line.toNat) : lineLegal line ≠ true :=
  fun hlegal => by have := (lineLegal_iff line).1 hlegal; omega

theorem execLineBegin_rejects (s : State) (line : BitVec 9) (hctx : s.port.ctx = .producer) (hline : 240 ≤ line.toNat) :
    execLineBegin line s = .next (badRequest s) :=
  serve_of_ok (producerPort_of_producer hctx) (if_neg (lineLegal_of_past hline))

theorem execLineEnd_rejects_past (s : State) (line : BitVec 9) (hctx : s.port.ctx = .producer)
    (hline : 240 ≤ line.toNat) : execLineEnd line s = .next (badRequest s) :=
  serve_of_ok (producerPort_of_producer hctx) (if_neg (lineLegal_of_past hline))

theorem execLineEnd_rejects_closed (s : State) (line : BitVec 9) (hctx : s.port.ctx = .producer)
    (hfree : s.fx.lock = .free) (hclosed : lineNotOpen line s = true) :
    execLineEnd line s = .next (badRequest s) := by
  by_cases hline : line.toNat < 240
  · rw [execLineEnd, if_pos ((lineLegal_iff line).2 hline),
      serve_underMutex_of_free .producer _ (producerPort_of_producer hctx) hfree, lineNotOpen_setLock, if_pos hclosed]
    exact congrArg (fun x => Host.Outcome.next (badRequest x)) (setLock_free_of_free s hfree)
  · exact execLineEnd_rejects_past s line hctx (by omega)

theorem execStart_rejects (s : State) (hctx : s.port.ctx = .consumerThread) (hrun : s.run = true) :
    execStart s = .next (badRequest s) :=
  serve_of_ok (consumerPort_of_thread hctx) (if_pos hrun)

/-- Settles O14: each rejection is `badRequest` of the state. -/
theorem rejectedRequestsChangeNothing : Obligations.RejectedRequestsChangeNothing := by
  rintro s i (⟨hctx, line, hline, rfl | rfl⟩ | ⟨hctx, hfree, line, hclosed, rfl⟩ | ⟨hctx, hrun, rfl⟩)
  · exact execLineBegin_rejects s line hctx hline
  · exact execLineEnd_rejects_past s line hctx hline
  · exact execLineEnd_rejects_closed s line hctx hfree ((lineNotOpen_iff line s).2 hclosed)
  · exact execStart_rejects s hctx hrun

/-! PUBLISH and FRAME_COMPLETE. -/

theorem execPublish_accepts (s : State) (buf : BufId) (hctx : s.port.ctx = .producer) (hfree : s.fx.lock = .free)
    (hidle : s.fx.rendering (otherBuf buf) = false) :
    execPublish buf s = .next (respond .ok none { s with fx := publishFlags buf s.fx }) := by
  have hact := (publishAct_ok buf (setLock .producer s) _).2 (.inr ⟨by simpa [setLock] using hidle, rfl⟩)
  rw [execPublish, serve_underMutex_of_ok (producerPort_of_producer hctx) hfree hact, setLock_respond,
    publishFlags_underLock buf s hfree]

theorem execPublish_drops (s : State) (buf : BufId) (hctx : s.port.ctx = .producer) (hfree : s.fx.lock = .free)
    (hbusy : s.fx.rendering (otherBuf buf) = true) (hpolicy : s.cfg.publishBusyPolicy = .drop) :
    execPublish buf s = .next (respond .dropped none s) := by
  have hact := (publishAct_ok buf (setLock .producer s) _).2 (.inl ⟨by simpa [setLock] using hbusy, hpolicy, rfl⟩)
  rw [execPublish, serve_underMutex_of_ok (producerPort_of_producer hctx) hfree hact, setLock_respond, setLock_setLock,
    setLock_free_of_free s hfree]

/-- HOLD is not specified (93_implementation_defined.md U15). -/
theorem execPublish_refuses (s : State) (buf : BufId) (hctx : s.port.ctx = .producer) (hfree : s.fx.lock = .free)
    (hbusy : s.fx.rendering (otherBuf buf) = true) (hpolicy : s.cfg.publishBusyPolicy = .hold) :
    execPublish buf s = .refused .holdPolicy := by
  have hact : publishAct buf (setLock .producer s) = .error (.refuse .holdPolicy) := by
    rw [publishAct, if_pos (by simpa [setLock] using hbusy), setLock_cfg, hpolicy]
  rw [execPublish, serve_allowed _ s _ (producerPort_of_producer hctx), underMutex, if_pos hfree, hact]
  rfl

/-- Settles O15: the bits are `publishFlags`, which leaves RENDERING and the mutex. -/
theorem acceptedPublishHandsFrameOver : Obligations.AcceptedPublishHandsFrameOver := by
  intro s buf hctx hfree hidle
  have hexec := execPublish_accepts s buf hctx hfree hidle
  refine ⟨_, hexec, ?_, publishFlags_ready buf s.fx, publishFlags_ready_other buf s.fx, publishFlags_wt buf s.fx,
    publishFlags_rendering buf .b0 s.fx, publishFlags_rendering buf .b1 s.fx, (publishFlags_lock buf s.fx).trans hfree,
    rfl, rfl⟩
  rintro rfl
  exact hexec

/-- Settles O16: the policy decides, and only while the other buffer is rendering. -/
theorem publishOfBusyBufferIsDropped : Obligations.PublishOfBusyBufferIsDropped := fun s buf hctx hfree hbusy =>
  ⟨execPublish_drops s buf hctx hfree hbusy, execPublish_refuses s buf hctx hfree hbusy⟩

/-- Settles O17: FRAME_COMPLETE passes PUBLISH the WT that taking the mutex leaves. -/
theorem frameCompleteIsPublishOfWriteTarget : Obligations.FrameCompleteIsPublishOfWriteTarget := by
  exact ⟨by decide, fun _ => rfl, _, execPublish_accepts (present .producer [] State.reset) .b1 rfl rfl rfl, by decide⟩

/-- The published buffer is the one ACQUIRE looks at first, and the other one is not ready (44_frame_exchange.md R241). -/
theorem acquirePick_publishFlags (b : BufId) (f : FrameExchange) :
    acquirePick (publishFlags b f) = if f.rendering b = true then none else some b := by
  unfold acquirePick
  rw [publishFlags_wt, otherBuf_otherBuf, publishFlags_ready, publishFlags_ready_other, publishFlags_rendering]
  cases f.rendering b <;> rfl

/-- Settles O20: an accepted PUBLISH leaves `publishFlags`. -/
theorem acquireFindsLatestPublish : Obligations.AcquireFindsLatestPublish := by
  intro s t b hctx hfree hidle h
  cases (execPublish_accepts s b hctx hfree hidle).symm.trans h
  exact acquirePick_publishFlags b s.fx

/-! ACQUIRE and RELEASE. -/

theorem ready_setRendering (f : FrameExchange) (b c : BufId) (x : Bool) : (f.setRendering b x).ready c = f.ready c := by
  cases c <;> simp

theorem execAcquire_completes (s : State) (hctx : s.port.ctx = .consumerThread) (hstopped : s.run = false)
    (hfree : s.fx.lock = .free) :
    execAcquire s = .next (respond (acquireOutcome (acquirePick s.fx)) (some (acquireRsp (acquirePick s.fx)))
      (markRendering (acquirePick s.fx) s)) := by
  refine serve_of_ok (consumerPort_of_thread hctx) ?_
  rw [whileStopped_of_stopped s _ hstopped, (acquireFrame_ok s _ _).2 ⟨hfree, rfl, rfl⟩,
    markRendering_underLock _ s hfree]
  rfl

/-- Settles O18: ACQUIRE marks and returns `acquirePick`. -/
theorem acquireReturnsReadyBuffer : Obligations.AcquireReturnsReadyBuffer := by
  intro s hctx hstopped hfree
  have hexec := execAcquire_completes s hctx hstopped hfree
  constructor
  · intro b hready hidle hfirst
    rw [acquirePick_of_ready s.fx b hready hidle hfirst] at hexec
    refine ⟨_, hexec, ?_⟩
    have hrsp : acquireRsp (some b) = if b = .b1 then 0x80000001 else 0x80000000 := by cases b <;> rfl
    rw [hrsp]
    exact ⟨rendering_setRendering_same s.fx b true, rendering_setRendering_other s.fx b true,
      setRendering_ready0 s.fx b true, setRendering_ready1 s.fx b true, setRendering_wt s.fx b true,
      (setRendering_lock s.fx b true).trans hfree, rfl, rfl⟩
  · intro hnone
    rw [(acquirePick_none s.fx).2 hnone] at hexec
    exact hexec

theorem execRelease_completes (s : State) (buf : BufId) (hctx : s.port.ctx = .consumerThread)
    (hstopped : s.run = false) (hfree : s.fx.lock = .free) :
    execRelease buf s = .next (respond .ok none (clearRendering buf s)) := by
  refine serve_of_ok (consumerPort_of_thread hctx) ?_
  rw [whileStopped_of_stopped s _ hstopped, (releaseFrame_ok buf s _).2 ⟨hfree, rfl⟩, clearRendering_underLock buf s hfree]
  rfl

/-- The race on a buffer ends with its RELEASE, and only that one (20_memory.md R72; log 13). -/
theorem racedBytes_clearRendering (b : BufId) (s : State) (a : Nat) :
    racedBytes (clearRendering b s) a = if a / fbBytes = bufNum b then [] else racedBytes s a := by
  simp only [racedBytes, clearRendering_race, dropRace, List.filter_filter]
  split
  next hin =>
    rw [List.map_eq_nil_iff, List.filter_eq_nil_iff]
    rintro cell _ hcell
    simp only [Bool.and_eq_true, beq_iff_eq, bne_iff_ne] at hcell
    obtain ⟨rfl, hout⟩ := hcell
    exact hout hin
  next hout =>
    congr 1
    refine List.filter_congr fun cell _ => ?_
    by_cases hcell : cell.1 = a
    · simp [hcell, hout]
    · simp [hcell]

/-- Settles O19: what RELEASE writes is `clearRendering` and the answer. -/
theorem releaseClearsRendering : Obligations.ReleaseClearsRendering := by
  intro s buf hctx hstopped hfree
  refine ⟨_, execRelease_completes s buf hctx hstopped hfree, rendering_setRendering_same s.fx buf false,
    rendering_setRendering_other s.fx buf false, setRendering_ready0 s.fx buf false, setRendering_ready1 s.fx buf false,
    setRendering_wt s.fx buf false, (setRendering_lock s.fx buf false).trans hfree, fun y x hy hx => ⟨?_, ?_⟩, rfl, rfl⟩
  · exact (racedBytes_clearRendering buf s _).trans (if_pos (bufNum_of_fbAddr buf y x hy hx))
  · refine (racedBytes_clearRendering buf s _).trans (if_neg ?_)
    rw [bufNum_of_fbAddr _ y x hy hx]
    exact bufNum_otherBuf_ne buf

end Sys2Proof.Machine
end

section
/-! The invariants of the FrameExchange bits (10_state.md R22, 44_frame_exchange.md R237, R240). -/

namespace Sys2Proof.Machine

/-- What one update can do to the bits: an accepted PUBLISH, the marking of ACQUIRE, the clearing of RELEASE. -/
inductive ExchangeMove : FrameExchange → FrameExchange → Prop
  | keep (f : FrameExchange) : ExchangeMove f f
  | publish (c : BufId) (f : FrameExchange) : f.rendering (otherBuf c) = false → ExchangeMove f (publishFlags c f)
  | acquire (b : BufId) (f : FrameExchange) : acquirePick f = some b → ExchangeMove f (f.setRendering b true)
  | release (b : BufId) (f : FrameExchange) : ExchangeMove f (f.setRendering b false)

/-- Marking the buffer that ACQUIRE picks moves the bits, or keeps them where there is none. -/
theorem markRendering_move (s : State) : ExchangeMove s.fx (markRendering (acquirePick s.fx) s).fx := by
  cases hpick : acquirePick s.fx with
  | none => exact .keep s.fx
  | some b => exact .acquire b s.fx hpick

theorem update_move {s t : State} (h : Update s t) : ExchangeMove s.fx t.fx := by
  cases h with
  | publish c _ hidle => exact .publish c s.fx hidle
  | acquire => exact markRendering_move s
  | release b => exact .release b s.fx
  | startFrame =>
    rw [displayPick_fx]
    exact markRendering_move { s with scaleActive := s.scalePending }
  | _ => simpa using ExchangeMove.keep s.fx

theorem popEffect_fx {s t : State} (h : PopEffect s t) : t.fx = s.fx := by
  cases h <;> simp

theorem serPopTurn_fx (s t : State) (h : serPopTurn s = .next t) : t.fx = s.fx := by
  rcases serPopTurn_effect s t h with ⟨_, rfl⟩ | ⟨w, rest, _, heffect⟩
  · rfl
  · exact popEffect_fx (s := { s with fifo := rest }) heffect

/-- What every move of the bits keeps and the reset bits have, every step keeps. -/
theorem step_keeps_exchange {P : FrameExchange → Prop} (hmove : ∀ f g, ExchangeMove f g → P f → P g)
    (hreset : P (fxState false false false false .b1)) (s t : State) (h : step s = .next t) (hs : P s.fx) : P t.fx := by
  rcases step_cases s t h with ⟨_, _, turns, hupdates⟩ | ⟨_, hpop⟩ | ⟨_, rfl⟩
  · exact hupdates.keeps (P := fun u => P u.fx) (fun u v hu => hmove u.fx v.fx (update_move hu)) hs
  · rw [serPopTurn_fx _ t hpop]; exact hs
  · exact hreset

/-- (I-a) to (I-e) by the write target: it is neither rendering nor ready, and the other buffer renders only what is ready. -/
theorem fxInv_iff (f : FrameExchange) :
    FxInv f ↔ f.rendering f.wt = false ∧ f.ready f.wt = false ∧
      (f.rendering (otherBuf f.wt) = true → f.ready (otherBuf f.wt) = true) := by
  cases hwt : f.wt with
  | b0 => simp only [FxInv, hwt, rendering_b0, ready_b0, otherBuf_b0, rendering_b1, ready_b1]; grind
  | b1 => simp only [FxInv, hwt, rendering_b0, ready_b0, otherBuf_b1, rendering_b1, ready_b1]; grind

theorem publishFlags_fxInv (c : BufId) (f : FrameExchange) (hidle : f.rendering (otherBuf c) = false) :
    FxInv (publishFlags c f) := by
  rw [fxInv_iff, publishFlags_wt, otherBuf_otherBuf]
  exact ⟨(publishFlags_rendering c _ f).trans hidle, publishFlags_ready_other c f, fun _ => publishFlags_ready c f⟩

/-- ACQUIRE never picks the write target, which is not ready. -/
theorem acquirePick_of_fxInv {f : FrameExchange} {b : BufId} (hf : FxInv f) (h : acquirePick f = some b) :
    b = otherBuf f.wt := by
  obtain ⟨_, hwt, _⟩ := (fxInv_iff f).1 hf
  obtain ⟨hready, _⟩ := acquirePick_some f b h
  refine (eq_or_eq_otherBuf f.wt b).resolve_left ?_
  rintro rfl
  simp [hwt] at hready

theorem acquire_fxInv (b : BufId) (f : FrameExchange) (hf : FxInv f) (h : acquirePick f = some b) :
    FxInv (f.setRendering b true) := by
  obtain ⟨hready, _⟩ := acquirePick_some f b h
  obtain rfl := acquirePick_of_fxInv hf h
  obtain ⟨hidle, hwt, _⟩ := (fxInv_iff f).1 hf
  rw [fxInv_iff, setRendering_wt, ready_setRendering, ready_setRendering]
  refine ⟨?_, hwt, fun _ => hready⟩
  have hother := rendering_setRendering_other f (otherBuf f.wt) true
  rw [otherBuf_otherBuf] at hother
  exact hother.trans hidle

/-- RELEASE sets no RENDERING bit. -/
theorem rendering_of_release (f : FrameExchange) (b c : BufId) (h : (f.setRendering b false).rendering c = true) :
    f.rendering c = true := by
  rcases eq_or_eq_otherBuf b c with rfl | rfl
  · simp at h
  · simpa using h

theorem release_fxInv (b : BufId) (f : FrameExchange) (hf : FxInv f) : FxInv (f.setRendering b false) := by
  obtain ⟨hidle, hwt, hother⟩ := (fxInv_iff f).1 hf
  rw [fxInv_iff, setRendering_wt, ready_setRendering, ready_setRendering]
  have hstill : (f.setRendering b false).rendering f.wt = false :=
    Bool.eq_false_iff.2 fun h => Bool.eq_false_iff.1 hidle (rendering_of_release f b _ h)
  exact ⟨hstill, hwt, fun h => hother (rendering_of_release f b _ h)⟩

theorem move_fxInv {f g : FrameExchange} (h : ExchangeMove f g) (hf : FxInv f) : FxInv g := by
  cases h with
  | keep => exact hf
  | publish c _ hidle => exact publishFlags_fxInv c f hidle
  | acquire b _ hpick => exact acquire_fxInv b f hf hpick
  | release b => exact release_fxInv b f hf

theorem move_lock {f g : FrameExchange} (h : ExchangeMove f g) : g.lock = f.lock := by
  cases h with
  | keep => rfl
  | publish c => exact publishFlags_lock c f
  | acquire b => exact setRendering_lock f b true
  | release b => exact setRendering_lock f b false

/-! The five states, move by move (44_frame_exchange.md R237). -/

theorem publish_fxFive (c : BufId) :
    ∀ f ∈ fxFive, f.rendering (otherBuf c) = false → publishFlags c f ∈ fxFive := by cases c <;> decide

theorem acquire_fxFive (b : BufId) : ∀ f ∈ fxFive, acquirePick f = some b → f.setRendering b true ∈ fxFive := by
  cases b <;> decide

theorem release_fxFive (b : BufId) : ∀ f ∈ fxFive, f.setRendering b false ∈ fxFive := by cases b <;> decide

theorem move_fxFive {f g : FrameExchange} (h : ExchangeMove f g) (hf : f ∈ fxFive) : g ∈ fxFive := by
  cases h with
  | keep => exact hf
  | publish c _ hidle => exact publish_fxFive c f hf hidle
  | acquire b _ hpick => exact acquire_fxFive b f hf hpick
  | release b => exact release_fxFive b f hf

/-- Settles O21: a step moves the bits by PUBLISH, ACQUIRE and RELEASE alone, and each move keeps the invariants. -/
theorem stepKeepsFrameExchangeInvariants : Obligations.StepKeepsFrameExchangeInvariants := by
  refine fun s t hstep => ⟨fun hinv hfree => ⟨?_, ?_⟩, ?_⟩
  · exact step_keeps_exchange (fun _ _ => move_fxInv) (by decide) s t hstep hinv
  · exact step_keeps_exchange (P := fun f => f.lock = .free) (fun _ _ hm hf => (move_lock hm).trans hf) rfl s t hstep hfree
  · exact step_keeps_exchange (P := (· ∈ fxFive)) (fun _ _ => move_fxFive) (by decide) s t hstep

end Sys2Proof.Machine
end

section
/-! Which steps write the framebuffers (44_frame_exchange.md R231, R240, R244). -/

namespace Sys2Proof.Machine

/-- The framebuffers, and the number of resets that a byte never written reads by, are the same in two states. -/
def SameFramebuffers (s t : State) : Prop := t.fb = s.fb ∧ t.epoch = s.epoch

theorem fbByte_of_sameFramebuffers {s t : State} (h : SameFramebuffers s t) (a : Nat) : fbByte t a = fbByte s a := by
  obtain ⟨hfb, hepoch⟩ := h
  rw [fbByte, fbByte, hfb, hepoch]

theorem post_sameFramebuffers {ch : Slot} {s t : State} (h : post ch s = .ok t) : SameFramebuffers s t := by
  obtain ⟨_, _, _, _, _, _, _, hfb, _, _, _, _, _, _, _, _, _, _, _, hepoch⟩ :=
    onlyPosted_registers (post_onlyPosted ch s t h)
  exact ⟨hfb, hepoch⟩

theorem execStart_sameFramebuffers (s t : State) (h : execStart s = .next t) : SameFramebuffers s t := by
  obtain ⟨_, ⟨_, rfl⟩ | ⟨_, a, b, c, ha, hb, hc, rfl⟩ | ⟨_, rfl⟩⟩ := execStart_next s t h
  · exact ⟨rfl, rfl⟩
  · obtain ⟨hafb, haepoch⟩ := post_sameFramebuffers ha
    obtain ⟨hbfb, hbepoch⟩ := post_sameFramebuffers hb
    rcases (dmaTrigger_ok .ping b c).1 hc with ⟨_, rfl⟩ | ⟨_, _, rfl⟩
    · exact ⟨hbfb.trans hafb, hbepoch.trans haepoch⟩
    · exact ⟨hbfb.trans hafb, hbepoch.trans haepoch⟩
  · exact ⟨rfl, rfl⟩

theorem execPublish_sameFramebuffers (c : BufId) (s t : State) (h : execPublish c s = .next t) :
    SameFramebuffers s t := by
  obtain ⟨_, ⟨_, _, _, rfl⟩ | ⟨_, _, rfl⟩ | ⟨_, rfl⟩⟩ := execPublish_next c s t h
  · exact ⟨rfl, rfl⟩
  · exact ⟨rfl, rfl⟩
  · exact ⟨rfl, rfl⟩

/-- No request but LINE_END writes a framebuffer (44_frame_exchange.md R244). -/
theorem exec_request_sameFramebuffers (w : Word) (i : Instr) (s t : State) (hdecode : decodeReq w = .ok i)
    (hline : ∀ line, i ≠ .lineEnd line) (h : exec i s = .next t) : SameFramebuffers s t := by
  rcases decodeReq_ok w i hdecode with ⟨line, _, rfl | rfl⟩ | ⟨b, rfl⟩ | rfl | rfl | ⟨n, rfl⟩ | ⟨mode, rfl⟩ | rfl |
    ⟨b, rfl⟩ | rfl | rfl
  · obtain ⟨_, ⟨_, rfl⟩ | ⟨_, _, rfl⟩ | ⟨_, rfl⟩⟩ := execLineBegin_next line s t h <;> exact ⟨rfl, rfl⟩
  · exact absurd rfl (hline line)
  · exact execPublish_sameFramebuffers b s t h
  · exact execPublish_sameFramebuffers s.fx.wt s t h
  · obtain ⟨_, h⟩ := (serve_next _ _ _ _).1 h
    cases h; exact ⟨rfl, rfl⟩
  · obtain ⟨_, h⟩ := (serve_next _ _ _ _).1 h
    cases h; exact ⟨rfl, rfl⟩
  · obtain ⟨_, h⟩ := (serve_next _ _ _ _).1 h
    cases h; exact ⟨rfl, rfl⟩
  · obtain ⟨_, _, ⟨_, rfl⟩ | rfl⟩ := execAcquire_next s t h <;> simp [SameFramebuffers]
  · obtain ⟨_, _, ⟨_, rfl⟩ | rfl⟩ := execRelease_next b s t h <;> exact ⟨rfl, rfl⟩
  · obtain ⟨_, _, rfl⟩ := execAudDeq_next s t h
    simp [SameFramebuffers]
  · exact execStart_sameFramebuffers s t h

/-- LINE_END writes the write target alone (44_frame_exchange.md R231). -/
theorem execLineEnd_otherBuffer (line : BitVec 9) (s t : State) (h : execLineEnd line s = .next t) (y x : Nat)
    (hy : y < 240) (hx : x < 320) :
    fbByte t (fbAddr (otherBuf s.fx.wt) y x) = fbByte s (fbAddr (otherBuf s.fx.wt) y x) := by
  obtain ⟨_, ⟨_, rfl⟩ | ⟨hline, _, _, rfl⟩ | ⟨_, rfl⟩⟩ := execLineEnd_next line s t h
  · rfl
  · rw [fbByte_respond]
    refine fbByte_closeLine_outside line s _ fun x' hx' hsame => bufNum_otherBuf_ne s.fx.wt ?_
    rw [← bufNum_of_fbAddr _ y x hy hx, hsame, bufNum_of_fbAddr _ line.toNat x' hline hx']
  · rfl

/-- What a turn leaves of the framebuffers: of the one that is not the write target every byte, and but for a request that is
LINE_END every byte of both. -/
def OnlyLineEndWrites (turn : Turn) (s t : State) : Prop :=
  SameFramebuffers s t ∨
    ((∃ ctx w pl line, turn = .request ctx w pl ∧ decodeReq w = .ok (.lineEnd line)) ∧
      ∀ y x, y < 240 → x < 320 →
        fbByte t (fbAddr (otherBuf s.fx.wt) y x) = fbByte s (fbAddr (otherBuf s.fx.wt) y x))

theorem requestTurn_framebuffers (ctx : Context) (w : Word) (pl : List (List Byte)) (s t : State)
    (h : requestTurn ctx w pl s = .next t) : OnlyLineEndWrites (.request ctx w pl) s t := by
  rcases requestTurn_next ctx w pl s t h with ⟨i, u, hdecode, hexec, rfl⟩ | ⟨_, _, rfl⟩
  · by_cases hline : ∃ line, i = .lineEnd line
    · obtain ⟨line, rfl⟩ := hline
      have hother := execLineEnd_otherBuffer line (present ctx pl s) u hexec
      refine .inr ⟨⟨ctx, w, pl, line, rfl, hdecode⟩, ?_⟩
      split <;> exact hother
    · have hu := exec_request_sameFramebuffers w i (present ctx pl s) u hdecode (fun line hi => hline ⟨line, hi⟩) hexec
      refine .inl ?_
      split <;> exact hu
  · exact .inl ⟨rfl, rfl⟩

theorem popEffect_sameFramebuffers {s t : State} (h : PopEffect s t) : SameFramebuffers s t := by
  cases h <;> simp [SameFramebuffers]

theorem serPopTurn_sameFramebuffers (s t : State) (h : serPopTurn s = .next t) : SameFramebuffers s t := by
  rcases serPopTurn_effect s t h with ⟨_, rfl⟩ | ⟨w, rest, _, heffect⟩
  · exact ⟨rfl, rfl⟩
  · exact popEffect_sameFramebuffers (s := { s with fifo := rest }) heffect

theorem dmaXfer_sameFramebuffers (ch : Slot) (s t : State) (h : dmaXfer ch s = .ok t) : SameFramebuffers s t := by
  obtain ⟨w, _, rfl⟩ := (dmaXfer_ok ch s t).1 h
  simp [SameFramebuffers]

theorem dmaComplete_sameFramebuffers (ch : Slot) (s t : State) (h : dmaComplete ch s = .ok t) :
    SameFramebuffers s t := by
  rcases (dmaComplete_ok ch s t).1 h with ⟨_, rfl⟩ | ⟨_, _, rfl⟩ <;> simp [SameFramebuffers]

theorem handler_sameFramebuffers (s t : State) (h : handler s = .ok t) : SameFramebuffers s t := by
  simpa [SameFramebuffers] using post_sameFramebuffers h

theorem audIsr_sameFramebuffers (s t : State) (h : audIsr s = .ok t) : SameFramebuffers s t := by
  obtain ⟨u, hu, ht⟩ := (bind_ok _ _ _).1 h
  obtain ⟨_, rfl⟩ := (dequeue_ok _ _ _).1 hu
  cases ht
  simp [SameFramebuffers]

/-- A step that waits or passes leaves the framebuffers. -/
theorem whenEnabled_sameFramebuffers (enabled : Bool) (s t : State) (a : Attempt State)
    (ha : ∀ u, a = .ok u → SameFramebuffers s u) (h : whenEnabled enabled s a = .next t) : SameFramebuffers s t := by
  rcases (whenEnabled_next _ _ _ _).1 h with ⟨_, h⟩ | ⟨_, rfl⟩
  · rcases (finish_next _ _ _).1 h with h | ⟨_, rfl⟩
    · exact ha t h
    · exact ⟨rfl, rfl⟩
  · exact ⟨rfl, rfl⟩

theorem takeTurn_framebuffers (turn : Turn) (s t : State) (hreset : turn ≠ .reset) (h : takeTurn turn s = .next t) :
    OnlyLineEndWrites turn s t := by
  cases turn with
  | request ctx w pl => exact requestTurn_framebuffers ctx w pl s t h
  | dmaXfer ch => exact .inl (whenEnabled_sameFramebuffers _ s t _ (dmaXfer_sameFramebuffers ch s) h)
  | dmaComplete ch => exact .inl (whenEnabled_sameFramebuffers _ s t _ (dmaComplete_sameFramebuffers ch s) h)
  | handler => exact .inl (whenEnabled_sameFramebuffers _ s t _ (handler_sameFramebuffers s) h)
  | serPop => exact .inl (serPopTurn_sameFramebuffers s t h)
  | audTick => cases h; exact .inl (by simp [SameFramebuffers])
  | audIsr => exact .inl (whenEnabled_sameFramebuffers _ s t _ (audIsr_sameFramebuffers s) h)
  | reset => exact absurd rfl hreset

/-- Settles O23: an idle step writes nothing, and of the turns only LINE_END's writes a framebuffer, the write target. -/
theorem framebufferChangesOnlyByLineEnd : Obligations.FramebufferChangesOnlyByLineEnd := by
  intro s t hreset hstep
  obtain ⟨_, ⟨_, rfl⟩ | ⟨turn, hturn, ht⟩⟩ := (step_next s t).1 hstep
  · exact ⟨fun _ _ _ _ => rfl, fun _ _ => rfl⟩
  · rw [hturn] at hreset ⊢
    have hturnReset : turn ≠ .reset := fun h => hreset (congrArg some h)
    rcases takeTurn_framebuffers turn _ t hturnReset ht with hsame | ⟨⟨ctx, w, pl, line, rfl, hdecode⟩, hother⟩
    · exact ⟨fun y x _ _ => fbByte_of_sameFramebuffers hsame _, fun _ => fbByte_of_sameFramebuffers hsame⟩
    · exact ⟨hother, fun hnone => absurd hdecode (hnone ctx w pl line rfl)⟩

/-! Racing writes. -/

/-- No update records a racing write: LINE_END writes the write target, which is not rendering (44_frame_exchange.md R240). -/
theorem update_noRace (s t : State) (h : Update s t) (hs : FxInv s.fx ∧ s.race = []) : FxInv t.fx ∧ t.race = [] := by
  obtain ⟨hinv, hrace⟩ := hs
  refine ⟨move_fxInv (update_move h) hinv, ?_⟩
  cases h with
  | closeLine line =>
    obtain ⟨hidle, _, _⟩ := (fxInv_iff s.fx).1 hinv
    rw [closeLine_race, hrace, raceOfRow_of_idle s _ _ hidle, List.nil_append]
  | release b => rw [clearRendering_race, hrace]; rfl
  | _ => simpa using hrace

theorem serPopTurn_race (s t : State) (h : serPopTurn s = .next t) : t.race = s.race := by
  rcases serPopTurn_effect s t h with ⟨_, rfl⟩ | ⟨w, rest, _, heffect⟩
  · rfl
  · cases heffect <;> simp

theorem step_noRace (s t : State) (hinv : FxInv s.fx) (hstep : step s = .next t) (hrace : s.race = []) :
    t.race = [] := by
  rcases step_cases s t hstep with ⟨_, _, turns, hupdates⟩ | ⟨_, hpop⟩ | ⟨_, rfl⟩
  · exact (hupdates.keeps update_noRace ⟨hinv, hrace⟩).2
  · exact (serPopTurn_race _ t hpop).trans hrace
  · rfl

/-- Settles O22: a buffer that is rendering is not the write target. -/
theorem renderedBufferIsNeverWritten : Obligations.RenderedBufferIsNeverWritten := by
  refine fun s t hinv hstep => ⟨fun hreset b y x hy hx hrendering => ?_, step_noRace s t hinv hstep⟩
  obtain ⟨hidle, _, _⟩ := (fxInv_iff s.fx).1 hinv
  have hother : b ≠ s.fx.wt := by rintro rfl; simp [hidle] at hrendering
  obtain rfl := (eq_or_eq_otherBuf s.fx.wt b).resolve_left hother
  exact (framebufferChangesOnlyByLineEnd s t hreset hstep).1 y x hy hx

end Sys2Proof.Machine
end

section
/-! The ring of frames: how full it is, what AUD_ENQ writes, and that no held slot is unwritten
(45_audio.md R250, R252, R253, R257). -/

namespace Sys2Proof.Machine

/-! How full the ring is. -/

theorem ringHeld_cast (s : State) (hcap : 0 < s.cfg.audioCap) :
    (ringHeld s : Int) = ((s.wr : Int) - s.rd) % s.cfg.audioCap :=
  Int.toNat_of_nonneg (Int.emod_nonneg _ (Int.natCast_pos.2 hcap).ne')

theorem ringFree_cast (s : State) (hcap : 0 < s.cfg.audioCap) :
    (ringFree s : Int) = ((s.rd : Int) - s.wr - 1) % s.cfg.audioCap :=
  Int.toNat_of_nonneg (Int.emod_nonneg _ (Int.natCast_pos.2 hcap).ne')

/-- One slot is neither held nor free (45_audio.md R250, R252). -/
theorem ringHeld_add_ringFree (s : State) (hcap : 0 < s.cfg.audioCap) :
    ringHeld s + ringFree s + 1 = s.cfg.audioCap := by
  have hlt : (ringHeld s : Int) < s.cfg.audioCap :=
    ringHeld_cast s hcap ▸ Int.emod_lt_of_pos _ (Int.natCast_pos.2 hcap)
  have hfree : (ringFree s : Int) = s.cfg.audioCap - 1 - ringHeld s := by
    calc (ringFree s : Int)
        = (-1 - (ringHeld s : Int)) % s.cfg.audioCap := by
          rw [ringFree_cast s hcap, ringHeld_cast s hcap, Int.sub_emod_emod]; congr 1; ring
      _ = (-1 - (ringHeld s : Int) + s.cfg.audioCap) % s.cfg.audioCap := (Int.add_emod_right _ _).symm
      _ = s.cfg.audioCap - 1 - ringHeld s := by rw [Int.emod_eq_of_lt (by omega) (by omega)]; ring
  omega

theorem enqueued_le_ringFree (count : BitVec 16) (s : State) : enqueued count s ≤ ringFree s := Nat.min_le_right _ _

theorem enqueued_le_audioCap (count : BitVec 16) (s : State) (hcap : 0 < s.cfg.audioCap) :
    enqueued count s ≤ s.cfg.audioCap := by
  have hfits := enqueued_le_ringFree count s
  have hroom := ringHeld_add_ringFree s hcap
  omega

/-- The slot behind the last held one is WR. -/
theorem slot_ringHeld (s : State) (hwr : s.wr < s.cfg.audioCap) (hrd : s.rd < s.cfg.audioCap) :
    (s.rd + ringHeld s) % s.cfg.audioCap = s.wr := by
  rw [ringHeld_eq s hwr hrd]
  split
  · rw [show s.rd + (s.wr - s.rd) = s.wr by omega, Nat.mod_eq_of_lt hwr]
  · rw [show s.rd + (s.wr + s.cfg.audioCap - s.rd) = s.wr + s.cfg.audioCap by omega, Nat.add_mod_right,
      Nat.mod_eq_of_lt hwr]

/-- AUD_ENQ adds as many frames as it keeps: they all fit, so WR never reaches RD. -/
theorem ringHeld_enqueueFrames (count : BitVec 16) (s : State) (hcap : 0 < s.cfg.audioCap) :
    ringHeld (enqueueFrames count s) = ringHeld s + enqueued count s := by
  have hroom := ringHeld_add_ringFree s hcap
  have hfits := enqueued_le_ringFree count s
  have hnew : (((enqueueFrames count s).wr : Int) - s.rd) % s.cfg.audioCap = ringHeld s + enqueued count s := by
    calc (((enqueueFrames count s).wr : Int) - s.rd) % s.cfg.audioCap
        = ((s.wr : Int) - s.rd + enqueued count s) % s.cfg.audioCap := by
          rw [enqueueFrames_wr, Int.natCast_emod, Int.emod_sub_emod, Nat.cast_add]; congr 1; ring
      _ = ((ringHeld s : Int) + enqueued count s) % s.cfg.audioCap := by rw [ringHeld_cast s hcap, Int.emod_add_emod]
      _ = ringHeld s + enqueued count s := Int.emod_eq_of_lt (by omega) (by omega)
  rw [ringHeld, enqueueFrames_rd, enqueueFrames_cfg, hnew]
  omega

/-! The frames AUD_ENQ writes. -/

/-- The slots of fewer than AUDIO_CAP frames in a row are different ones. -/
theorem slot_injective {start cap i j : Nat} (hi : i < cap) (hj : j < cap) (h : (start + i) % cap = (start + j) % cap) :
    i = j := Nat.ModEq.eq_of_lt_of_lt (Nat.ModEq.add_left_cancel' start h) hi hj

theorem ringWithFrames_outside (s : State) (n a : Nat) (h : ∀ i, i < n → a ≠ (s.wr + i) % s.cfg.audioCap) :
    Memory.read? (ringWithFrames s n) a = Memory.read? s.ring a := by
  induction n with
  | zero => rfl
  | succ n ih =>
    rw [ringWithFrames, Memory.read?_write_other _ _ (h n n.lt_succ_self), ih fun i hi => h i (by omega)]

theorem ringWithFrames_frame (s : State) (n i : Nat) (hn : n ≤ s.cfg.audioCap) (hi : i < n) :
    Memory.read? (ringWithFrames s n) ((s.wr + i) % s.cfg.audioCap) = some (mixedFrame s i) := by
  induction n with
  | zero => omega
  | succ n ih =>
    rw [ringWithFrames]
    rcases Nat.lt_succ_iff_lt_or_eq.1 hi with hlt | rfl
    · have hother : (s.wr + i) % s.cfg.audioCap ≠ (s.wr + n) % s.cfg.audioCap :=
        fun h => hlt.ne (slot_injective (by omega) (by omega) h)
      rw [Memory.read?_write_other _ _ hother, ih (by omega) hlt]
    · exact Memory.read?_write_same _ _ _

/-- A written slot stays written. -/
theorem ringWithFrames_keeps_written (s : State) (n a : Nat) (hn : n ≤ s.cfg.audioCap)
    (h : (Memory.read? s.ring a).isSome = true) : (Memory.read? (ringWithFrames s n) a).isSome = true := by
  by_cases hnew : ∃ i, i < n ∧ a = (s.wr + i) % s.cfg.audioCap
  · obtain ⟨i, hi, rfl⟩ := hnew
    rw [ringWithFrames_frame s n i hn hi]
    rfl
  · rw [ringWithFrames_outside s n a fun i hi ha => hnew ⟨i, hi, ha⟩]
    exact h

/-! The held slots are written. -/

/-- The registers of `RangeInv` are in range and every held slot of the ring has been written. -/
def RingSafe (s : State) : Prop := RangeInv s ∧ RingInv s

/-- The registers and the memory `RingSafe` speaks of are the same in two states. -/
def SameRingSide (s t : State) : Prop :=
  t.cfg = s.cfg ∧ t.v = s.v ∧ t.prodLine = s.prodLine ∧ t.ring = s.ring ∧ t.wr = s.wr ∧ t.rd = s.rd

theorem ringSafe_of_sameRingSide {s t : State} (h : SameRingSide s t) (hs : RingSafe s) : RingSafe t := by
  obtain ⟨hcfg, hv, hline, hring, hwr, hrd⟩ := h
  simpa only [RingSafe, RangeInv, RingInv, ringHeld, hcfg, hv, hline, hring, hwr, hrd] using hs

/-- AUD_ENQ writes every slot it adds to the held ones (45_audio.md R253). -/
theorem enqueueFrames_ringSafe (count : BitVec 16) (s : State) (hs : RingSafe s) :
    RingSafe (enqueueFrames count s) := by
  obtain ⟨⟨hv, hline, hwr, hrd⟩, hwritten⟩ := hs
  have hcap : 0 < s.cfg.audioCap := Nat.zero_lt_of_lt hwr
  have hfits : enqueued count s ≤ s.cfg.audioCap := enqueued_le_audioCap count s hcap
  refine ⟨⟨hv, hline, Nat.mod_lt _ hcap, hrd⟩, fun k hk => ?_⟩
  rw [ringHeld_enqueueFrames count s hcap] at hk
  simp only [enqueueFrames_ring, enqueueFrames_rd, enqueueFrames_cfg]
  rcases Nat.lt_or_ge k (ringHeld s) with hold | hnew
  · exact ringWithFrames_keeps_written s _ _ hfits (hwritten k hold)
  · have hslot : (s.rd + k) % s.cfg.audioCap = (s.wr + (k - ringHeld s)) % s.cfg.audioCap := by
      calc (s.rd + k) % s.cfg.audioCap
          = (s.rd + ringHeld s + (k - ringHeld s)) % s.cfg.audioCap := by congr 1; omega
        _ = ((s.rd + ringHeld s) % s.cfg.audioCap + (k - ringHeld s)) % s.cfg.audioCap := (Nat.mod_add_mod _ _ _).symm
        _ = (s.wr + (k - ringHeld s)) % s.cfg.audioCap := by rw [slot_ringHeld s hwr hrd]
    rw [hslot, ringWithFrames_frame s _ _ hfits (by omega)]
    rfl

/-- A dequeue gives up the first held slot and keeps the others (45_audio.md R255). -/
theorem takeFrame_ringSafe (s : State) (hs : RingSafe s) : RingSafe (takeFrame s) := by
  by_cases hempty : s.rd = s.wr
  · rw [takeFrame_of_empty s hempty]; exact hs
  · obtain ⟨⟨hv, hline, hwr, hrd⟩, hwritten⟩ := hs
    have hheld : ringHeld s = ringHeld (takeFrame s) + 1 := ringHeld_takeFrame s hwr hrd hempty
    have hnext : (takeFrame s).rd = (s.rd + 1) % s.cfg.audioCap := by rw [takeFrame_of_held s hempty]
    refine ⟨⟨by simpa using hv, by simpa using hline, by simpa using hwr, ?_⟩, fun k hk => ?_⟩
    · rw [hnext, takeFrame_cfg]; exact Nat.mod_lt _ (Nat.zero_lt_of_lt hrd)
    · rw [takeFrame_ring, takeFrame_cfg, hnext, Nat.mod_add_mod, Nat.add_right_comm, Nat.add_assoc]
      exact hwritten (k + 1) (by omega)

/-- AUD_ENQ and the dequeues move the cursors; the other updates leave the ring and its cursors. -/
theorem update_ringSafe (s t : State) (h : Update s t) (hs : RingSafe s) : RingSafe t := by
  have ⟨⟨hv, hline, hwr, hrd⟩, hwritten⟩ := hs
  cases h with
  | openLine line _ hlegal => exact ⟨⟨hv, lineField_lt line hlegal, hwr, hrd⟩, hwritten⟩
  | enqueue count => exact enqueueFrames_ringSafe count s hs
  | dequeue who => exact takeFrame_ringSafe { s with audOwner := some who } hs
  | start => exact ⟨⟨Nat.zero_lt_of_lt hv, hline, hwr, hrd⟩, hwritten⟩
  | endLine => exact ⟨⟨nextLine_lt _ _ hv, hline, hwr, hrd⟩, hwritten⟩
  | _ => exact ringSafe_of_sameRingSide (by simp [SameRingSide]) hs

theorem popEffect_sameRingSide {s t : State} (h : PopEffect s t) : SameRingSide s t := by
  cases h <;> simp [SameRingSide]

theorem serPopTurn_ringSafe (s t : State) (h : serPopTurn s = .next t) (hs : RingSafe s) : RingSafe t := by
  rcases serPopTurn_effect s t h with ⟨_, rfl⟩ | ⟨w, rest, _, heffect⟩
  · exact hs
  · exact ringSafe_of_sameRingSide (s := { s with fifo := rest }) (popEffect_sameRingSide heffect) hs

/-- After reset the ring of a legal build is empty and its registers are in range. -/
theorem powerOn_ringSafe (s : State) (hlegal : buildLegal s.cfg = true) : RingSafe (powerOn s) := by
  obtain ⟨_, _, _, hrange, _, _, _, _, _, hring, _⟩ := resetMeetsInvariants s.cfg hlegal
  exact ⟨hrange, hring⟩

/-- Settles O30: idle, an update, a pop and a reset each keep the held slots written and the cursors in range. -/
theorem heldRingSlotsAreWritten : Obligations.HeldRingSlotsAreWritten := by
  intro s t hrange hring hstep
  have hs : RingSafe s := ⟨hrange, hring⟩
  obtain ⟨hlegal, _⟩ := (step_next s t).1 hstep
  rcases step_cases s t hstep with ⟨_, _, turns, hupdates⟩ | ⟨_, hpop⟩ | ⟨_, rfl⟩
  · exact hupdates.keeps update_ringSafe hs
  · exact serPopTurn_ringSafe _ t hpop hs
  · exact powerOn_ringSafe _ hlegal

end Sys2Proof.Machine
end

section
/-! The mixer and the audio requests (45_audio.md R251 to R255, R258, R262). -/

namespace Sys2Proof.Machine

/-! `mix` and its frame. -/

theorem mixSum_eq_natCast (c : Config) (a0 a1 a2 a3 a4 : Byte) :
    mixSum c a0 a1 a2 a3 a4 =
      (c.w0 * a0.toNat + c.w1 * a1.toNat + c.w2 * a2.toNat + c.w3 * a3.toNat + c.w4 * a4.toNat : Nat) := by
  simp [mixSum]

theorem weighted_le (w : Nat) (a : Byte) : w * a.toNat ≤ w * 255 :=
  Nat.mul_le_mul_left w (Nat.le_of_lt_succ a.isLt)

/-- The sum without overflow (45_audio.md R262 (a)). -/
theorem mixSum_le (c : Config) (a0 a1 a2 a3 a4 : Byte) :
    mixSum c a0 a1 a2 a3 a4 ≤ 255 * (c.w0 + c.w1 + c.w2 + c.w3 + c.w4 : Nat) := by
  have h0 := weighted_le c.w0 a0
  have h1 := weighted_le c.w1 a1
  have h2 := weighted_le c.w2 a2
  have h3 := weighted_le c.w3 a3
  have h4 := weighted_le c.w4 a4
  rw [mixSum_eq_natCast]
  omega

theorem clamp_mem (v lo hi : Int) (h : lo ≤ hi) : lo ≤ clamp v lo hi ∧ clamp v lo hi ≤ hi :=
  ⟨le_min (le_max_right v lo) h, min_le_right _ _⟩

/-- The bounds of a legal build lie on either side of zero, within 16 bits (45_audio.md R251). -/
theorem sampleBounds_of_legal (c : Config) (h : audioLegal c = true) :
    -32768 ≤ c.sMin ∧ c.sMin ≤ c.sMax ∧ c.sMax ≤ 32767 := by
  simp only [audioLegal, Bool.and_eq_true, decide_eq_true_eq] at h
  obtain ⟨⟨⟨⟨⟨⟨_, hlow⟩, hmin⟩, hmax⟩, hhigh⟩, _⟩, _⟩ := h
  omega

/-- Either half of a sample's frame is the sample (45_audio.md R254). -/
theorem sampleFrame_halves (sample : Int) (hlow : -32768 ≤ sample) (hhigh : sample ≤ 32767) :
    ((sampleFrame sample).extractLsb' 0 16).toInt = sample ∧
      ((sampleFrame sample).extractLsb' 16 16).toInt = sample := by
  have hword : (BitVec.ofInt 16 sample).toInt = sample :=
    BitVec.toInt_ofInt_eq_self (by decide) (by omega) (by omega)
  have hright : (sampleFrame sample).extractLsb' 0 16 = BitVec.ofInt 16 sample := lowUnit_append _ _
  have hleft : (sampleFrame sample).extractLsb' 16 16 = BitVec.ofInt 16 sample := highUnit_append _ _
  rw [hright, hleft]
  exact ⟨hword, hword⟩

/-- Settles O29: the clamp keeps the sample in 16 bits, which each half of its frame holds. -/
theorem mixIsClampedAndFramed : Obligations.MixIsClampedAndFramed := by
  intro c a0 a1 a2 a3 a4 hlegal
  obtain ⟨hlow, hordered, hhigh⟩ := sampleBounds_of_legal c hlegal
  have hsum := mixSum_eq_natCast c a0 a1 a2 a3 a4
  have ⟨hmin, hmax⟩ : c.sMin ≤ mix c a0 a1 a2 a3 a4 ∧ mix c a0 a1 a2 a3 a4 ≤ c.sMax := clamp_mem _ _ _ hordered
  exact ⟨hsum, rfl, hsum ▸ Int.natCast_nonneg _, mixSum_le c a0 a1 a2 a3 a4, hmin, hmax,
    sampleFrame_halves _ (hlow.trans hmin) (hmax.trans hhigh)⟩

/-! AUD_CAP and AUD_ENQ. -/

theorem ofNat_ringFree (s : State) (hcap : 0 < s.cfg.audioCap) :
    BitVec.ofNat 32 (ringFree s) = BitVec.ofInt 32 (((s.rd : Int) - s.wr - 1) % s.cfg.audioCap) := by
  rw [← BitVec.ofInt_natCast, ringFree_cast s hcap]

/-- Settles O26: the response is the free slots as a word, and one slot is neither free nor held. -/
theorem audCapAnswersFreeSlots : Obligations.AudCapAnswersFreeSlots := by
  intro s hctx hcap
  have hpos : 0 < s.cfg.audioCap := Nat.zero_lt_of_lt hcap
  refine ⟨?_, ringHeld_add_ringFree s hpos⟩
  rw [← ofNat_ringFree s hpos]
  exact serve_of_ok (producerPort_of_producer hctx) rfl

theorem payloadByte_of_row {s : State} {k : Nat} {row : List Byte} (h : s.port.payload[k]? = some row) (i : Nat)
    (hi : i < row.length) : payloadByte s k i = row.getD i 0 := by
  simp [payloadByte, h, List.getD_eq_getElem?_getD, hi]

theorem ringFrame_enqueueFrames (count : BitVec 16) (s : State) (i : Nat) (hcap : 0 < s.cfg.audioCap)
    (hi : i < enqueued count s) :
    ringFrame (enqueueFrames count s) ((s.wr + i) % s.cfg.audioCap) = mixedFrame s i := by
  rw [ringFrame, enqueueFrames_ring, ringWithFrames_frame s _ i (enqueued_le_audioCap count s hcap) hi]
  rfl

theorem ringFrame_enqueueFrames_outside (count : BitVec 16) (s : State) (a : Nat)
    (h : ∀ i, i < enqueued count s → a ≠ (s.wr + i) % s.cfg.audioCap) :
    ringFrame (enqueueFrames count s) a = ringFrame s a := by
  rw [ringFrame, enqueueFrames_ring, ringWithFrames_outside s _ a h]
  rfl

/-- A drop is no error: REQ_ERR stays low (60_exceptions.md R271). -/
theorem okOrDropped_ne_badRequest (p : Prop) [Decidable p] :
    ((if p then .ok else .dropped : OutcomeCode) == .badRequest) = false := by split <;> rfl

/-- Settles O27: the frames kept fit the free slots, so each has a slot of its own. -/
theorem audEnqFillsRing : Obligations.AudEnqFillsRing := by
  intro s count hctx hcap _ _
  have hpos : 0 < s.cfg.audioCap := Nat.zero_lt_of_lt hcap
  exact ⟨_, enqueued count s, rfl, serve_of_ok (producerPort_of_producer hctx) rfl, rfl,
    fun i hi => ringFrame_enqueueFrames count s i hpos hi, fun _ _ hrow i hi => payloadByte_of_row hrow i hi,
    fun a ha => ringFrame_enqueueFrames_outside count s a ha,
    by rw [respond_port, okOrDropped_ne_badRequest]; rfl, rfl⟩

/-! AUD_DEQ. -/

/-- A consumer that may dequeue gets the frame that LAST holds afterwards. -/
theorem execAudDeq_completes (s : State) (hctx : s.port.ctx = .consumerThread) (howner : MayDequeue .request s) :
    execAudDeq s = .next (respond (dequeueOutcome s) (some (takeFrame { s with audOwner := some .request }).last)
      (takeFrame { s with audOwner := some .request })) :=
  serve_of_ok (consumerPort_of_thread hctx) ((bind_ok _ _ _).2 ⟨_, (dequeue_ok .request s _).2 ⟨howner, rfl⟩, rfl⟩)

theorem dequeue_refused {first who : AudioConsumer} {s : State} (howner : s.audOwner = some first) (hne : first ≠ who) :
    dequeue who s = .error (.refuse (.secondAudioConsumer first who)) := by
  simp [dequeue, claimRing, howner, hne, bind, Except.bind]

/-- Settles O28: by who has dequeued and by whether the ring is empty. -/
theorem audDeqReturnsFrame : Obligations.AudDeqReturnsFrame := by
  refine fun s hctx => ⟨fun howner hheld => ?_, fun howner hempty => ?_, fun who howner hne => ?_⟩
  · refine (execAudDeq_completes s hctx howner).trans ?_
    rw [takeFrame_of_held { s with audOwner := some .request } hheld, dequeueOutcome, if_neg hheld]
    rfl
  · refine (execAudDeq_completes s hctx howner).trans ?_
    rw [takeFrame_of_empty { s with audOwner := some .request } hempty, dequeueOutcome, if_pos hempty]
    rfl
  · exact (serve_allowed _ s _ (consumerPort_of_thread hctx)).trans (by rw [dequeue_refused howner hne]; rfl)

end Sys2Proof.Machine
end

section
/-! The audio timer's tick and its interrupt (45_audio.md R255, R258, R260, 60_exceptions.md R275, R276). -/

namespace Sys2Proof.Machine

/-! What leaves AUD_TICK as it was. -/

theorem post_audTick (ch : Slot) (s t : State) (h : post ch s = .ok t) : t.audTick = s.audTick := by
  have hposted : onlyPosted (markBusySlot ch s) t := post_onlyPosted ch s t h
  exact (congrArg State.audTick hposted :)

theorem dmaTrigger_audTick (ch : Slot) (s t : State) (h : dmaTrigger ch s = .ok t) : t.audTick = s.audTick := by
  rcases (dmaTrigger_ok ch s t).1 h with ⟨_, rfl⟩ | ⟨_, _, rfl⟩ <;> simp

theorem execStart_audTick (s t : State) (h : execStart s = .next t) : t.audTick = s.audTick := by
  obtain ⟨_, ⟨_, rfl⟩ | ⟨_, a, b, c, ha, hb, hc, rfl⟩ | ⟨_, rfl⟩⟩ := execStart_next s t h
  · rfl
  · calc c.audTick = b.audTick := dmaTrigger_audTick .ping b c hc
      _ = a.audTick := post_audTick .pong a b hb
      _ = s.audTick := post_audTick .ping (startSequencer s) a ha
  · rfl

theorem execPublish_audTick (c : BufId) (s t : State) (h : execPublish c s = .next t) : t.audTick = s.audTick := by
  obtain ⟨_, ⟨_, _, _, rfl⟩ | ⟨_, _, rfl⟩ | ⟨_, rfl⟩⟩ := execPublish_next c s t h <;> rfl

/-- No operation, at either interface, sets or serves a tick: AUD_DEQ dequeues without it (60_exceptions.md R275). -/
theorem exec_audTick (i : Instr) (s t : State) (h : exec i s = .next t) : t.audTick = s.audTick := by
  cases i with
  | lineBegin line => obtain ⟨_, ⟨_, rfl⟩ | ⟨_, _, rfl⟩ | ⟨_, rfl⟩⟩ := execLineBegin_next line s t h <;> rfl
  | lineEnd line =>
    obtain ⟨_, ⟨_, rfl⟩ | ⟨_, _, _, rfl⟩ | ⟨_, rfl⟩⟩ := execLineEnd_next line s t h <;> simp [badRequest]
  | publish b => exact execPublish_audTick b s t h
  | frameComplete => exact execPublish_audTick s.fx.wt s t h
  | audCap => obtain ⟨_, h⟩ := (serve_next _ _ _ _).1 h; cases h; rfl
  | audEnq count => obtain ⟨_, h⟩ := (serve_next _ _ _ _).1 h; cases h; rfl
  | setScale mode => obtain ⟨_, h⟩ := (serve_next _ _ _ _).1 h; cases h; rfl
  | acquire => obtain ⟨_, _, ⟨_, rfl⟩ | rfl⟩ := execAcquire_next s t h <;> simp
  | release b => obtain ⟨_, _, ⟨_, rfl⟩ | rfl⟩ := execRelease_next b s t h <;> rfl
  | audDeq => obtain ⟨_, _, rfl⟩ := execAudDeq_next s t h; simp
  | start => exact execStart_audTick s t h
  | nop => cases h; rfl
  | ctrl vs hs n => cases h; split <;> rfl
  | pixels n => cases h; split <;> rfl

theorem requestTurn_audTick (ctx : Context) (w : Word) (pl : List (List Byte)) (s t : State)
    (h : requestTurn ctx w pl s = .next t) : t.audTick = s.audTick := by
  rcases requestTurn_next ctx w pl s t h with ⟨i, u, _, hexec, rfl⟩ | ⟨_, _, rfl⟩
  · have hu : u.audTick = s.audTick := exec_audTick i (present ctx pl s) u hexec
    split <;> exact hu
  · rfl

theorem serPopTurn_audTick (s t : State) (h : serPopTurn s = .next t) : t.audTick = s.audTick := by
  rcases serPopTurn_next s t h with ⟨_, rfl⟩ | ⟨w, rest, _, ⟨_, rfl⟩ | ⟨_, i, _, hexec⟩ | ⟨_, _, rfl⟩⟩
  · rfl
  · rfl
  · exact exec_audTick i { s with fifo := rest } t hexec
  · rfl

theorem dmaXfer_audTick (ch : Slot) (s t : State) (h : dmaXfer ch s = .ok t) : t.audTick = s.audTick := by
  obtain ⟨w, _, rfl⟩ := (dmaXfer_ok ch s t).1 h
  simp

theorem dmaComplete_audTick (ch : Slot) (s t : State) (h : dmaComplete ch s = .ok t) : t.audTick = s.audTick :=
  (dmaTrigger_audTick (otherSlot ch) _ t h).trans (setChan_audTick ..)

theorem handler_audTick (s t : State) (h : handler s = .ok t) : t.audTick = s.audTick :=
  (post_audTick _ (acknowledge s) t h).trans (acknowledge_audTick s)

/-- A step that waits or passes leaves the tick. -/
theorem whenEnabled_audTick (enabled : Bool) (s t : State) (a : Attempt State)
    (ha : ∀ u, a = .ok u → u.audTick = s.audTick) (h : whenEnabled enabled s a = .next t) : t.audTick = s.audTick := by
  rcases (whenEnabled_next _ _ _ _).1 h with ⟨_, h⟩ | ⟨_, rfl⟩
  · rcases (finish_next _ _ _).1 h with h | ⟨_, rfl⟩
    · exact ha t h
    · rfl
  · rfl

/-- The agents that write AUD_TICK are the timer, `aud_isr` and the power-on reset (60_exceptions.md R275). -/
theorem takeTurn_audTick (turn : Turn) (s t : State) (htick : turn ≠ .audTick) (hisr : turn ≠ .audIsr)
    (hreset : turn ≠ .reset) (h : takeTurn turn s = .next t) : t.audTick = s.audTick := by
  cases turn with
  | request ctx w pl => exact requestTurn_audTick ctx w pl s t h
  | dmaXfer ch => exact whenEnabled_audTick _ s t _ (dmaXfer_audTick ch s) h
  | dmaComplete ch => exact whenEnabled_audTick _ s t _ (dmaComplete_audTick ch s) h
  | handler => exact whenEnabled_audTick _ s t _ (handler_audTick s) h
  | serPop => exact serPopTurn_audTick s t h
  | audTick => exact absurd rfl htick
  | audIsr => exact absurd rfl hisr
  | reset => exact absurd rfl hreset

theorem step_audTick (s t : State) (h : step s = .next t) (htick : nextTurn s ≠ some .audTick)
    (hisr : nextTurn s ≠ some .audIsr) (hreset : nextTurn s ≠ some .reset) : t.audTick = s.audTick := by
  obtain ⟨_, ⟨_, rfl⟩ | ⟨turn, hturn, ht⟩⟩ := (step_next s t).1 h
  · rfl
  · rw [hturn] at htick hisr hreset
    exact takeTurn_audTick turn { beginStep s with inbox := s.inbox.tail } t (fun h => htick (congrArg some h))
      (fun h => hisr (congrArg some h)) (fun h => hreset (congrArg some h)) ht

/-! The interrupt. -/

/-- IRQ_AUD is delivered with AUDIO_SINK = TIMER, for a pending tick, and while IRQ_DMA is not: RUN = 0 or no DONE set
(60_exceptions.md R275, R276; log 27). -/
theorem irqAudDeliverable_iff (s : State) :
    irqAudDeliverable s = true ↔
      s.cfg.audioSink = .timer ∧ s.audTick = true ∧ (s.run = false ∨ irqDma s = false) := by
  simp [irqAudDeliverable, irqDmaDeliverable, and_assoc]

theorem takeTurn_audIsr_disabled (s : State) (h : ¬ irqAudDeliverable s = true) : takeTurn .audIsr s = .next s :=
  (whenEnabled_next _ s s _).2 (.inr ⟨Bool.eq_false_of_not_eq_true h, rfl⟩)

/-- What `aud_isr` makes of the state: the tick served, one dequeue, its outcome at the port (45_audio.md R260). -/
def tickServed (s : State) : State :=
  respond (dequeueOutcome s) none (takeFrame { s with audTick := false, audOwner := some .timer })

theorem audIsr_ok (s : State) (howner : MayDequeue .timer s) : audIsr s = .ok (tickServed s) :=
  (bind_ok _ _ _).2 ⟨_, (dequeue_ok .timer { s with audTick := false } _).2 ⟨howner, rfl⟩, rfl⟩

theorem takeTurn_audIsr_serves (s : State) (henabled : irqAudDeliverable s = true) (howner : MayDequeue .timer s) :
    takeTurn .audIsr s = .next (tickServed s) :=
  whenEnabled_of_ok henabled (audIsr_ok s howner)

theorem tickServed_of_held (s : State) (h : s.rd ≠ s.wr) :
    tickServed s =
      { s with
        audTick := false
        rd := (s.rd + 1) % s.cfg.audioCap
        last := ringFrame s s.rd
        audTrace := s.audTrace ++ [ringFrame s s.rd]
        audOwner := some .timer
        port := { s.port with rsp := none, reqErr := false, outcome := some .ok } } := by
  rw [tickServed, takeFrame_of_held { s with audTick := false, audOwner := some .timer } h, dequeueOutcome, if_neg h]
  rfl

theorem tickServed_of_empty (s : State) (h : s.rd = s.wr) :
    tickServed s =
      { s with
        audTick := false
        audTrace := s.audTrace ++ [s.last]
        audOwner := some .timer
        port := { s.port with rsp := none, reqErr := false, outcome := some .underflow } } := by
  rw [tickServed, takeFrame_of_empty { s with audTick := false, audOwner := some .timer } h, dequeueOutcome, if_pos h]
  rfl

/-- Settles O31: only the timer, `aud_isr` and a reset write AUD_TICK, and `aud_isr` is taken where it is deliverable. -/
theorem audioInterruptYieldsToDma : Obligations.AudioInterruptYieldsToDma := by
  refine ⟨step_audTick, fun s => ⟨fun htimer => ?_, fun haux => ⟨?_, ?_⟩, fun hwaits => ?_,
    fun htimer hdue hstopped howner => ?_⟩⟩
  · exact congrArg Host.Outcome.next (audTick_timer s htimer)
  · exact congrArg Host.Outcome.next (audTick_aux s haux)
  · exact takeTurn_audIsr_disabled s fun h => by simp [haux, irqAudDeliverable_iff] at h
  · refine takeTurn_audIsr_disabled s fun h => ?_
    obtain ⟨_, hdue, hstopped⟩ := (irqAudDeliverable_iff s).1 h
    rcases hwaits with hnone | ⟨hrun, hirq⟩
    · simp [hnone] at hdue
    · simp [hrun, hirq] at hstopped
  · have hserved := takeTurn_audIsr_serves s ((irqAudDeliverable_iff s).2 ⟨htimer, hdue, hstopped⟩) howner
    exact ⟨fun hheld => hserved.trans (congrArg Host.Outcome.next (tickServed_of_held s hheld)),
      fun hempty => hserved.trans (congrArg Host.Outcome.next (tickServed_of_empty s hempty))⟩

end Sys2Proof.Machine
end

section
/-! The words of the spec's own decoding vectors (95_test_vectors.md T1, T2). -/

namespace Sys2Proof

/-- Settles O4: each of the eight words is the encoding of the operation the vector names. -/
theorem specWordsDecode : Obligations.SpecWordsDecode :=
  ⟨decodeReq_encode (.lineBegin 239) rfl rfl, decodeReq_encode (.publish .b1) rfl rfl,
    decodeReq_encode (.audEnq 3) rfl rfl, decodeReq_encode (.setScale .eightToSeven) rfl rfl,
    decodeReq_encode .start rfl rfl, decodeCmd_encode (.ctrl true false 96) rfl rfl,
    decodeCmd_encode (.pixels 320) rfl rfl, decodeCmd_encode .nop rfl rfl⟩

end Sys2Proof
end

section
/-! The transfer chain under premise RT: which slot streams, which completion is pending and what the toggle names
(42_dma_scheduler.md R183, R185, R186, 70_reset_and_hazards.md R310). -/

namespace Sys2Proof.Machine

/-! The invariant, for either slot. -/

/-- The chain at rest, as before START: VOUT does not run, no channel is busy and no completion is pending. -/
def AtRest (s : State) : Prop := s.run = false ∧ ∀ ch, (s.chan ch).busy = false ∧ (s.chan ch).done = false

theorem chainInv_iff (s : State) : ChainInv s ↔ AtRest s ∨ (s.run = true ∧ ∃ ch, Streaming ch s) := by
  constructor
  · rintro (⟨hrun, hbusy0, hbusy1, hdone0, hdone1⟩ | ⟨hrun, hping | hpong⟩)
    · exact .inl ⟨hrun, (forall_slot_iff _ .ping).2 ⟨⟨hbusy0, hdone0⟩, hbusy1, hdone1⟩⟩
    · exact .inr ⟨hrun, .ping, hping⟩
    · exact .inr ⟨hrun, .pong, hpong⟩
  · rintro (⟨hrun, hidle⟩ | ⟨hrun, ch, hstream⟩)
    · obtain ⟨⟨hbusy0, hdone0⟩, hbusy1, hdone1⟩ := (forall_slot_iff _ .ping).1 hidle
      exact .inl ⟨hrun, hbusy0, hbusy1, hdone0, hdone1⟩
    · cases ch with
      | ping => exact .inr ⟨hrun, .inl hstream⟩
      | pong => exact .inr ⟨hrun, .inr hstream⟩

theorem chainInv_of_streaming {s : State} {ch : Slot} (hrun : s.run = true) (h : Streaming ch s) : ChainInv s :=
  (chainInv_iff s).2 (.inr ⟨hrun, ch, h⟩)

/-- While VOUT runs some slot streams. -/
theorem streaming_of_running {s : State} (hs : ChainInv s) (hrun : s.run = true) : ∃ ch, Streaming ch s := by
  rcases (chainInv_iff s).1 hs with ⟨hstopped, _⟩ | ⟨_, hstream⟩
  · simp [hrun] at hstopped
  · exact hstream

theorem atRest_of_stopped {s : State} (hs : ChainInv s) (hstopped : s.run = false) : AtRest s := by
  rcases (chainInv_iff s).1 hs with hrest | ⟨hrun, _⟩
  · exact hrest
  · simp [hstopped] at hrun

theorem streaming_otherIdle {s : State} {ch : Slot} (h : Streaming ch s) : (s.chan (otherSlot ch)).busy = false := by
  obtain ⟨_, hidle, _⟩ := h
  exact hidle

theorem eq_or_eq_otherSlot (x ch : Slot) : ch = x ∨ ch = otherSlot x := by cases x <;> cases ch <;> decide

/-- A busy slot is the one that streams: the other one is idle. -/
theorem streaming_of_busy {s : State} {ch : Slot} (hs : ChainInv s) (hbusy : (s.chan ch).busy = true) :
    s.run = true ∧ Streaming ch s := by
  rcases (chainInv_iff s).1 hs with ⟨_, hidle⟩ | ⟨hrun, x, hstream⟩
  · simp [hidle] at hbusy
  · rcases eq_or_eq_otherSlot x ch with rfl | rfl
    · exact ⟨hrun, hstream⟩
    · simp [streaming_otherIdle hstream] at hbusy

theorem irqDma_iff (ch : Slot) (s : State) :
    irqDma s = true ↔ (s.chan ch).done = true ∨ (s.chan (otherSlot ch)).done = true := by
  cases ch <;> simp [irqDma, or_comm]

/-- While slot `ch` streams, IRQ_DMA is the other slot's completion, and the toggle will then name that slot. -/
theorem pending_of_irqDma {s : State} {ch : Slot} (h : Streaming ch s) (hirq : irqDma s = true) :
    (s.chan (otherSlot ch)).done = true ∧ s.lastDone = ch := by
  obtain ⟨_, _, hdone, hpending | ⟨hserved, _⟩⟩ := h
  · exact hpending
  · simp [irqDma_iff ch, hdone, hserved] at hirq

/-- While slot `ch` streams with no IRQ_DMA, the toggle names the other slot, which was served last. -/
theorem served_of_no_irqDma {s : State} {ch : Slot} (h : Streaming ch s) (hirq : irqDma s = false) :
    s.lastDone = otherSlot ch := by
  obtain ⟨_, _, _, ⟨hdone, _⟩ | ⟨_, hlast⟩⟩ := h
  · have hraised : irqDma s = true := (irqDma_iff ch s).2 (.inr hdone)
    simp [hirq] at hraised
  · exact hlast

/-! What leaves the chain as it was. -/

/-- RUN, the toggle, M_DESC and the status bits of both channels are the same in two states. -/
def SameChain (s t : State) : Prop :=
  t.run = s.run ∧ t.lastDone = s.lastDone ∧ t.mDesc = s.mDesc ∧
    ∀ ch, (t.chan ch).busy = (s.chan ch).busy ∧ (t.chan ch).done = (s.chan ch).done

theorem sameChain_refl (s : State) : SameChain s s := ⟨rfl, rfl, rfl, fun _ => ⟨rfl, rfl⟩⟩

theorem sameChain_trans {s t u : State} (h : SameChain s t) (k : SameChain t u) : SameChain s u := by
  obtain ⟨hrun, hlast, hdesc, hchan⟩ := h
  obtain ⟨krun, klast, kdesc, kchan⟩ := k
  exact ⟨krun.trans hrun, klast.trans hlast, kdesc.trans hdesc,
    fun ch => ⟨(kchan ch).1.trans (hchan ch).1, (kchan ch).2.trans (hchan ch).2⟩⟩

theorem sameChain_of_sameTransfers {s t : State} (h : SameTransfers s t) (hlast : t.lastDone = s.lastDone)
    (hdesc : t.mDesc = s.mDesc) : SameChain s t := by
  have hchan := sameTransfers_chan h
  obtain ⟨_, hrun, _⟩ := h
  exact ⟨hrun, hlast, hdesc, fun ch => by rw [hchan]; exact ⟨rfl, rfl⟩⟩

/-- What O55 says of a step: the chain is in order afterwards and M_DESC is as before. -/
def KeepsChain (s t : State) : Prop := ChainInv t ∧ t.mDesc = s.mDesc

theorem keepsChain_of_sameChain {s t : State} (hs : ChainInv s) (h : SameChain s t) : KeepsChain s t := by
  obtain ⟨hrun, hlast, hdesc, hchan⟩ := h
  refine ⟨?_, hdesc⟩
  rw [chainInv_iff] at hs ⊢
  simpa only [AtRest, Streaming, hrun, hlast, hchan] using hs

/-- A `post` into an idle slot leaves the chain: it writes the descriptor, and M_DESC stays (42_dma_scheduler.md R184,
R185). -/
theorem post_sameChain (ch : Slot) (s t : State) (hidle : (s.chan ch).busy = false) (h : post ch s = .ok t) :
    SameChain s t := by
  have honly : onlyPosted s t := markBusySlot_of_idle ch s hidle ▸ post_onlyPosted ch s t h
  obtain ⟨_, _, _, hitem, _⟩ := post_itemPosted ch s t h
  obtain ⟨hslot, hother⟩ := itemPosted_frame hitem
  refine ⟨(congrArg State.run honly :), (congrArg State.lastDone honly :), (congrArg State.mDesc honly :),
    (forall_slot_iff _ ch).2 ⟨?_, ?_⟩⟩
  · rw [hslot]; exact ⟨rfl, rfl⟩
  · rw [hother]; exact ⟨rfl, rfl⟩

theorem execPublish_toggle (c : BufId) (s t : State) (h : execPublish c s = .next t) :
    t.lastDone = s.lastDone ∧ t.mDesc = s.mDesc := by
  obtain ⟨_, ⟨_, _, _, rfl⟩ | ⟨_, _, rfl⟩ | ⟨_, rfl⟩⟩ := execPublish_next c s t h <;> exact ⟨rfl, rfl⟩

/-- No operation but START writes the toggle or M_DESC. -/
theorem exec_toggle (i : Instr) (s t : State) (hstart : i ≠ .start) (h : exec i s = .next t) :
    t.lastDone = s.lastDone ∧ t.mDesc = s.mDesc := by
  cases i with
  | lineBegin line =>
    obtain ⟨_, ⟨_, rfl⟩ | ⟨_, _, rfl⟩ | ⟨_, rfl⟩⟩ := execLineBegin_next line s t h <;> exact ⟨rfl, rfl⟩
  | lineEnd line =>
    obtain ⟨_, ⟨_, rfl⟩ | ⟨_, _, _, rfl⟩ | ⟨_, rfl⟩⟩ := execLineEnd_next line s t h <;> simp [badRequest]
  | publish b => exact execPublish_toggle b s t h
  | frameComplete => exact execPublish_toggle s.fx.wt s t h
  | audCap => obtain ⟨_, h⟩ := (serve_next _ _ _ _).1 h; cases h; exact ⟨rfl, rfl⟩
  | audEnq count => obtain ⟨_, h⟩ := (serve_next _ _ _ _).1 h; cases h; exact ⟨rfl, rfl⟩
  | setScale mode => obtain ⟨_, h⟩ := (serve_next _ _ _ _).1 h; cases h; exact ⟨rfl, rfl⟩
  | acquire => obtain ⟨_, _, ⟨_, rfl⟩ | rfl⟩ := execAcquire_next s t h <;> simp
  | release b => obtain ⟨_, _, ⟨_, rfl⟩ | rfl⟩ := execRelease_next b s t h <;> exact ⟨rfl, rfl⟩
  | audDeq => obtain ⟨_, _, rfl⟩ := execAudDeq_next s t h; simp
  | start => exact absurd rfl hstart
  | nop => cases h; exact ⟨rfl, rfl⟩
  | ctrl vs hs n => cases h; split <;> exact ⟨rfl, rfl⟩
  | pixels n => cases h; split <;> exact ⟨rfl, rfl⟩

theorem exec_request_sameChain (w : Word) (i : Instr) (s t : State) (hdecode : decodeReq w = .ok i)
    (hstart : i ≠ .start) (h : exec i s = .next t) : SameChain s t := by
  obtain ⟨hlast, hdesc⟩ := exec_toggle i s t hstart h
  exact sameChain_of_sameTransfers (exec_request_sameTransfers w i s t hdecode hstart h) hlast hdesc

theorem popEffect_sameChain {s t : State} (h : PopEffect s t) : SameChain s t := by
  obtain ⟨_, hdesc, _⟩ := popEffect_marks h
  exact sameChain_of_sameTransfers (popEffect_sameTransfers h) (by cases h <;> rfl) hdesc

theorem serPopTurn_sameChain (s t : State) (h : serPopTurn s = .next t) : SameChain s t := by
  rcases serPopTurn_effect s t h with ⟨_, rfl⟩ | ⟨w, rest, _, heffect⟩
  · exact sameChain_refl t
  · have hpopped : SameChain { s with fifo := rest } t := popEffect_sameChain heffect
    exact hpopped

theorem dmaXfer_sameChain (ch : Slot) (s t : State) (h : dmaXfer ch s = .ok t) : SameChain s t := by
  obtain ⟨w, _, rfl⟩ := (dmaXfer_ok ch s t).1 h
  cases ch <;> exact ⟨rfl, rfl, rfl, fun x => by cases x <;> exact ⟨rfl, rfl⟩⟩

theorem audTick_sameChain (s : State) : SameChain s (audTick s) := by simp [SameChain]

theorem audIsr_sameChain (s t : State) (h : audIsr s = .ok t) : SameChain s t := by
  obtain ⟨u, hu, ht⟩ := (bind_ok _ _ _).1 h
  obtain ⟨_, rfl⟩ := (dequeue_ok _ _ _).1 hu
  cases ht
  exact sameChain_of_sameTransfers (by simp [SameTransfers]) (by simp) (by simp)

/-! What moves the chain: START, a completion, the HANDLER. -/

/-- START sets the chain off: slot 0 streams, nothing is pending, and the toggle names slot 1
(41_scanline_sequencer.md R162). -/
theorem started_keepsChain {s a b c : State} (hs : AtRest s) (ha : post .ping (startSequencer s) = .ok a)
    (hb : post .pong a = .ok b) (hc : dmaTrigger .ping b = .ok c) : KeepsChain s c := by
  obtain ⟨_, hsidle⟩ := hs
  have hidle : ∀ ch, ((startSequencer s).chan ch).busy = false ∧ ((startSequencer s).chan ch).done = false := by
    simpa using hsidle
  have hfirst : SameChain (startSequencer s) a := post_sameChain .ping _ a (hidle .ping).1 ha
  have haidle : (a.chan .pong).busy = false := by
    obtain ⟨_, _, _, hchan⟩ := hfirst
    rw [(hchan .pong).1, (hidle .pong).1]
  obtain ⟨hrun, hlast, hdesc, hchan⟩ := sameChain_trans hfirst (post_sameChain .pong a b haidle hb)
  have hbidle : ∀ ch, (b.chan ch).busy = false ∧ (b.chan ch).done = false := fun ch => by
    rw [(hchan ch).1, (hchan ch).2]; exact hidle ch
  obtain ⟨hbusy, _⟩ | ⟨_, _, rfl⟩ := (dmaTrigger_ok .ping b c).1 hc
  · rw [(hbidle .ping).1] at hbusy; cases hbusy
  · have hstream : Streaming .ping (b.setChan .ping (loadedChannel (b.chan .ping))) :=
      ⟨rfl, (hbidle .pong).1, (hbidle .ping).2, .inr ⟨(hbidle .pong).2, hlast⟩⟩
    exact ⟨chainInv_of_streaming hrun hstream, hdesc⟩

theorem execStart_keepsChain (s t : State) (hs : ChainInv s) (h : execStart s = .next t) : KeepsChain s t := by
  obtain ⟨_, ⟨_, rfl⟩ | ⟨hstopped, a, b, c, ha, hb, hc, rfl⟩ | ⟨_, rfl⟩⟩ := execStart_next s t h
  · exact ⟨hs, rfl⟩
  · have hstarted : KeepsChain s c := started_keepsChain (atRest_of_stopped hs hstopped) ha hb hc
    exact hstarted
  · exact ⟨hs, rfl⟩

theorem exec_request_keepsChain (w : Word) (i : Instr) (s t : State) (hs : ChainInv s) (hdecode : decodeReq w = .ok i)
    (h : exec i s = .next t) : KeepsChain s t := by
  by_cases hstart : i = .start
  · subst hstart; exact execStart_keepsChain s t hs h
  · exact keepsChain_of_sameChain hs (exec_request_sameChain w i s t hdecode hstart h)

theorem requestTurn_keepsChain (ctx : Context) (w : Word) (pl : List (List Byte)) (s t : State) (hs : ChainInv s)
    (h : requestTurn ctx w pl s = .next t) : KeepsChain s t := by
  rcases requestTurn_next ctx w pl s t h with ⟨i, u, hdecode, hexec, rfl⟩ | ⟨_, _, rfl⟩
  · have hu : KeepsChain s u := exec_request_keepsChain w i (present ctx pl s) u hs hdecode hexec
    split <;> exact hu
  · exact ⟨hs, rfl⟩

/-- A completion with every earlier one served hands the stream to the other slot; its own is then the pending one, and the
toggle will name it (42_dma_scheduler.md R183, 70_reset_and_hazards.md R310). -/
theorem dmaComplete_keepsChain (ch : Slot) (s t : State) (hs : ChainInv s) (henabled : dmaCompleteEnabled ch s = true)
    (hserved : irqDma s = false) (h : dmaComplete ch s = .ok t) : KeepsChain s t := by
  obtain ⟨hbusy, _⟩ := (dmaCompleteEnabled_iff ch s).1 henabled
  obtain ⟨hrun, hstream⟩ := streaming_of_busy hs hbusy
  have hlast : s.lastDone = otherSlot ch := served_of_no_irqDma hstream hserved
  obtain ⟨_, hidle, _⟩ := hstream
  have hdone : (s.chan (otherSlot ch)).done = false := by
    refine Bool.eq_false_of_not_eq_true fun hdone => ?_
    simp [(irqDma_iff ch s).2 (.inr hdone)] at hserved
  obtain ⟨hother, _⟩ | ⟨_, _, rfl⟩ := (dmaComplete_ok ch s t).1 h
  · simp [hidle] at hother
  · refine ⟨chainInv_of_streaming (ch := otherSlot ch) (by simpa using hrun) ?_, by simp⟩
    simp [Streaming, otherSlot_otherSlot, loadedChannel, hdone, hlast]

/-- The HANDLER serves the one completion that is pending: the slot it names is idle, and the other one still streams
(42_dma_scheduler.md R185, R186). -/
theorem handler_keepsChain (s t : State) (hs : ChainInv s) (henabled : irqDmaDeliverable s = true)
    (h : handler s = .ok t) : KeepsChain s t := by
  obtain ⟨hrun, hirq⟩ : s.run = true ∧ irqDma s = true := by simpa [irqDmaDeliverable] using henabled
  obtain ⟨ch, hstream⟩ := streaming_of_running hs hrun
  obtain ⟨_, rfl⟩ := pending_of_irqDma hstream hirq
  obtain ⟨hbusy, hidle, hdone, _⟩ := hstream
  have hnamed := acknowledge_chan_named s
  have hother := acknowledge_chan_other s
  have hacked : Streaming s.lastDone (acknowledge s) := by
    simpa [Streaming, hnamed, hother] using ⟨hbusy, hidle, hdone⟩
  have hposted : SameChain (acknowledge s) t := post_sameChain _ _ t (streaming_otherIdle hacked) h
  obtain ⟨hinv, hdesc⟩ := keepsChain_of_sameChain (chainInv_of_streaming (by simpa using hrun) hacked) hposted
  exact ⟨hinv, hdesc.trans (acknowledge_mDesc s)⟩

/-! Turns and steps. -/

/-- A step taken where it is enabled keeps the chain, if what it does keeps it: a step that waits or passes does. -/
theorem whenEnabled_keepsChain (enabled : Bool) (s t : State) (a : Attempt State) (hs : ChainInv s)
    (ha : ∀ u, enabled = true → a = .ok u → KeepsChain s u) (h : whenEnabled enabled s a = .next t) :
    KeepsChain s t := by
  rcases (whenEnabled_next _ _ _ _).1 h with ⟨henabled, h⟩ | ⟨_, rfl⟩
  · rcases (finish_next _ _ _).1 h with h | ⟨_, rfl⟩
    · exact ha t henabled h
    · exact ⟨hs, rfl⟩
  · exact ⟨hs, rfl⟩

/-- Every turn but a reset keeps the chain; a completion's does where every earlier one is served. -/
theorem takeTurn_keepsChain (turn : Turn) (s t : State) (hs : ChainInv s) (hreset : turn ≠ .reset)
    (hrt : ∀ ch, turn = .dmaComplete ch → dmaCompleteEnabled ch s = true → irqDma s = false)
    (h : takeTurn turn s = .next t) : KeepsChain s t := by
  cases turn with
  | request ctx w pl => exact requestTurn_keepsChain ctx w pl s t hs h
  | dmaXfer ch =>
    exact whenEnabled_keepsChain _ s t _ hs (fun u _ hu => keepsChain_of_sameChain hs (dmaXfer_sameChain ch s u hu)) h
  | dmaComplete ch =>
    exact whenEnabled_keepsChain _ s t _ hs (fun u he hu => dmaComplete_keepsChain ch s u hs he (hrt ch rfl he) hu) h
  | handler => exact whenEnabled_keepsChain _ s t _ hs (fun u he hu => handler_keepsChain s u hs he hu) h
  | serPop => exact keepsChain_of_sameChain hs (serPopTurn_sameChain s t h)
  | audTick => cases h; exact keepsChain_of_sameChain hs (audTick_sameChain s)
  | audIsr =>
    exact whenEnabled_keepsChain _ s t _ hs (fun u _ hu => keepsChain_of_sameChain hs (audIsr_sameChain s u hu)) h
  | reset => exact absurd rfl hreset

/-- Settles O55: an idle step changes nothing of the chain, and a turn that keeps RT keeps it in order. -/
theorem realTimeOrderKeepsChain : Obligations.RealTimeOrderKeepsChain := by
  intro s s' hs hrt hreset hstep
  obtain ⟨_, ⟨_, rfl⟩ | ⟨turn, hturn, ht⟩⟩ := (step_next s s').1 hstep
  · exact ⟨hs, rfl⟩
  · have hturnReset : turn ≠ .reset := fun h => hreset (hturn.trans (congrArg some h))
    have hturnRT : ∀ ch, turn = .dmaComplete ch → dmaCompleteEnabled ch s = true → irqDma s = false :=
      fun ch h => hrt ch (hturn.trans (congrArg some h))
    exact takeTurn_keepsChain turn { beginStep s with inbox := s.inbox.tail } s' hs hturnReset hturnRT ht

end Sys2Proof.Machine
end
